-- ==== Sys2Proof/Word.lean ====
section
/-! DEFINITION. The plainest values of the FS-416: bytes, 16-bit and 32-bit fields, and the byte order of every
field that crosses a link (00_scope.md, "Byte order"; R186: least significant byte first). -/

namespace Sys2Proof

/-- One byte of a lane, of a payload or of the pixel store. -/
abbrev Byte := BitVec 8

/-- A canvas handle: slot number in the low byte, generation in the high byte (R2). -/
abbrev Handle := BitVec 16

/-- A request id, chosen by the host (R182). -/
abbrev ReqId := BitVec 16

/-- A pixel, colour or fill value as a request carries it: a 32-bit field (R4). -/
abbrev Colour := BitVec 32

/-- One byte field. -/
def enc8 (n : Nat) : List Byte := [BitVec.ofNat 8 n]

/-- A two-byte field, least significant byte first (R186). -/
def enc16 (n : Nat) : List Byte := [BitVec.ofNat 8 n, BitVec.ofNat 8 (n / 256)]

/-- A four-byte field, least significant byte first (R186). -/
def enc32 (n : Nat) : List Byte :=
  [BitVec.ofNat 8 n, BitVec.ofNat 8 (n / 256), BitVec.ofNat 8 (n / 65536), BitVec.ofNat 8 (n / 16777216)]

/-- The code of a two-valued field. -/
def encBool (b : Bool) : List Byte := [if b then 1 else 0]

end Sys2Proof
end

