-- ==== Sys2Proof/Syntax.lean ====
section
/-! DEFINITION. The commands the FS-416 takes: one constructor for each row of spec/opcode_table.json.
The rows of the request kinds name only the port: the request itself is the oldest frame of that port's inbound buffer
(R181). The frame rows carry the bytes that have arrived on the port's lane (R162, R163). -/

namespace Sys2Proof

/-- The four link ports (00_scope.md); P0 is the supervisor port (R149). -/
inductive Port where
  | p0 | p1 | p2 | p3
  deriving DecidableEq, Repr

/-- The number of a port (R186: 0 to 3 for P0 to P3). -/
def Port.num : Port → Nat
  | .p0 => 0
  | .p1 => 1
  | .p2 => 2
  | .p3 => 3

/-- The port a number names; none above 3 (R186). -/
def Port.ofNum : Nat → Option Port
  | 0 => some .p0
  | 1 => some .p1
  | 2 => some .p2
  | 3 => some .p3
  | _ => none

/-- The port after this one, P0 following P3 (R92, R103). -/
def Port.after : Port → Port
  | .p0 => .p1
  | .p1 => .p2
  | .p2 => .p3
  | .p3 => .p0

/-- The ports in the order that begins after `p` and ends with `p` (R92, R103). -/
def Port.roundAfter (p : Port) : List Port :=
  [p.after, p.after.after, p.after.after.after, p]

/-- All ports in ascending order. -/
def Port.all : List Port := [.p0, .p1, .p2, .p3]

/-- The commands, in the order of the table. -/
inductive Instr where
  /-- POWER_ON (R161). -/
  | powerOn
  /-- RESET_PIN_ASSERT (R161). -/
  | resetPinAssert
  /-- RESET_PIN_RELEASE (R161). -/
  | resetPinRelease
  /-- FRAME_LENGTH_ERROR (R163): `bytes` arrived on `p`'s lane. -/
  | frameLengthError (p : Port) (bytes : List Byte)
  /-- CRC_ERROR (R164). -/
  | crcError (p : Port) (bytes : List Byte)
  /-- UNKNOWN_CLASS_FRAME (R165). -/
  | unknownClassFrame (p : Port) (bytes : List Byte)
  /-- REQ_DAT_FRAME_RECEIVED (R167). -/
  | reqDatFrameReceived (p : Port) (bytes : List Byte)
  /-- ACK_FRAME_RECEIVED (R170). -/
  | ackFrameReceived (p : Port) (bytes : List Byte)
  /-- HELLO_FRAME_RECEIVED (R176). -/
  | helloFrameReceived (p : Port) (bytes : List Byte)
  /-- FRAME_TRANSMIT (R173). -/
  | frameTransmit (p : Port)
  /-- RESEND_TIMER_EXPIRY (R174). -/
  | resendTimerExpiry (p : Port)
  /-- HELLO_FRESH (R150): the stream of `p` processes a HELLO that does not ask RESUME. -/
  | helloFresh (p : Port)
  /-- HELLO_RESUME (R178): the stream of `p` processes a HELLO that asks RESUME. -/
  | helloResume (p : Port)
  /-- UNKNOWN_KIND (R182). -/
  | unknownKind (p : Port)
  /-- PORT_SET_ENABLE (R153). -/
  | portSetEnable (p : Port)
  /-- PORT_SET_DISABLE (R153). -/
  | portSetDisable (p : Port)
  /-- CONFIG (R154). -/
  | config (p : Port)
  /-- RESET_PORT (R156): the stream of `p` processes a RESET-PORT. -/
  | resetPort (p : Port)
  /-- PORT_RESET_COMPLETE (R158): the reset of `p` completes. -/
  | portResetComplete (p : Port)
  /-- RESET_DEVICE (R160): the stream of `p` processes a RESET-DEVICE. -/
  | resetDevice (p : Port)
  /-- OPEN (R14). -/
  | openCanvas (p : Port)
  /-- CLOSE (R49). -/
  | closeCanvas (p : Port)
  /-- QUERY (R17). -/
  | query (p : Port)
  /-- LIST (R18). -/
  | list (p : Port)
  /-- GRANT (R40). -/
  | grant (p : Port)
  /-- REVOKE (R41). -/
  | revoke (p : Port)
  /-- SUBMIT (R66). -/
  | submit (p : Port)
  /-- CANCEL (R84). -/
  | cancel (p : Port)
  /-- HALT (R80). -/
  | halt (p : Port)
  /-- RESUME (R82). -/
  | resume (p : Port)
  /-- STATUS (R144). -/
  | status (p : Port)
  /-- FAULT_READ (R136). -/
  | faultRead (p : Port)
  /-- FAULT_ACK (R137). -/
  | faultAck (p : Port)
  /-- ATTN_CLEAR (R143). -/
  | attnClear (p : Port)
  /-- DAT_FRAME (R120). -/
  | datFrame (p : Port)
  /-- JOB_DISPATCH (R72). -/
  | jobDispatch (p : Port)
  /-- CLAIM_GRANT (R91). -/
  | claimGrant (p : Port)
  /-- WAIT_TIMER_EXPIRY (R75). -/
  | waitTimerExpiry (p : Port)
  /-- SPAN_BEGIN (R103). -/
  | spanBegin
  /-- STORE_ACCESS_BEGIN (R26). -/
  | storeAccessBegin
  /-- SPAN_COMPLETE (R105): `corrected` are the words whose single flipped bit the read phase corrected (R22). -/
  | spanComplete (corrected : List Nat)
  /-- SPAN_UNCORRECTABLE (R106): `word` is a word in which the read phase finds two flipped bits (R22, R24). -/
  | spanUncorrectable (word : Nat)
  /-- DATA_TIMEOUT_EXPIRY (R126). -/
  | dataTimeoutExpiry (p : Port)
  /-- READ_STALL_EXPIRY (R126). -/
  | readStallExpiry (p : Port)
  /-- JOB_END (R77). -/
  | jobEnd (p : Port)
  /-- ATTENTION_FRAME_PLACED (R141). -/
  | attentionFramePlaced (p : Port)
  /-- REVOKE_DEADLINE_EXPIRY (R44): of the grant to `p` on the canvas in `slot`. -/
  | revokeDeadlineExpiry (slot : Nat) (p : Port)
  /-- CLOSE_DEADLINE_EXPIRY (R52): of the close of the canvas in `slot`. -/
  | closeDeadlineExpiry (slot : Nat)
  /-- REVOKE_END (R45). -/
  | revokeEnd (slot : Nat) (p : Port)
  /-- CLOSE_END (R53). -/
  | closeEnd (slot : Nat)
  /-- BLOCK_CLEARED (R34). -/
  | blockCleared
  deriving DecidableEq, Repr

end Sys2Proof
end

