-- ==== Sys2Proof/Decode.lean ====
section
/-! DEFINITION. The command a word spells. No row of spec/opcode_table.json gives bits (every row's "fields" is empty
and none has "fixed"): the FS-416 is told what to do by frames and events, not by instruction words. So no word spells
a command. -/

namespace Sys2Proof

/-- The command that the `nbits` bits of `w` spell by the table's bits: none, since the table gives none. -/
def decodeTableWord (_nbits _w : Nat) : Option Instr := none

end Sys2Proof
end

