-- ==== Sys2Proof/Config.lean ====
section
/-! DEFINITION. What the FS-416 fixes once: the figures of 00_scope.md ("Figures that hold throughout"), and the FREE
VALUES, which the spec leaves open. A free value is an opaque constant: nothing can be proved of it. -/

namespace Sys2Proof.Config

/-- Bytes of the pixel store (R21). -/
def storeBytes : Nat := 16777216
/-- Blocks of the pixel store (R21). -/
def blocks : Nat := 4096
/-- Bytes of one block (R21). -/
def blockBytes : Nat := 4096
/-- Words of one block (R21). -/
def blockWords : Nat := 512
/-- Greatest payload length of a frame (R162, R163). -/
def maxPayload : Nat := 1040
/-- The byte a lane carries between frames, the idle fill (R162). -/
def idleFill : BitVec 8 := 0x4B
/-- Frames the inbound buffer holds (R166). -/
def inboundFrames : Nat := 4
/-- Slots of the outbound list (R172). -/
def outboundSlots : Nat := 8
/-- Entries of a job queue (R71). -/
def queueEntries : Nat := 16
/-- Bytes of a staging buffer (R117). -/
def stagingBytes : Nat := 4096
/-- Records of the fault log (R130). -/
def faultRecords : Nat := 12
/-- The part code of the HELLO reply (R150). -/
def partCode : Nat := 0x0416
/-- The silicon revision of the parts the manual describes (section 10.5). -/
def siliconRevision : Nat := 0x01
/-- Default block quota (R147). -/
def defaultBlockQuota : Nat := 1024
/-- Default canvas quota (R147). -/
def defaultCanvasQuota : Nat := 64

/-- FREE VALUE: the byte at a store address that nothing has written since the contents became unspecified for the
`n`th time (R27: power-on and the reset pin leave the contents of the store unspecified). Log 7. -/
opaque unspecifiedByte (n address : Nat) : BitVec 8

/-- FREE VALUE: the error-correcting code, 8 check bits computed over the 64 data bits of a word (R22, which names no
code). Log 8. -/
opaque checkCode (data : BitVec 64) : BitVec 8

/-- FREE VALUE: the check bits of a word that nothing has written since the contents became unspecified for the `n`th time
(R27: the contents are unspecified, "the check bits included"). Log 7. -/
opaque unspecifiedCheck (n word : Nat) : BitVec 8

/-- FREE VALUE: whether the `n`th RESET-DEVICE found the word already written with its new contents when it abandoned
the access that was to write it (R27: "either its old contents or its new contents"). Log 9. -/
opaque abandonedWritten (n word : Nat) : Bool

/-- FREE VALUE: whether a word that the `n`th RESET-DEVICE left with its old contents is good afterwards
(R27: "good or as it was before"). Log 9. -/
opaque abandonedGood (n word : Nat) : Bool

/-- FREE VALUE: the level of a port's LINK-ACTIVE line, given the code of the port's state (R186) and whether its
outbound lane carries a frame (00_scope.md gives the line and no rule for its level). Log 18. -/
opaque linkActiveLevel (portStateCode : Nat) (laneBusy : Bool) : Bool

end Sys2Proof.Config
end

