-- ==== Sys2Proof/Machine/State.lean ====
section
/-! DEFINITION. Every piece of state the spec gives the FS-416, as plain data, the reasons a step can stop, and the
state after reset. One home for each item: INVENTORY.md, "State", lists them with their rules. -/

namespace Sys2Proof.Machine

/-- Why the machine stops. -/
inductive Fault where
  /-- Raised by the store accesses (SPAN_COMPLETE, SPAN_UNCORRECTABLE, BLOCK_CLEARED) when the access names a byte
  outside the 16 MiB of the pixel store, an address the spec says does not exist (R21). Safe: the model stops where the
  spec gives no behaviour. No canvas lies outside the store (R28), so a run from reset never meets it. Log 20. -/
  | storeAddressOutside
  deriving DecidableEq, Repr

/-- Why a command has no meaning. -/
inductive Refusal where
  /-- Raised by an arm of `exec` whose command has no meaning yet. Safe. No arm raises it. -/
  | notModelled (mnemonic : String)
  deriving DecidableEq, Repr

/-! ### Four of a kind, one for each port -/

/-- One value for each of the four ports. -/
structure Quad (α : Type) where
  p0 : α
  p1 : α
  p2 : α
  p3 : α
  deriving DecidableEq, Repr

/-- The value of port `p`. -/
def Quad.get {α : Type} (q : Quad α) : Port → α
  | .p0 => q.p0
  | .p1 => q.p1
  | .p2 => q.p2
  | .p3 => q.p3

/-- The same values, but `x` for port `p`. -/
def Quad.set {α : Type} (q : Quad α) (p : Port) (x : α) : Quad α :=
  match p with
  | .p0 => { q with p0 := x }
  | .p1 => { q with p1 := x }
  | .p2 => { q with p2 := x }
  | .p3 => { q with p3 := x }

/-- The function applied to all four. -/
def Quad.map {α β : Type} (f : α → β) (q : Quad α) : Quad β := ⟨f q.p0, f q.p1, f q.p2, f q.p3⟩

/-- The same value for all four ports. -/
def Quad.all {α : Type} (x : α) : Quad α := ⟨x, x, x, x⟩

/-! ### Names with a fixed set of values -/

/-- Pixel formats (R4). -/
inductive Format where
  | m1 | i8 | c16 | c32
  deriving DecidableEq, Repr

/-- Rights of a grant (R37). -/
inductive Rights where
  | r | rw
  deriving DecidableEq, Repr

/-- The four kinds of job fault (R131). -/
inductive FaultKind where
  | storeEcc | dataTimeout | readStall | waitTimeout
  deriving DecidableEq, Repr

/-- The six kinds of job (R63). -/
inductive JobKind where
  | fill | move | expand | write | read | mark
  deriving DecidableEq, Repr

/-- How a job ended (R78, R86). -/
inductive JobStatus where
  | done | faulted | cancelled | gone
  deriving DecidableEq, Repr

/-- The six attention flags (R139). -/
inductive Flag where
  | fault | logFull | grantLost | canvasLost | halted | dataRejected
  deriving DecidableEq, Repr

/-- Run states of a job queue (R80). -/
inductive RunState where
  | run | halting | halted | resetting
  deriving DecidableEq, Repr

/-- Reasons of a NAK (R165). -/
inductive NakReason where
  | crc | order | busy | sync
  deriving DecidableEq, Repr

/-- Classes of frame the host sends into the inbound buffer (R165). -/
inductive InClass where
  | req | dat
  deriving DecidableEq, Repr

/-- Classes of frame that stand in an outbound list (R165, R172). -/
inductive OutClass where
  | rep | dat | ntc | atn
  deriving DecidableEq, Repr

/-- The two requesters of the store (R26). -/
inductive Requester where
  | engine | clearUnit
  deriving DecidableEq, Repr

/-! ### Link port (R166) -/

/-- A frame taken from the host and not yet processed (R166). -/
structure InFrame where
  cls : InClass
  payload : List Byte
  deriving DecidableEq, Repr

/-- A frame in a used slot of the outbound list (R172). -/
structure OutFrame where
  cls : OutClass
  seq : BitVec 8
  payload : List Byte
  deriving DecidableEq, Repr

/-- A frame on an outbound lane, with the header it goes out with (R162, R171). -/
structure WireFrame where
  cls : Byte
  seq : BitVec 8
  ack : BitVec 8
  payload : List Byte
  deriving DecidableEq, Repr

/-- A pending NAK (R166). -/
structure Nak where
  reason : NakReason
  seq : BitVec 8
  deriving DecidableEq, Repr

/-- A pending HELLO RESUME reply (R178): its sequence field and payload. -/
structure HelloReply where
  seq : BitVec 8
  payload : List Byte
  deriving DecidableEq, Repr

/-- The state of a link port (R163, R166, R173). -/
structure Link where
  /-- The receiver: empty while hunting, else the bytes from the start byte on (R163). -/
  rx : List Byte
  expected : BitVec 8
  nextOut : BitVec 8
  inbound : List InFrame
  used : List OutFrame
  reserved : Nat
  transmitPoint : Option (BitVec 8)
  sentCount : Nat
  resendTimer : Option Nat
  retransmits : Nat
  ackOwed : Bool
  nak : Option Nak
  helloReply : Option HelloReply
  lane : Option WireFrame
  deriving DecidableEq, Repr

/-! ### Request unit and port supervisor -/

/-- A deferred entry of a stream (R184): request kind and request id. -/
structure Deferred where
  kind : Byte
  id : ReqId
  deriving DecidableEq, Repr

/-- The final state of a port reset (R156). -/
inductive FinalState where
  | up | unsynced | disabled
  deriving DecidableEq, Repr

/-- The port reset operation in course (R156). -/
structure ResetOp where
  final : FinalState
  /-- P0's RESET-PORT and PORT-SET requests awaiting the completion, oldest first. -/
  requesters : List ReqId
  hello : Option ReqId
  /-- Held quotas: blocks and canvases. -/
  quotas : Option (Nat × Nat)
  queueStopped : Bool
  deriving DecidableEq, Repr

/-- Port states (R147, R148); the reset operation exists exactly while RESETTING. -/
inductive PortState where
  | disabled
  | unsynced
  | up
  | lost
  | resetting (op : ResetOp)
  deriving DecidableEq, Repr

/-- One value for each fault kind (R134). -/
structure PerFault (α : Type) where
  storeEcc : α
  dataTimeout : α
  readStall : α
  waitTimeout : α
  deriving DecidableEq, Repr

/-- The configuration of a port (R154), but for the attention mask, which the attention unit holds. -/
structure PortConfig where
  dataTimeout : Nat
  readStall : Nat
  waitTimeout : Nat
  resendInterval : Nat
  retransmitLimit : Nat
  /-- The severity is HALT (true) or END (false). -/
  severityHalt : PerFault Bool
  quiet : PerFault Bool
  deriving DecidableEq, Repr

/-! ### Jobs and queues (R63, R64, R71) -/

/-- A rectangle: its top-left pixel, width and height (00_scope.md). -/
structure Rect where
  x : Nat
  y : Nat
  w : Nat
  h : Nat
  deriving DecidableEq, Repr

/-- A job as SUBMIT gives it (R63). -/
inductive Job where
  | fill (dst : Handle) (rect : Rect) (colour : Colour) (rop : Nat)
  | move (src : Handle) (sx sy : Nat) (dst : Handle) (rect : Rect) (rop : Nat) (key : Option Colour)
  | expand (src : Handle) (sx sy : Nat) (dst : Handle) (rect : Rect) (fg : Colour) (bg : Option Colour) (rop : Nat)
  | write (dst : Handle) (rect : Rect)
  | read (src : Handle) (rect : Rect)
  | mark (tag : BitVec 32)
  deriving DecidableEq, Repr

/-- Why a job was asked to stop (R64), in any combination. -/
structure StopCauses where
  cancel : Bool
  cut : Bool
  reset : Bool
  deriving DecidableEq, Repr

/-- State of a job entry (R64): the cut mark belongs to QUEUED, the wait timer to WAITING, the stop causes to ACTIVE. -/
inductive EntryState where
  | queued (cut : Bool)
  | waiting (left : Nat)
  | active (causes : StopCauses)
  deriving DecidableEq, Repr

/-- A job entry (R64). -/
structure Entry where
  seq : Nat
  job : Job
  notify : Bool
  state : EntryState
  /-- The handles on which the entry holds a pin. -/
  pins : List Handle
  /-- Bytes received; 0 unless the job is a WRITE. -/
  received : Nat
  deriving DecidableEq, Repr

/-- What a job fault hands to the fault log (R131). -/
structure FaultDetail where
  kind : FaultKind
  handle : Handle
  position : Option (Nat × Nat)
  block : Option Nat
  deriving DecidableEq, Repr

/-- How the span a stopped job stopped after ended (R112). -/
inductive StopHow where
  | noSpan
  | last
  | notLast
  | uncorrectable (d : FaultDetail)
  deriving DecidableEq, Repr

/-- What the engine reports to a job queue (R76, R126). -/
inductive Report where
  | finished
  | uncorrectable (d : FaultDetail)
  | timedOut (d : FaultDetail)
  | stopped (how : StopHow)
  deriving DecidableEq, Repr

/-- A CANCEL whose reply waits for the ACTIVE job (R85), with the entries it removed, in queue order (R84). -/
structure CancelWaiter where
  id : ReqId
  removed : List Nat
  deriving DecidableEq, Repr

/-- A job queue (R71). -/
structure JobQueue where
  entries : List Entry
  run : RunState
  nextSeq : Nat
  haltWaiters : List ReqId
  cancelWaiters : List CancelWaiter
  report : Option Report
  deriving DecidableEq, Repr

/-! ### Claims and the engine (R89, R100) -/

/-- A claim of the port it is kept under (R89). -/
structure Claim where
  slot : Nat
  rect : Rect
  write : Bool
  deriving DecidableEq, Repr

/-- The canvas fields copied into an engine record (R100). -/
structure Geo where
  handle : Handle
  firstBlock : Nat
  blockCount : Nat
  pitch : Nat
  width : Nat
  format : Format
  deriving DecidableEq, Repr

/-- The engine's record of an ACTIVE job (R100), with its stream timer (R124, R125). -/
structure EngineRecord where
  seq : Nat
  job : Job
  src : Option Geo
  dst : Option Geo
  /-- Rows go bottom to top (R97). -/
  upward : Bool
  /-- Spans of a row go right to left (R97). -/
  leftward : Bool
  row : Nat
  col : Nat
  stopMark : Bool
  /-- The stream timer's time left; present for a WRITE and a READ. -/
  timer : Option Nat
  /-- A slot is reserved for the DAT frame of the READ span in progress. -/
  spanSlot : Bool
  deriving DecidableEq, Repr

/-- The span in progress (R100): whose job it belongs to, and the bytes a WRITE span drew at its begin (R104). -/
structure Span where
  port : Port
  data : List Byte
  deriving DecidableEq, Repr

/-- The engine's own state (R100). -/
structure Engine where
  span : Option Span
  lastServed : Port
  deriving DecidableEq, Repr

/-! ### Staging buffer, attention unit (R117, R139) -/

/-- A staging buffer (R117). -/
structure Staging where
  served : Option Nat
  held : List Byte
  promised : Nat
  /-- Job sequence and offset of the last rejected frame. -/
  lastRejected : Option (Nat × Nat)
  deriving DecidableEq, Repr

/-- One Boolean for each attention flag. -/
structure FlagSet where
  fault : Bool
  logFull : Bool
  grantLost : Bool
  canvasLost : Bool
  halted : Bool
  dataRejected : Bool
  deriving DecidableEq, Repr

/-- An attention unit (R139). -/
structure Attention where
  flags : FlagSet
  mask : FlagSet
  outstanding : Bool
  due : Bool
  deriving DecidableEq, Repr

/-! ### All that belongs to one port -/

/-- Everything the part keeps for one port. -/
structure PortBlock where
  portState : PortState
  blockQuota : Nat
  canvasQuota : Nat
  config : PortConfig
  blocksHeld : Nat
  canvasesHeld : Nat
  link : Link
  deferred : List Deferred
  queue : JobQueue
  claims : List Claim
  request : Option (List Claim)
  record : Option EngineRecord
  staging : Staging
  attn : Attention
  deriving DecidableEq, Repr

/-! ### The canvas table (R1, R37, R50) -/

/-- A request awaiting the end of an operation: its port and request id. -/
structure Waiter where
  port : Port
  id : ReqId
  deriving DecidableEq, Repr

/-- How a revoke or a close waits; the deadline's time left exists with DRAIN only (R37, R50). -/
inductive WaitMode where
  | drain (left : Nat)
  | cut
  deriving DecidableEq, Repr

/-- A revoke in course (R37). -/
structure RevokeOp where
  mode : WaitMode
  waiters : List Waiter
  granteeReset : Bool
  deriving DecidableEq, Repr

/-- A grant record (R37): ACTIVE when `revoke` is absent, REVOKING when present. -/
structure Grant where
  port : Port
  rights : Rights
  pins : Nat
  revoke : Option RevokeOp
  deriving DecidableEq, Repr

/-- A close in course (R50). -/
structure CloseOp where
  mode : WaitMode
  waiters : List Waiter
  forced : Bool
  reset : Bool
  deriving DecidableEq, Repr

/-- The state of a slot that is not FREE (R1, R6), with what is present in that state only. -/
inductive Phase where
  | clearing (opener : Waiter)
  | live
  | closing (op : CloseOp)
  deriving DecidableEq, Repr

/-- A canvas record, present in all states but FREE (R1). -/
structure Canvas where
  owner : Port
  format : Format
  width : Nat
  height : Nat
  pitch : Nat
  firstBlock : Nat
  blockCount : Nat
  tag : BitVec 32
  fill : Colour
  ownerPins : Nat
  grants : List Grant
  phase : Phase
  deriving DecidableEq, Repr

/-- A slot of the canvas table (R1): FREE when no canvas is present. -/
structure Slot where
  generation : BitVec 8
  canvas : Option Canvas
  deriving DecidableEq, Repr

/-! ### Store and clear unit (R21, R22, R26, R32) -/

/-- What is known of a word that is not good (R22): one flipped bit is correctable, two are uncorrectable. The spec gives no
case for three or more, and the model has none (DESIGN CHOICE, log 8). -/
inductive WordCondition where
  | correctable
  | uncorrectable
  deriving DecidableEq, Repr

/-- The pixel store: the data and the check bits as they were last written, and the words found not good since. -/
structure Store where
  /-- The bytes written since the contents became unspecified, addresses strictly rising. -/
  cells : List Host.Cell
  /-- The 8 check bits of each word written since the contents became unspecified (R22), word numbers strictly rising. -/
  checks : List (Nat × BitVec 8)
  /-- The words found with flipped bits and not written since, word numbers strictly rising. -/
  flips : List (Nat × WordCondition)
  /-- How often the contents became unspecified; the model's own, argument of `Config.unspecifiedByte`
  and `Config.unspecifiedCheck`. -/
  powerUps : Nat
  deriving DecidableEq, Repr

/-- The access the store controller carries out (R23, R25). -/
inductive Access where
  | span
  | block (block : Nat) (format : Format) (fill : Colour)
  deriving DecidableEq, Repr

/-- The store arbiter (R26). -/
structure Arbiter where
  serving : Option Access
  lastServed : Requester
  deriving DecidableEq, Repr

/-- The clear list and the clear unit (R32). -/
structure ClearUnit where
  list : List Nat
  clearedSoFar : Nat
  removalPending : Bool
  deriving DecidableEq, Repr

/-! ### Fault log (R130) -/

/-- A PENDING fault record (R130). -/
structure FaultRecord where
  serial : Nat
  port : Port
  jobSeq : Nat
  jobKind : JobKind
  detail : FaultDetail
  deriving DecidableEq, Repr

/-- The fault log (R130); a record that is `none` is FREE. -/
structure FaultLog where
  records : Vector (Option FaultRecord) 12
  serial : Nat
  arrival : List Nat
  deriving DecidableEq, Repr

/-! ### The whole part -/

/-- The state of the FS-416. -/
structure State where
  /-- The reset pin is asserted (R161). -/
  resetPin : Bool
  ports : Quad PortBlock
  slots : Vector Slot 255
  /-- The free block map: bit `b` is set when block `b` is allocated (R28). -/
  allocated : BitVec 4096
  clear : ClearUnit
  store : Store
  arbiter : Arbiter
  engine : Engine
  faultLog : FaultLog
  /-- Number of device resets taken; the model's own, argument of the free values of R27. -/
  deviceResets : Nat
  /-- The commands that are waiting, first in, first out. -/
  pending : List Instr
  deriving DecidableEq, Repr

/-! ### Access by port -/

/-- The block of port `p`. -/
def State.port (s : State) (p : Port) : PortBlock := s.ports.get p

/-- `s` with `b` as the block of port `p`. -/
def State.setPort (s : State) (p : Port) (b : PortBlock) : State := { s with ports := s.ports.set p b }

/-- `s` with `f` applied to the block of port `p`. -/
def State.modPort (s : State) (p : Port) (f : PortBlock → PortBlock) : State := s.setPort p (f (s.port p))

/-! ### Reset values -/

/-- No flag (R146). -/
def FlagSet.empty : FlagSet := ⟨false, false, false, false, false, false⟩

/-- The defaults of R154. -/
def PortConfig.default : PortConfig where
  dataTimeout := 50
  readStall := 50
  waitTimeout := 200
  resendInterval := 10
  retransmitLimit := 8
  severityHalt := ⟨true, true, true, false⟩
  quiet := ⟨false, false, false, false⟩

/-- R180. -/
def Link.reset : Link where
  rx := []
  expected := 0
  nextOut := 0
  inbound := []
  used := []
  reserved := 0
  transmitPoint := none
  sentCount := 0
  resendTimer := none
  retransmits := 0
  ackOwed := false
  nak := none
  helloReply := none
  lane := none

/-- R88. -/
def JobQueue.reset : JobQueue where
  entries := []
  run := .run
  nextSeq := 1
  haltWaiters := []
  cancelWaiters := []
  report := none

/-- R129. -/
def Staging.reset : Staging := ⟨none, [], 0, none⟩

/-- R146. -/
def Attention.reset : Attention := ⟨.empty, .empty, false, false⟩

/-- R147 with the reset values of the other blocks of a port. -/
def PortBlock.reset : PortBlock where
  portState := .unsynced
  blockQuota := Config.defaultBlockQuota
  canvasQuota := Config.defaultCanvasQuota
  config := .default
  blocksHeld := 0
  canvasesHeld := 0
  link := .reset
  deferred := []
  queue := .reset
  claims := []
  request := none
  record := none
  staging := .reset
  attn := .reset

/-- R36. -/
def ClearUnit.reset : ClearUnit := ⟨[], 0, false⟩

/-- R26. -/
def Arbiter.reset : Arbiter := ⟨none, .clearUnit⟩

/-- R115. -/
def Engine.reset : Engine := ⟨none, .p3⟩

/-- R138. -/
def FaultLog.reset : FaultLog := ⟨Vector.replicate 12 none, 0, []⟩

/-- The machine after power-on or the reset pin, released: R19, R27, R31, R36, R62, R88, R95, R115, R129, R138, R146,
R147, R161, R180. The queue of commands is empty; the counters of the free values are 0 (logs 7 and 9). -/
def State.reset : State where
  resetPin := false
  ports := .all .reset
  slots := Vector.replicate 255 ⟨1, none⟩
  allocated := 0
  clear := .reset
  store := ⟨[], [], [], 0⟩
  arbiter := .reset
  engine := .reset
  faultLog := .reset
  deviceResets := 0
  pending := []

end Sys2Proof.Machine
end

