-- ==== Sys2Proof/Machine/Operands.lean ====
section
/-! DEFINITION. The fields of requests, replies and records (chapter 10), the codes of R186, handles (R2), the pixel
formats and the sizes they give (R4, R5), and the reading of job descriptors (section 10.6). -/

namespace Sys2Proof.Machine

/-! ### Fields of a payload (R186) -/

/-- The byte at an offset of a payload; 0 beyond its end. -/
def byteAt (payload : List Byte) (i : Nat) : Byte := payload.getD i 0

/-- A one-byte field as a number. -/
def num8 (payload : List Byte) (i : Nat) : Nat := (byteAt payload i).toNat

/-- A two-byte field as a number, least significant byte first (R186). -/
def num16 (payload : List Byte) (i : Nat) : Nat := num8 payload i + 256 * num8 payload (i + 1)

/-- A four-byte field as a number, least significant byte first (R186). -/
def num32 (payload : List Byte) (i : Nat) : Nat := num16 payload i + 65536 * num16 payload (i + 2)

/-- The request id of a REQ payload (section 10.4). -/
def reqId (payload : List Byte) : ReqId := BitVec.ofNat 16 (num16 payload 2)

/-! ### Codes (R185, R186, 10.5) -/

/-- The statuses of a reply: OK and the refusal reasons (R185). -/
inductive Status where
  | ok | malformed | unknownKind | notSupervisor | badHandle | notOwner | noRight | noGrant | closing
  | format | bounds | noSpace | quota | queueFull | noJob | inUse | busy
  deriving DecidableEq, Repr

/-- R185. -/
def Status.code : Status → Nat
  | .ok => 0x00
  | .malformed => 0x01
  | .unknownKind => 0x02
  | .notSupervisor => 0x03
  | .badHandle => 0x04
  | .notOwner => 0x05
  | .noRight => 0x06
  | .noGrant => 0x07
  | .closing => 0x08
  | .format => 0x09
  | .bounds => 0x0A
  | .noSpace => 0x0B
  | .quota => 0x0C
  | .queueFull => 0x0D
  | .noJob => 0x0E
  | .inUse => 0x0F
  | .busy => 0x10

/-- The nineteen request kinds (10.5). -/
inductive ReqKind where
  | hello | portSet | config | resetPort | resetDevice | openCanvas | closeCanvas | query | list | grant | revoke
  | submit | cancel | halt | resume | status | faultRead | faultAck | attnClear
  deriving DecidableEq, Repr

/-- 10.5. -/
def ReqKind.code : ReqKind → Nat
  | .hello => 0x01
  | .portSet => 0x02
  | .config => 0x03
  | .resetPort => 0x04
  | .resetDevice => 0x05
  | .openCanvas => 0x10
  | .closeCanvas => 0x11
  | .query => 0x12
  | .list => 0x13
  | .grant => 0x14
  | .revoke => 0x15
  | .submit => 0x20
  | .cancel => 0x21
  | .halt => 0x22
  | .resume => 0x23
  | .status => 0x30
  | .faultRead => 0x31
  | .faultAck => 0x32
  | .attnClear => 0x33

/-- All request kinds. -/
def ReqKind.all : List ReqKind :=
  [.hello, .portSet, .config, .resetPort, .resetDevice, .openCanvas, .closeCanvas, .query, .list, .grant, .revoke,
   .submit, .cancel, .halt, .resume, .status, .faultRead, .faultAck, .attnClear]

/-- The request kind a code names; none outside the table of 10.5 (R182). -/
def ReqKind.ofCode (n : Nat) : Option ReqKind := ReqKind.all.find? fun k => k.code == n

/-- The payload lengths the table of 10.5 allows for a kind (R182, check 3); those of CONFIG, SUBMIT and FAULT-ACK are
narrowed further by R187. -/
def ReqKind.lengthOk (k : ReqKind) (n : Nat) : Bool :=
  match k with
  | .hello => n == 6
  | .portSet => n == 10
  | .config => 5 ≤ n && n ≤ 47
  | .resetPort => n == 6
  | .resetDevice => n == 4
  | .openCanvas => n == 10 || n == 14 || n == 18
  | .closeCanvas => n == 10
  | .query => n == 6
  | .list => n == 6
  | .grant => n == 8
  | .revoke => n == 10
  | .submit => 14 ≤ n && n ≤ 118
  | .cancel => n == 6
  | .halt => n == 4
  | .resume => n == 4
  | .status => n == 6
  | .faultRead => n == 6
  | .faultAck => 6 ≤ n && n ≤ 17
  | .attnClear => n == 6

def Format.code : Format → Nat
  | .m1 => 0x01
  | .i8 => 0x02
  | .c16 => 0x03
  | .c32 => 0x04

def Format.ofCode : Nat → Option Format
  | 0x01 => some .m1
  | 0x02 => some .i8
  | 0x03 => some .c16
  | 0x04 => some .c32
  | _ => none

def Rights.code : Rights → Nat
  | .r => 0x01
  | .rw => 0x02

def Rights.ofCode : Nat → Option Rights
  | 0x01 => some .r
  | 0x02 => some .rw
  | _ => none

/-- The mode a CLOSE or REVOKE asks: DRAIN 0x01 or CUT 0x02 (R186); the deadline belongs to DRAIN (R41, R49). -/
def WaitMode.ofCode (code deadline : Nat) : Option WaitMode :=
  match code with
  | 0x01 => some (.drain deadline)
  | 0x02 => some .cut
  | _ => none

/-- The deadline of a DRAIN lies in 1 to 250 ms (R41, R49); a CUT has none. -/
def WaitMode.deadlineOk : WaitMode → Bool
  | .drain left => 1 ≤ left && left ≤ 250
  | .cut => true

/-- The outcome codes of a revoke or close (R186). -/
inductive WaitOutcome where
  | drained | cut | closed | granteeReset
  deriving DecidableEq, Repr

def WaitOutcome.code : WaitOutcome → Nat
  | .drained => 0x01
  | .cut => 0x02
  | .closed => 0x03
  | .granteeReset => 0x04

/-- The outcome a wait mode ends with when nothing overrides it (R45, R53). -/
def WaitMode.outcome : WaitMode → WaitOutcome
  | .drain _ => .drained
  | .cut => .cut

/-- Close mode in QUERY (R186). -/
def WaitMode.code : WaitMode → Nat
  | .drain _ => 0x01
  | .cut => 0x02

def JobKind.code : JobKind → Nat
  | .fill => 0x01
  | .move => 0x02
  | .expand => 0x03
  | .write => 0x04
  | .read => 0x05
  | .mark => 0x06

def JobStatus.code : JobStatus → Nat
  | .done => 0x01
  | .faulted => 0x02
  | .cancelled => 0x03
  | .gone => 0x04

def FaultKind.code : FaultKind → Nat
  | .storeEcc => 0x01
  | .dataTimeout => 0x02
  | .readStall => 0x03
  | .waitTimeout => 0x04

def PortState.code : PortState → Nat
  | .disabled => 0x00
  | .unsynced => 0x01
  | .up => 0x02
  | .lost => 0x03
  | .resetting _ => 0x04

def RunState.code : RunState → Nat
  | .run => 0x00
  | .halting => 0x01
  | .halted => 0x02
  | .resetting => 0x03

def NakReason.code : NakReason → Nat
  | .crc => 0x01
  | .order => 0x02
  | .busy => 0x03
  | .sync => 0x04

/-- The class byte of a frame in the outbound list (R165). -/
def OutClass.code : OutClass → Byte
  | .rep => 0x81
  | .dat => 0x82
  | .ntc => 0x83
  | .atn => 0x84

/-- The value of a setting for one fault kind. -/
def PerFault.get {α : Type} (v : PerFault α) : FaultKind → α
  | .storeEcc => v.storeEcc
  | .dataTimeout => v.dataTimeout
  | .readStall => v.readStall
  | .waitTimeout => v.waitTimeout

def PerFault.set {α : Type} (v : PerFault α) (k : FaultKind) (x : α) : PerFault α :=
  match k with
  | .storeEcc => { v with storeEcc := x }
  | .dataTimeout => { v with dataTimeout := x }
  | .readStall => { v with readStall := x }
  | .waitTimeout => { v with waitTimeout := x }

/-! ### Port states -/

def PortState.isResetting : PortState → Bool
  | .resetting _ => true
  | _ => false

/-- UP or LOST: the states in which a session exists (R148). -/
def PortState.inSession : PortState → Bool
  | .up | .lost => true
  | _ => false

def FinalState.portState : FinalState → PortState
  | .up => .up
  | .unsynced => .unsynced
  | .disabled => .disabled

/-! ### Handles (R2) and formats (R4, R5) -/

/-- The handle of a slot and a generation (R2). -/
def handleOf (slot : Nat) (generation : BitVec 8) : Handle := generation ++ BitVec.ofNat 8 slot

/-- The slot number a handle names (R2). -/
def handleSlot (h : Handle) : Nat := h.toNat % 256

/-- The generation a handle names (R2). -/
def handleGen (h : Handle) : BitVec 8 := BitVec.ofNat 8 (h.toNat / 256)

/-- The generation after this one; 255 advances to 1 (R2). -/
def nextGeneration (g : BitVec 8) : BitVec 8 := if g = 255 then 1 else g + 1

/-- Bits per pixel (R4). -/
def Format.bits : Format → Nat
  | .m1 => 1
  | .i8 => 8
  | .c16 => 16
  | .c32 => 32

/-- The pixels of a value that a format has: its low bits (R4). -/
def Format.truncate (f : Format) (v : Colour) : Colour :=
  match f with
  | .m1 => v &&& 0x1
  | .i8 => v &&& 0xFF
  | .c16 => v &&& 0xFFFF
  | .c32 => v

/-- Bytes of a row of `w` pixels: ceil(w × bits per pixel ÷ 8) (R5, R128). -/
def Format.rowBytes (f : Format) (w : Nat) : Nat := (w * f.bits + 7) / 8

/-- The pitch: the row bytes rounded up to a multiple of 64 (R5). -/
def Format.pitch (f : Format) (w : Nat) : Nat := (f.rowBytes w + 63) / 64 * 64

/-- The block count of a canvas: ceil(pitch × height ÷ 4096) (R5). -/
def Format.blockCount (f : Format) (w h : Nat) : Nat := (f.pitch w * h + 4095) / 4096

/-! ### Jobs (R63) -/

def Job.kind : Job → JobKind
  | .fill .. => .fill
  | .move .. => .move
  | .expand .. => .expand
  | .write .. => .write
  | .read .. => .read
  | .mark .. => .mark

/-- The handle named as source (R63). -/
def Job.src : Job → Option Handle
  | .move src .. => some src
  | .expand src .. => some src
  | .read src .. => some src
  | _ => none

/-- The handle named as destination (R63). -/
def Job.dst : Job → Option Handle
  | .fill dst .. => some dst
  | .move _ _ _ dst .. => some dst
  | .expand _ _ _ dst .. => some dst
  | .write dst .. => some dst
  | _ => none

/-- The rectangle a job's spans run over: the source rectangle of a READ, else the destination rectangle (R96). -/
def Job.rect : Job → Rect
  | .fill _ r .. => r
  | .move _ _ _ _ r .. => r
  | .expand _ _ _ _ r .. => r
  | .write _ r => r
  | .read _ r => r
  | .mark _ => ⟨0, 0, 0, 0⟩

/-- The source rectangle: at the source origin with the size of the destination rectangle (R63). -/
def Job.srcRect : Job → Option Rect
  | .move _ sx sy _ r .. => some ⟨sx, sy, r.w, r.h⟩
  | .expand _ sx sy _ r .. => some ⟨sx, sy, r.w, r.h⟩
  | .read _ r => some r
  | _ => none

/-- The destination rectangle (R63). -/
def Job.dstRect : Job → Option Rect
  | .fill _ r .. => some r
  | .move _ _ _ _ r .. => some r
  | .expand _ _ _ _ r .. => some r
  | .write _ r => some r
  | _ => none

/-- The raster function of a FILL, MOVE or EXPAND (R63). -/
def Job.rop : Job → Option Nat
  | .fill _ _ _ rop => some rop
  | .move _ _ _ _ _ rop _ => some rop
  | .expand _ _ _ _ _ _ _ rop => some rop
  | _ => none

/-- The tag of a MARK, 0 for other kinds (10.7). -/
def Job.tag : Job → BitVec 32
  | .mark tag => tag
  | _ => 0

/-- The canvases a job names, the source first, each once (R63, R70). A job takes and drops its pins in this order; the spec
gives none between the two pins of one job (DESIGN CHOICE, log 28). -/
def Job.names (j : Job) : List Handle :=
  match j.src, j.dst with
  | some a, some b => if a = b then [a] else [a, b]
  | some a, none => [a]
  | none, some b => [b]
  | none, none => []

def Job.isWrite (j : Job) : Bool := j.kind == .write

/-- The source origin of a job (R63). -/
def Job.srcOrigin : Job → Nat × Nat
  | .move _ sx sy .. => (sx, sy)
  | .expand _ sx sy .. => (sx, sy)
  | .read _ r => (r.x, r.y)
  | _ => (0, 0)

/-! ### Job descriptors (10.6, R187) -/

/-- A rectangle field of eight bytes (10.6). -/
def rectAt (b : List Byte) (i : Nat) : Rect := ⟨num16 b i, num16 b (i + 2), num16 b (i + 4), num16 b (i + 6)⟩

/-- A handle field. -/
def handleAt (b : List Byte) (i : Nat) : Handle := BitVec.ofNat 16 (num16 b i)

/-- A colour field (R4). -/
def colourAt (b : List Byte) (i : Nat) : Colour := BitVec.ofNat 32 (num32 b i)

/-- The size of a descriptor by its kind code (10.6); none for a code that names no kind. -/
def descriptorSize : Nat → Option Nat
  | 0x01 => some 20
  | 0x02 => some 24
  | 0x03 => some 28
  | 0x04 => some 16
  | 0x05 => some 16
  | 0x06 => some 8
  | _ => none

/-- The job a descriptor describes (10.6): options bit 0 notify, bit 1 key present, bit 2 background present. -/
def descriptorJob (b : List Byte) : Option (Job × Bool) :=
  let options := byteAt b 1
  let notify := options.getLsbD 0
  match num8 b 0 with
  | 0x01 => some (.fill (handleAt b 4) (rectAt b 8) (colourAt b 16) (num8 b 2), notify)
  | 0x02 => some (.move (handleAt b 4) (num16 b 8) (num16 b 10) (handleAt b 6) (rectAt b 12) (num8 b 2)
      (if options.getLsbD 1 then some (colourAt b 20) else none), notify)
  | 0x03 => some (.expand (handleAt b 4) (num16 b 8) (num16 b 10) (handleAt b 6) (rectAt b 12) (colourAt b 20)
      (if options.getLsbD 2 then some (colourAt b 24) else none) (num8 b 2), notify)
  | 0x04 => some (.write (handleAt b 4) (rectAt b 8), notify)
  | 0x05 => some (.read (handleAt b 4) (rectAt b 8), notify)
  | 0x06 => some (.mark (BitVec.ofNat 32 (num32 b 4)), notify)
  | _ => none

/-- Reads exactly `n` descriptors that fill `b` exactly (R187); none when a kind is unknown or the length differs. -/
def parseDescriptors : Nat → List Byte → Option (List (Job × Bool))
  | 0, b => if b.isEmpty then some [] else none
  | n + 1, b =>
    match descriptorSize (num8 b 0), descriptorJob b with
    | some size, some job =>
      if b.length < size then none
      else (parseDescriptors n (b.drop size)).map (job :: ·)
    | _, _ => none

/-- The jobs of a SUBMIT payload (R66, R187): a count of 1 to 4, then the descriptors. -/
def parseSubmit (payload : List Byte) : Option (List (Job × Bool)) :=
  let n := num8 payload 4
  if payload.length < 6 || n == 0 || 4 < n then none else parseDescriptors n (payload.drop 6)

/-! ### Frames (R162 to R165) -/

/-- One bit of the CRC register (R164: polynomial 0x1021, most significant bit first). -/
def crcShift (c : BitVec 16) : BitVec 16 := if c.msb then (c <<< 1) ^^^ 0x1021 else c <<< 1

/-- One byte taken into the CRC register (R164). -/
def crcByte (c : BitVec 16) (b : Byte) : BitVec 16 :=
  crcShift <| crcShift <| crcShift <| crcShift <| crcShift <| crcShift <| crcShift <| crcShift <|
    c ^^^ (b.setWidth 16 <<< 8)

/-- The CRC of header and payload bytes; the register starts at 0xFFFF (R164). -/
def crc16 (bytes : List Byte) : BitVec 16 := bytes.foldl crcByte 0xFFFF

/-- The bytes of a frame as its lane carries them: start byte, header, payload, CRC low byte first (R162, R164). -/
def WireFrame.bytes (f : WireFrame) : List Byte :=
  let body := [f.cls, f.seq, f.ack] ++ enc16 f.payload.length ++ f.payload
  0xD1 :: body ++ enc16 (crc16 body).toNat

/-- What a receiver finds first in the bytes it has (R163). `rest` is where it hunts next. -/
inductive RxEvent where
  | incomplete
  | lengthError (rest : List Byte)
  | crcError (rest : List Byte)
  | good (f : WireFrame) (rest : List Byte)
  deriving DecidableEq, Repr

/-- Hunting: every byte is passed over until a start byte (R163). -/
def hunt : List Byte → List Byte
  | [] => []
  | b :: t => if b = 0xD1 then b :: t else hunt t

/-- Gathering, after the start byte, of the bytes `t` (R163). -/
def gather (t : List Byte) : RxEvent :=
  if t.length < 5 then .incomplete
  else
    let n := num16 t 3
    if Config.maxPayload < n then .lengthError t
    else if t.length < n + 7 then .incomplete
    else if (crc16 (t.take (n + 5))).toNat = num16 t (n + 5) then
      .good ⟨byteAt t 0, byteAt t 1, byteAt t 2, (t.drop 5).take n⟩ (t.drop (n + 7))
    else .crcError t

/-- What the receiver finds first in the bytes of the lane (R163). -/
def receive (bytes : List Byte) : RxEvent :=
  match hunt bytes with
  | [] => .incomplete
  | _ :: t => gather t

/-- A REQ whose payload's first byte is the HELLO kind is a HELLO frame (R165). -/
def isHello (f : WireFrame) : Bool := f.cls = 0x01 && f.payload.head? = some 0x01

/-- The class of a frame that can join the inbound buffer (R165). -/
def inClass (cls : Byte) : Option InClass :=
  if cls = 0x01 then some .req else if cls = 0x02 then some .dat else none

/-- A DAT payload of 7 to 1030 bytes is well formed (10.7, R119). -/
def datWellFormed (payload : List Byte) : Bool := 7 ≤ payload.length && payload.length ≤ 1030

/-- The data bytes of a DAT payload (10.7). -/
def datData (payload : List Byte) : List Byte := payload.drop 6

/-! ### Which command processes a taken frame -/

/-- The rows of the table that process a frame of the inbound buffer (R181). -/
inductive StreamRow where
  | helloFresh | helloResume | unknownKind | portSetEnable | portSetDisable
  | request (k : ReqKind)
  | dat
  deriving DecidableEq, Repr

/-- The row that processes a frame: every frame has exactly one (log 11). A HELLO belongs to HELLO_RESUME when its mode
byte asks RESUME, a PORT-SET to PORT_SET_DISABLE when its enable byte asks DISABLE (R186); all others of the kind
belong to the other row. A REQ too short for a header, or of a kind outside the table, belongs to UNKNOWN_KIND. -/
def InFrame.row (f : InFrame) : StreamRow :=
  match f.cls with
  | .dat => .dat
  | .req =>
    match ReqKind.ofCode (num8 f.payload 0) with
    | some .hello => if num8 f.payload 4 = 0x02 then .helloResume else .helloFresh
    | none => .unknownKind
    | some k =>
      if f.payload.length < 4 then .unknownKind
      else if k = .portSet then
        if num8 f.payload 5 = 0x02 then .portSetDisable else .portSetEnable
      else .request k

end Sys2Proof.Machine
end

