-- ==== Sys2Proof/Machine/Link.lean ====
section
/-! DEFINITION. The link port's slots, acknowledgements and timer (chapter 9), as operations on one port's block. -/

namespace Sys2Proof.Machine

/-! ### Outbound slots (R172) -/

/-- Slots neither used nor reserved (R172, R145). -/
def Link.freeSlots (l : Link) : Nat := Config.outboundSlots - (l.used.length + l.reserved)

/-- A free slot becomes reserved; nothing is reserved when none is free (R172). -/
def Link.reserve (l : Link) : Link := if l.freeSlots = 0 then l else { l with reserved := l.reserved + 1 }

/-- A reservation released unused becomes free (R172). -/
def Link.release (l : Link) : Link := { l with reserved := l.reserved - 1 }

/-- A frame is placed: it gets the next outbound sequence and joins the tail of the list; a transmit point that was none
becomes that frame (R172). -/
def Link.enqueue (l : Link) (cls : OutClass) (payload : List Byte) : Link :=
  { l with
    used := l.used ++ [⟨cls, l.nextOut, payload⟩]
    nextOut := l.nextOut + 1
    transmitPoint := some (l.transmitPoint.getD l.nextOut) }

/-- A frame is placed in the reservation made for it (R172). Without a reservation there is nothing to place it in, and
it is not placed (log 12). -/
def Link.fill (l : Link) (cls : OutClass) (payload : List Byte) : Link :=
  if l.reserved = 0 then l else { l with reserved := l.reserved - 1 }.enqueue cls payload

/-- A frame is placed in a free slot, taken at placement (R172). -/
def Link.placeFree (l : Link) (cls : OutClass) (payload : List Byte) : Link :=
  if l.freeSlots = 0 then l else l.enqueue cls payload

/-! ### Sequences and acknowledgements -/

/-- The acknowledgement value: expected inbound minus 1, modulo 256 (R166). -/
def Link.ackValue (l : Link) : BitVec 8 := l.expected - 1

/-- The oldest frame's sequence, if the list holds a used frame. -/
def Link.oldest (l : Link) : Option (BitVec 8) := l.used.head?.map OutFrame.seq

/-- How many frames an acknowledgement value acknowledges (R170): k = a − o + 1 when k lies from 1 to the sent count. -/
def Link.acked (l : Link) (a : BitVec 8) : Nat :=
  match l.oldest with
  | none => 0
  | some o =>
    let k := (a - o + 1).toNat
    if k ≤ l.sentCount then k else 0

/-- An acknowledgement value is applied to the outbound list; the timer restarts with `interval` (R170). -/
def Link.applyAck (l : Link) (interval : Nat) (a : BitVec 8) : Link :=
  let k := l.acked a
  if k = 0 then l
  else
    let left := l.used.drop k
    { l with
      used := left
      sentCount := l.sentCount - k
      retransmits := 0
      resendTimer := if l.sentCount - k = 0 then none else some interval
      transmitPoint :=
        match l.transmitPoint with
        | none => none
        | some t => if (l.used.take k).any (fun f => f.seq == t) then left.head?.map OutFrame.seq else some t }

/-- The port goes back: the transmit point is the oldest frame of the list (R174, R178). -/
def Link.goBack (l : Link) : Link := { l with transmitPoint := l.oldest }

/-- A NAK is made pending; it replaces one not yet sent (R173). -/
def Link.makeNak (l : Link) (reason : NakReason) (seq : BitVec 8) : Link := { l with nak := some ⟨reason, seq⟩ }

/-- The link's part at the beginning of a port reset (R179): the receiver and a frame in transmission are not touched. -/
def Link.beginReset (l : Link) : Link :=
  { l with
    inbound := []
    used := []
    reserved := 0
    transmitPoint := none
    sentCount := 0
    resendTimer := none
    retransmits := 0
    ackOwed := false
    nak := none
    helloReply := none }

/-! ### Replies (R184) -/

/-- The payload of a reply (10.4). -/
def replyPayload (kind : Byte) (status : Status) (id : ReqId) (contents : List Byte) : List Byte :=
  kind :: enc8 status.code ++ enc16 id.toNat ++ contents

/-- The reply to the request in course goes into the slot reserved when its frame was taken (R184). -/
def PortBlock.reply (b : PortBlock) (kind : Byte) (status : Status) (id : ReqId) (contents : List Byte) : PortBlock :=
  { b with link := b.link.fill .rep (replyPayload kind status id contents) }

/-- A request's reply is deferred: the stream keeps an entry (R184). -/
def PortBlock.defer (b : PortBlock) (kind : Byte) (id : ReqId) : PortBlock :=
  { b with deferred := b.deferred ++ [⟨kind, id⟩] }

/-- An owner answers a deferred request: the header is formed from the oldest entry with that id, the reply is placed and
the entry removed; without an entry nothing is placed (R184). -/
def PortBlock.answer (b : PortBlock) (id : ReqId) (contents : List Byte) : PortBlock :=
  match b.deferred.find? fun d => d.id == id with
  | none => b
  | some d => { b with deferred := b.deferred.erase d }.reply d.kind .ok id contents

/-- Each of several deferred requests of the port is answered, oldest first. -/
def PortBlock.answerAll (b : PortBlock) (ids : List ReqId) (contents : List Byte) : PortBlock :=
  ids.foldl (fun b id => b.answer id contents) b

/-- Waiting requests, each on its own port, are answered, oldest first. -/
def State.answerWaiters (s : State) (ws : List Waiter) (contents : List Byte) : State :=
  ws.foldl (fun s w => s.modPort w.port fun b => b.answer w.id contents) s

/-! ### Sessions (R177) -/

/-- The payload of a HELLO reply (R150, 10.5); the mode performed is FRESH 0x01 or RESUMED 0x02 (R186). -/
def helloPayload (p : Port) (id : ReqId) (modePerformed : Nat) (expected : BitVec 8) : List Byte :=
  replyPayload (BitVec.ofNat 8 ReqKind.hello.code) .ok id
    (enc8 p.num ++ encBool (p = .p0) ++ enc16 Config.partCode ++ enc8 Config.siliconRevision ++ enc8 modePerformed ++
      [expected] ++ enc8 0)

/-- A session begins: the sequences are set and the HELLO reply is placed in a free slot as frame 0 (R177). -/
def Link.beginSession (l : Link) (p : Port) (id : ReqId) : Link :=
  { l with
    expected := 1
    nextOut := 0
    sentCount := 0
    retransmits := 0
    transmitPoint := none
    ackOwed := false
    resendTimer := none }.placeFree .rep (helloPayload p id 0x01 1)

end Sys2Proof.Machine
end

