-- ==== Sys2Proof/Machine/Flags.lean ====
section
/-! DEFINITION. The attention units (7.3): flags, mask, marks and the attention frame. -/

namespace Sys2Proof.Machine

def FlagSet.get (f : FlagSet) : Flag → Bool
  | .fault => f.fault
  | .logFull => f.logFull
  | .grantLost => f.grantLost
  | .canvasLost => f.canvasLost
  | .halted => f.halted
  | .dataRejected => f.dataRejected

def FlagSet.set (f : FlagSet) (k : Flag) (v : Bool) : FlagSet :=
  match k with
  | .fault => { f with fault := v }
  | .logFull => { f with logFull := v }
  | .grantLost => { f with grantLost := v }
  | .canvasLost => { f with canvasLost := v }
  | .halted => { f with halted := v }
  | .dataRejected => { f with dataRejected := v }

/-- The flags of `f` that are not in `g` (R143). -/
def FlagSet.without (f g : FlagSet) : FlagSet :=
  ⟨f.fault && !g.fault, f.logFull && !g.logFull, f.grantLost && !g.grantLost, f.canvasLost && !g.canvasLost,
   f.halted && !g.halted, f.dataRejected && !g.dataRejected⟩

/-- The flags byte: bit 0 FAULT to bit 5 DATA-REJECTED, bits 6 and 7 zero (R186). -/
def FlagSet.byte (f : FlagSet) : Byte :=
  (if f.fault then 1 else 0) ||| (if f.logFull then 2 else 0) ||| (if f.grantLost then 4 else 0) |||
  (if f.canvasLost then 8 else 0) ||| (if f.halted then 16 else 0) ||| (if f.dataRejected then 32 else 0)

/-- The flags a byte lists; none when bit 6 or bit 7 is set (R143, R186). -/
def FlagSet.ofByte (b : Byte) : Option FlagSet :=
  if b.getLsbD 6 || b.getLsbD 7 then none
  else some ⟨b.getLsbD 0, b.getLsbD 1, b.getLsbD 2, b.getLsbD 3, b.getLsbD 4, b.getLsbD 5⟩

/-- The payload of an ATN frame: the flags as they stand, masked ones included, then a pad byte (R142, 10.7). -/
def Attention.frame (a : Attention) : List Byte := [a.flags.byte, 0]

/-- The port is UP or LOST and its outbound list has a free slot: an ATN frame can be placed (R140, R141). -/
def PortBlock.canPlaceAtn (b : PortBlock) : Bool := b.portState.inSession && b.link.freeSlots != 0

/-- An attention flag is set (R139, R140). A setting that reaches a RESETTING port is ignored. -/
def PortBlock.raise (b : PortBlock) (k : Flag) : PortBlock :=
  if b.portState.isResetting || b.attn.flags.get k then b
  else
    let flagged : Attention := { b.attn with flags := b.attn.flags.set k true }
    if flagged.mask.get k || flagged.outstanding then { b with attn := flagged }
    else if b.canPlaceAtn then
      { b with attn := { flagged with outstanding := true }, link := b.link.placeFree .atn flagged.frame }
    else { b with attn := { flagged with outstanding := true, due := true } }

/-- A due ATN frame is placed and the due mark cleared (R141). -/
def PortBlock.placeDueAtn (b : PortBlock) : PortBlock :=
  if b.attn.due && b.canPlaceAtn then
    { b with attn := { b.attn with due := false }, link := b.link.placeFree .atn b.attn.frame }
  else b

/-- The outstanding and due marks are cleared (R143, R144). -/
def Attention.clearMarks (a : Attention) : Attention := { a with outstanding := false, due := false }

end Sys2Proof.Machine
end

