-- ==== Sys2Proof/WellFormed.lean ====
section
/-! DEFINITION. Which commands can name anything of the FS-416: slots are numbered 1 to 255 (R1), words of the store
0 to 2,097,151 (R21). A command that is not well formed names nothing and has no effect. -/

namespace Sys2Proof

/-- A slot number of the canvas table (R1). -/
def slotOk (slot : Nat) : Bool := 1 ≤ slot && slot ≤ 255

/-- A word number of the pixel store (R21). -/
def wordOk (word : Nat) : Bool := word < Config.storeBytes / 8

/-- The command's operands name things the part has. -/
def Instr.wellFormed : Instr → Bool
  | .powerOn | .resetPinAssert | .resetPinRelease => true
  | .frameLengthError _ _ | .crcError _ _ | .unknownClassFrame _ _ | .reqDatFrameReceived _ _
  | .ackFrameReceived _ _ | .helloFrameReceived _ _ => true
  | .frameTransmit _ | .resendTimerExpiry _ | .helloFresh _ | .helloResume _ | .unknownKind _ => true
  | .portSetEnable _ | .portSetDisable _ | .config _ | .resetPort _ | .portResetComplete _ | .resetDevice _ => true
  | .openCanvas _ | .closeCanvas _ | .query _ | .list _ | .grant _ | .revoke _ => true
  | .submit _ | .cancel _ | .halt _ | .resume _ | .status _ | .faultRead _ | .faultAck _ | .attnClear _ => true
  | .datFrame _ | .jobDispatch _ | .claimGrant _ | .waitTimerExpiry _ => true
  | .spanBegin | .storeAccessBegin | .blockCleared => true
  | .spanComplete corrected => corrected.all wordOk
  | .spanUncorrectable word => wordOk word
  | .dataTimeoutExpiry _ | .readStallExpiry _ | .jobEnd _ | .attentionFramePlaced _ => true
  | .revokeDeadlineExpiry slot _ | .closeDeadlineExpiry slot | .revokeEnd slot _ | .closeEnd slot => slotOk slot

end Sys2Proof
end

