-- ==== Sys2Proof/Machine/Store.lean ====
section
/-! DEFINITION. The pixel store (chapter 2): reading and writing bytes, the condition of words, clearing a block, and
the free block map. -/

namespace Sys2Proof.Machine

/-! ### Canonical form -/

/-- Every key is below the next and below the bound. -/
def keysRise {α : Type} (bound : Nat) : List (Nat × α) → Bool
  | [] => true
  | [c] => c.1 < bound
  | c :: d :: t => c.1 < d.1 && keysRise bound (d :: t)

/-- The store is in its one canonical form. An unlisted address or word holds nothing written, so no entry equals what it
holds. -/
def Store.wf (m : Store) : Bool :=
  keysRise Config.storeBytes m.cells && keysRise (Config.storeBytes / 8) m.checks &&
    keysRise (Config.storeBytes / 8) m.flips

/-! ### Bytes -/

/-- What has been written at an address; `none` when nothing has since the contents became unspecified. -/
def Store.written (m : Store) (a : Nat) : Option Byte := (m.cells.find? fun c => c.1 == a).map Prod.snd

/-- The byte an access reads: what was written, else the unspecified contents (R27, log 7). -/
def Store.read (m : Store) (a : Nat) : Byte := (m.written a).getD (Config.unspecifiedByte m.powerUps a)

/-- `n` bytes from address `a` up. -/
def Store.readMany (m : Store) (a n : Nat) : List Byte := (List.range n).map fun i => m.read (a + i)

/-- The cells of consecutive bytes from address `a` up. -/
def cellsFrom (a : Nat) : List Byte → List Host.Cell
  | [] => []
  | b :: t => (a, b) :: cellsFrom (a + 1) t

/-- The bytes of the store become `bytes` from address `a` up; the check bits stay. -/
def Store.putBytes (m : Store) (a : Nat) (bytes : List Byte) : Store :=
  { m with
    cells := m.cells.filter (fun c => c.1 < a) ++ cellsFrom a bytes ++
      m.cells.filter (fun c => a + bytes.length ≤ c.1) }

/-- The bytes `a` to `a + n - 1` lie in the store (R21). -/
def inStore (a n : Nat) : Bool := a + n ≤ Config.storeBytes

/-! ### Check bits (R22) -/

/-- The 64 data bits of word `w`, the byte of lowest address in the least significant bits; the code over them is open, so
nothing rests on that order. -/
def Store.word (m : Store) (w : Nat) : BitVec 64 :=
  (m.readMany (8 * w) 8).foldr (fun b acc => (acc <<< 8) ||| b.setWidth 64) 0

/-- The 8 check bits kept with word `w` (R22): as computed when it was last written, else unspecified (R27, log 7). -/
def Store.checkBits (m : Store) (w : Nat) : BitVec 8 :=
  ((m.checks.find? fun c => c.1 == w).map Prod.snd).getD (Config.unspecifiedCheck m.powerUps w)

/-- The check bits of the words `w` to `w + n - 1` as the code gives them for their data. -/
def Store.freshChecks (m : Store) (w n : Nat) : List (Nat × BitVec 8) :=
  (List.range n).map fun i => (w + i, Config.checkCode (m.word (w + i)))

/-- The check bits of the words `w` to `w + n - 1` are computed afresh from their data (R22). -/
def Store.computeChecks (m : Store) (w n : Nat) : Store :=
  { m with
    checks := m.checks.filter (fun c => c.1 < w) ++ m.freshChecks w n ++ m.checks.filter (fun c => w + n ≤ c.1) }

/-- How many words hold the bytes `a` to `a + n - 1`. -/
def wordsHolding (a n : Nat) : Nat := if n = 0 then 0 else (a + n - 1) / 8 + 1 - a / 8

/-- Consecutive bytes are written from address `a` up: the check bits of the words that hold them are computed afresh (R22). -/
def Store.write (m : Store) (a : Nat) (bytes : List Byte) : Store :=
  (m.putBytes a bytes).computeChecks (a / 8) (wordsHolding a bytes.length)

/-! ### Word conditions (R22) -/

/-- What is known of a word that is not good; `none` for a good word. -/
def Store.condition (m : Store) (w : Nat) : Option WordCondition :=
  (m.flips.find? fun c => c.1 == w).map Prod.snd

/-- The condition of word `w` becomes `c`. -/
def Store.setCondition (m : Store) (w : Nat) (c : WordCondition) : Store :=
  { m with flips := m.flips.filter (fun d => d.1 < w) ++ [(w, c)] ++ m.flips.filter (fun d => w < d.1) }

/-- Each word of a list is good: its data and check bits agree, no bit having flipped since they were computed (R22). -/
def Store.makeGood (m : Store) (words : List Nat) : Store :=
  { m with flips := m.flips.filter fun d => !words.contains d.1 }

/-- The word is uncorrectable (R22). -/
def Store.uncorrectable (m : Store) (w : Nat) : Bool := m.condition w == some .uncorrectable

/-- Single-bit errors found in `corrected` are recorded for the good words among `reads` (R22: the word stays correctable
until it is next written). -/
def Store.noteCorrected (m : Store) (reads corrected : List Nat) : Store :=
  (reads.filter corrected.contains).foldl
    (fun m w => if (m.condition w).isNone && wordOk w then m.setCondition w .correctable else m) m

/-! ### Clearing a block (R25, R33) -/

/-- The byte of the fill pattern at offset `i` of a block (R33). -/
def patternByte (f : Format) (fill : Colour) (i : Nat) : Byte :=
  match f with
  | .m1 => if fill.getLsbD 0 then 0xFF else 0x00
  | .i8 => fill.setWidth 8
  | .c16 => (fill >>> (8 * (i % 2))).setWidth 8
  | .c32 => (fill >>> (8 * (i % 4))).setWidth 8

/-- The words of a block (R21). -/
def blockWordList (b : Nat) : List Nat := (List.range Config.blockWords).map (b * Config.blockWords + ·)

/-- A block access: all 512 words are written with the pattern and are good (R25). -/
def Store.clearBlock (m : Store) (b : Nat) (f : Format) (fill : Colour) : Store :=
  let m := m.write (b * Config.blockBytes) ((List.range Config.blockBytes).map (patternByte f fill))
  { m with flips := m.flips.filter fun d => d.1 / Config.blockWords != b }

/-! ### An access abandoned by RESET-DEVICE (R27) -/

/-- The word `w` of an abandoned access that was to make the store `after` of `m`, at the `n`th RESET-DEVICE: its new
contents, and good; or its old contents, and good, the check bits agreeing with them, or as it was before. -/
def Store.abandonWord (n : Nat) (after m : Store) (w : Nat) : Store :=
  if Config.abandonedWritten n w then (m.write (8 * w) (after.readMany (8 * w) 8)).makeGood [w]
  else if Config.abandonedGood n w then (m.computeChecks w 1).makeGood [w]
  else m

/-- An access that was to write `words`, making `after`, is abandoned (R27). -/
def Store.abandon (m : Store) (n : Nat) (after : Store) (words : List Nat) : Store :=
  (words.filter wordOk).foldl (Store.abandonWord n after) m

/-! ### The free block map (R28 to R30) -/

/-- The marks of the blocks `f` to `f + n - 1`. -/
def runMask (f n : Nat) : BitVec 4096 := BitVec.ofNat 4096 ((2 ^ n - 1) * 2 ^ f)

/-- The blocks `f` to `f + n - 1` all exist and are free. -/
def runFree (allocated : BitVec 4096) (f n : Nat) : Bool :=
  f + n ≤ Config.blocks && allocated &&& runMask f n == 0

/-- First fit from block `f` on, over `k` places (R29). -/
def firstFitFrom (allocated : BitVec 4096) (n : Nat) : Nat → Nat → Option Nat
  | 0, _ => none
  | k + 1, f => if runFree allocated f n then some f else firstFitFrom allocated n k (f + 1)

/-- First-fit allocation (R29): the first run of free blocks, in ascending order of first block, with at least `n`
blocks, gives its lowest `n`. The lowest place where `n` blocks are free is the start of that run. -/
def firstFit (allocated : BitVec 4096) (n : Nat) : Option Nat := firstFitFrom allocated n Config.blocks 0

/-- The blocks of a run are marked allocated (R29). -/
def allocateRun (allocated : BitVec 4096) (f n : Nat) : BitVec 4096 := allocated ||| runMask f n

/-- The blocks of a run are marked free (R30). -/
def freeRun (allocated : BitVec 4096) (f n : Nat) : BitVec 4096 := allocated &&& ~~~runMask f n

end Sys2Proof.Machine
end

