-- ==== Sys2Proof/Machine/Pixels.lean ====
section
/-! DEFINITION. What a span does to the pixels (5.2, 5.4) and which words its store access reads and writes (R23):
computed from the engine record and the store. -/

namespace Sys2Proof.Machine

/-! ### Raster functions (R107) -/

/-- Applied bit by bit: the result bit is bit number 2s + d of the code (R107). -/
def raster (code : Nat) (s d : Colour) : Colour :=
  (if code.testBit 0 then ~~~s &&& ~~~d else 0) ||| (if code.testBit 1 then ~~~s &&& d else 0) |||
  (if code.testBit 2 then s &&& ~~~d else 0) ||| (if code.testBit 3 then s &&& d else 0)

/-- Codes 0, 3, 12 and 15 do not depend on D; every other code reads the destination (R107). -/
def rasterReadsDst (code : Nat) : Bool := !(code == 0 || code == 3 || code == 12 || code == 15)

/-! ### Places of pixels (R21) -/

/-- The store address of the first byte of row `y` of a canvas (R21). -/
def Geo.rowBase (g : Geo) (y : Nat) : Nat := g.firstBlock * Config.blockBytes + y * g.pitch

/-- The store address of the byte holding bit `i` of a row, bits counted from the row's left end. -/
def Geo.bitAddress (g : Geo) (y i : Nat) : Nat := g.rowBase y + i / 8

/-- The pixel at (x, y) (R21): M1 from bit 7 − (x mod 8), I8, C16 and C32 least significant byte first. -/
def Store.pixel (m : Store) (g : Geo) (x y : Nat) : Colour :=
  match g.format with
  | .m1 => if (m.read (g.rowBase y + x / 8)).getLsbD (7 - x % 8) then 1 else 0
  | .i8 => (m.read (g.rowBase y + x)).setWidth 32
  | .c16 =>
    let a := g.rowBase y + 2 * x
    (m.read a).setWidth 32 ||| ((m.read (a + 1)).setWidth 32 <<< 8)
  | .c32 =>
    let a := g.rowBase y + 4 * x
    (m.read a).setWidth 32 ||| ((m.read (a + 1)).setWidth 32 <<< 8) |||
      ((m.read (a + 2)).setWidth 32 <<< 16) ||| ((m.read (a + 3)).setWidth 32 <<< 24)

/-- Eight bits as a byte, the first in the most significant bit (00_scope.md, monochrome data). -/
def byteOfBits (bit : Nat → Bool) : Byte :=
  (List.range 8).foldl (fun acc i => (acc <<< 1) ||| (if bit i then 1 else 0)) 0

/-- The bytes of a pixel of more than one bit (R21, R128). -/
def pixelBytes (f : Format) (v : Colour) : List Byte :=
  match f with
  | .m1 => []
  | .i8 => [v.setWidth 8]
  | .c16 => [v.setWidth 8, (v >>> 8).setWidth 8]
  | .c32 => [v.setWidth 8, (v >>> 8).setWidth 8, (v >>> 16).setWidth 8, (v >>> 24).setWidth 8]

/-- Pixels packed as a data row (R128): M1 with zero padding bits, the others pixel after pixel. -/
def packPixels (f : Format) (px : List Colour) : List Byte :=
  match f with
  | .m1 => (List.range ((px.length + 7) / 8)).map fun k => byteOfBits fun i => (px.getD (8 * k + i) 0).getLsbD 0
  | f => px.flatMap (pixelBytes f)

/-- The pixel at index `i` of packed data (R128). -/
def unpackPixel (f : Format) (data : List Byte) (i : Nat) : Colour :=
  match f with
  | .m1 => if (byteAt data (i / 8)).getLsbD (7 - i % 8) then 1 else 0
  | .i8 => BitVec.ofNat 32 (num8 data i)
  | .c16 => BitVec.ofNat 32 (num16 data (2 * i))
  | .c32 => BitVec.ofNat 32 (num32 data (4 * i))

/-- The address from which `n` pixels at (x, y) are written. -/
def Geo.pixelStart (g : Geo) (x y : Nat) : Nat := g.bitAddress y (x * g.format.bits)

/-- The bytes that hold the pixels `px` at (x, y) on: the bits of neighbouring pixels in the same byte keep their old
values (R107). -/
def Store.rowBytes (m : Store) (g : Geo) (x y : Nat) (px : List Colour) : List Byte :=
  match g.format with
  | .m1 =>
    let k0 := x / 8
    (List.range ((x + px.length + 7) / 8 - k0)).map fun k =>
      let old := m.read (g.rowBase y + k0 + k)
      byteOfBits fun i =>
        let at_ := 8 * (k0 + k) + i
        if x ≤ at_ && at_ < x + px.length then (px.getD (at_ - x) 0).getLsbD 0 else old.getLsbD (7 - i)
  | f => px.flatMap (pixelBytes f)

/-! ### Spans (R96 to R98) -/

/-- The geometry of the canvas a job's spans run over (R96). -/
def EngineRecord.spanGeo (r : EngineRecord) : Option Geo :=
  match r.job.kind with
  | .read => r.src
  | _ => r.dst

/-- The greatest number of pixels in a span (R96). -/
def maxSpan (f : Format) (w : Nat) : Nat :=
  match f with
  | .m1 => w
  | .i8 => 1024
  | .c16 => 512
  | .c32 => 256

/-- The number of pixels of the next span (R96): P, or what is left of the row in processing order. -/
def EngineRecord.spanPixels (r : EngineRecord) : Nat :=
  match r.spanGeo with
  | none => 0
  | some g =>
    let w := r.job.rect.w
    Nat.min (maxSpan g.format w) (if r.leftward then r.col + 1 else w - r.col)

/-- The column offset of the next span's leftmost pixel (R97, R98). -/
def EngineRecord.spanLeft (r : EngineRecord) : Nat :=
  if r.leftward then r.col + 1 - r.spanPixels else r.col

/-- The progress after the next span (R98); none when that span is the job's last. -/
def EngineRecord.nextProgress (r : EngineRecord) : Option (Nat × Nat) :=
  let w := r.job.rect.w
  let n := r.spanPixels
  let rowDone := if r.leftward then r.col + 1 ≤ n else w ≤ r.col + n
  if rowDone then
    let col := if r.leftward then w - 1 else 0
    if r.upward then if r.row = 0 then none else some (r.row - 1, col)
    else if r.job.rect.h ≤ r.row + 1 then none else some (r.row + 1, col)
  else some (r.row, if r.leftward then r.col - n else r.col + n)

/-- The bytes a span draws or delivers (R122, R127): its pixels packed. -/
def EngineRecord.spanBytes (r : EngineRecord) : Nat :=
  match r.spanGeo with
  | none => 0
  | some g => g.format.rowBytes r.spanPixels

/-- The offset of a READ span's data in the job's data (R127). -/
def EngineRecord.spanOffset (r : EngineRecord) : Nat :=
  match r.spanGeo with
  | none => 0
  | some g => r.row * g.format.rowBytes r.job.rect.w + g.format.rowBytes r.spanLeft

/-- The order of rows and spans (R97): rows upward and spans leftward only in a MOVE within one canvas. -/
def Job.directions : Job → Bool × Bool
  | .move src sx sy dst r _ _ => if src = dst then (sy < r.y, decide (sy = r.y) && sx < r.x) else (false, false)
  | _ => (false, false)

/-! ### Words of a span's access (R23) -/

/-- The words holding the bits `lo` to `hi - 1` of row `y`, in ascending order; the row begins on a word boundary
(R21). -/
def Geo.words (g : Geo) (y lo hi : Nat) : List Nat :=
  if hi ≤ lo then []
  else (List.range ((hi - 1) / 64 + 1 - lo / 64)).map (g.rowBase y / 8 + lo / 64 + ·)

/-- Of those words, the ones covered only in part. -/
def Geo.partialWords (g : Geo) (y lo hi : Nat) : List Nat :=
  (g.words y lo hi).filter fun w =>
    let k := w - g.rowBase y / 8
    !(lo ≤ 64 * k && 64 * k + 64 ≤ hi)

/-- The first bit and the bit after the last of `n` pixels from column `x`. -/
def bitRange (f : Format) (x n : Nat) : Nat × Nat := (x * f.bits, (x + n) * f.bits)

/-- The source words of the next span (R23). -/
def EngineRecord.srcWords (r : EngineRecord) : List Nat :=
  match r.src with
  | none => []
  | some g =>
    let o := r.job.srcOrigin
    let b := bitRange g.format (o.1 + r.spanLeft) r.spanPixels
    g.words (o.2 + r.row) b.1 b.2

/-- The destination words of the next span: those its access writes (R23). -/
def EngineRecord.dstWords (r : EngineRecord) : List Nat :=
  match r.dst with
  | none => []
  | some g =>
    let b := bitRange g.format (r.job.rect.x + r.spanLeft) r.spanPixels
    g.words (r.job.rect.y + r.row) b.1 b.2

/-- The old contents of every destination word go into the result (R23): the raster function reads the destination, or
the job is a MOVE with a key colour or an EXPAND without a background colour. -/
def Job.readsDst : Job → Bool
  | .fill _ _ _ rop => rasterReadsDst rop
  | .move _ _ _ _ _ rop key => rasterReadsDst rop || key.isSome
  | .expand _ _ _ _ _ _ bg rop => rasterReadsDst rop || bg.isNone
  | _ => false

/-- The destination words the access reads (R23): all of them, or those written only in part. -/
def EngineRecord.dstReads (r : EngineRecord) : List Nat :=
  if r.job.readsDst then r.dstWords
  else
    match r.dst with
    | none => []
    | some g =>
      let b := bitRange g.format (r.job.rect.x + r.spanLeft) r.spanPixels
      g.partialWords (r.job.rect.y + r.row) b.1 b.2

/-- The words read, in the order of reading: source words, then destination words (R23). -/
def EngineRecord.reads (r : EngineRecord) : List Nat := r.srcWords ++ r.dstReads

/-- The address after the last byte the span writes. -/
def EngineRecord.writeEnd (r : EngineRecord) : Nat :=
  match r.dst with
  | none => 0
  | some g => g.rowBase (r.job.rect.y + r.row) + g.format.rowBytes (r.job.rect.x + r.spanLeft + r.spanPixels)

/-- Every word of the access and every byte it writes lies in the store (R21). -/
def EngineRecord.accessInStore (r : EngineRecord) : Bool :=
  (r.srcWords ++ r.dstWords).all wordOk && r.writeEnd ≤ Config.storeBytes

/-- The first uncorrectable word in the order of reading (R24). -/
def Store.firstUncorrectable (m : Store) (reads : List Nat) : Option Nat := reads.find? m.uncorrectable

/-! ### The pixels of a span (R108 to R111) -/

/-- The new value of the destination pixel at column offset `left + i` of the span, from the store before the span and
the span's data. -/
def EngineRecord.newPixel (r : EngineRecord) (m : Store) (data : List Byte) (g : Geo) (i : Nat) : Colour :=
  let x := r.job.rect.x + r.spanLeft + i
  let y := r.job.rect.y + r.row
  let d := m.pixel g x y
  let f := g.format
  let s : Colour :=
    match r.src with
    | none => 0
    | some src => m.pixel src (r.job.srcOrigin.1 + r.spanLeft + i) (r.job.srcOrigin.2 + r.row)
  match r.job with
  | .fill _ _ colour rop => f.truncate (raster rop (f.truncate colour) d)
  | .move _ _ _ _ _ rop key =>
    if key.map f.truncate = some s then d else f.truncate (raster rop s d)
  | .expand _ _ _ _ _ fg bg rop =>
    if s = 1 then f.truncate (raster rop (f.truncate fg) d)
    else
      match bg with
      | some c => f.truncate (raster rop (f.truncate c) d)
      | none => d
  | .write _ _ => unpackPixel f data i
  | _ => d

/-- The store after the span's write phase (R23): a READ span has none. -/
def EngineRecord.writePhase (r : EngineRecord) (m : Store) (data : List Byte) : Store :=
  match r.dst with
  | none => m
  | some g =>
    let x := r.job.rect.x + r.spanLeft
    let y := r.job.rect.y + r.row
    let px := (List.range r.spanPixels).map (r.newPixel m data g)
    (m.write (g.pixelStart x y) (m.rowBytes g x y px)).makeGood r.dstWords

/-- The data a READ span delivers (R111, R127). -/
def EngineRecord.readData (r : EngineRecord) (m : Store) : List Byte :=
  match r.src with
  | none => []
  | some g =>
    packPixels g.format ((List.range r.spanPixels).map fun i =>
      m.pixel g (r.job.rect.x + r.spanLeft + i) (r.job.rect.y + r.row))

end Sys2Proof.Machine
end

