-- ==== Sys2Proof/Machine/Ops.lean ====
section
/-! DEFINITION. The operations the commands share: the canvas table and its pins (chapters 1 and 3), the job queues and
the ends of jobs (chapter 4), claims and the engine's taking up and stopping of jobs (chapter 5), the staging buffers
(chapter 6) and the fault log (chapter 7). -/

namespace Sys2Proof.Machine

/-! ### The canvas table (R1, R2, R9, R10) -/

/-- The slot of a number from 1 to 255; any other number gives a FREE slot. -/
def State.slot (s : State) (n : Nat) : Slot :=
  match n with
  | 0 => ⟨0, none⟩
  | k + 1 => (s.slots[k]?).getD ⟨0, none⟩

/-- `s` with `x` as slot `n`. -/
def State.setSlot (s : State) (n : Nat) (x : Slot) : State :=
  match n with
  | 0 => s
  | k + 1 => { s with slots := s.slots.setIfInBounds k x }

/-- The canvas in slot `n`, if the slot is not FREE. -/
def State.canvas (s : State) (n : Nat) : Option Canvas := (s.slot n).canvas

/-- `s` with `c` as the canvas of slot `n`, the generation kept. -/
def State.setCanvas (s : State) (n : Nat) (c : Canvas) : State := s.setSlot n { s.slot n with canvas := some c }

/-- `f` applied to the canvas of slot `n`, if there is one. -/
def State.modCanvas (s : State) (n : Nat) (f : Canvas → Canvas) : State :=
  match s.canvas n with
  | none => s
  | some c => s.setCanvas n (f c)

/-- All slot numbers, ascending. -/
def slotNumbers : List Nat := (List.range 255).map (· + 1)

/-- The handle of slot `n` (R2). -/
def State.handle (s : State) (n : Nat) : Handle := handleOf n (s.slot n).generation

/-- Known to hosts: LIVE or CLOSING (R3, R18). -/
def Phase.known : Phase → Bool
  | .clearing _ => false
  | _ => true

def Phase.isClosing : Phase → Bool
  | .closing _ => true
  | _ => false

/-- The canvas a handle names, unless the handle is stale (R3). -/
def State.lookup (s : State) (h : Handle) : Option Canvas :=
  if handleGen h = 0 || handleGen h != (s.slot (handleSlot h)).generation then none
  else
    match s.canvas (handleSlot h) with
    | none => none
    | some c => if c.phase.known then some c else none

/-- The grant of a canvas to a port. -/
def Canvas.grantTo (c : Canvas) (p : Port) : Option Grant := c.grants.find? fun g => g.port == p

/-- The pin count: the owner pins plus the pins of each grant (R9). -/
def Canvas.pinCount (c : Canvas) : Nat := c.ownerPins + (c.grants.map Grant.pins).sum

/-- The pins of one port on a canvas. -/
def Canvas.pinsOf (c : Canvas) (p : Port) : Nat :=
  if c.owner = p then c.ownerPins else ((c.grantTo p).map Grant.pins).getD 0

/-- `f` applied to the grant of port `p`. -/
def Canvas.modGrant (c : Canvas) (p : Port) (f : Grant → Grant) : Canvas :=
  { c with grants := c.grants.map fun g => if g.port = p then f g else g }

/-- `f` applied to the pins the port holds: the owner pins, or the pins of its grant (R70). -/
def Canvas.modPins (c : Canvas) (p : Port) (f : Nat → Nat) : Canvas :=
  if c.owner = p then { c with ownerPins := f c.ownerPins }
  else c.modGrant p fun g => { g with pins := f g.pins }

/-- One pin is taken (R70). -/
def State.pin (s : State) (p : Port) (h : Handle) : State := s.modCanvas (handleSlot h) fun c => c.modPins p (· + 1)

/-- A slot goes to FREE (R10): its run goes back to the map, the owner's holdings fall, the generation advances. -/
def State.release (s : State) (n : Nat) : State :=
  match s.canvas n with
  | none => s
  | some c =>
    let s := { s with allocated := freeRun s.allocated c.firstBlock c.blockCount }
    let s := s.modPort c.owner fun b =>
      { b with canvasesHeld := b.canvasesHeld - 1, blocksHeld := b.blocksHeld - c.blockCount }
    s.setSlot n ⟨nextGeneration (s.slot n).generation, none⟩

/-- The geometry the engine copies of the canvas a handle names (R100). -/
def State.geo (s : State) (h : Handle) : Option Geo :=
  (s.canvas (handleSlot h)).map fun c => ⟨h, c.firstBlock, c.blockCount, c.pitch, c.width, c.format⟩

/-- The length in bytes of a job's data (R63, R128): height times row length in the format of its canvas. -/
def State.dataLength (s : State) (j : Job) : Nat :=
  match (j.dst.orElse fun _ => j.src).bind fun h => s.canvas (handleSlot h) with
  | none => 0
  | some c => j.rect.h * c.format.rowBytes j.rect.w

/-! ### Ends of revokes and closes (R45, R53) -/

/-- The contents of a REVOKE reply (10.5). -/
def revokeContents (h : Handle) (grantee : Port) (o : WaitOutcome) : List Byte :=
  enc16 h.toNat ++ enc8 grantee.num ++ enc8 o.code

/-- The contents of a CLOSE reply (10.5). -/
def closeContents (h : Handle) (o : WaitOutcome) : List Byte := enc16 h.toNat ++ enc8 o.code ++ enc8 0

/-- The outcome of a revoke (R45): GRANTEE-RESET, else by its mode. -/
def RevokeOp.outcome (r : RevokeOp) : WaitOutcome := if r.granteeReset then .granteeReset else r.mode.outcome

/-- The outcome of a revoke that ends with its canvas's close (R53, R54). -/
def RevokeOp.closeOutcome (r : RevokeOp) : WaitOutcome := if r.granteeReset then .granteeReset else .closed

/-- The end of the revoke of `p`'s grant on slot `n` (R45): the grant is removed, the waiters answered, GRANT-LOST set. -/
def State.endRevoke (s : State) (n : Nat) (p : Port) : State :=
  match s.canvas n with
  | none => s
  | some c =>
    match c.grantTo p with
    | none => s
    | some g =>
      match g.revoke with
      | none => s
      | some r =>
        let h := s.handle n
        let s := s.setCanvas n { c with grants := c.grants.filter fun g => g.port != p }
        let s := s.answerWaiters r.waiters (revokeContents h p r.outcome)
        s.modPort p fun b => b.raise .grantLost

/-- The waiters of a grant's revoke, if one is under way, are answered at the end of the close of its canvas, whose handle
is `h` (R53, R54). -/
def State.answerRevoke (h : Handle) (s : State) (g : Grant) : State :=
  match g.revoke with
  | none => s
  | some r => s.answerWaiters r.waiters (revokeContents h g.port r.closeOutcome)

/-- The end of the close `op` of slot `n` (R53): revoke waiters, grants, close waiters, CANVAS-LOST, release. -/
def State.endClose (s : State) (n : Nat) (op : CloseOp) : State :=
  match s.canvas n with
  | none => s
  | some c =>
    let h := s.handle n
    let s := c.grants.foldl (State.answerRevoke h) s
    let s := s.setCanvas n { c with grants := [] }
    let s := c.grants.foldl (fun s g => s.modPort g.port fun b => b.raise .grantLost) s
    let s := s.answerWaiters op.waiters (closeContents h op.mode.outcome)
    let s := if op.forced then s.modPort c.owner fun b => b.raise .canvasLost else s
    s.release n

/-- The close that ends with the canvas's pins as they stand: it is CLOSING, and its pin count is 0 (R53). -/
def Canvas.closeDue (c : Canvas) : Option CloseOp :=
  match c.phase with
  | .closing op => if c.pinCount = 0 then some op else none
  | _ => none

/-- The grant of `p` is REVOKING and has no pins (R45). -/
def Canvas.revokeDue (c : Canvas) (p : Port) : Bool := (c.grantTo p).any fun g => g.revoke.isSome && g.pins == 0

/-- What the pins of `p` on slot `n` have brought about, taken at once by the canvas manager: the end of the close when
the pin count of a CLOSING canvas is 0 (R9, R53), and otherwise the end of the revoke of `p`'s grant when that grant has no
pins (R45); so one unpin that brings both to 0 ends the close (R54). -/
def State.settle (s : State) (n : Nat) (p : Port) : State :=
  match s.canvas n with
  | none => s
  | some c =>
    match c.closeDue with
    | some op => s.endClose n op
    | none => if c.revokeDue p then s.endRevoke n p else s

/-- One pin is dropped, and the revoke or the close it ends ends with it (R9, R44, R45, R52, R53, R70; log 3). -/
def State.unpin (s : State) (p : Port) (h : Handle) : State :=
  (s.modCanvas (handleSlot h) fun c => c.modPins p (· - 1)).settle (handleSlot h) p

/-- Pins of one port are dropped (R9, R70, step 3 of R77): the counts fall. What that brings about is `State.settleAll`'s. -/
def State.dropPins (s : State) (p : Port) (hs : List Handle) : State :=
  hs.foldl (fun s h => s.modCanvas (handleSlot h) fun c => c.modPins p (· - 1)) s

/-- The canvas manager takes what the dropped pins of one port have brought about (R45, R53), slot by slot, each at the last
of its pins in the list. -/
def State.settleAll (s : State) (p : Port) : List Handle → State
  | [] => s
  | h :: hs => (if h ∈ hs then s else s.settle (handleSlot h) p).settleAll p hs

/-- Several pins of one port reach the canvas manager one by one, at a cut order (R46), in the order of the list: the caller
lists them by entries in queue order, each job's as `Job.names` does (DESIGN CHOICE, log 28). -/
def State.unpinAll (s : State) (p : Port) (hs : List Handle) : State := hs.foldl (fun s h => s.unpin p h) s

/-! ### Staging buffer (R117, R118, R123) -/

/-- The entry is a WRITE that is not cut. -/
def Entry.servable (e : Entry) : Bool := e.job.isWrite && e.state != .queued true

/-- The served WRITE after the queue's entries have changed (R118): it stays while its entry stands uncut; when it has
left or been cut, the held bytes are discarded (R123) and the next uncut WRITE is served. -/
def PortBlock.refreshStaging (b : PortBlock) : PortBlock :=
  match b.staging.served with
  | some q =>
    if b.queue.entries.any fun e => e.servable && e.seq == q then b
    else { b with staging :=
      { b.staging with held := [], served := (b.queue.entries.find? Entry.servable).map Entry.seq } }
  | none => { b with staging := { b.staging with served := (b.queue.entries.find? Entry.servable).map Entry.seq } }

/-! ### Entries -/

def Entry.isWaiting (e : Entry) : Bool :=
  match e.state with
  | .waiting _ => true
  | _ => false

def Entry.isActive (e : Entry) : Bool :=
  match e.state with
  | .active _ => true
  | _ => false

/-- The sequence of the ACTIVE job, if any (R71). -/
def JobQueue.active (q : JobQueue) : Option Nat := (q.entries.find? Entry.isActive).map Entry.seq

/-- The engine has reported that the job's last span ended without error: the job has reached its end (R85). -/
def Report.reachedEnd : Report → Bool
  | .finished => true
  | .stopped .last => true
  | _ => false

/-! ### Stopping and cutting (R46, R47, R112) -/

/-- A span of the port's job is in progress. -/
def State.spanBusy (s : State) (p : Port) : Bool := s.engine.span.any fun x => x.port == p

/-- A stop request reaches the engine (R112): with a span in progress the stop mark is set, without one "stopped" is
reported at once, without a record the request is ignored. -/
def PortBlock.stopRequest (b : PortBlock) (busy : Bool) : PortBlock :=
  match b.record with
  | none => b
  | some r =>
    if busy then { b with record := some { r with stopMark := true } }
    else { b with record := none, queue := { b.queue with report := some (.stopped .noSpan) } }

/-- A WAITING head leaves that state other than by a grant or its end: the claim request is withdrawn (R93) and the
notice slot released (R75). -/
def PortBlock.withdraw (b : PortBlock) : PortBlock := { b with request := none, link := b.link.release }

/-- What a cut order does to one entry that names the canvas (R46), and the pins the entry drops. -/
def Entry.cutBy (e : Entry) (h : Handle) : Entry × List Handle :=
  if e.job.names.contains h then
    match e.state with
    | .queued false => ({ e with state := .queued true, pins := [] }, e.pins)
    | .waiting _ => ({ e with state := .queued true, pins := [] }, e.pins)
    | .active c => ({ e with state := .active { c with cut := true } }, [])
    | .queued true => (e, [])
  else (e, [])

/-- A cut order for the canvas of handle `h` is taken by a port's queue (R46). `busy`: a span of the port's job is in
progress. -/
def PortBlock.cut (b : PortBlock) (h : Handle) (busy : Bool) : PortBlock :=
  let hit := fun e : Entry => e.job.names.contains h
  let waiting := b.queue.entries.any fun e => hit e && e.isWaiting
  let active := b.queue.entries.any fun e => hit e && e.isActive
  let b' := { b with queue := { b.queue with entries := b.queue.entries.map fun e : Entry => (e.cutBy h).1 } }
  let b' := if waiting then b'.withdraw else b'
  let b' := if active then b'.stopRequest busy else b'
  b'.refreshStaging

/-- A cut order for slot `n` is taken by the queue of port `p`, if the port has pins on it (R46); the pins its entries
drop reach the canvas manager one by one, and each may end a revoke or a close. The spec gives no order among them: the
model takes the entries in queue order, and of one job the source's pin first (DESIGN CHOICE, log 28). -/
def State.cutPort (s : State) (n : Nat) (p : Port) : State :=
  match s.canvas n with
  | none => s
  | some c =>
    if c.pinsOf p = 0 then s
    else
      let h := s.handle n
      let dropped := (s.port p).queue.entries.flatMap fun e : Entry => (e.cutBy h).2
      (s.modPort p fun b => b.cut h (s.spanBusy p)).unpinAll p dropped

/-- The canvas manager cuts slot `n` for the owner and every grantee (R46, R50); the owner's queue takes its order first,
then the grantees' in the order of the list (log 19). -/
def State.cutCanvas (s : State) (n : Nat) : State :=
  match s.canvas n with
  | none => s
  | some c => (c.owner :: c.grants.map Grant.port).foldl (fun s p => s.cutPort n p) s

/-! ### Claims (R89 to R92) -/

/-- Two rectangles share a column and a row (R90). -/
def Rect.intersects (a b : Rect) : Bool :=
  Nat.max a.x b.x < Nat.min (a.x + a.w) (b.x + b.w) && Nat.max a.y b.y < Nat.min (a.y + a.h) (b.y + b.h)

/-- Two claims of different ports conflict (R90). -/
def Claim.conflicts (a b : Claim) : Bool := a.slot == b.slot && a.rect.intersects b.rect && (a.write || b.write)

/-- The claims a job asks for: READ before WRITE (R89, R94). -/
def Job.claims (j : Job) : List Claim :=
  (match j.src, j.srcRect with
    | some h, some r => [⟨handleSlot h, r, false⟩]
    | _, _ => []) ++
  (match j.dst, j.dstRect with
    | some h, some r => [⟨handleSlot h, r, true⟩]
    | _, _ => [])

/-- The claims present of every port but `p` (R91). -/
def State.othersClaims (s : State) (p : Port) : List Claim :=
  (p.roundAfter.take 3).flatMap fun q => (s.port q).claims

/-- The first requested claim that conflicts with a claim present of another port (R91, R94). -/
def State.firstConflict (s : State) (p : Port) (request : List Claim) : Option Claim :=
  request.find? fun c => (s.othersClaims p).any fun d => c.conflicts d

/-- The stream timer of a job when the engine sets it: the data timeout of a WRITE, the read stall of a READ (R124,
R125). -/
def PortConfig.streamTimer (c : PortConfig) (j : Job) : Option Nat :=
  match j.kind with
  | .write => some c.dataTimeout
  | .read => some c.readStall
  | _ => none

/-- The engine takes a job up (R101): the record, the order (R97), the first span's place (R98), the stream timer. -/
def State.takeUp (s : State) (p : Port) (e : Entry) : EngineRecord :=
  let d := e.job.directions
  { seq := e.seq
    job := e.job
    src := e.job.src.bind s.geo
    dst := e.job.dst.bind s.geo
    upward := d.1
    leftward := d.2
    row := if d.1 then e.job.rect.h - 1 else 0
    col := if d.2 then e.job.rect.w - 1 else 0
    stopMark := false
    timer := (s.port p).config.streamTimer e.job
    spanSlot := false }

/-- A waiting claim request is tested and, when nothing conflicts, granted (R91): the claims are added, the head goes to
ACTIVE, its wait timer is gone, and the engine takes the job up, all in one step (R75). -/
def State.tryGrant (s : State) (p : Port) : State :=
  match (s.port p).request, (s.port p).queue.entries with
  | some cs, e :: rest =>
    if e.isWaiting && (s.firstConflict p cs).isNone then
      s.modPort p fun b =>
        { b with
          claims := cs
          request := none
          record := some (s.takeUp p e)
          queue := { b.queue with entries := { e with state := .active ⟨false, false, false⟩ } :: rest } }
    else s
  | _, _ => s

/-- A port's claims are released, and every waiting request is reconsidered, from the port after it round (R92). -/
def State.releaseClaims (s : State) (p : Port) : State :=
  p.roundAfter.foldl (fun s q => s.tryGrant q) (s.modPort p fun b => { b with claims := [] })

/-! ### Fault log (R132, R133) -/

/-- The FREE record with the lowest index (R132). -/
def FaultLog.firstFree (l : FaultLog) : Option Nat :=
  (List.range 12).find? fun i => (l.records[i]?).getD none == none

/-- The serial after this one; 65535 advances to 1 (R130, R132). -/
def nextSerial (n : Nat) : Nat := if 65535 ≤ n then 1 else n + 1

/-- A record is logged at index `i` (R132, steps 1 to 4). -/
def FaultLog.log (l : FaultLog) (i : Nat) (p : Port) (seq : Nat) (kind : JobKind) (d : FaultDetail) : FaultLog :=
  { records := l.records.setIfInBounds i (some ⟨nextSerial l.serial, p, seq, kind, d⟩)
    serial := nextSerial l.serial
    arrival := l.arrival ++ [i] }

/-- The FAULT flag is set unless the kind is quiet for the port (R132, R133, R134). -/
def PortBlock.raiseFault (b : PortBlock) (k : FaultKind) : PortBlock :=
  if b.config.quiet.get k then b else b.raise .fault

/-- A fault is handed over (R131): logged when a record is FREE (R132), else LOG-FULL is set (R133). Answers the index
for the notice. With the log full, LOG-FULL is set before FAULT, so an attention frame placed at once shows LOG-FULL without
this FAULT (DEDUCED, log 30). -/
def State.logFault (s : State) (p : Port) (seq : Nat) (kind : JobKind) (d : FaultDetail) : State × Option Nat :=
  match s.faultLog.firstFree with
  | some i =>
    (({ s with faultLog := s.faultLog.log i p seq kind d }).modPort p fun b => b.raiseFault d.kind, some i)
  | none => (s.modPort p fun b => (b.raise .logFull).raiseFault d.kind, none)

/-- A record goes to FREE and its index leaves the arrival list (R137, R138). -/
def FaultLog.free (l : FaultLog) (i : Nat) : FaultLog :=
  { l with records := l.records.setIfInBounds i none, arrival := l.arrival.filter fun j => j != i }

/-- The record at an index, if PENDING. -/
def FaultLog.record (l : FaultLog) (i : Nat) : Option FaultRecord := (l.records[i]?).getD none

/-- The indexes of a port's PENDING records in arrival order (R135, R136). -/
def FaultLog.ofPort (l : FaultLog) (p : Port) : List Nat :=
  l.arrival.filter fun i => (l.record i).any fun r => r.port == p

/-- The first pending index of a port (R135). -/
def FaultLog.firstPending (l : FaultLog) (p : Port) : Option Nat := (l.ofPort p).head?

/-- Every PENDING record of a port is freed (R138). -/
def FaultLog.freePort (l : FaultLog) (p : Port) : FaultLog :=
  { l with
    records := l.records.map fun r => if r.any fun x => x.port == p then none else r
    arrival := l.arrival.filter fun i => !((l.record i).any fun r => r.port == p) }

/-! ### Run state and notices (R78, R80, R81) -/

/-- The contents of a HALT reply (10.5): HALTED 0x01 or RESUMED-BEFORE-HALT 0x02. -/
def haltContents (outcome : Nat) : List Byte := enc8 outcome ++ enc8 0

/-- The queue goes to HALTED: the HALT waiters are answered HALTED (R81) and the HALTED flag is set (R80). -/
def PortBlock.becomeHalted (b : PortBlock) : PortBlock :=
  let b := { b with queue := { b.queue with run := .halted } }
  let ws := b.queue.haltWaiters
  (({ b with queue := { b.queue with haltWaiters := [] } }).answerAll ws (haltContents 0x01)).raise .halted

/-- A WAITING head goes back to QUEUED by a halt (R75, R80). -/
def PortBlock.unwait (b : PortBlock) : PortBlock :=
  match b.queue.entries with
  | e :: rest =>
    if e.isWaiting then
      { b with queue := { b.queue with entries := { e with state := .queued false } :: rest } }.withdraw
    else b
  | [] => b

/-- The payload of a JOB-END notice (10.7). -/
def noticePayload (e : Entry) (status : JobStatus) (index : Option Nat) : List Byte :=
  enc8 0x01 ++ enc8 e.job.kind.code ++ enc16 e.seq ++ enc8 status.code ++ enc8 (index.getD 0xFF) ++ enc16 0 ++
    enc32 e.job.tag.toNat

/-- A job that ends with this status has its notice placed (R78): FAULTED and GONE always, DONE with notify, CANCELLED
never. -/
def noticePlaced (notify : Bool) : JobStatus → Bool
  | .done => notify
  | .faulted => true
  | .gone => true
  | .cancelled => false

/-- The JOB-END notice goes into the notice slot, or the slot is released (R78). -/
def PortBlock.placeNotice (b : PortBlock) (e : Entry) (status : JobStatus) (index : Option Nat) : PortBlock :=
  if noticePlaced e.notify status then { b with link := b.link.fill .ntc (noticePayload e status index) }
  else { b with link := b.link.release }

/-- The contents of a CANCEL reply (10.5, R84). -/
def cancelContents (outcomes : List (Nat × JobStatus)) : List Byte :=
  enc8 outcomes.length ++ enc8 0 ++ outcomes.flatMap fun o => enc16 o.1 ++ enc8 o.2.code

/-- Each CANCEL waiter is answered with the ACTIVE job's status and the entries it removed, in queue order (R85). The spec
gives no order among the waiters: the oldest is answered first (DESIGN CHOICE, log 29). -/
def PortBlock.answerCancels (b : PortBlock) (seq : Nat) (status : JobStatus) : PortBlock :=
  let ws := b.queue.cancelWaiters
  ws.foldl (fun b w => b.answer w.id (cancelContents ((seq, status) :: w.removed.map fun q => (q, .cancelled))))
    { b with queue := { b.queue with cancelWaiters := [] } }

/-! ### The end of a job (R77, R79) -/

/-- The head `e` leaves the queue of port `p` with this status, by the six steps of R77 in their order: the entry removed; an
ACTIVE job's claims released and requests reconsidered; its pins dropped; the notice placed or its slot released; staged
bytes discarded; CANCEL waiters answered, and the run state changed when the queue is HALTING or `halts` (R79, R81). A revoke
or close whose last pin was among those dropped is no part of R77's list: the canvas manager ends it then, in the same step
(R45, R53; log 3). -/
def State.endHead (s : State) (p : Port) (e : Entry) (status : JobStatus) (index : Option Nat) (halts : Bool) : State :=
  let s := s.modPort p fun b =>
    { b with record := none, request := none,
             queue := { b.queue with entries := b.queue.entries.tail, report := none } }
  let s := if e.isActive then s.releaseClaims p else s
  let s := s.dropPins p e.pins
  let s := s.modPort p fun b =>
    let b := (b.placeNotice e status index).refreshStaging.answerCancels e.seq status
    if b.queue.run = .halting || (halts && b.queue.run = .run) then b.becomeHalted else b
  s.settleAll p e.pins

/-- The head ends FAULTED (R79): the fault is handed to the fault log, and the port's severity for the kind decides
whether the queue halts. -/
def State.endFaulted (s : State) (p : Port) (e : Entry) (d : FaultDetail) : State :=
  let halts := (s.port p).config.severityHalt.get d.kind
  let r := s.logFault p e.seq e.job.kind d
  r.1.endHead p e .faulted r.2 halts

/-! ### The clear unit (R32, R34, R35) -/

/-- A block access of the clear unit is in progress at the store (R35, log 16). -/
def State.clearingBlock (s : State) : Bool :=
  match s.arbiter.serving with
  | some (.block ..) => true
  | _ => false

/-- The canvas manager asks for the removal of the CLEARING canvas in slot `n` (R16, R35): at once, with its release, or
as a removal pending. -/
def State.abandonClearing (s : State) (n : Nat) : State :=
  if s.clear.list.head? = some n then
    if s.clearingBlock then { s with clear := { s.clear with removalPending := true } }
    else ({ s with clear := { s.clear with list := s.clear.list.tail, clearedSoFar := 0 } }).release n
  else ({ s with clear := { s.clear with list := s.clear.list.filter fun m => m != n } }).release n

/-! ### Time (R61, R75, R124 to R126, R174) -/

/-- The held bytes cover the next span of the port's WRITE (R102, R124). -/
def PortBlock.writeReady (b : PortBlock) (r : EngineRecord) : Bool := r.spanBytes ≤ b.staging.held.length

/-- The stream timer of the port's job counts down (R124, R125): no span in progress, and a WRITE short of data or a READ
without a free slot. -/
def PortBlock.streamCounts (b : PortBlock) (busy : Bool) : Bool :=
  match b.record with
  | none => false
  | some r =>
    !busy &&
      match r.job.kind with
      | .write => !b.writeReady r
      | .read => b.link.freeSlots == 0
      | _ => false

/-- `ms` milliseconds of a wait timer pass. -/
def Entry.elapse (ms : Nat) (e : Entry) : Entry :=
  match e.state with
  | .waiting left => { e with state := .waiting (left - ms) }
  | _ => e

def WaitMode.elapse (ms : Nat) : WaitMode → WaitMode
  | .drain left => .drain (left - ms)
  | .cut => .cut

/-- `ms` milliseconds pass for the timers of a port: resend, wait, and the stream timer while it counts. -/
def PortBlock.elapse (ms : Nat) (busy : Bool) (b : PortBlock) : PortBlock :=
  { b with
    link := { b.link with resendTimer := b.link.resendTimer.map (· - ms) }
    queue := { b.queue with entries := b.queue.entries.map (Entry.elapse ms) }
    record :=
      if b.streamCounts busy then b.record.map fun r => { r with timer := r.timer.map (· - ms) } else b.record }

/-- `ms` milliseconds pass for the deadlines of a slot (R61). -/
def Slot.elapse (ms : Nat) (x : Slot) : Slot :=
  { x with canvas := x.canvas.map fun c =>
      { c with
        grants := c.grants.map fun g => { g with revoke := g.revoke.map fun r => { r with mode := r.mode.elapse ms } }
        phase :=
          match c.phase with
          | .closing op => .closing { op with mode := op.mode.elapse ms }
          | ph => ph } }

/-- `ms` milliseconds pass: every timer that runs comes that much nearer its expiry; one that has reached 0 is due
(log 6). -/
def State.elapse (s : State) (ms : Nat) : State :=
  { s with
    ports := ⟨s.ports.p0.elapse ms (s.spanBusy .p0), s.ports.p1.elapse ms (s.spanBusy .p1),
              s.ports.p2.elapse ms (s.spanBusy .p2), s.ports.p3.elapse ms (s.spanBusy .p3)⟩
    slots := s.slots.map (Slot.elapse ms) }

/-! ### Commands -/

/-- While the reset pin is asserted no block acts (R161): the command changes nothing. Otherwise it leaves `t`. -/
def State.unlessHeld (s : State) (t : State) : Host.Outcome State Fault Refusal := .next (if s.resetPin then s else t)

/-- The oldest frame of the port's inbound buffer, if this row processes it, with the state after it has left the buffer
(R181). -/
def State.takeFrame (s : State) (p : Port) (row : StreamRow) : Option (List Byte × State) :=
  match (s.port p).link.inbound with
  | [] => none
  | f :: rest =>
    if f.row = row then some (f.payload, s.modPort p fun b => { b with link := { b.link with inbound := rest } })
    else none

/-- A row of the request unit: the frame is processed by `f`; without such a frame there is nothing to do (logs 1
and 11). -/
def State.process (s : State) (p : Port) (row : StreamRow) (f : List Byte → State → State) :
    Host.Outcome State Fault Refusal :=
  s.unlessHeld (match s.takeFrame p row with
    | none => s
    | some (payload, s') => f payload s')

/-- The request in course, of this payload, is answered (R184). -/
def State.reply (s : State) (p : Port) (payload : List Byte) (status : Status) (contents : List Byte) : State :=
  s.modPort p fun b => b.reply (byteAt payload 0) status (reqId payload) contents

/-- The request in course is refused: a reply header alone (R184). -/
def State.refuse (s : State) (p : Port) (payload : List Byte) (status : Status) : State := s.reply p payload status []

/-- The request in course is deferred (R184). -/
def State.defer (s : State) (p : Port) (payload : List Byte) : State :=
  s.modPort p fun b => b.defer (byteAt payload 0) (reqId payload)

end Sys2Proof.Machine
end

