-- ==== Sys2Proof/Machine/Canvases.lean ====
section
/-! DEFINITION. Opening and asking about canvases (1.5, 1.6), and the clear unit's report of a block (2.4): OPEN, QUERY,
LIST, BLOCK_CLEARED. -/

namespace Sys2Proof.Machine

/-! ### OPEN (R11 to R14) -/

/-- What an OPEN asks (R11, 10.5): a fill or tag that is not present is 0 (R187). -/
structure OpenAsk where
  width : Nat
  height : Nat
  format : Format
  fill : Colour
  tag : BitVec 32
  deriving DecidableEq, Repr

/-- The OPEN a payload asks, unless it is MALFORMED (R11, R187). -/
def parseOpen (payload : List Byte) : Option OpenAsk :=
  if !ReqKind.openCanvas.lengthOk payload.length then none
  else
    (Format.ofCode (num8 payload 8)).map fun f =>
      ⟨num16 payload 4, num16 payload 6, f, BitVec.ofNat 32 (num32 payload 10), BitVec.ofNat 32 (num32 payload 14)⟩

/-- The blocks the canvas would need (R5). -/
def OpenAsk.blocks (a : OpenAsk) : Nat := a.format.blockCount a.width a.height

/-- The width and the height lie in 1 to 4096 (R11). -/
def OpenAsk.inBounds (a : OpenAsk) : Bool := 1 ≤ a.width && a.width ≤ 4096 && 1 ≤ a.height && a.height ≤ 4096

/-- The port's quotas allow the canvas (R12). -/
def PortBlock.quotaAllows (b : PortBlock) (blocks : Nat) : Bool :=
  b.canvasesHeld < b.canvasQuota && b.blocksHeld + blocks ≤ b.blockQuota && blocks ≤ Config.blocks

/-- The FREE slot with the lowest number (R13). -/
def State.freeSlot (s : State) : Option Nat := slotNumbers.find? fun n => (s.canvas n).isNone

/-- The OPEN is taken into slot `n` with the run that begins at block `f` (R14). -/
def State.takeOpen (s : State) (p : Port) (id : ReqId) (a : OpenAsk) (n f : Nat) : State :=
  let s := s.setCanvas n
    { owner := p
      format := a.format
      width := a.width
      height := a.height
      pitch := a.format.pitch a.width
      firstBlock := f
      blockCount := a.blocks
      tag := a.tag
      fill := a.format.truncate a.fill
      ownerPins := 0
      grants := []
      phase := .clearing ⟨p, id⟩ }
  let s := { s with
    allocated := allocateRun s.allocated f a.blocks
    clear := { s.clear with list := s.clear.list ++ [n] } }
  s.modPort p fun b => { b with canvasesHeld := b.canvasesHeld + 1, blocksHeld := b.blocksHeld + a.blocks }

/-- OPEN: MALFORMED, BOUNDS, QUOTA, NO-SPACE, or taken with the reply deferred (R11 to R14). -/
def execOpenCanvas (p : Port) (s : State) : Host.Outcome State Fault Refusal :=
  s.process p (.request .openCanvas) fun payload s =>
    match parseOpen payload with
    | none => s.refuse p payload .malformed
    | some a =>
      if !a.inBounds then s.refuse p payload .bounds
      else if !(s.port p).quotaAllows a.blocks then s.refuse p payload .quota
      else
        match s.freeSlot, firstFit s.allocated a.blocks with
        | some n, some f => (s.takeOpen p (reqId payload) a n f).defer p payload
        | _, _ => s.refuse p payload .noSpace

/-! ### QUERY (R17) -/

/-- Grant state in QUERY (R186). -/
def Grant.stateCode (g : Grant) : Nat :=
  match g.revoke with
  | none => 0x01
  | some r =>
    match r.mode with
    | .drain _ => 0x02
    | .cut => 0x03

/-- The canvas record as a QUERY reply carries it (10.5). -/
def queryContents (h : Handle) (c : Canvas) : List Byte :=
  let closing := match c.phase with
    | .closing op => some op
    | _ => none
  enc16 h.toNat ++ enc8 (if closing.isSome then 0x03 else 0x02) ++ enc8 c.owner.num ++ enc8 c.format.code ++
    enc8 c.grants.length ++ enc16 c.width ++ enc16 c.height ++ enc16 c.pitch ++ enc16 c.firstBlock ++
    enc16 c.blockCount ++ enc32 c.tag.toNat ++ enc32 c.fill.toNat ++ enc8 c.ownerPins ++ enc8 c.pinCount ++
    enc8 ((closing.map fun op => op.mode.code).getD 0x00) ++ enc8 0 ++
    c.grants.flatMap fun g => enc8 g.port.num ++ enc8 g.rights.code ++ enc8 g.stateCode ++ enc8 g.pins

/-- QUERY: MALFORMED, BAD-HANDLE, NO-RIGHT, or the record as it stands (R17). -/
def execQuery (p : Port) (s : State) : Host.Outcome State Fault Refusal :=
  s.process p (.request .query) fun payload s =>
    if !ReqKind.query.lengthOk payload.length then s.refuse p payload .malformed
    else
      let h := handleAt payload 4
      match s.lookup h with
      | none => s.refuse p payload .badHandle
      | some c =>
        if c.owner = p || (c.grantTo p).isSome || p = .p0 then s.reply p payload .ok (queryContents h c)
        else s.refuse p payload .noRight

/-! ### LIST (R18) -/

/-- The asking port's relation to a canvas (R186): OWNED, GRANT-R, GRANT-RW or NONE. -/
def Canvas.relation (c : Canvas) (p : Port) : Nat :=
  if c.owner = p then 0x01
  else
    match c.grantTo p with
    | some g => if g.rights = .r then 0x02 else 0x03
    | none => 0x00

/-- The entry of slot `n` in a LIST reply, if it is listed (R18, 10.5): LIVE or CLOSING, and named by the port unless
ALL is asked. -/
def State.listEntry (s : State) (p : Port) (all : Bool) (n : Nat) : List Byte :=
  match s.canvas n with
  | none => []
  | some c =>
    if c.phase.known && (all || c.relation p != 0x00) then
      enc16 (s.handle n).toNat ++ enc8 (c.owner.num + if c.phase.isClosing then 0x80 else 0) ++ enc8 (c.relation p)
    else []

/-- The contents of a LIST reply: the entry count, then the entries in ascending slot order (10.5). -/
def State.listContents (s : State) (p : Port) (all : Bool) : List Byte :=
  let entries := slotNumbers.flatMap (s.listEntry p all)
  enc8 (entries.length / 4) ++ enc8 0 ++ entries

/-- LIST: MALFORMED, NOT-SUPERVISOR, or the list (R18; an option other than 0x00 and 0x01 is MALFORMED, log 14). -/
def execList (p : Port) (s : State) : Host.Outcome State Fault Refusal :=
  s.process p (.request .list) fun payload s =>
    if !ReqKind.list.lengthOk payload.length || 0x01 < num8 payload 4 then s.refuse p payload .malformed
    else
      let all := num8 payload 4 == 0x01
      if all && p != .p0 then s.refuse p payload .notSupervisor
      else s.reply p payload .ok (s.listContents p all)

/-! ### BLOCK_CLEARED (R34, R35, R15, R16) -/

/-- The contents of an OPEN reply (R15, 10.5). -/
def openContents (h : Handle) (c : Canvas) : List Byte :=
  enc16 h.toNat ++ enc16 c.pitch ++ enc16 c.firstBlock ++ enc16 c.blockCount

/-- The canvas in slot `n` goes LIVE and its OPEN is answered (R15). -/
def State.canvasLive (s : State) (n : Nat) : State :=
  match s.canvas n with
  | none => s
  | some c =>
    match c.phase with
    | .clearing w => (s.setCanvas n { c with phase := .live }).answerWaiters [w] (openContents (s.handle n) c)
    | _ => s

/-- The head of the clear list leaves it (R34, R35). -/
def ClearUnit.popHead (u : ClearUnit) : ClearUnit := ⟨u.list.tail, 0, false⟩

/-- The clear unit hears "block cleared" (R34, R35): a pending removal is reported and the canvas released; else the
block is counted, and the last one makes the canvas LIVE. -/
def State.blockReport (s : State) : State :=
  match s.clear.list with
  | [] => s
  | n :: _ =>
    if s.clear.removalPending then ({ s with clear := s.clear.popHead }).release n
    else
      let k := s.clear.clearedSoFar + 1
      if (s.canvas n).any fun c => k < c.blockCount then { s with clear := { s.clear with clearedSoFar := k } }
      else ({ s with clear := s.clear.popHead }).canvasLive n

/-- BLOCK_CLEARED: the block access in progress ends; every word of the block holds the pattern and is good (R25). -/
def execBlockCleared (s : State) : Host.Outcome State Fault Refusal :=
  match s.resetPin, s.arbiter.serving with
  | false, some (.block b f fill) =>
    if b < Config.blocks then
      .next (State.blockReport { s with
        store := s.store.clearBlock b f fill
        arbiter := { s.arbiter with serving := none } })
    else .fault .storeAddressOutside
  | _, _ => .next s

end Sys2Proof.Machine
end

