-- ==== Sys2Proof/Machine/Engine.lean ====
section
/-! DEFINITION. The transfer engine and the store arbiter (2.2, 5.3, 6.4): SPAN_BEGIN, STORE_ACCESS_BEGIN, SPAN_COMPLETE,
SPAN_UNCORRECTABLE, DATA_TIMEOUT_EXPIRY, READ_STALL_EXPIRY. -/

namespace Sys2Proof.Machine

/-! ### SPAN_BEGIN (R102 to R104) -/

/-- The job of a record without a span in progress is ready (R102). -/
def PortBlock.jobReady (b : PortBlock) (r : EngineRecord) : Bool :=
  match r.job.kind with
  | .write => b.writeReady r
  | .read => b.link.freeSlots != 0
  | _ => true

/-- The port's ACTIVE job at the engine is ready (R102). -/
def PortBlock.ready (b : PortBlock) : Bool := b.record.any b.jobReady

/-- The arbiter's choice: the first port with a ready job, from the port after the last-served marker round (R103). -/
def State.nextToServe (s : State) : Option Port := s.engine.lastServed.roundAfter.find? fun p => (s.port p).ready

/-- What a WRITE span draws (R122): the bytes at the front of the held bytes; nothing for other kinds. -/
def PortBlock.spanData (b : PortBlock) : List Byte :=
  match b.record with
  | none => []
  | some r => if r.job.kind = .write then b.staging.held.take r.spanBytes else []

/-- A READ reserves the free slot for its DAT frame (R104). -/
def PortBlock.reserveSpanSlot (b : PortBlock) : PortBlock :=
  match b.record with
  | none => b
  | some r =>
    if r.job.kind = .read then { b with link := b.link.reserve, record := some { r with spanSlot := true } } else b

/-- The span of port `p`'s job begins: its access waits for the store (R104), and the marker names the port (R103). -/
def State.beginSpan (s : State) (p : Port) : State :=
  State.modPort { s with engine := ⟨some ⟨p, (s.port p).spanData⟩, p⟩ } p PortBlock.reserveSpanSlot

/-- The arbiter's choice of the next span, with none in progress (R103): the chosen port's span begins; with no job ready
the engine is idle and the marker keeps its value. -/
def State.chooseSpan (s : State) : State :=
  match s.nextToServe with
  | none => s
  | some p => s.beginSpan p

/-- SPAN_BEGIN: with no span in progress, the arbiter's choice begins (R103). -/
def execSpanBegin (s : State) : Host.Outcome State Fault Refusal :=
  s.unlessHeld (if s.engine.span.isSome then s else s.chooseSpan)

/-! ### STORE_ACCESS_BEGIN (R26, R34) -/

/-- The block access the clear unit asks for: the next block of the head canvas with its fill pattern (R34). -/
def State.blockRequest (s : State) : Option Access :=
  match s.clear.list with
  | [] => none
  | n :: _ => (s.canvas n).map fun c => .block (c.firstBlock + s.clear.clearedSoFar) c.format c.fill

/-- The span access the engine asks for (R104). -/
def State.spanRequest (s : State) : Option Access := s.engine.span.map fun _ => .span

/-- The store arbiter's choice among the waiting accesses (R26): the only one, or the one the marker does not name. -/
def State.arbiterChoice (s : State) : Option (Access × Requester) :=
  match s.spanRequest, s.blockRequest with
  | none, none => none
  | some a, none => some (a, .engine)
  | none, some b => some (b, .clearUnit)
  | some a, some b => if s.arbiter.lastServed = .engine then some (b, .clearUnit) else some (a, .engine)

/-- STORE_ACCESS_BEGIN: the idle store begins the access the arbiter chooses (R26). -/
def execStoreAccessBegin (s : State) : Host.Outcome State Fault Refusal :=
  s.unlessHeld (if s.arbiter.serving.isSome then s else
    match s.arbiterChoice with
    | none => s
    | some (a, r) => { s with arbiter := ⟨some a, r⟩ })

/-! ### Ends of spans (R105, R106, R112, R114) -/

/-- The span access the store carries out: its span and the record of its job. -/
def State.spanServed (s : State) : Option (Span × EngineRecord) :=
  match s.arbiter.serving, s.engine.span with
  | some .span, some x => (s.port x.port).record.map fun r => (x, r)
  | _, _ => none

/-- The access has ended: no span is in progress and the store is idle. -/
def State.endAccess (s : State) : State :=
  { s with engine := { s.engine with span := none }, arbiter := { s.arbiter with serving := none } }

/-- The payload of a READ span's DAT frame: the job sequence, the offset, the data (R127, 10.7). -/
def EngineRecord.datPayload (r : EngineRecord) (data : List Byte) : List Byte :=
  enc16 r.seq ++ enc32 r.spanOffset ++ data

/-- The link's part of a READ span's end (R105, R114): the DAT frame goes into the reserved slot, or, under the port's
reset, the slot is released. -/
def PortBlock.placeData (b : PortBlock) (r : EngineRecord) (data : List Byte) : Link :=
  if !r.spanSlot then b.link
  else if b.portState.isResetting then b.link.release
  else b.link.fill .dat (r.datPayload data)

/-- The report when the job has done its last span, or stops after this one (R105, R112). -/
def EngineRecord.endReport (r : EngineRecord) : Option Report :=
  match r.nextProgress, r.stopMark with
  | none, false => some .finished
  | none, true => some (.stopped .last)
  | some _, true => some (.stopped .notLast)
  | some _, false => none

/-- The record after a completed span that is not the job's end: progress advanced (R98), the read stall timer set
afresh when a DAT frame was placed (R125). -/
def EngineRecord.advance (r : EngineRecord) (readStall : Nat) : EngineRecord :=
  let n := r.nextProgress.getD (r.row, r.col)
  { r with row := n.1, col := n.2, spanSlot := false, timer := if r.spanSlot then some readStall else r.timer }

/-- The port's part of "span complete" (R105): a WRITE's bytes are consumed (R122), a READ's frame is placed, and the job
is reported or goes on. -/
def PortBlock.spanComplete (b : PortBlock) (r : EngineRecord) (data : List Byte) : PortBlock :=
  { b with
    staging := if r.job.kind = .write then { b.staging with held := b.staging.held.drop r.spanBytes } else b.staging
    link := if r.job.kind = .read then b.placeData r data else b.link
    record := if r.endReport.isSome then none else some (r.advance b.config.readStall)
    queue := { b.queue with report := if r.endReport.isSome then r.endReport else b.queue.report } }

/-- A span access ends good (R23, R105, steps 1 to 4): the words found with one flipped bit are noted (R22), the write phase
is done. -/
def State.spanCompleted (s : State) (x : Span) (r : EngineRecord) (corrected : List Nat) : State :=
  State.modPort
    { s.endAccess with store := r.writePhase (s.store.noteCorrected r.reads corrected) x.data }
    x.port fun b => b.spanComplete r (r.readData s.store)

/-- SPAN_COMPLETE (R105), with the arbiter's choice of the next span in the same step: `corrected` are the words among those
read in which a single flipped bit was found. A span that reads a word known to be uncorrectable does not end so (R24). A
word of three or more flipped bits has no case of its own: the spec gives only one and two, and a word found good or
correctable gives the data last written to it (DESIGN CHOICE, log 8). -/
def execSpanComplete (corrected : List Nat) (s : State) : Host.Outcome State Fault Refusal :=
  match s.resetPin, s.spanServed with
  | false, some (x, r) =>
    if !r.accessInStore then .fault .storeAddressOutside
    else if (s.store.firstUncorrectable r.reads).isSome then .next s
    else .next (s.spanCompleted x r corrected).chooseSpan
  | _, _ => .next s

/-- The run of a canvas holds a block (R106). -/
def Geo.holdsBlock (g : Geo) (block : Nat) : Bool := g.firstBlock ≤ block && block < g.firstBlock + g.blockCount

/-- The handle of the canvas whose run holds a block: the source, or else the destination (R106). -/
def EngineRecord.canvasOfBlock (r : EngineRecord) (block : Nat) : Handle :=
  match r.src, r.dst with
  | some a, some b => if a.holdsBlock block then a.handle else b.handle
  | some a, none => a.handle
  | none, some b => b.handle
  | none, none => 0

/-- The fault of a span that met the uncorrectable word `w` first (R24, R106). -/
def EngineRecord.eccFault (r : EngineRecord) (w : Nat) : FaultDetail :=
  let block := w / Config.blockWords
  ⟨.storeEcc, r.canvasOfBlock block, some (r.row, r.col), some block⟩

/-- The port's part of "span uncorrectable" (R106): a READ's slot is released, nothing is consumed, the job is reported
and its record removed. -/
def PortBlock.spanUncorrectable (b : PortBlock) (r : EngineRecord) (d : FaultDetail) : PortBlock :=
  { b with
    link := if r.spanSlot then b.link.release else b.link
    record := none
    queue := { b.queue with report := some (if r.stopMark then .stopped (.uncorrectable d) else .uncorrectable d) } }

/-- A span access ends without a write phase (R24, R106, steps 1 to 5 but for the choice): `word` is uncorrectable, and the
first uncorrectable word in the order of reading is reported. -/
def State.spanFailed (s : State) (x : Span) (r : EngineRecord) (word : Nat) : State :=
  let store := s.store.setCondition word .uncorrectable
  let first := (store.firstUncorrectable r.reads).getD word
  State.modPort { s.endAccess with store := store } x.port fun b => b.spanUncorrectable r (r.eccFault first)

/-- SPAN_UNCORRECTABLE (R106), with the arbiter's choice of the next span in the same step: the read phase found `word`, one
of the words it reads, uncorrectable. -/
def execSpanUncorrectable (word : Nat) (s : State) : Host.Outcome State Fault Refusal :=
  match s.resetPin, s.spanServed with
  | false, some (x, r) =>
    if !r.accessInStore then .fault .storeAddressOutside
    else if r.reads.contains word then .next (s.spanFailed x r word).chooseSpan
    else .next s
  | _, _ => .next s

/-! ### Stream timers (R124 to R126) -/

/-- The fault of an expired stream timer (R126): the job's canvas and its progress. -/
def EngineRecord.streamFault (r : EngineRecord) (kind : FaultKind) : FaultDetail :=
  ⟨kind, (r.spanGeo.map Geo.handle).getD 0, some (r.row, r.col), none⟩

/-- The engine removes the record and reports "timed out" (R126). -/
def PortBlock.timedOut (kind : FaultKind) (b : PortBlock) : PortBlock :=
  match b.record with
  | none => b
  | some r => { b with record := none, queue := { b.queue with report := some (.timedOut (r.streamFault kind)) } }

/-- The stream timer of a port's job of kind `job` counts and expires: the time left passes, and the job is timed out. -/
def State.streamExpiry (s : State) (p : Port) (job : JobKind) (kind : FaultKind) : State :=
  match (s.port p).record with
  | none => s
  | some r =>
    if r.job.kind = job && (s.port p).streamCounts (s.spanBusy p) then
      (s.elapse (r.timer.getD 0)).modPort p (PortBlock.timedOut kind)
    else s

/-- DATA_TIMEOUT_EXPIRY: of an ACTIVE WRITE that is short of data (R124, R126). -/
def execDataTimeoutExpiry (p : Port) (s : State) : Host.Outcome State Fault Refusal :=
  s.unlessHeld (s.streamExpiry p .write .dataTimeout)

/-- READ_STALL_EXPIRY: of an ACTIVE READ that has no free slot (R125, R126). -/
def execReadStallExpiry (p : Port) (s : State) : Host.Outcome State Fault Refusal :=
  s.unlessHeld (s.streamExpiry p .read .readStall)

end Sys2Proof.Machine
end

