-- ==== Sys2Proof/Machine/Jobs.lean ====
section
/-! DEFINITION. The head of a queue, from dispatch to its end (4.3, 5.1): JOB_DISPATCH, CLAIM_GRANT, WAIT_TIMER_EXPIRY,
JOB_END. -/

namespace Sys2Proof.Machine

/-- A head that is no MARK goes WAITING: its notice slot, its wait timer and its claim request (R72). -/
def PortBlock.startWaiting (b : PortBlock) (e : Entry) : PortBlock :=
  { b with
    link := b.link.reserve
    request := some e.job.claims
    queue := { b.queue with entries := { e with state := .waiting b.config.waitTimeout } :: b.queue.entries.tail } }

/-- The QUEUED head `e` is dispatched: a cut entry ends GONE (R73), a MARK ends DONE (R74), any other goes WAITING (R72). -/
def State.dispatch (s : State) (p : Port) (e : Entry) : State :=
  match e.state with
  | .queued true => (s.modPort p fun b => { b with link := b.link.reserve }).endHead p e .gone none false
  | .queued false =>
    if e.job.kind = .mark then
      (s.modPort p fun b => { b with link := b.link.reserve }).endHead p e .done none false
    else s.modPort p fun b => b.startWaiting e
  | _ => s

/-- JOB_DISPATCH: in RUN, with a free slot, the QUEUED head is dispatched (R72). -/
def execJobDispatch (p : Port) (s : State) : Host.Outcome State Fault Refusal :=
  s.unlessHeld (match (s.port p).queue.entries with
    | [] => s
    | e :: _ => if (s.port p).queue.run = .run && (s.port p).link.freeSlots != 0 then s.dispatch p e else s)

/-- CLAIM_GRANT: a waiting claim request that conflicts with no claim present is granted (R91). -/
def execClaimGrant (p : Port) (s : State) : Host.Outcome State Fault Refusal := s.unlessHeld (s.tryGrant p)

/-- The fault of a head whose wait timer expires: the canvas of its first claim that conflicts (R94). -/
def State.waitFault (s : State) (c : Claim) : FaultDetail := ⟨.waitTimeout, s.handle c.slot, none, none⟩

/-- WAIT_TIMER_EXPIRY: the time left passes, and the WAITING head ends FAULTED (R75, R94). A request that conflicts with
nothing has been granted (R91, log 4), and its timer is gone. -/
def execWaitTimerExpiry (p : Port) (s : State) : Host.Outcome State Fault Refusal :=
  s.unlessHeld (match (s.port p).queue.entries, (s.port p).request with
    | e :: _, some cs =>
      match e.state, s.firstConflict p cs with
      | .waiting left, some c => (s.elapse left).endFaulted p e (s.waitFault c)
      | _, _ => s
    | _, _ => s)

/-! ### JOB_END (R76, R77, R86, R87) -/

/-- How a reported job ends (R76, R86): with a fault, or with a status. -/
def Report.ending (rep : Report) (causes : StopCauses) : FaultDetail ⊕ JobStatus :=
  match rep with
  | .finished => .inr .done
  | .uncorrectable d => .inl d
  | .timedOut d => .inl d
  | .stopped (.uncorrectable d) => .inl d
  | .stopped .last => .inr .done
  | .stopped _ => if causes.cut then .inr .gone else .inr .cancelled

/-- The queue reports that it has stopped when no entry remains (R87). -/
def PortBlock.reportStopped (b : PortBlock) : PortBlock :=
  match b.portState with
  | .resetting op => { b with portState := .resetting { op with queueStopped := b.queue.entries.isEmpty } }
  | _ => b

/-- The ACTIVE job of a RESETTING queue ends (R87): claims released, pins dropped, staged bytes discarded, no status, notice
or fault; then the canvas manager ends what the pins held (log 3). -/
def State.endForReset (s : State) (p : Port) (e : Entry) : State :=
  let s := s.modPort p fun b =>
    { b with record := none, queue := { b.queue with entries := b.queue.entries.tail, report := none } }
  let s := (s.releaseClaims p).dropPins p e.pins
  (s.modPort p fun b => b.refreshStaging.reportStopped).settleAll p e.pins

/-- The ACTIVE head `e` of which the engine has reported ends (R77). -/
def State.endJob (s : State) (p : Port) (e : Entry) (causes : StopCauses) (rep : Report) : State :=
  if (s.port p).queue.run = .resetting then s.endForReset p e
  else
    match rep.ending causes with
    | .inl d => s.endFaulted p e d
    | .inr status => s.endHead p e status none false

/-- JOB_END: the queue takes the engine's report and ends its ACTIVE job (R77). -/
def execJobEnd (p : Port) (s : State) : Host.Outcome State Fault Refusal :=
  s.unlessHeld (match (s.port p).queue.report, (s.port p).queue.entries with
    | some rep, e :: _ =>
      match e.state with
      | .active causes => s.endJob p e causes rep
      | _ => s
    | _, _ => s)

end Sys2Proof.Machine
end

