-- ==== Sys2Proof/Machine/PortReset.lean ====
section
/-! DEFINITION. The port reset (8.6): its beginning, what each block does at it, its completion, and the causes that join
it. -/

namespace Sys2Proof.Machine

/-! ### The port's own blocks at the beginning (R156) -/

/-- The ACTIVE entry gets the reset cause (R87). -/
def Entry.resetCause (e : Entry) : Entry :=
  match e.state with
  | .active c => { e with state := .active { c with reset := true } }
  | _ => e

/-- The entries left in RESETTING: the ACTIVE one, with the reset cause (R87). -/
def JobQueue.resetEntries (q : JobQueue) : List Entry := (q.entries.filter Entry.isActive).map Entry.resetCause

/-- The port's own blocks at the beginning of its reset (R156): RESETTING; outbound list, inbound buffer and deferred
entries emptied (R179, R184); queue RESETTING with its ACTIVE job asked to stop (R87); staging emptied (R129); attention
cleared (R146); configuration at its defaults (R154). -/
def PortBlock.beginReset (op : ResetOp) (busy : Bool) (b : PortBlock) : PortBlock :=
  let entries := b.queue.resetEntries
  let b' : PortBlock := { b with
    portState := .resetting { op with queueStopped := entries.isEmpty }
    link := b.link.beginReset
    deferred := []
    config := .default
    request := none
    record := b.record.map fun r => { r with spanSlot := false }
    attn := .reset
    staging := { b.staging with held := [], promised := 0, lastRejected := none }
    queue := { b.queue with run := .resetting, entries := entries, haltWaiters := [], cancelWaiters := [] } }
  (if entries.isEmpty then b' else b'.stopRequest busy).refreshStaging

/-- The pins dropped by the entries the reset removes: all but the ACTIVE one's (R87). -/
def JobQueue.resetDrops (q : JobQueue) : List Handle := (q.entries.filter fun e => !e.isActive).flatMap Entry.pins

/-- P0's requesters leave the port's reset operation (R159). -/
def PortBlock.dropRequesters (b : PortBlock) : PortBlock :=
  match b.portState with
  | .resetting op => { b with portState := .resetting { op with requesters := [] } }
  | _ => b

/-! ### The canvas manager's part (R56 to R58) -/

/-- The port's entries leave the revoke waiters and the close waiters of a canvas (R56). -/
def Canvas.dropWaiters (c : Canvas) (p : Port) : Canvas :=
  let keep := fun ws : List Waiter => ws.filter fun w => w.port != p
  { c with
    grants := c.grants.map fun g => { g with revoke := g.revoke.map fun r => { r with waiters := keep r.waiters } }
    phase :=
      match c.phase with
      | .closing op => .closing { op with waiters := keep op.waiters }
      | ph => ph }

/-- The revoke a grantee's reset makes of a grant (R58): CUT, with the grantee-reset mark. -/
def Grant.resetRevoke (g : Grant) : Grant :=
  { g with revoke := some ⟨.cut, (g.revoke.map RevokeOp.waiters).getD [], true⟩ }

/-- The canvas once the port's waiters have left its operations (R56) and, on another port's canvas, the port's grant is
REVOKING in CUT mode with the grantee-reset mark (R58). -/
def Canvas.resetMarks (p : Port) (c : Canvas) : Canvas :=
  let c := c.dropWaiters p
  if c.owner = p then c else c.modGrant p Grant.resetRevoke

/-- A slot with those marks on its canvas. -/
def Slot.resetMarks (p : Port) (x : Slot) : Slot := { x with canvas := x.canvas.map (Canvas.resetMarks p) }

/-- The canvas in slot `n`, which the port being reset owns, is closed or abandoned (R57, R16): CLOSING in CUT mode with the
reset mark, at its end at once with no pins, else cut unless it was being cut already. -/
def State.closeForReset (s : State) (n : Nat) : State :=
  match s.canvas n with
  | none => s
  | some c =>
    let close := fun (op : CloseOp) (cut : Bool) =>
      let s := s.setCanvas n { c with phase := .closing op }
      if c.pinCount = 0 then s.endClose n op else if cut then s.cutCanvas n else s
    match c.phase with
    | .clearing _ => s.abandonClearing n
    | .live => close ⟨.cut, [], false, true⟩ true
    | .closing op => close { op with mode := .cut, reset := true } (op.mode != .cut)

/-- The slots, ascending, whose canvas is one of those `f` picks. -/
def State.slotsWith (s : State) (f : Canvas → Bool) : List Nat := slotNumbers.filter fun n => (s.canvas n).any f

/-! ### Beginning (R156) -/

/-- The orders of a port reset, all in the step it begins (R156). First the port's own blocks take theirs, and the entries its
queue removes drop their pins: the queue's part, ordered before the canvas manager's. Then the canvas manager's: the port's
waiters leave every operation (R56), each grant it holds is marked (R58), the canvases it owns are closed or abandoned (R57,
R16), and its grants without pins end. So a revoke whose last pins the queue's part has dropped ends here, with the mark: R58 has
its owner learn that the grantee was reset rather than drained (DEDUCED, log 32). The spec gives no order among the canvases:
the model takes the slots in ascending order, first the closes and the abandonments, then the ends of grants, as item 3 of
R156 lists them (DESIGN CHOICE, log 25). -/
def State.beginReset (s : State) (p : Port) (op : ResetOp) : State :=
  let dropped := (s.port p).queue.resetDrops
  let busy := s.spanBusy p
  let s := (s.modPort p (PortBlock.beginReset op busy)).dropPins p dropped
  let s := if p = .p0 then { s with ports := s.ports.map PortBlock.dropRequesters } else s
  let s := { s with faultLog := s.faultLog.freePort p }
  let s := { s with slots := s.slots.map (Slot.resetMarks p) }
  let s := (s.slotsWith fun c => c.owner == p).foldl State.closeForReset s
  (s.slotsWith fun c => c.owner != p && c.revokeDue p).foldl (fun s n => s.settle n p) s

/-! ### Completion (R157, R158) -/

/-- No grant that carries the grantee-reset mark names the port (R157). -/
def State.noMarkedGrant (s : State) (p : Port) : Bool :=
  slotNumbers.all fun n =>
    match s.canvas n with
    | none => true
    | some c => !(c.grants.any fun g => g.port == p && g.revoke.any RevokeOp.granteeReset)

/-- The three conditions of a reset's completion (R157). -/
def State.resetDone (s : State) (p : Port) (op : ResetOp) : Bool :=
  op.queueStopped && (s.port p).canvasesHeld == 0 && (s.port p).blocksHeld == 0 && s.noMarkedGrant p

/-- The contents of a PORT-SET or RESET-PORT reply: the target's state and quotas (10.5). -/
def portContents (t : Port) (b : PortBlock) : List Byte :=
  enc8 t.num ++ enc8 b.portState.code ++ enc16 b.blockQuota ++ enc16 b.canvasQuota

/-- The port's own part of the completion (R158, steps 1 to 4; R179). -/
def PortBlock.completeReset (p : Port) (op : ResetOp) (b : PortBlock) : PortBlock :=
  { b with
    blockQuota := (op.quotas.map Prod.fst).getD b.blockQuota
    canvasQuota := (op.quotas.map Prod.snd).getD b.canvasQuota
    queue := .reset
    portState := op.final.portState
    link :=
      match op.hello with
      | some id => b.link.beginSession p id
      | none => { b.link with expected := 0, nextOut := 0 } }

/-- The completion of a port reset (R158): the requesters are answered in their slots on P0, oldest first. -/
def State.completeReset (s : State) (p : Port) (op : ResetOp) : State :=
  let s := s.modPort p (PortBlock.completeReset p op)
  s.modPort .p0 fun b => b.answerAll op.requesters (portContents p (s.port p))

/-- The reset operation in course on a port. -/
def PortState.resetOp : PortState → Option ResetOp
  | .resetting op => some op
  | _ => none

/-- The reset of `p` completes if its three conditions hold (R157). -/
def State.tryComplete (s : State) (p : Port) : State :=
  match (s.port p).portState.resetOp with
  | none => s
  | some op => if s.resetDone p op then s.completeReset p op else s

/-! ### P0's requests that begin or join a reset (R153, R156, R159) -/

/-- P0's request `payload` begins a reset of `t`. It completes in the same step when its conditions hold, and is then
answered at once; otherwise the reply is deferred (R157, R184). -/
def State.beginForRequest (s : State) (payload : List Byte) (t : Port) (final : FinalState)
    (quotas : Option (Nat × Nat)) : State :=
  let s := (s.beginReset t ⟨final, [], none, quotas, false⟩).tryComplete t
  match (s.port t).portState.resetOp with
  | none => s.reply .p0 payload .ok (portContents t (s.port t))
  | some op =>
    (s.modPort t fun b => { b with portState := .resetting { op with requesters := [reqId payload] } }).defer .p0 payload

/-- P0's request `payload` joins the reset in course on `t` (R159). -/
def State.joinReset (s : State) (payload : List Byte) (t : Port) (op : ResetOp) (final : FinalState)
    (quotas : Option (Nat × Nat)) : State :=
  let joined : ResetOp := { op with
    final := final
    requesters := op.requesters ++ [reqId payload]
    hello := if final = .up then op.hello else none
    quotas := quotas.orElse fun _ => op.quotas }
  (s.modPort t fun b => { b with portState := .resetting joined }).defer .p0 payload

/-- PORT_RESET_COMPLETE: the reset of `p` completes when its queue has stopped, its holdings are zero and no marked
grant remains (R157, R158). -/
def execPortResetComplete (p : Port) (s : State) : Host.Outcome State Fault Refusal := s.unlessHeld (s.tryComplete p)

end Sys2Proof.Machine
end

