-- ==== Sys2Proof/Machine/QueueControl.lean ====
section
/-! DEFINITION. The host's controls of its queue (4.4, 4.5): HALT, RESUME, CANCEL. -/

namespace Sys2Proof.Machine

/-- A HALT is taken in each run state (R80). -/
def PortBlock.takeHalt (payload : List Byte) (b : PortBlock) : PortBlock :=
  let kind := byteAt payload 0
  let id := reqId payload
  let wait := fun b : PortBlock =>
    ({ b with queue := { b.queue with run := .halting, haltWaiters := b.queue.haltWaiters ++ [id] } }).defer kind id
  match b.queue.run with
  | .run =>
    if b.queue.active.isSome then wait b
    else
      let b := { b.unwait with queue := { b.unwait.queue with run := .halted } }
      (b.reply kind .ok id (haltContents 0x01)).raise .halted
  | .halting => wait b
  | .halted => b.reply kind .ok id (haltContents 0x01)
  | .resetting => b

/-- HALT (R80, R188: on a LOST port as on an UP one). -/
def execHalt (p : Port) (s : State) : Host.Outcome State Fault Refusal :=
  s.process p (.request .halt) fun payload s =>
    if !ReqKind.halt.lengthOk payload.length then s.refuse p payload .malformed
    else s.modPort p (PortBlock.takeHalt payload)

/-- A RESUME is taken in each run state (R82). In HALTING the HALT waiters are answered before the RESUME itself (log 15), the
oldest first: R82 gives no order among them (DESIGN CHOICE, log 29). -/
def PortBlock.takeResume (payload : List Byte) (b : PortBlock) : PortBlock :=
  let b' :=
    match b.queue.run with
    | .halted => { b with queue := { b.queue with run := .run } }
    | .halting =>
      ({ b with queue := { b.queue with run := .run, haltWaiters := [] } }).answerAll b.queue.haltWaiters
        (haltContents 0x02)
    | _ => b
  b'.reply (byteAt payload 0) .ok (reqId payload) []

/-- RESUME (R82, R188). -/
def execResume (p : Port) (s : State) : Host.Outcome State Fault Refusal :=
  s.process p (.request .resume) fun payload s =>
    if !ReqKind.resume.lengthOk payload.length then s.refuse p payload .malformed
    else s.modPort p (PortBlock.takeResume payload)

/-- A CANCEL names the entry: by its sequence, or by ALL, which 0 stands for (R84, 10.5). A job whose last span has ended
leaves no entry to name (R85). -/
def JobQueue.cancelNames (q : JobQueue) (target : Nat) (e : Entry) : Bool :=
  (target == 0 || e.seq == target) && !(e.isActive && q.report.any Report.reachedEnd)

/-- The cancel cause is added to an ACTIVE entry's stop causes (R85). -/
def Entry.cancelCause (e : Entry) : Entry :=
  match e.state with
  | .active c => { e with state := .active { c with cancel := true } }
  | _ => e

/-- The named entries that are not ACTIVE leave the queue (R84); a WAITING one withdraws its claim request and releases
its slot. -/
def PortBlock.cancelEntries (b : PortBlock) (target : Nat) : PortBlock :=
  let named := b.queue.cancelNames target
  let waiting := b.queue.entries.any fun e => named e && e.isWaiting
  let b' := { b with queue := { b.queue with entries :=
    (b.queue.entries.filter fun e => !named e || e.isActive).map fun e => if named e then e.cancelCause else e } }
  (if waiting then b'.withdraw else b').refreshStaging

/-- A CANCEL whose reply waits for the ACTIVE job joins the CANCEL waiters (R85). -/
def PortBlock.addCancelWaiter (b : PortBlock) (w : CancelWaiter) : PortBlock :=
  { b with queue := { b.queue with cancelWaiters := b.queue.cancelWaiters ++ [w] } }

/-- CANCEL (R84, R85): NO-JOB when a sequence matches no entry; else the entries named that are not ACTIVE are removed, and a
named ACTIVE one is asked to stop with the reply deferred. The steps of R77 that apply to a removed entry come before the
reply, its pins among them; then the canvas manager ends what the pins held (log 3). -/
def execCancel (p : Port) (s : State) : Host.Outcome State Fault Refusal :=
  s.process p (.request .cancel) fun payload s =>
    if !ReqKind.cancel.lengthOk payload.length then s.refuse p payload .malformed
    else
      let target := num16 payload 4
      let q := (s.port p).queue
      let named := q.entries.filter (q.cancelNames target)
      if target != 0 && named.isEmpty then s.refuse p payload .noJob
      else
        let removed := named.filter fun e => !e.isActive
        let busy := s.spanBusy p
        let pins := removed.flatMap Entry.pins
        let s := (s.modPort p fun b => b.cancelEntries target).dropPins p pins
        let seqs := removed.map Entry.seq
        let s :=
          if named.any Entry.isActive then
            (s.modPort p fun b : PortBlock =>
              (b.addCancelWaiter ⟨reqId payload, seqs⟩).stopRequest busy).defer p payload
          else s.reply p payload .ok (cancelContents (seqs.map fun n => (n, .cancelled)))
        s.settleAll p pins

end Sys2Proof.Machine
end

