-- ==== Sys2Proof/Machine/Receive.lean ====
section
/-! DEFINITION. Frames that arrive on a port's lane (9.1, 9.2): FRAME_LENGTH_ERROR, CRC_ERROR, UNKNOWN_CLASS_FRAME,
REQ_DAT_FRAME_RECEIVED, ACK_FRAME_RECEIVED, HELLO_FRAME_RECEIVED. Each carries the bytes that have arrived; the receiver
reads them after those it still has (R163, log 10), and the command takes place when what it finds first is the row's. -/

namespace Sys2Proof.Machine

/-- What the receiver of port `p` finds first (R163). -/
def State.rxEvent (s : State) (p : Port) (bytes : List Byte) : RxEvent := receive ((s.port p).link.rx ++ bytes)

/-- The receiver hunts again in the bytes `rest` (R163). -/
def Link.huntAgain (l : Link) (rest : List Byte) : Link := { l with rx := hunt rest }

/-- The port's reaction `f` to what has arrived, the receiver hunting again in `rest`. -/
def State.arrived (s : State) (p : Port) (rest : List Byte) (f : PortBlock → PortBlock) : State :=
  s.modPort p fun b => f { b with link := b.link.huntAgain rest }

/-- A NAK is made pending on the port. -/
def PortBlock.nak (b : PortBlock) (reason : NakReason) (seq : BitVec 8) : PortBlock :=
  { b with link := b.link.makeNak reason seq }

/-- FRAME_LENGTH_ERROR: a length above 1040; what was gathered is discarded, no NAK is sent (R163). -/
def execFrameLengthError (p : Port) (bytes : List Byte) (s : State) : Host.Outcome State Fault Refusal :=
  s.unlessHeld (match s.rxEvent p bytes with
    | .lengthError rest => s.arrived p rest id
    | _ => s)

/-- The reaction to a bad CRC (R164): a NAK CRC on an UP, LOST or UNSYNCED port, nothing on a DISABLED or RESETTING one. -/
def PortBlock.badCrc (b : PortBlock) : PortBlock :=
  match b.portState with
  | .up | .lost => b.nak .crc b.link.expected
  | .unsynced => b.nak .crc 0
  | .disabled | .resetting _ => b

/-- CRC_ERROR (R164). -/
def execCrcError (p : Port) (bytes : List Byte) (s : State) : Host.Outcome State Fault Refusal :=
  s.unlessHeld (match s.rxEvent p bytes with
    | .crcError rest => s.arrived p rest PortBlock.badCrc
    | _ => s)

/-- The host sends frames of classes 0x01, 0x02 and 0xC0 only (R165). -/
def hostClass (cls : Byte) : Bool := cls = 0x01 || cls = 0x02 || cls = 0xC0

/-- UNKNOWN_CLASS_FRAME: a good frame of another class is discarded (R165). -/
def execUnknownClassFrame (p : Port) (bytes : List Byte) (s : State) : Host.Outcome State Fault Refusal :=
  s.unlessHeld (match s.rxEvent p bytes with
    | .good f rest => if hostClass f.cls then s else s.arrived p rest id
    | _ => s)

/-- A frame that is no HELLO is refused for the port's state (R169); an UP port does not refuse it so. -/
def PortBlock.refuseForState (b : PortBlock) : PortBlock :=
  match b.portState with
  | .up => b
  | .lost => b.nak .sync b.link.expected
  | .unsynced => b.nak .sync 0
  | .disabled => b.nak .sync 0
  | .resetting _ => b.nak .busy 0

/-- A frame joins the inbound buffer (R168). -/
def Link.takeIn (l : Link) (c : InClass) (payload : List Byte) : Link := { l with inbound := l.inbound ++ [⟨c, payload⟩] }

/-- The expected inbound advances by 1 and ACK owed is set (R168). -/
def Link.tookSequenced (l : Link) : Link := { l with expected := l.expected + 1, ackOwed := true }

/-- Room for a DAT frame's data in the staging buffer (R119); a malformed frame needs none. -/
def Staging.roomFor (g : Staging) (payload : List Byte) : Bool :=
  !datWellFormed payload || g.held.length + g.promised + (datData payload).length ≤ Config.stagingBytes

/-- The staging buffer's promise for a DAT frame that is taken (R119). -/
def Staging.promise (g : Staging) (payload : List Byte) : Staging :=
  if datWellFormed payload then { g with promised := g.promised + (datData payload).length } else g

/-- An in-sequence frame on an UP port is taken, or refused BUSY (R168). -/
def PortBlock.takeInSequence (b : PortBlock) (c : InClass) (payload : List Byte) : PortBlock :=
  if Config.inboundFrames ≤ b.link.inbound.length then b.nak .busy b.link.expected
  else
    match c with
    | .req =>
      if b.link.freeSlots = 0 then b.nak .busy b.link.expected
      else { b with link := (b.link.takeIn .req payload).reserve.tookSequenced }
    | .dat =>
      if b.staging.roomFor payload then
        { b with link := (b.link.takeIn .dat payload).tookSequenced, staging := b.staging.promise payload }
      else b.nak .busy b.link.expected

/-- The sequence test of a REQ or DAT frame on an UP port (R167). -/
def PortBlock.sequenceTest (b : PortBlock) (c : InClass) (f : WireFrame) : PortBlock :=
  let d := (f.seq - b.link.expected).toNat
  if d = 0 then b.takeInSequence c f.payload
  else if d ≤ 127 then b.nak .order b.link.expected
  else { b with link := { b.link with ackOwed := true } }

/-- The frame's acknowledgement is applied to the outbound list (R170). -/
def PortBlock.applyAck (b : PortBlock) (a : BitVec 8) : PortBlock :=
  { b with link := b.link.applyAck b.config.resendInterval a }

/-- A good REQ or DAT frame that is no HELLO (R167, R169). -/
def PortBlock.reqDatArrived (c : InClass) (f : WireFrame) (b : PortBlock) : PortBlock :=
  match b.portState with
  | .up => (b.applyAck f.ack).sequenceTest c f
  | _ => b.refuseForState

/-- REQ_DAT_FRAME_RECEIVED (R167). -/
def execReqDatFrameReceived (p : Port) (bytes : List Byte) (s : State) : Host.Outcome State Fault Refusal :=
  s.unlessHeld (match s.rxEvent p bytes with
    | .good f rest =>
      match inClass f.cls with
      | some c => if isHello f then s else s.arrived p rest (PortBlock.reqDatArrived c f)
      | none => s
    | _ => s)

/-- A good ACK frame (R167, R169, R170). -/
def PortBlock.ackArrived (f : WireFrame) (b : PortBlock) : PortBlock :=
  match b.portState with
  | .up => b.applyAck f.ack
  | _ => b.refuseForState

/-- ACK_FRAME_RECEIVED (R170). -/
def execAckFrameReceived (p : Port) (bytes : List Byte) (s : State) : Host.Outcome State Fault Refusal :=
  s.unlessHeld (match s.rxEvent p bytes with
    | .good f rest => if f.cls = 0xC0 then s.arrived p rest (PortBlock.ackArrived f) else s
    | _ => s)

/-- A HELLO frame is taken when the inbound buffer has room, else refused BUSY with `e` (R176). -/
def PortBlock.takeHello (b : PortBlock) (payload : List Byte) (e : BitVec 8) : PortBlock :=
  if b.link.inbound.length < Config.inboundFrames then { b with link := b.link.takeIn .req payload }
  else b.nak .busy e

/-- A good HELLO frame (R176, R169). -/
def PortBlock.helloArrived (f : WireFrame) (b : PortBlock) : PortBlock :=
  match b.portState with
  | .up | .lost => b.takeHello f.payload b.link.expected
  | .unsynced => b.takeHello f.payload 0
  | .disabled => b.nak .sync 0
  | .resetting _ => b.nak .busy 0

/-- HELLO_FRAME_RECEIVED (R176). -/
def execHelloFrameReceived (p : Port) (bytes : List Byte) (s : State) : Host.Outcome State Fault Refusal :=
  s.unlessHeld (match s.rxEvent p bytes with
    | .good f rest => if isHello f then s.arrived p rest (PortBlock.helloArrived f) else s
    | _ => s)

end Sys2Proof.Machine
end

