-- ==== Sys2Proof/Machine/Reports.lean ====
section
/-! DEFINITION. What a host asks of the fault log and the attention unit (7.2 to 7.4): STATUS, FAULT_READ, FAULT_ACK,
ATTN_CLEAR, ATTENTION_FRAME_PLACED. -/

namespace Sys2Proof.Machine

/-! ### STATUS (R144, R145) -/

/-- The status record of a port (10.5). -/
def State.statusContents (s : State) (t : Port) : List Byte :=
  let b := s.port t
  enc8 t.num ++ enc8 b.portState.code ++ enc8 b.queue.run.code ++ enc8 b.queue.entries.length ++
    enc16 b.queue.nextSeq ++ enc16 (b.queue.active.getD 0) ++ [b.attn.flags.byte] ++ [b.attn.mask.byte] ++
    enc8 ((s.faultLog.firstPending t).getD 0xFF) ++ enc8 b.link.freeSlots ++ enc16 b.blocksHeld ++
    enc8 b.canvasesHeld ++ encBool b.staging.lastRejected.isSome ++
    enc16 ((b.staging.lastRejected.map Prod.fst).getD 0) ++ enc32 ((b.staging.lastRejected.map Prod.snd).getD 0)

/-- STATUS: the record as it stands; a port asking about itself clears its outstanding and due marks (R144). -/
def execStatus (p : Port) (s : State) : Host.Outcome State Fault Refusal :=
  s.process p (.request .status) fun payload s =>
    if !ReqKind.status.lengthOk payload.length then s.refuse p payload .malformed
    else
      match Port.ofNum (num8 payload 4) with
      | none => s.refuse p payload .malformed
      | some t =>
        if p != .p0 && t != p then s.refuse p payload .notSupervisor
        else
          let contents := s.statusContents t
          let s := if t = p then s.modPort p fun b => { b with attn := b.attn.clearMarks } else s
          s.reply p payload .ok contents

/-! ### FAULT_READ (R136) -/

/-- A record as a FAULT-READ reply carries it, 18 bytes (10.5): a FREE one with its index and state only. -/
def recordBytes (i : Nat) : Option FaultRecord → List Byte
  | none => enc8 i ++ enc8 0x00 ++ List.replicate 16 0
  | some r =>
    enc8 i ++ enc8 0x01 ++ enc16 r.serial ++ enc8 r.port.num ++ enc8 r.detail.kind.code ++ enc16 r.jobSeq ++
      enc8 r.jobKind.code ++
      enc8 ((if r.detail.position.isSome then 1 else 0) + (if r.detail.block.isSome then 2 else 0)) ++
      enc16 r.detail.handle.toNat ++ enc16 ((r.detail.position.map Prod.fst).getD 0) ++
      enc16 ((r.detail.position.map Prod.snd).getD 0) ++ enc16 (r.detail.block.getD 0)

/-- The contents of a FAULT-READ reply: the record count, then the records (10.5). -/
def State.faultReadContents (s : State) (is : List Nat) : List Byte :=
  enc8 is.length ++ enc8 0 ++ is.flatMap fun i => recordBytes i (s.faultLog.record i)

/-- FAULT_READ: one record by index, or the asking port's PENDING records in arrival order; it changes no state of the
log (R136). -/
def execFaultRead (p : Port) (s : State) : Host.Outcome State Fault Refusal :=
  s.process p (.request .faultRead) fun payload s =>
    let i := num8 payload 4
    if !ReqKind.faultRead.lengthOk payload.length then s.refuse p payload .malformed
    else if i = 0xFF then s.reply p payload .ok (s.faultReadContents (s.faultLog.ofPort p))
    else if 11 < i then s.refuse p payload .malformed
    else if p != .p0 && (s.faultLog.record i).any fun r => r.port != p then s.refuse p payload .notOwner
    else s.reply p payload .ok (s.faultReadContents [i])

/-! ### FAULT_ACK (R137) -/

/-- The outcome of one index for an asking port (R137, R186): FREED 0x01, NOT-YOURS 0x02, ALREADY-FREE 0x03; and the log
afterwards. -/
def FaultLog.acknowledge (l : FaultLog) (p : Port) (i : Nat) : Nat × FaultLog :=
  match l.record i with
  | none => (0x03, l)
  | some r => if r.port = p || p = .p0 then (0x01, l.free i) else (0x02, l)

/-- The indexes are taken in the order listed; the reply's two bytes for each (R137, 10.5). -/
def FaultLog.acknowledgeAll (p : Port) : FaultLog → List Nat → List Byte × FaultLog
  | l, [] => ([], l)
  | l, i :: rest =>
    let r := l.acknowledge p i
    let t := FaultLog.acknowledgeAll p r.2 rest
    (enc8 i ++ enc8 r.1 ++ t.1, t.2)

/-- The indexes a FAULT-ACK lists, unless it is MALFORMED (R137, R187). -/
def parseFaultAck (payload : List Byte) : Option (List Nat) :=
  let n := num8 payload 4
  let is := (payload.drop 5).map BitVec.toNat
  if !ReqKind.faultAck.lengthOk payload.length || n == 0 || 12 < n || payload.length != 5 + n ||
      is.any fun i => 11 < i then none
  else some is

/-- FAULT_ACK: each listed record is freed, or not, with its outcome; no flag is cleared (R137). -/
def execFaultAck (p : Port) (s : State) : Host.Outcome State Fault Refusal :=
  s.process p (.request .faultAck) fun payload s =>
    match parseFaultAck payload with
    | none => s.refuse p payload .malformed
    | some is =>
      let r := s.faultLog.acknowledgeAll p is
      State.reply { s with faultLog := r.2 } p payload .ok (enc8 is.length ++ enc8 0 ++ r.1)

/-! ### ATTN_CLEAR (R143) and the due frame (R141) -/

/-- ATTN_CLEAR: the listed flags, the outstanding mark and the due mark are cleared; the reply gives the flags (R143). -/
def execAttnClear (p : Port) (s : State) : Host.Outcome State Fault Refusal :=
  s.process p (.request .attnClear) fun payload s =>
    match FlagSet.ofByte (byteAt payload 4) with
    | none => s.refuse p payload .malformed
    | some listed =>
      if !ReqKind.attnClear.lengthOk payload.length then s.refuse p payload .malformed
      else
        let s := s.modPort p fun b =>
          { b with attn := { b.attn.clearMarks with flags := b.attn.flags.without listed } }
        s.reply p payload .ok ([(s.port p).attn.flags.byte] ++ enc8 0)

/-- ATTENTION_FRAME_PLACED: a due ATN frame is placed in a free slot of an UP or LOST port (R141). -/
def execAttentionFramePlaced (p : Port) (s : State) : Host.Outcome State Fault Refusal :=
  s.unlessHeld (s.modPort p PortBlock.placeDueAtn)

end Sys2Proof.Machine
end

