-- ==== Sys2Proof/Machine/Resets.lean ====
section
/-! DEFINITION. Power-on, the reset pin and RESET-DEVICE (8.7): POWER_ON, RESET_PIN_ASSERT, RESET_PIN_RELEASE,
RESET_DEVICE. -/

namespace Sys2Proof.Machine

/-- Every block holds its power-on values (R161); the contents of the store become unspecified once more (R27). The
queue of waiting commands is not the part's. -/
def State.powerOnValues (s : State) (pin : Bool) : State :=
  { State.reset with
    resetPin := pin
    store := ⟨[], [], [], s.store.powerUps + 1⟩
    deviceResets := s.deviceResets
    pending := s.pending }

/-- POWER_ON: the power-on values; the level of the reset pin is the board's and is kept (log 17). -/
def execPowerOn (s : State) : Host.Outcome State Fault Refusal := .next (s.powerOnValues s.resetPin)

/-- RESET_PIN_ASSERT: the part is held in reset, every block at its power-on values (R161, R19, R27). -/
def execResetPinAssert (s : State) : Host.Outcome State Fault Refusal := .next (s.powerOnValues true)

/-- RESET_PIN_RELEASE: the part starts from its power-on values (R161). -/
def execResetPinRelease (s : State) : Host.Outcome State Fault Refusal :=
  .next (if s.resetPin then s.powerOnValues false else s)

/-- The store after the access in progress, if any, has been abandoned (R27, R116). A span access that meets an
uncorrectable word was to write nothing (R24). -/
def State.abandonedStore (s : State) : Store :=
  match s.arbiter.serving with
  | none => s.store
  | some (.block b f fill) => s.store.abandon s.deviceResets (s.store.clearBlock b f fill) (blockWordList b)
  | some .span =>
    match s.engine.span with
    | none => s.store
    | some x =>
      match (s.port x.port).record with
      | none => s.store
      | some r =>
        if (s.store.firstUncorrectable r.reads).isSome then s.store
        else s.store.abandon s.deviceResets (r.writePhase s.store x.data) r.dstWords

/-- A slot that is not FREE goes to FREE with its generation advanced; a FREE slot keeps its generation (R20). -/
def Slot.deviceReset (x : Slot) : Slot :=
  match x.canvas with
  | none => x
  | some _ => ⟨nextGeneration x.generation, none⟩

/-- Every block is reset at once, without drain or reply (R160); the generations and the store's contents are kept. -/
def State.deviceReset (s : State) : State :=
  { State.reset with
    slots := s.slots.map Slot.deviceReset
    store := s.abandonedStore
    deviceResets := s.deviceResets + 1
    pending := s.pending }

/-- RESET_DEVICE: checked for length and for the asking port (R149, R182); one that passes is not answered (R160). -/
def execResetDevice (p : Port) (s : State) : Host.Outcome State Fault Refusal :=
  s.process p (.request .resetDevice) fun payload s =>
    if !ReqKind.resetDevice.lengthOk payload.length then s.refuse p payload .malformed
    else if p != .p0 then s.refuse p payload .notSupervisor
    else s.deviceReset

end Sys2Proof.Machine
end

