-- ==== Sys2Proof/Machine/Session.lean ====
section
/-! DEFINITION. Sessions (8.3, 9.5, 10.1): HELLO_FRESH, HELLO_RESUME, UNKNOWN_KIND. -/

namespace Sys2Proof.Machine

/-- A session begins on an UNSYNCED port (R150, R177): the port goes to UP and the HELLO reply is its first frame. -/
def PortBlock.beginSession (p : Port) (id : ReqId) (b : PortBlock) : PortBlock :=
  { b with portState := .up, link := b.link.beginSession p id }

/-- A HELLO processed on an UNSYNCED port (R183): with a header it begins a session, whatever its mode; a shorter one is
discarded unanswered. -/
def State.helloUnsynced (s : State) (p : Port) (payload : List Byte) : State :=
  if payload.length < 4 then s else s.modPort p (PortBlock.beginSession p (reqId payload))

/-- HELLO_FRESH: a HELLO whose mode byte does not ask RESUME. On an UP or LOST port a well-formed HELLO FRESH begins a
port reset, which may complete in the same step (R150, R156, R157); any other is discarded (R183). -/
def execHelloFresh (p : Port) (s : State) : Host.Outcome State Fault Refusal :=
  s.process p .helloFresh fun payload s =>
    match (s.port p).portState with
    | .unsynced => s.helloUnsynced p payload
    | .up | .lost =>
      if ReqKind.hello.lengthOk payload.length && num8 payload 4 == 0x01 then
        (s.beginReset p ⟨.up, [], some (reqId payload), none, false⟩).tryComplete p
      else s
    | .disabled | .resetting _ => s

/-- The link's part of a HELLO RESUME (R178): the sequence received is applied as an acknowledgement, the count returns
to 0, the port goes back, and the reply is made pending outside the list. Where it frees some of the sent frames but not
all, step 1 (R170) restarts the resend timer here, while R178 goes on to say that the timer starts with the first frame of
the list sent: the model takes R170's restart (DEDUCED, log 26). The spec does not say what becomes of the reply of an
earlier HELLO RESUME that is still pending: the later one replaces it (DESIGN CHOICE, log 31). -/
def Link.resume (l : Link) (interval : Nat) (p : Port) (id : ReqId) (r : BitVec 8) : Link :=
  let l := (l.applyAck interval r)
  let l := { l with retransmits := 0 }.goBack
  { l with helloReply := some ⟨l.oldest.getD l.nextOut, helloPayload p id 0x02 l.expected⟩ }

/-- HELLO_RESUME: a HELLO whose mode byte asks RESUME. On an UP or LOST port a well-formed one keeps the session and
makes the port UP (R150, R178); on an UNSYNCED port it is performed as FRESH (R183). -/
def execHelloResume (p : Port) (s : State) : Host.Outcome State Fault Refusal :=
  s.process p .helloResume fun payload s =>
    match (s.port p).portState with
    | .unsynced => s.helloUnsynced p payload
    | .up | .lost =>
      if ReqKind.hello.lengthOk payload.length then
        s.modPort p fun b =>
          { b with
            portState := .up
            link := b.link.resume b.config.resendInterval p (reqId payload) (byteAt payload 5) }
      else s
    | .disabled | .resetting _ => s

/-- UNKNOWN_KIND: a REQ too short to carry a header is refused MALFORMED with request id 0 and the kind of its first
byte, or 0; a REQ of a kind outside the table is refused UNKNOWN-KIND (R182). A REQ too short for a header has no kind to
act on, so its refusal is the reply header alone even when its first byte is SUBMIT's 0x20: it carries no job position
(DESIGN CHOICE, log 27). -/
def execUnknownKind (p : Port) (s : State) : Host.Outcome State Fault Refusal :=
  s.process p .unknownKind fun payload s =>
    if payload.length < 4 then s.modPort p fun b => b.reply (byteAt payload 0) .malformed 0 []
    else s.refuse p payload .unknownKind

end Sys2Proof.Machine
end

