-- ==== Sys2Proof/Machine/Sharing.lean ====
section
/-! DEFINITION. Grants, revokes and closes (chapter 3): GRANT, REVOKE, CLOSE, REVOKE_DEADLINE_EXPIRY,
CLOSE_DEADLINE_EXPIRY, REVOKE_END, CLOSE_END. -/

namespace Sys2Proof.Machine

/-! ### GRANT (R39, R40) -/

/-- The contents of a GRANT reply (10.5); result ADDED 0x01, UPGRADED 0x02, UNCHANGED 0x03 (R186). -/
def grantContents (h : Handle) (t : Port) (result : Nat) (held : Rights) : List Byte :=
  enc16 h.toNat ++ enc8 t.num ++ enc8 result ++ enc8 held.code ++ enc8 0

/-- The result of a GRANT to a port other than the owner on a LIVE canvas (R39, checks 6 and 7, and R40): a refusal, or
the result code and the canvas afterwards. -/
def Canvas.grantResult (c : Canvas) (t : Port) (asked : Rights) : Except Status (Nat × Canvas) :=
  match c.grantTo t with
  | none => .ok (0x01, { c with grants := c.grants ++ [⟨t, asked, 0, none⟩] })
  | some g =>
    if g.revoke.isSome then .error .busy
    else if g.rights = asked then .ok (0x03, c)
    else if asked = .r then .error .inUse
    else .ok (0x02, c.modGrant t fun g => { g with rights := .rw })

/-- GRANT (R39, R40). -/
def execGrant (p : Port) (s : State) : Host.Outcome State Fault Refusal :=
  s.process p (.request .grant) fun payload s =>
    if !ReqKind.grant.lengthOk payload.length then s.refuse p payload .malformed
    else
      match Port.ofNum (num8 payload 6), Rights.ofCode (num8 payload 7) with
      | some t, some asked =>
        let h := handleAt payload 4
        match s.lookup h with
        | none => s.refuse p payload .badHandle
        | some c =>
          if c.owner != p then s.refuse p payload .notOwner
          else if c.phase.isClosing then s.refuse p payload .closing
          else if t = c.owner then s.refuse p payload .bounds
          else
            match c.grantResult t asked with
            | .error e => s.refuse p payload e
            | .ok (result, c') =>
              (s.setCanvas (handleSlot h) c').reply p payload .ok (grantContents h t result asked)
      | _, _ => s.refuse p payload .malformed

/-! ### REVOKE (R41 to R43) -/

/-- The revoke of the grant becomes `r`. -/
def Canvas.setRevoke (c : Canvas) (t : Port) (r : RevokeOp) : Canvas :=
  c.modGrant t fun g => { g with revoke := some r }

/-- A REVOKE begins a revoke of an ACTIVE grant with `pins` pins (R42): at once at its end with no pins; else deferred,
with a cut in CUT mode. -/
def State.beginRevoke (s : State) (payload : List Byte) (h : Handle) (c : Canvas) (t : Port) (pins : Nat)
    (mode : WaitMode) : State :=
  let n := handleSlot h
  if pins = 0 then
    let s := (s.setCanvas n (c.setRevoke t ⟨mode, [], false⟩)).endRevoke n t
    s.reply c.owner payload .ok (revokeContents h t mode.outcome)
  else
    let s := (s.setCanvas n (c.setRevoke t ⟨mode, [⟨c.owner, reqId payload⟩], false⟩)).defer c.owner payload
    match mode with
    | .drain _ => s
    | .cut => s.cutPort n t

/-- A REVOKE joins the revoke under way (R43): its waiter is appended, and a CUT escalates a DRAIN. -/
def State.joinRevoke (s : State) (payload : List Byte) (h : Handle) (c : Canvas) (t : Port) (r : RevokeOp)
    (mode : WaitMode) : State :=
  let n := handleSlot h
  let ws := r.waiters ++ [⟨c.owner, reqId payload⟩]
  match r.mode, mode with
  | .drain _, .cut =>
    ((s.setCanvas n (c.setRevoke t { r with waiters := ws, mode := .cut })).defer c.owner payload).cutPort n t
  | _, _ => (s.setCanvas n (c.setRevoke t { r with waiters := ws })).defer c.owner payload

/-- REVOKE (R41). -/
def execRevoke (p : Port) (s : State) : Host.Outcome State Fault Refusal :=
  s.process p (.request .revoke) fun payload s =>
    if !ReqKind.revoke.lengthOk payload.length then s.refuse p payload .malformed
    else
      match Port.ofNum (num8 payload 6), WaitMode.ofCode (num8 payload 7) (num16 payload 8) with
      | some t, some mode =>
        let h := handleAt payload 4
        match s.lookup h with
        | none => s.refuse p payload .badHandle
        | some c =>
          if c.owner != p then s.refuse p payload .notOwner
          else if c.phase.isClosing then s.refuse p payload .closing
          else if !mode.deadlineOk then s.refuse p payload .bounds
          else
            match c.grantTo t with
            | none => s.refuse p payload .noGrant
            | some g =>
              match g.revoke with
              | none => s.beginRevoke payload h c t g.pins mode
              | some r => s.joinRevoke payload h c t r mode
      | _, _ => s.refuse p payload .malformed

/-! ### CLOSE (R49 to R51) -/

/-- A CLOSE of port `p` begins a close of a LIVE canvas (R50): at its end at once with no pins; else deferred, with a cut
in CUT mode. -/
def State.beginClose (s : State) (p : Port) (payload : List Byte) (h : Handle) (c : Canvas) (mode : WaitMode)
    (forced : Bool) : State :=
  let n := handleSlot h
  if c.pinCount = 0 then
    let op : CloseOp := ⟨mode, [], forced, false⟩
    ((s.setCanvas n { c with phase := .closing op }).endClose n op).reply p payload .ok (closeContents h mode.outcome)
  else
    let s := (s.setCanvas n { c with phase := .closing ⟨mode, [⟨p, reqId payload⟩], forced, false⟩ }).defer p payload
    match mode with
    | .drain _ => s
    | .cut => s.cutCanvas n

/-- A CLOSE of port `p` joins the close under way (R51): its waiter is appended; a CUT or a forced close escalates a
DRAIN; a forced close sets the forced mark. -/
def State.joinClose (s : State) (p : Port) (payload : List Byte) (h : Handle) (c : Canvas) (op : CloseOp)
    (mode : WaitMode) (forced : Bool) : State :=
  let n := handleSlot h
  let op' : CloseOp := { op with waiters := op.waiters ++ [⟨p, reqId payload⟩], forced := op.forced || forced }
  match op.mode, mode with
  | .drain _, .cut => ((s.setCanvas n { c with phase := .closing { op' with mode := .cut } }).defer p payload).cutCanvas n
  | _, _ => (s.setCanvas n { c with phase := .closing op' }).defer p payload

/-- CLOSE (R49): a forced close, P0's of another port's canvas, is always CUT and its deadline is not checked. -/
def execCloseCanvas (p : Port) (s : State) : Host.Outcome State Fault Refusal :=
  s.process p (.request .closeCanvas) fun payload s =>
    if !ReqKind.closeCanvas.lengthOk payload.length then s.refuse p payload .malformed
    else
      match WaitMode.ofCode (num8 payload 6) (num16 payload 8) with
      | none => s.refuse p payload .malformed
      | some asked =>
        let h := handleAt payload 4
        match s.lookup h with
        | none => s.refuse p payload .badHandle
        | some c =>
          let forced := c.owner != p
          if forced && p != .p0 then s.refuse p payload .notOwner
          else if !forced && !asked.deadlineOk then s.refuse p payload .bounds
          else
            let mode := if forced then .cut else asked
            match c.phase with
            | .closing op => s.joinClose p payload h c op mode forced
            | _ => s.beginClose p payload h c mode forced

/-! ### Deadlines (R44, R52, R61) -/

/-- REVOKE_DEADLINE_EXPIRY: the time left passes, the revoke becomes CUT, and the grantee is cut (R44). -/
def execRevokeDeadlineExpiry (slot : Nat) (p : Port) (s : State) : Host.Outcome State Fault Refusal :=
  s.unlessHeld (match (s.canvas slot).bind fun c => (c.grantTo p).bind Grant.revoke with
    | some ⟨.drain left, ws, mark⟩ =>
      ((s.elapse left).modCanvas slot fun c => c.setRevoke p ⟨.cut, ws, mark⟩).cutPort slot p
    | _ => s)

/-- The close operation of a slot, if it is CLOSING. -/
def State.closeOp (s : State) (n : Nat) : Option CloseOp :=
  match (s.canvas n).map Canvas.phase with
  | some (.closing op) => some op
  | _ => none

/-- CLOSE_DEADLINE_EXPIRY: the time left passes, the close becomes CUT, and the owner and every grantee are cut (R52). -/
def execCloseDeadlineExpiry (slot : Nat) (s : State) : Host.Outcome State Fault Refusal :=
  s.unlessHeld (match s.closeOp slot with
    | some op =>
      match op.mode with
      | .drain left =>
        ((s.elapse left).modCanvas slot fun c => { c with phase := .closing { op with mode := .cut } }).cutCanvas slot
      | .cut => s
    | none => s)

/-! ### Ends (R45, R53, R54)

The end of a revoke or of a close comes inside the step of the unpin that brings it (`State.settle`); these two rows carry
the same ends out wherever a state shows one still to come (log 3). -/

/-- REVOKE_END: a REVOKING grant without pins ends (R45), unless the pin count of its CLOSING canvas is 0 as well, when the
close is what ends (R54). -/
def execRevokeEnd (slot : Nat) (p : Port) (s : State) : Host.Outcome State Fault Refusal :=
  s.unlessHeld (match s.canvas slot with
    | none => s
    | some c => if c.closeDue.isNone && c.revokeDue p then s.endRevoke slot p else s)

/-- CLOSE_END: a CLOSING canvas whose pin count is 0 ends its close (R53). -/
def execCloseEnd (slot : Nat) (s : State) : Host.Outcome State Fault Refusal :=
  s.unlessHeld (match (s.canvas slot).bind Canvas.closeDue with
    | some op => s.endClose slot op
    | none => s)

end Sys2Proof.Machine
end

