-- ==== Sys2Proof/Machine/Streams.lean ====
section
/-! DEFINITION. Write data (6.2): DAT_FRAME. -/

namespace Sys2Proof.Machine

/-- The job sequence a DAT payload carries (10.7). -/
def datSeq (payload : List Byte) : Nat := num16 payload 0

/-- The offset a DAT payload carries (10.7). -/
def datOffset (payload : List Byte) : Nat := num32 payload 2

/-- What a rejected frame sets the last rejected record to (R121): its job sequence and offset, or 0 and 0 when it is too
short to carry them. -/
def rejectedRecord (payload : List Byte) : Nat × Nat :=
  if payload.length < 6 then (0, 0) else (datSeq payload, datOffset payload)

/-- The frame is rejected (R121): its data is discarded, the record is set, and DATA-REJECTED is set. -/
def PortBlock.rejectData (payload : List Byte) (b : PortBlock) : PortBlock :=
  { b with staging := { b.staging with lastRejected := some (rejectedRecord payload) } }.raise .dataRejected

/-- The data is appended (R120): the held bytes and the entry's bytes received grow, and the engine's record of the
ACTIVE job has its data timeout set afresh (R124). -/
def PortBlock.appendData (payload : List Byte) (seq : Nat) (b : PortBlock) : PortBlock :=
  let data := datData payload
  { b with
    staging := { b.staging with held := b.staging.held ++ data }
    queue := { b.queue with entries := b.queue.entries.map fun e : Entry =>
      if e.seq = seq then { e with received := e.received + data.length } else e }
    record := b.record.map fun r : EngineRecord =>
      if r.seq = seq then { r with timer := some b.config.dataTimeout } else r }

/-- The promise made for a frame is taken back when the frame is handed over (R120); a malformed one had none (R119). -/
def PortBlock.unpromise (payload : List Byte) (b : PortBlock) : PortBlock :=
  if datWellFormed payload then
    { b with staging := { b.staging with promised := b.staging.promised - (datData payload).length } }
  else b

/-- The three conditions under which a frame's data is appended (R120). -/
def State.datFits (s : State) (p : Port) (payload : List Byte) (e : Entry) : Bool :=
  (s.port p).staging.served == some (datSeq payload) && e.seq == datSeq payload && datOffset payload == e.received &&
    datOffset payload + (datData payload).length ≤ s.dataLength e.job

/-- A taken DAT frame is handed to the staging buffer (R120, R121). -/
def State.takeData (s : State) (p : Port) (payload : List Byte) : State :=
  let s := s.modPort p (PortBlock.unpromise payload)
  if datWellFormed payload && (s.port p).queue.entries.any (s.datFits p payload) then
    s.modPort p (PortBlock.appendData payload (datSeq payload))
  else s.modPort p (PortBlock.rejectData payload)

/-- DAT_FRAME (R120). -/
def execDatFrame (p : Port) (s : State) : Host.Outcome State Fault Refusal :=
  s.process p .dat fun payload s => s.takeData p payload

end Sys2Proof.Machine
end

