-- ==== Sys2Proof/Machine/Submit.lean ====
section
/-! DEFINITION. Admission (4.2): SUBMIT. -/

namespace Sys2Proof.Machine

/-- The role a job gives a canvas (R67): a canvas named as both source and destination needs what a destination needs. -/
def Job.needsWrite (j : Job) (h : Handle) : Bool := j.dst == some h

/-- The port may name the canvas in this role (R38, R67): its owner, or an ACTIVE grant with enough rights. -/
def Canvas.allows (c : Canvas) (p : Port) (write : Bool) : Bool :=
  c.owner == p ||
    match c.grantTo p with
    | some g => g.revoke.isNone && (!write || g.rights == .rw)
    | none => false

/-- Checks 2 to 4 of R66 for one canvas a job names. -/
def State.checkCanvas (s : State) (p : Port) (j : Job) (h : Handle) : Option Status :=
  match s.lookup h with
  | none => some .badHandle
  | some c =>
    if c.phase.isClosing then some .closing
    else if !c.allows p (j.needsWrite h) then some .noRight
    else none

/-- Check 5 of R66 (R67): a MOVE between different formats; an EXPAND whose source is not M1 or whose destination is. -/
def State.formatOk (s : State) (j : Job) : Bool :=
  let fmt := fun h : Handle => (s.canvas (handleSlot h)).map Canvas.format
  match j with
  | .move src _ _ dst .. => fmt src == fmt dst
  | .expand src _ _ dst .. => fmt src == some .m1 && fmt dst != some .m1
  | _ => true

/-- A rectangle is not empty and lies within the canvas of a handle (R68). -/
def State.rectOk (s : State) (h : Handle) (r : Rect) : Bool :=
  (s.canvas (handleSlot h)).any fun c =>
    1 ≤ r.w && 1 ≤ r.h && r.x + r.w ≤ c.width && r.y + r.h ≤ c.height

/-- Check 6 of R66 (R68): the destination rectangle, then the source rectangle. -/
def State.boundsOk (s : State) (j : Job) : Bool :=
  (match j.dst, j.dstRect with
    | some h, some r => s.rectOk h r
    | _, _ => true) &&
  (match j.src, j.srcRect with
    | some h, some r => s.rectOk h r
    | _, _ => true)

/-- The checks of one job in the order of R66: the raster function; then, for each canvas, the source before the
destination, checks 2 to 4 (log 13); formats; bounds. A MARK names no canvas and passes. -/
def State.checkJob (s : State) (p : Port) (j : Job) : Option Status :=
  if j.rop.any fun code => 15 < code then some .malformed
  else
    match (j.src.toList ++ j.dst.toList).findSome? (s.checkCanvas p j) with
    | some e => some e
    | none =>
      if !s.formatOk j then some .format
      else if !s.boundsOk j then some .bounds
      else none

/-- The first failing check of the first failing job, with the job's position from `i` on (R66). -/
def State.checkJobs (s : State) (p : Port) : Nat → List (Job × Bool) → Option (Status × Nat)
  | _, [] => none
  | i, (j, _) :: rest =>
    match s.checkJob p j with
    | some e => some (e, i)
    | none => s.checkJobs p (i + 1) rest

/-- The sequence after this one; the number after 65535 is 1 (R65). -/
def nextJobSeq (n : Nat) : Nat := if 65535 ≤ n then 1 else n + 1

/-- One job is admitted (R69): an entry at the tail, its sequence and its pins. -/
def State.admitJob (p : Port) (s : State) (j : Job × Bool) : State :=
  let s' := s.modPort p fun b =>
    { b with queue :=
      { b.queue with
        entries := b.queue.entries ++ [⟨b.queue.nextSeq, j.1, j.2, .queued false, j.1.names, 0⟩]
        nextSeq := nextJobSeq b.queue.nextSeq } }
  j.1.names.foldl (fun s h => s.pin p h) s'

/-- The contents of a SUBMIT's OK reply (10.5). -/
def submitContents (first count : Nat) : List Byte := enc16 first ++ enc8 count ++ enc8 0

/-- A refused SUBMIT carries the position of the failing job, then a pad byte (R184, R187). -/
def positionContents (position : Nat) : List Byte := enc8 position ++ enc8 0

/-- SUBMIT: refused whole, or all of its jobs admitted in one step (R66, R69). -/
def execSubmit (p : Port) (s : State) : Host.Outcome State Fault Refusal :=
  s.process p (.request .submit) fun payload s =>
    if !ReqKind.submit.lengthOk payload.length then s.reply p payload .malformed (positionContents 0)
    else
      match parseSubmit payload with
      | none => s.reply p payload .malformed (positionContents 0)
      | some jobs =>
        match s.checkJobs p 1 jobs with
        | some (e, i) => s.reply p payload e (positionContents i)
        | none =>
          if Config.queueEntries < (s.port p).queue.entries.length + jobs.length then
            s.reply p payload .queueFull (positionContents 0)
          else
            let first := (s.port p).queue.nextSeq
            let s := (jobs.foldl (State.admitJob p) s).modPort p PortBlock.refreshStaging
            s.reply p payload .ok (submitContents first jobs.length)

end Sys2Proof.Machine
end

