-- ==== Sys2Proof/Machine/Supervisor.lean ====
section
/-! DEFINITION. The supervisor requests and the configuration (8.4 to 8.6): PORT_SET_ENABLE, PORT_SET_DISABLE,
RESET_PORT, CONFIG. -/

namespace Sys2Proof.Machine

/-- The quotas a PORT-SET names: blocks and canvases (10.5). -/
def portSetQuotas (payload : List Byte) : Nat × Nat := (num16 payload 6, num16 payload 8)

/-- The checks of a PORT-SET up to BOUNDS, for the choice made (R149, R152, R182): a refusal reason, or the target. -/
def portSetCheck (p : Port) (payload : List Byte) (disable : Bool) : Except Status Port :=
  if !ReqKind.portSet.lengthOk payload.length then .error .malformed
  else if p != .p0 then .error .notSupervisor
  else
    match Port.ofNum (num8 payload 4) with
    | none => .error .malformed
    | some t =>
      if !(num8 payload 5 == 0x01 || num8 payload 5 == 0x02) then .error .malformed
      else
        let q := portSetQuotas payload
        if 4096 < q.1 || 255 < q.2 || (t == .p0 && disable) then .error .bounds else .ok t

/-- The quotas of a port are set. -/
def PortBlock.setQuotas (q : Nat × Nat) (b : PortBlock) : PortBlock := { b with blockQuota := q.1, canvasQuota := q.2 }

/-- PORT-SET ENABLE makes a DISABLED port UNSYNCED and leaves other states (R153). -/
def PortBlock.enable (b : PortBlock) : PortBlock :=
  match b.portState with
  | .disabled => { b with portState := .unsynced }
  | _ => b

/-- PORT_SET_ENABLE: a PORT-SET whose choice is not DISABLE. A RESETTING target is joined; otherwise IN-USE is checked,
the quotas are set and a DISABLED target goes to UNSYNCED, answered at once (R152, R153). -/
def execPortSetEnable (p : Port) (s : State) : Host.Outcome State Fault Refusal :=
  s.process p .portSetEnable fun payload s =>
    match portSetCheck p payload false with
    | .error e => s.refuse p payload e
    | .ok t =>
      let q := portSetQuotas payload
      match (s.port t).portState with
      | .resetting op => s.joinReset payload t op .unsynced (some q)
      | _ =>
        if q.1 < (s.port t).blocksHeld || q.2 < (s.port t).canvasesHeld then s.refuse p payload .inUse
        else
          let s := s.modPort t fun b => (b.setQuotas q).enable
          s.reply p payload .ok (portContents t (s.port t))

/-- PORT_SET_DISABLE: a PORT-SET whose choice is DISABLE begins or joins a reset with final state DISABLED and the quotas
held for completion (R153, R159). -/
def execPortSetDisable (p : Port) (s : State) : Host.Outcome State Fault Refusal :=
  s.process p .portSetDisable fun payload s =>
    match portSetCheck p payload true with
    | .error e => s.refuse p payload e
    | .ok t =>
      let q := portSetQuotas payload
      match (s.port t).portState with
      | .resetting op => s.joinReset payload t op .disabled (some q)
      | _ => s.beginForRequest payload t .disabled (some q)

/-- The final state of a reset a RESET-PORT joins (R159). -/
def FinalState.joinedByResetPort : FinalState → FinalState
  | .disabled => .disabled
  | _ => .unsynced

/-- RESET_PORT (R156): checked for length, supervisor, target; begins a reset of the target or joins the one in course. -/
def execResetPort (p : Port) (s : State) : Host.Outcome State Fault Refusal :=
  s.process p (.request .resetPort) fun payload s =>
    if !ReqKind.resetPort.lengthOk payload.length then s.refuse p payload .malformed
    else if p != .p0 then s.refuse p payload .notSupervisor
    else
      match Port.ofNum (num8 payload 4) with
      | none => s.refuse p payload .malformed
      | some t =>
        if t = .p0 then s.refuse p payload .bounds
        else
          match (s.port t).portState with
          | .resetting op => s.joinReset payload t op op.final.joinedByResetPort none
          | st => s.beginForRequest payload t (if st = .disabled then .disabled else .unsynced) none

/-! ### CONFIG (R154, R187) -/

/-- One setting of a CONFIG: its code and its value. -/
structure Setting where
  code : Nat
  value : Nat
  deriving DecidableEq, Repr

/-- The fault kind of a severity or quiet code (R187: in the order STORE-ECC, DATA-TIMEOUT, READ-STALL, WAIT-TIMEOUT). -/
def settingKind (code : Nat) : FaultKind :=
  match code % 16 with
  | 0 => .storeEcc
  | 1 => .dataTimeout
  | 2 => .readStall
  | _ => .waitTimeout

/-- The code names a setting, and a severity, quiet or mask value is among its codes with a high byte of 0 (R187). -/
def Setting.wellFormed (x : Setting) : Bool :=
  if 0x01 ≤ x.code && x.code ≤ 0x05 then true
  else if 0x10 ≤ x.code && x.code ≤ 0x13 then x.value == 1 || x.value == 2
  else if 0x20 ≤ x.code && x.code ≤ 0x23 then x.value == 0 || x.value == 1
  else if x.code == 0x30 then x.value < 64
  else false

/-- A numeric setting lies in its range (R154). -/
def Setting.inRange (x : Setting) : Bool :=
  match x.code with
  | 0x01 => 1 ≤ x.value && x.value ≤ 1000
  | 0x02 => 1 ≤ x.value && x.value ≤ 1000
  | 0x03 => 1 ≤ x.value && x.value ≤ 5000
  | 0x04 => 1 ≤ x.value && x.value ≤ 100
  | 0x05 => 1 ≤ x.value && x.value ≤ 32
  | _ => true

/-- `n` settings from the front of `b` (10.5). -/
def parseSettings : Nat → List Byte → List Setting
  | 0, _ => []
  | n + 1, b => ⟨num8 b 0, num16 b 1⟩ :: parseSettings n (b.drop 3)

/-- The settings of a CONFIG payload, or its refusal (R187). -/
def configCheck (payload : List Byte) : Except Status (List Setting) :=
  let n := num8 payload 4
  if !ReqKind.config.lengthOk payload.length || 14 < n || payload.length != 5 + 3 * n then .error .malformed
  else
    let xs := parseSettings n (payload.drop 5)
    if !xs.all Setting.wellFormed || !decide (xs.map Setting.code).Nodup then .error .malformed
    else if !xs.all Setting.inRange then .error .bounds
    else .ok xs

/-- One setting is applied (R154). -/
def PortBlock.applySetting (b : PortBlock) (x : Setting) : PortBlock :=
  let c := b.config
  if x.code = 0x01 then { b with config := { c with dataTimeout := x.value } }
  else if x.code = 0x02 then { b with config := { c with readStall := x.value } }
  else if x.code = 0x03 then { b with config := { c with waitTimeout := x.value } }
  else if x.code = 0x04 then { b with config := { c with resendInterval := x.value } }
  else if x.code = 0x05 then { b with config := { c with retransmitLimit := x.value } }
  else if x.code < 0x20 then
    { b with config := { c with severityHalt := c.severityHalt.set (settingKind x.code) (x.value == 2) } }
  else if x.code < 0x30 then { b with config := { c with quiet := c.quiet.set (settingKind x.code) (x.value == 1) } }
  else { b with attn := { b.attn with mask := (FlagSet.ofByte (BitVec.ofNat 8 x.value)).getD b.attn.mask } }

/-- The severities or quiet settings, one byte a fault kind (10.5). -/
def PerFault.bytes (v : PerFault Bool) (no yes : Nat) : List Byte :=
  [v.storeEcc, v.dataTimeout, v.readStall, v.waitTimeout].flatMap fun x => enc8 (if x then yes else no)

/-- The contents of a CONFIG reply: the whole configuration (10.5). -/
def configContents (b : PortBlock) : List Byte :=
  let c := b.config
  enc16 c.dataTimeout ++ enc16 c.readStall ++ enc16 c.waitTimeout ++ enc8 c.resendInterval ++ enc8 c.retransmitLimit ++
    c.severityHalt.bytes 1 2 ++ c.quiet.bytes 0 1 ++ [b.attn.mask.byte] ++ enc8 0

/-- CONFIG: every present setting is set in one step, or the whole request is refused (R154, R187). -/
def execConfig (p : Port) (s : State) : Host.Outcome State Fault Refusal :=
  s.process p (.request .config) fun payload s =>
    match configCheck payload with
    | .error e => s.refuse p payload e
    | .ok xs =>
      let s := s.modPort p fun b => xs.foldl PortBlock.applySetting b
      s.reply p payload .ok (configContents (s.port p))

end Sys2Proof.Machine
end

