-- ==== Sys2Proof/Machine/Transmit.lean ====
section
/-! DEFINITION. What a port's outbound lane sends, its resend timer and the loss of its link (9.3, 9.4): FRAME_TRANSMIT,
RESEND_TIMER_EXPIRY. -/

namespace Sys2Proof.Machine

/-- The frame at the transmit point is sent (R173): the transmit point moves to the next frame of the list or to none,
the sent count rises if the frame had not been sent, the resend timer starts if it was stopped (R174), and ACK owed is
cleared (R171). -/
def Link.sendListed (l : Link) (interval i : Nat) (f : OutFrame) : Link :=
  { l with
    lane := some ⟨f.cls.code, f.seq, l.ackValue, f.payload⟩
    transmitPoint := l.used[i + 1]?.map OutFrame.seq
    sentCount := if l.sentCount ≤ i then l.sentCount + 1 else l.sentCount
    resendTimer := some (l.resendTimer.getD interval)
    ackOwed := false }

/-- The place and the frame of the transmit point, if any. -/
def Link.atTransmitPoint (l : Link) : Option (Nat × OutFrame) :=
  match l.transmitPoint with
  | none => none
  | some t =>
    let i := l.used.findIdx fun f => f.seq == t
    (l.used[i]?).map fun f => (i, f)

/-- The transmitter's choice (R173): the pending NAK; then, on an UP port, the pending HELLO reply, the frame at the
transmit point, or an ACK frame when one is owed; else idle fill. -/
def PortBlock.transmit (b : PortBlock) : PortBlock :=
  let l := b.link
  match l.nak with
  | some n =>
    { b with link :=
      { l with nak := none, lane := some ⟨0xC1, 0, l.ackValue, [BitVec.ofNat 8 n.reason.code, n.seq]⟩ } }
  | none =>
    if b.portState != .up then { b with link := { l with lane := none } }
    else
      match l.helloReply with
      | some h => { b with link := { l with helloReply := none, lane := some ⟨0x81, h.seq, l.ackValue, h.payload⟩ } }
      | none =>
        match l.atTransmitPoint with
        | some (i, f) => { b with link := l.sendListed b.config.resendInterval i f }
        | none =>
          if l.ackOwed then { b with link := { l with ackOwed := false, lane := some ⟨0xC0, 0, l.ackValue, []⟩ } }
          else { b with link := { l with lane := none } }

/-- FRAME_TRANSMIT: the frame on the lane, if any, has ended, and the transmitter chooses what to send next (R173). -/
def execFrameTransmit (p : Port) (s : State) : Host.Outcome State Fault Refusal :=
  s.unlessHeld (s.modPort p PortBlock.transmit)

/-- The queue halts on a link loss, as a HALT would but without a waiter (R83). -/
def PortBlock.haltOnLoss (b : PortBlock) : PortBlock :=
  match b.queue.run with
  | .run =>
    if b.queue.active.isSome then { b with queue := { b.queue with run := .halting } } else b.unwait.becomeHalted
  | _ => b

/-- A resend expiry (R174, R175): the count rises; within the limit the port goes back and the timer restarts, above it
the timer stops and an UP port goes LOST with its queue halted (R151). -/
def PortBlock.resendExpired (b : PortBlock) : PortBlock :=
  let n := b.link.retransmits + 1
  let l := { b.link with retransmits := n }
  if n ≤ b.config.retransmitLimit then
    { b with link := { l.goBack with resendTimer := some b.config.resendInterval } }
  else
    let b' := { b with link := { l with resendTimer := none } }
    if b.portState = .up then { b' with portState := .lost }.haltOnLoss else b'

/-- RESEND_TIMER_EXPIRY: the time left passes, and the timer expires (R174, log 6). -/
def execResendTimerExpiry (p : Port) (s : State) : Host.Outcome State Fault Refusal :=
  s.unlessHeld (match (s.port p).link.resendTimer with
    | none => s
    | some left => (s.elapse left).modPort p PortBlock.resendExpired)

end Sys2Proof.Machine
end

