-- ==== Sys2Proof/Machine/Dispatch.lean ====
section
/-! DEFINITION. The meaning of each command: one arm for each row of spec/opcode_table.json, in the table's order. -/

namespace Sys2Proof.Machine

def exec (i : Instr) (s : State) : Host.Outcome State Fault Refusal :=
  match i with
  | .powerOn => Sys2Proof.Machine.execPowerOn s
  | .resetPinAssert => Sys2Proof.Machine.execResetPinAssert s
  | .resetPinRelease => Sys2Proof.Machine.execResetPinRelease s
  | .frameLengthError p bytes => Sys2Proof.Machine.execFrameLengthError p bytes s
  | .crcError p bytes => Sys2Proof.Machine.execCrcError p bytes s
  | .unknownClassFrame p bytes => Sys2Proof.Machine.execUnknownClassFrame p bytes s
  | .reqDatFrameReceived p bytes => Sys2Proof.Machine.execReqDatFrameReceived p bytes s
  | .ackFrameReceived p bytes => Sys2Proof.Machine.execAckFrameReceived p bytes s
  | .helloFrameReceived p bytes => Sys2Proof.Machine.execHelloFrameReceived p bytes s
  | .frameTransmit p => Sys2Proof.Machine.execFrameTransmit p s
  | .resendTimerExpiry p => Sys2Proof.Machine.execResendTimerExpiry p s
  | .helloFresh p => Sys2Proof.Machine.execHelloFresh p s
  | .helloResume p => Sys2Proof.Machine.execHelloResume p s
  | .unknownKind p => Sys2Proof.Machine.execUnknownKind p s
  | .portSetEnable p => Sys2Proof.Machine.execPortSetEnable p s
  | .portSetDisable p => Sys2Proof.Machine.execPortSetDisable p s
  | .config p => Sys2Proof.Machine.execConfig p s
  | .resetPort p => Sys2Proof.Machine.execResetPort p s
  | .portResetComplete p => Sys2Proof.Machine.execPortResetComplete p s
  | .resetDevice p => Sys2Proof.Machine.execResetDevice p s
  | .openCanvas p => Sys2Proof.Machine.execOpenCanvas p s
  | .closeCanvas p => Sys2Proof.Machine.execCloseCanvas p s
  | .query p => Sys2Proof.Machine.execQuery p s
  | .list p => Sys2Proof.Machine.execList p s
  | .grant p => Sys2Proof.Machine.execGrant p s
  | .revoke p => Sys2Proof.Machine.execRevoke p s
  | .submit p => Sys2Proof.Machine.execSubmit p s
  | .cancel p => Sys2Proof.Machine.execCancel p s
  | .halt p => Sys2Proof.Machine.execHalt p s
  | .resume p => Sys2Proof.Machine.execResume p s
  | .status p => Sys2Proof.Machine.execStatus p s
  | .faultRead p => Sys2Proof.Machine.execFaultRead p s
  | .faultAck p => Sys2Proof.Machine.execFaultAck p s
  | .attnClear p => Sys2Proof.Machine.execAttnClear p s
  | .datFrame p => Sys2Proof.Machine.execDatFrame p s
  | .jobDispatch p => Sys2Proof.Machine.execJobDispatch p s
  | .claimGrant p => Sys2Proof.Machine.execClaimGrant p s
  | .waitTimerExpiry p => Sys2Proof.Machine.execWaitTimerExpiry p s
  | .spanBegin => Sys2Proof.Machine.execSpanBegin s
  | .storeAccessBegin => Sys2Proof.Machine.execStoreAccessBegin s
  | .spanComplete corrected => Sys2Proof.Machine.execSpanComplete corrected s
  | .spanUncorrectable word => Sys2Proof.Machine.execSpanUncorrectable word s
  | .dataTimeoutExpiry p => Sys2Proof.Machine.execDataTimeoutExpiry p s
  | .readStallExpiry p => Sys2Proof.Machine.execReadStallExpiry p s
  | .jobEnd p => Sys2Proof.Machine.execJobEnd p s
  | .attentionFramePlaced p => Sys2Proof.Machine.execAttentionFramePlaced p s
  | .revokeDeadlineExpiry slot p => Sys2Proof.Machine.execRevokeDeadlineExpiry slot p s
  | .closeDeadlineExpiry slot => Sys2Proof.Machine.execCloseDeadlineExpiry slot s
  | .revokeEnd slot p => Sys2Proof.Machine.execRevokeEnd slot p s
  | .closeEnd slot => Sys2Proof.Machine.execCloseEnd slot s
  | .blockCleared => Sys2Proof.Machine.execBlockCleared s

end Sys2Proof.Machine
end

