-- ==== Sys2Proof/Machine/Outputs.lean ====
section
/-! DEFINITION. What the part puts out: the bytes of each port's outbound lane (R162), and the LINK-ACTIVE lines
(00_scope.md). -/

namespace Sys2Proof.Machine

/-- What a port's outbound lane carries from the transmitter's last choice to its next (R162, R173): the bytes of the frame
chosen, in the order of R162, or, with no frame to send, the idle fill byte, sent again and again. -/
def Link.laneBytes (l : Link) : List Byte :=
  match l.lane with
  | some f => f.bytes
  | none => [Config.idleFill]

/-- The LINK-ACTIVE line of a port: a free value of what the line could show (log 18). -/
def State.linkActive (s : State) (p : Port) : Bool :=
  Config.linkActiveLevel (s.port p).portState.code (s.port p).link.lane.isSome

end Sys2Proof.Machine
end

