-- ==== Sys2Proof/Machine/Step.lean ====
section
/-! DEFINITION. One step of the part, and the placing of a command at the front of its queue. -/

namespace Sys2Proof.Machine

/-- With no command waiting, one millisecond passes for every timer that runs (log 6); a part held in reset stands still
(R161). -/
def State.idle (s : State) : State := if s.resetPin then s else s.elapse 1

/-- One step: the command at the front of the queue leaves it and is carried out; with none waiting the part idles. -/
def step (s : State) : Host.Outcome State Fault Refusal :=
  match s.pending with
  | [] => .next s.idle
  | c :: rest => exec c { s with pending := rest }

/-- `s` with the command that the word spells at the front of its queue; no word spells one, since the table gives no row
any bits. -/
def State.withFetchWord (s : State) (nbits w : Nat) : State :=
  match decodeTableWord nbits w with
  | some c => { s with pending := c :: s.pending }
  | none => s

end Sys2Proof.Machine
end

