-- ==== Sys2Proof/Safety.lean ====
section
/-! DEFINITION. What counts as a safe state: the promises the spec makes of every state, as predicates of one state (the
statements say that every step keeps them), and the words in which the statements speak of one command: the frame it
finds, the reply it leaves. -/

namespace Sys2Proof.Machine

/-- The store is in its canonical form. -/
def State.StoreCanonical (s : State) : Prop := s.store.wf = true

/-- The check bits of every word that has been written are those of the code over the data written (R22); bits that flip
later are what `Store.flips` records. -/
def Store.ChecksAgree (m : Store) : Prop := ∀ c ∈ m.checks, c.2 = Config.checkCode (m.word c.1)

/-- The used outbound slots plus the reserved outbound slots never exceed 8 (R172). -/
def State.OutboundFits (s : State) : Prop :=
  ∀ p, (s.port p).link.used.length + (s.port p).link.reserved ≤ Config.outboundSlots

/-- The inbound buffer holds 0 to 4 frames (R166). -/
def State.InboundFits (s : State) : Prop := ∀ p, (s.port p).link.inbound.length ≤ Config.inboundFrames

/-- The entry is QUEUED, cut or not. -/
def Entry.isQueued (e : Entry) : Bool :=
  match e.state with
  | .queued _ => true
  | _ => false

/-- At most 16 entries, and only the oldest may be WAITING or ACTIVE (R71). -/
def JobQueue.Ordered (q : JobQueue) : Prop :=
  q.entries.length ≤ Config.queueEntries ∧ ∀ e ∈ q.entries.tail, e.isQueued = true

/-- R71 for every port. -/
def State.QueuesOrdered (s : State) : Prop := ∀ p, (s.port p).queue.Ordered

/-- No claims of different ports conflict (R91). -/
def State.ClaimsApart (s : State) : Prop :=
  ∀ p q, p ≠ q → ∀ a ∈ (s.port p).claims, ∀ b ∈ (s.port q).claims, a.conflicts b = false

/-- The data bytes promised for the DAT frames that stand in the inbound buffer (R117, R119). -/
def Link.promises (l : Link) : Nat :=
  (l.inbound.map fun f : InFrame =>
    if f.cls = .dat ∧ datWellFormed f.payload = true then (datData f.payload).length else 0).sum

/-- The promised room is that of the frames taken and not yet processed, and held bytes and promised room together never
exceed 4096 (R117). -/
def State.StagingFits (s : State) : Prop :=
  ∀ p, (s.port p).staging.promised = (s.port p).link.promises ∧
    (s.port p).staging.held.length + (s.port p).staging.promised ≤ Config.stagingBytes

/-- At most one grant per port, none to the owner, and none while CLEARING (R37). -/
def Canvas.GrantsPlaced (c : Canvas) : Prop :=
  (c.grants.map Grant.port).Nodup ∧ c.owner ∉ c.grants.map Grant.port ∧ (c.phase.known = false → c.grants = [])

/-- R37 for every canvas. -/
def State.GrantsPlaced (s : State) : Prop := ∀ n c, s.canvas n = some c → c.GrantsPlaced

/-- The block counts of the canvases of port `p`, one entry for each canvas it owns that is not FREE. -/
def State.runsOf (s : State) (p : Port) : List Nat :=
  slotNumbers.filterMap fun n => (s.canvas n).bind fun c => if c.owner = p then some c.blockCount else none

/-- The holdings of every port are those of its canvases and lie within its quotas (R8). -/
def State.HoldingsExact (s : State) : Prop :=
  ∀ p, (s.port p).canvasesHeld = (s.runsOf p).length ∧ (s.port p).blocksHeld = (s.runsOf p).sum ∧
    (s.port p).blocksHeld ≤ (s.port p).blockQuota ∧ (s.port p).canvasesHeld ≤ (s.port p).canvasQuota

/-- The run of the canvas holds block `b` (R21). -/
def Canvas.HoldsBlock (c : Canvas) (b : Nat) : Prop := c.firstBlock ≤ b ∧ b < c.firstBlock + c.blockCount

/-- A block is allocated exactly when it belongs to the run of a canvas that is not FREE; the runs lie in the store and
are disjoint (R28). -/
def State.BlocksExact (s : State) : Prop :=
  (∀ b, s.allocated.getLsbD b = true ↔ ∃ n c, s.canvas n = some c ∧ c.HoldsBlock b) ∧
  (∀ n c, s.canvas n = some c → c.firstBlock + c.blockCount ≤ Config.blocks) ∧
  (∀ n m c d b, s.canvas n = some c → s.canvas m = some d → c.HoldsBlock b → d.HoldsBlock b → n = m)

/-- The arrival list names every PENDING record once and no other (R130). -/
def FaultLog.Consistent (l : FaultLog) : Prop :=
  l.arrival.Nodup ∧ ∀ i, i ∈ l.arrival ↔ (l.record i).isSome = true

/-- Every slot's generation is 1 to 255 (R1). -/
def State.GenerationsValid (s : State) : Prop := ∀ n, 1 ≤ n → n ≤ 255 → (s.slot n).generation ≠ 0

/-- An ATN frame is due only while attention is outstanding (R140, R143, R144). -/
def State.DueOutstanding (s : State) : Prop := ∀ p, (s.port p).attn.due = true → (s.port p).attn.outstanding = true

/-- Every entry holds the pins of its job, none once it is cut, all on canvases that are LIVE or CLOSING; and each port's
pins on a canvas are the number of its entries that hold one there (R9, R70). -/
def State.PinsExact (s : State) : Prop :=
  (∀ p, ∀ e ∈ (s.port p).queue.entries,
    e.pins = (if e.state = .queued true then [] else e.job.names) ∧ ∀ h ∈ e.pins, (s.lookup h).isSome = true) ∧
  (∀ n c p, s.canvas n = some c →
    c.pinsOf p = (s.port p).queue.entries.countP fun e : Entry => e.pins.contains (s.handle n))

/-- No revoke and no close outlives its last pin: a REVOKING grant has pins, and a CLOSING canvas has a pin count above 0 (R9,
R45, R54). -/
def State.EndsTaken (s : State) : Prop :=
  ∀ n c, s.canvas n = some c →
    (∀ g ∈ c.grants, g.revoke ≠ none → 0 < g.pins) ∧ (c.phase.isClosing = true → 0 < c.pinCount)

/-- A RESETTING port has no frame taken and not processed (R156, R169), and its queue is empty once it has reported that it
has stopped (R87). -/
def State.ResettingPortsQuiet (s : State) : Prop :=
  ∀ p op, (s.port p).portState = .resetting op →
    (s.port p).link.inbound = [] ∧ (op.queueStopped = true → (s.port p).queue.entries = [])

/-- The clear list names the CLEARING canvases, each once (R32). -/
def State.ClearListExact (s : State) : Prop :=
  s.clear.list.Nodup ∧ ∀ n, n ∈ s.clear.list ↔ ∃ c, s.canvas n = some c ∧ c.phase.known = false

/-! ### What a command finds and leaves -/

/-- The part is out of reset, and this frame is the oldest of the port's inbound buffer, `rest` those behind it. -/
def State.Oldest (s : State) (p : Port) (cls : InClass) (payload : List Byte) (rest : List InFrame) : Prop :=
  s.resetPin = false ∧ (s.port p).link.inbound = ⟨cls, payload⟩ :: rest

/-- The payload is a request of the kind with this code, with a whole header (10.4). -/
def IsRequest (payload : List Byte) (code : Nat) : Prop := 4 ≤ payload.length ∧ num8 payload 0 = code

/-- A frame of class `cls` stands at the tail of the outbound list with the next sequence (R172). -/
def Link.placed (l : Link) (cls : OutClass) (payload : List Byte) : Link :=
  { l with
    used := l.used ++ [⟨cls, l.nextOut, payload⟩]
    nextOut := l.nextOut + 1
    transmitPoint := some (l.transmitPoint.getD l.nextOut) }

/-- A frame of class `cls` stands where a reserved slot was (R172). -/
def Link.placedReserved (l : Link) (cls : OutClass) (payload : List Byte) : Link :=
  { l with reserved := l.reserved - 1 }.placed cls payload

/-- The block of a port whose oldest frame has left the inbound buffer, `rest` remaining (R181). -/
def PortBlock.took (b : PortBlock) (rest : List InFrame) : PortBlock := { b with link := { b.link with inbound := rest } }

/-- The request `payload` has been answered in its reserved slot: the kind echoed, the status, the request id echoed, the
contents (R184, 10.4). -/
def PortBlock.answered (b : PortBlock) (payload : List Byte) (status : Nat) (contents : List Byte) : PortBlock :=
  let reply := [byteAt payload 0, BitVec.ofNat 8 status, byteAt payload 2, byteAt payload 3] ++ contents
  { b with link := b.link.placedReserved .rep reply }

/-- The request `payload` has been deferred: its kind and request id are kept (R184). -/
def PortBlock.putOff (b : PortBlock) (payload : List Byte) : PortBlock :=
  { b with deferred := b.deferred ++ [⟨byteAt payload 0, BitVec.ofNat 16 (num16 payload 2)⟩] }

/-- The contents of a HELLO reply (10.5): port, supervisor flag, part code 0x0416, silicon revision, the mode performed and
the expected inbound sequence, after the reply header with this request id. -/
def helloReplyBytes (p : Port) (id : ReqId) (mode : Byte) (expected : BitVec 8) : List Byte :=
  [0x01, 0x00, BitVec.ofNat 8 id.toNat, BitVec.ofNat 8 (id.toNat / 256), BitVec.ofNat 8 p.num,
   if p = .p0 then 1 else 0, 0x16, 0x04, 0x01, mode, expected, 0x00]

/-- The link of a port whose session begins (R177): the HELLO reply is its first frame. -/
def Link.sessionBegun (l : Link) (p : Port) (id : ReqId) : Link :=
  { l with
    expected := 1
    nextOut := 1
    used := l.used ++ [⟨.rep, 0, helloReplyBytes p id 0x01 1⟩]
    transmitPoint := some 0
    sentCount := 0
    retransmits := 0
    ackOwed := false
    resendTimer := none }

/-- What a port reset of `t` does to the port's own blocks and to the fault log in the step it begins, `s` before and `u`
after (R156): the link (R179), the configuration (R154), the attention unit (R146), the staging buffer (R129), the queue
(R87), the deferred replies (R184), and the stop request for its ACTIVE job, which marks the job's record while its span is
in progress and else takes the record away with the report "stopped" (R112); quotas, claims and the job sequence are kept. -/
def PortResetOwnPart (s u : State) (t : Port) : Prop :=
  let b := s.port t
  let d := u.port t
  d.portState.isResetting = true ∧ d.blockQuota = b.blockQuota ∧ d.canvasQuota = b.canvasQuota ∧
  d.config = PortConfig.default ∧
  d.link = ⟨b.link.rx, b.link.expected, b.link.nextOut, [], [], 0, none, 0, none, 0, false, none, none, b.link.lane⟩ ∧
  d.deferred = [] ∧ d.claims = b.claims ∧ d.request = none ∧ d.attn = Attention.reset ∧
  d.staging.held = [] ∧ d.staging.promised = 0 ∧ d.staging.lastRejected = none ∧
  d.queue.run = .resetting ∧ d.queue.nextSeq = b.queue.nextSeq ∧ d.queue.haltWaiters = [] ∧ d.queue.cancelWaiters = [] ∧
  d.queue.entries.map Entry.seq = (b.queue.entries.filter Entry.isActive).map Entry.seq ∧
  (∀ e ∈ d.queue.entries, ∃ c : StopCauses, e.state = .active c ∧ c.reset = true) ∧
  ((b.record = none ∨ b.queue.active = none) →
    d.record = b.record.map (fun r : EngineRecord => { r with spanSlot := false }) ∧ d.queue.report = b.queue.report) ∧
  (∀ r : EngineRecord, b.record = some r → b.queue.active ≠ none →
    ((∃ x, s.engine.span = some x ∧ x.port = t) →
      d.record = some { r with spanSlot := false, stopMark := true } ∧ d.queue.report = b.queue.report) ∧
    ((∀ x, s.engine.span = some x → x.port ≠ t) → d.record = none ∧ d.queue.report = some (.stopped .noSpan))) ∧
  (∀ i, u.faultLog.record i = if (s.faultLog.record i).any (fun r => r.port == t) then none else s.faultLog.record i) ∧
  u.faultLog.arrival = s.faultLog.arrival.filter (fun i => !((s.faultLog.record i).any fun r => r.port == t)) ∧
  u.faultLog.serial = s.faultLog.serial

/-- What a port reset of `t` leaves of the canvas table in the step it begins: no waiter of the port (R56); a canvas it owns
that is not FREE is CLOSING in CUT mode with the reset mark and has pins, or is CLEARING with its removal pending (R57, R16);
and a grant it holds on another port's canvas is REVOKING in CUT mode with the grantee-reset mark and has pins (R58). -/
def PortResetCanvasPart (u : State) (t : Port) : Prop :=
  (∀ n c, u.canvas n = some c →
    (∀ g ∈ c.grants, ∀ r, g.revoke = some r → ∀ w ∈ r.waiters, w.port ≠ t) ∧
    (∀ op, c.phase = .closing op → ∀ w ∈ op.waiters, w.port ≠ t)) ∧
  (∀ n c, u.canvas n = some c → c.owner = t →
    (∃ op, c.phase = .closing op ∧ op.mode = .cut ∧ op.reset = true ∧ 0 < c.pinCount) ∨
    (c.phase.known = false ∧ u.clear.list.head? = some n ∧ u.clear.removalPending = true)) ∧
  (∀ n c, u.canvas n = some c → c.owner ≠ t → ∀ g, c.grantTo t = some g →
    0 < g.pins ∧ ∃ r, g.revoke = some r ∧ r.mode = .cut ∧ r.granteeReset = true)

/-- The port may name the canvas of handle `h` in a job, as a source or, with `write`, as a destination (R3, R38, R66, R67):
the handle is current, the canvas is LIVE, and the port is its owner or holds an ACTIVE grant on it, of rights RW for a
destination. -/
def State.MayName (s : State) (p : Port) (h : Handle) (write : Prop) : Prop :=
  ∃ c, s.lookup h = some c ∧ c.phase = .live ∧
    (c.owner = p ∨ ∃ g, c.grantTo p = some g ∧ g.revoke = none ∧ (write → g.rights = .rw))

/-- The canvas of handle `h` has this format. -/
def State.HasFormat (s : State) (h : Handle) (f : Format) : Prop := ∃ c, s.canvas (handleSlot h) = some c ∧ c.format = f

/-- The rectangle is not empty and lies within the canvas of handle `h` (R68). -/
def State.RectIn (s : State) (h : Handle) (r : Rect) : Prop :=
  ∃ c, s.canvas (handleSlot h) = some c ∧ 1 ≤ r.w ∧ 1 ≤ r.h ∧ r.x + r.w ≤ c.width ∧ r.y + r.h ≤ c.height

/-- A job passes checks 1 to 6 of R66, kind by kind (R63, R67, R68). -/
def State.JobAllowed (s : State) (p : Port) : Job → Prop
  | .fill dst r _ rop => rop ≤ 15 ∧ s.MayName p dst True ∧ s.RectIn dst r
  | .move src sx sy dst r rop _ =>
    rop ≤ 15 ∧ s.MayName p src (src = dst) ∧ s.MayName p dst True ∧
      (∃ f, s.HasFormat src f ∧ s.HasFormat dst f) ∧ s.RectIn dst r ∧ s.RectIn src ⟨sx, sy, r.w, r.h⟩
  | .expand src sx sy dst r _ _ rop =>
    rop ≤ 15 ∧ s.MayName p src (src = dst) ∧ s.MayName p dst True ∧
      s.HasFormat src .m1 ∧ ¬ s.HasFormat dst .m1 ∧ s.RectIn dst r ∧ s.RectIn src ⟨sx, sy, r.w, r.h⟩
  | .write dst r => s.MayName p dst True ∧ s.RectIn dst r
  | .read src r => s.MayName p src False ∧ s.RectIn src r
  | .mark _ => True

/-- A job fails its checks with this status, that of the first check it fails in the order of R66: 1 MALFORMED; for each canvas
it names, the source before the destination, 2 BAD-HANDLE, 3 CLOSING, 4 NO-RIGHT; 5 FORMAT; 6 BOUNDS. A canvas that is both
source and destination needs what a destination needs (R67). -/
def State.JobFails (s : State) (p : Port) (j : Job) (status : Nat) : Prop :=
  let named : List Handle :=
    match j with
    | .fill dst .. => [dst]
    | .move src _ _ dst .. => [src, dst]
    | .expand src _ _ dst .. => [src, dst]
    | .write dst _ => [dst]
    | .read src _ => [src]
    | .mark _ => []
  let code : Nat :=
    match j with
    | .fill _ _ _ rop => rop
    | .move _ _ _ _ _ rop _ => rop
    | .expand _ _ _ _ _ _ _ rop => rop
    | _ => 0
  let written : Handle → Prop := fun h =>
    match j with
    | .fill dst .. => h = dst
    | .move _ _ _ dst .. => h = dst
    | .expand _ _ _ dst .. => h = dst
    | .write dst _ => h = dst
    | _ => False
  let formats : Prop :=
    match j with
    | .move src _ _ dst .. => ∃ f, s.HasFormat src f ∧ s.HasFormat dst f
    | .expand src _ _ dst .. => s.HasFormat src .m1 ∧ ¬ s.HasFormat dst .m1
    | _ => True
  let rectangles : Prop :=
    match j with
    | .fill dst r .. => s.RectIn dst r
    | .move src sx sy dst r .. => s.RectIn dst r ∧ s.RectIn src ⟨sx, sy, r.w, r.h⟩
    | .expand src sx sy dst r .. => s.RectIn dst r ∧ s.RectIn src ⟨sx, sy, r.w, r.h⟩
    | .write dst r => s.RectIn dst r
    | .read src r => s.RectIn src r
    | .mark _ => True
  15 < code ∧ status = 0x01 ∨
  code ≤ 15 ∧ (∃ before h after, named = before ++ h :: after ∧ (∀ x ∈ before, s.MayName p x (written x)) ∧
    (s.lookup h = none ∧ status = 0x04 ∨
      ∃ c, s.lookup h = some c ∧
        (c.phase.isClosing = true ∧ status = 0x08 ∨
          c.phase.isClosing = false ∧ ¬ s.MayName p h (written h) ∧ status = 0x06))) ∨
  code ≤ 15 ∧ (∀ h ∈ named, s.MayName p h (written h)) ∧
    (¬ formats ∧ status = 0x09 ∨ formats ∧ ¬ rectangles ∧ status = 0x0A)

/-- The bytes `d` are the descriptor of a job and its notify option (10.6): kind, options, raster function, pad, then the
fields of the kind at their offsets; the key colour and the background colour are used only with their option bits. -/
def Describes (d : List Byte) (x : Job × Bool) : Prop :=
  let handle : Nat → Handle := fun i => BitVec.ofNat 16 (num16 d i)
  let colour : Nat → Colour := fun i => BitVec.ofNat 32 (num32 d i)
  let rect : Nat → Rect := fun i => ⟨num16 d i, num16 d (i + 2), num16 d (i + 4), num16 d (i + 6)⟩
  let option : Nat → Bool := fun i => (num8 d 1).testBit i
  x.2 = option 0 ∧
  (num8 d 0 = 0x01 ∧ d.length = 20 ∧ x.1 = .fill (handle 4) (rect 8) (colour 16) (num8 d 2) ∨
    num8 d 0 = 0x02 ∧ d.length = 24 ∧ x.1 = .move (handle 4) (num16 d 8) (num16 d 10) (handle 6) (rect 12) (num8 d 2)
      (if option 1 then some (colour 20) else none) ∨
    num8 d 0 = 0x03 ∧ d.length = 28 ∧ x.1 = .expand (handle 4) (num16 d 8) (num16 d 10) (handle 6) (rect 12) (colour 20)
      (if option 2 then some (colour 24) else none) (num8 d 2) ∨
    num8 d 0 = 0x04 ∧ d.length = 16 ∧ x.1 = .write (handle 4) (rect 8) ∨
    num8 d 0 = 0x05 ∧ d.length = 16 ∧ x.1 = .read (handle 4) (rect 8) ∨
    num8 d 0 = 0x06 ∧ d.length = 8 ∧ x.1 = .mark (BitVec.ofNat 32 (num32 d 4)))

/-- The store carries out the span access of port `p`'s job, whose words all lie in the store and read good or
correctable (R23). -/
def State.SpanServed (s : State) (p : Port) (r : EngineRecord) (data : List Byte) : Prop :=
  s.resetPin = false ∧ s.arbiter.serving = some .span ∧ s.engine.span = some ⟨p, data⟩ ∧
    (s.port p).record = some r ∧ r.accessInStore = true ∧
    ∀ w ∈ r.reads, s.store.condition w ≠ some .uncorrectable

/-- The JOB-END notice of an entry (10.7): code, kind, sequence, status, record index, two pad bytes, the tag of a MARK. -/
def Entry.noticeBytes (e : Entry) (status index : Nat) : List Byte :=
  [0x01, BitVec.ofNat 8 e.job.kind.code] ++ enc16 e.seq ++ [BitVec.ofNat 8 status, BitVec.ofNat 8 index, 0, 0] ++
    enc32 (match e.job with
      | .mark tag => tag.toNat
      | _ => 0)

/-- A claim asked for conflicts with a claim present of another port (R91). -/
def State.Conflicting (s : State) (p : Port) (a : Claim) : Prop :=
  ∃ q, q ≠ p ∧ ∃ d ∈ (s.port q).claims, a.conflicts d = true

/-- The head of the port's queue is WAITING with this claim request (R89). -/
def State.AwaitsClaims (s : State) (p : Port) (cs : List Claim) : Prop :=
  (s.port p).request = some cs ∧ ∃ e rest, (s.port p).queue.entries = e :: rest ∧ e.isWaiting = true

/-- The block of port `p` when its waiting request `cs` is granted, `e` the head of its queue and `later` the entries behind
it: the claims are added, the head goes to ACTIVE without stop causes (R75, R91), and the engine has its record (R101), with
rows upward or spans leftward only in a MOVE within one canvas (R97), the progress at its first span (R98), the stop mark clear
and the stream timer of a WRITE or a READ at its setting (R124, R125). -/
def State.grantedBlock (s : State) (p : Port) (e : Entry) (later : List Entry) (cs : List Claim) : PortBlock :=
  let b := s.port p
  let geo : Handle → Option Geo := fun h => (s.canvas (handleSlot h)).map fun c =>
    ⟨h, c.firstBlock, c.blockCount, c.pitch, c.width, c.format⟩
  let upward :=
    match e.job with
    | .move src _ sy dst r _ _ => decide (src = dst ∧ sy < r.y)
    | _ => false
  let leftward :=
    match e.job with
    | .move src sx sy dst r _ _ => decide (src = dst ∧ sy = r.y ∧ sx < r.x)
    | _ => false
  let record : EngineRecord :=
    { seq := e.seq, job := e.job, src := e.job.src.bind geo, dst := e.job.dst.bind geo
      upward := upward, leftward := leftward
      row := if upward then e.job.rect.h - 1 else 0
      col := if leftward then e.job.rect.w - 1 else 0
      stopMark := false
      timer :=
        match e.job with
        | .write _ _ => some b.config.dataTimeout
        | .read _ _ => some b.config.readStall
        | _ => none
      spanSlot := false }
  { b with
    claims := cs
    request := none
    record := some record
    queue := { b.queue with entries := { e with state := .active ⟨false, false, false⟩ } :: later } }

/-- The port's ACTIVE job at the engine is ready (R102): a WRITE with every byte of its next span held, a READ with a slot
neither used nor reserved, any other job always. -/
def PortBlock.HasReadyJob (b : PortBlock) : Prop :=
  ∃ r, b.record = some r ∧ (r.job.kind = .write → r.spanBytes ≤ b.staging.held.length) ∧
    (r.job.kind = .read → b.link.used.length + b.link.reserved < 8)

/-- The spans of a job from the record's progress on, in the order the engine does them (R96 to R98), as the record stands
at each; at most `n` of them. -/
def EngineRecord.spans : Nat → EngineRecord → List EngineRecord
  | 0, _ => []
  | n + 1, r => r ::
    match r.nextProgress with
    | none => []
    | some (row, col) => EngineRecord.spans n { r with row := row, col := col }

/-- The geometry is that of a canvas of this width and height (R5, R21). -/
def Geo.IsCanvas (g : Geo) (height : Nat) : Prop :=
  g.pitch = g.format.pitch g.width ∧ g.pitch * height ≤ 4096 * g.blockCount

end Sys2Proof.Machine
end

