-- ==== Sys2Proof/Certificates/Slice0/Obligations.lean ====
section
/-! DEFINITION. The statements about the FS-416, each one def Obligations.<Name>. Each says of its commands that they answer
a next state, what it holds, and, by writing that state as a change of the old one, that nothing else changes. -/

open Sys2Proof Sys2Proof.Machine

/-! ### Steps, reset, power -/

/-- A step takes the command at the front of the queue and carries it out on the state with the queue's rest. -/
def Obligations.StepRunsTheFrontCommand : Prop :=
  ∀ (s : State) (c : Instr) (rest : List Instr), s.pending = c :: rest → step s = exec c { s with pending := rest }

/-- The model's choice (log 6): with no command waiting, a step lets one millisecond pass. The resend timers, wait timers
and deadlines that run come one millisecond nearer, and so does a stream timer while its job has no span in progress and is
short of data or of a slot (R124, R125). Nothing else changes, and nothing at all while the reset pin is asserted. While the
reset pin is asserted no block acts (R161): a command that is neither power-on nor an edge of the reset pin changes
nothing. -/
def Obligations.TimePassesOnlyOutOfReset : Prop :=
  (∀ s : State, s.pending = [] →
     (s.resetPin = true → step s = .next s) ∧
     (s.resetPin = false → ∃ t, step s = .next t ∧ t = { s with ports := t.ports, slots := t.slots } ∧
       (∀ p, t.port p = { s.port p with
         link := { (s.port p).link with resendTimer := (s.port p).link.resendTimer.map (· - 1) }
         queue := { (s.port p).queue with entries := (s.port p).queue.entries.map fun e : Entry =>
           match e.state with
           | .waiting left => { e with state := .waiting (left - 1) }
           | _ => e }
         record := (s.port p).record.map fun r : EngineRecord =>
           if (∀ x, s.engine.span = some x → x.port ≠ p) ∧
             ((r.job.kind = .write ∧ (s.port p).staging.held.length < r.spanBytes) ∨
               (r.job.kind = .read ∧ 8 ≤ (s.port p).link.used.length + (s.port p).link.reserved)) then
             { r with timer := r.timer.map (· - 1) }
           else r }) ∧
       (∀ n, (t.slot n).generation = (s.slot n).generation) ∧
       (∀ n c, s.canvas n = some c → t.canvas n = some { c with
         grants := c.grants.map fun g : Grant =>
           match g.revoke with
           | some ⟨.drain left, ws, mark⟩ => { g with revoke := some ⟨.drain (left - 1), ws, mark⟩ }
           | _ => g
         phase :=
           match c.phase with
           | .closing ⟨.drain left, ws, forced, mark⟩ => .closing ⟨.drain (left - 1), ws, forced, mark⟩
           | ph => ph }) ∧
       (∀ n, s.canvas n = none → t.canvas n = none))) ∧
  (∀ (s : State) (c : Instr), s.resetPin = true → c ≠ .powerOn → c ≠ .resetPinAssert → c ≠ .resetPinRelease →
     exec c s = .next s)

/-- The values after power-on and the reset pin, in State.reset: every slot FREE with generation 1 (R19), every block free
(R31), nothing to clear (R36), the store idle with the marker naming the clear unit (R26), the engine with no span and its
marker naming P3 (R115), the fault log empty with serial 0 (R138), and every port as R147, R180, R88, R95, R129 and R146
give it. POWER_ON, RESET_PIN_ASSERT and RESET_PIN_RELEASE leave these values in every block (R161), with the store's
contents unspecified afresh, the check bits included (R27). The reset pin, the two counters of the free values and the commands waiting are the
model's own (logs 7, 9, 17, 21). -/
def Obligations.PowerOnValues : Prop :=
  (let s := State.reset
   (∀ n, 1 ≤ n → n ≤ 255 → s.slot n = ⟨1, none⟩) ∧
   (∀ b, b < 4096 → s.allocated.getLsbD b = false) ∧
   s.clear = ⟨[], 0, false⟩ ∧ s.arbiter = ⟨none, .clearUnit⟩ ∧ s.engine = ⟨none, .p3⟩ ∧
   (∀ i, i < 12 → s.faultLog.record i = none) ∧ s.faultLog.serial = 0 ∧ s.faultLog.arrival = [] ∧
   s.pending = [] ∧
   ∀ p,
     let b := s.port p
     b.portState = .unsynced ∧ b.blockQuota = 1024 ∧ b.canvasQuota = 64 ∧ b.blocksHeld = 0 ∧ b.canvasesHeld = 0 ∧
     b.config = ⟨50, 50, 200, 10, 8, ⟨true, true, true, false⟩, ⟨false, false, false, false⟩⟩ ∧
     b.link = ⟨[], 0, 0, [], [], 0, none, 0, none, 0, false, none, none, none⟩ ∧ b.deferred = [] ∧
     b.queue = ⟨[], .run, 1, [], [], none⟩ ∧ b.claims = [] ∧ b.request = none ∧ b.record = none ∧
     b.staging = ⟨none, [], 0, none⟩ ∧
     b.attn = ⟨⟨false, false, false, false, false, false⟩, ⟨false, false, false, false, false, false⟩, false, false⟩) ∧
  (∀ s : State,
     let fresh := fun pin => { State.reset with
       resetPin := pin, store := ⟨[], [], [], s.store.powerUps + 1⟩, deviceResets := s.deviceResets, pending := s.pending }
     exec .powerOn s = .next (fresh s.resetPin) ∧
     exec .resetPinAssert s = .next (fresh true) ∧
     (s.resetPin = true → exec .resetPinRelease s = .next (fresh false)))

/-- RESET_DEVICE from P0 (R160): every block at its reset values, the generations kept but for the slots that were not
FREE, whose generation advances by one (R20), and the store's contents kept when no access was in progress (R27). A block
access in progress is abandoned: every word of the block holds its old contents or the fill pattern whole, and is good, with
check bits computed from its data (R22), or as it was; every other byte and word, with its check bits, is as before. A span
access in progress is abandoned the same way (R116): each word it was to write holds its old contents or the contents the
span was to give it, and is good or as it was, and nothing else changes; one that had met an uncorrectable word was to write
nothing (R24). -/
def Obligations.ResetDeviceResetsEveryBlock : Prop :=
  (∀ (s : State) (payload : List Byte) (rest : List InFrame),
     s.Oldest .p0 .req payload rest → IsRequest payload 0x05 → payload.length = 4 →
     ∃ t, exec (.resetDevice .p0) s = .next t ∧
       t = { State.reset with
         slots := t.slots, store := t.store, deviceResets := s.deviceResets + 1, pending := s.pending } ∧
       (∀ n, 1 ≤ n → n ≤ 255 → t.slot n =
         if (s.canvas n).isSome then ⟨nextGeneration (s.slot n).generation, none⟩ else s.slot n) ∧
       (s.arbiter.serving = none → t.store = s.store)) ∧
  (∀ (s : State) (payload : List Byte) (rest : List InFrame) (b : Nat) (f : Format) (fill : Colour),
     s.Oldest .p0 .req payload rest → IsRequest payload 0x05 → payload.length = 4 →
     s.arbiter.serving = some (.block b f fill) → b < 4096 →
     ∃ t, exec (.resetDevice .p0) s = .next t ∧
       let old := fun w => ∀ i, i < 8 → t.store.read (8 * w + i) = s.store.read (8 * w + i)
       let good := fun w => t.store.condition w = none ∧ t.store.checkBits w = Config.checkCode (t.store.word w)
       let kept := fun w => t.store.condition w = s.store.condition w ∧ t.store.checkBits w = s.store.checkBits w
       (∀ w, w / 512 = b →
         (old w ∧ (good w ∨ kept w)) ∨
         ((∀ i, i < 8 → t.store.read (8 * w + i) = patternByte f fill ((8 * w + i) % 4096)) ∧ good w)) ∧
       (∀ a, a / 4096 ≠ b → t.store.read a = s.store.read a) ∧
       (∀ w, w / 512 ≠ b → kept w)) ∧
  (∀ (s : State) (payload : List Byte) (rest : List InFrame) (p : Port) (r : EngineRecord) (data : List Byte),
     s.Oldest .p0 .req payload rest → IsRequest payload 0x05 → payload.length = 4 →
     s.arbiter.serving = some .span → s.engine.span = some ⟨p, data⟩ → (s.port p).record = some r →
     let made := r.writePhase s.store data
     ∃ t, exec (.resetDevice .p0) s = .next t ∧
       ((∃ w ∈ r.reads, s.store.condition w = some .uncorrectable) → t.store = s.store) ∧
       let old := fun w => ∀ i, i < 8 → t.store.read (8 * w + i) = s.store.read (8 * w + i)
       let good := fun w => t.store.condition w = none ∧ t.store.checkBits w = Config.checkCode (t.store.word w)
       let kept := fun w => t.store.condition w = s.store.condition w ∧ t.store.checkBits w = s.store.checkBits w
       (∀ w ∈ r.dstWords, (old w ∧ (good w ∨ kept w)) ∨
         ((∀ i, i < 8 → t.store.read (8 * w + i) = made.read (8 * w + i)) ∧ good w)) ∧
       (∀ a, a / 8 ∉ r.dstWords → t.store.read a = s.store.read a) ∧
       (∀ w, w ∉ r.dstWords → kept w))

/-! ### Frames on the lanes -/

/-- Between frames a lane carries the idle fill byte 0x4B, and a frame is its start byte 0xD1, class, sequence,
acknowledgement, payload length least significant byte first, payload, and the CRC of all but the start byte, least
significant byte first (R162, R164). A receiver that hunts passes over every byte but 0xD1, the idle fill among them, and
reads a frame as the sender sent it (R163, R164). -/
def Obligations.ReceiverReadsWhatIsSent : Prop :=
  (∀ l : Link,
    (l.lane = none → l.laneBytes = [0x4B]) ∧
    ∀ f, l.lane = some f →
      let body := [f.cls, f.seq, f.ack] ++ enc16 f.payload.length ++ f.payload
      l.laneBytes = [0xD1] ++ body ++ enc16 (crc16 body).toNat) ∧
  (∀ (fill : List Byte) (f : WireFrame) (rest : List Byte), (∀ b ∈ fill, b ≠ 0xD1) → f.payload.length ≤ 1040 →
    receive (fill ++ f.bytes ++ rest) = .good f rest) ∧
  (∀ (idle busy : Link) (f : WireFrame) (n : Nat) (rest : List Byte), idle.lane = none → busy.lane = some f →
    f.payload.length ≤ 1040 → receive ((List.replicate n idle.laneBytes).flatten ++ busy.laneBytes ++ rest) = .good f rest)

/-- FRAME_LENGTH_ERROR (R163): a length field above 1040 discards what has been gathered, and the receiver hunts from the
byte after the start byte; no NAK is made and nothing else changes. CRC_ERROR (R164): the frame is discarded, the receiver
hunts from the byte after its start byte, and an UP, LOST or UNSYNCED port makes a NAK CRC pending. UNKNOWN_CLASS_FRAME
(R165): a good frame of a class the host does not send is discarded; its acknowledgement is not applied. -/
def Obligations.FaultyFramesAreDiscarded : Prop :=
  (∀ (s : State) (p : Port) (bytes t : List Byte), s.resetPin = false → (s.port p).link.rx ++ bytes = 0xD1 :: t →
     5 ≤ t.length → 1040 < num16 t 3 →
     exec (.frameLengthError p bytes) s =
       .next (s.setPort p { s.port p with link := { (s.port p).link with rx := hunt t } })) ∧
  (∀ (s : State) (p : Port) (bytes t : List Byte), s.resetPin = false → (s.port p).link.rx ++ bytes = 0xD1 :: t →
     5 ≤ t.length → num16 t 3 ≤ 1040 → num16 t 3 + 7 ≤ t.length →
     (crc16 (t.take (num16 t 3 + 5))).toNat ≠ num16 t (num16 t 3 + 5) →
     let b := s.port p
     let nak : Option Nak :=
       match b.portState with
       | .up => some ⟨.crc, b.link.expected⟩
       | .lost => some ⟨.crc, b.link.expected⟩
       | .unsynced => some ⟨.crc, 0⟩
       | .disabled => b.link.nak
       | .resetting _ => b.link.nak
     exec (.crcError p bytes) s = .next (s.setPort p { b with link := { b.link with rx := hunt t, nak := nak } })) ∧
  (∀ (s : State) (p : Port) (bytes : List Byte) (f : WireFrame) (rest : List Byte), s.resetPin = false →
     (s.port p).link.rx ++ bytes = f.bytes ++ rest → f.payload.length ≤ 1040 →
     f.cls ≠ 0x01 → f.cls ≠ 0x02 → f.cls ≠ 0xC0 →
     exec (.unknownClassFrame p bytes) s =
       .next (s.setPort p { s.port p with link := { (s.port p).link with rx := hunt rest } }))

/-- ACK_FRAME_RECEIVED on an UP port (R170): with o the sequence of the oldest used frame and t the sent count,
k = a − o + 1 from 1 to t frees the k oldest frames, lowers the sent count by k, zeroes the retransmit count, restarts the
resend timer or stops it, and moves a transmit point that named a freed frame to the oldest left; any other value changes
nothing. -/
def Obligations.AcknowledgementFreesTheOldestFrames : Prop :=
  ∀ (s : State) (p : Port) (bytes : List Byte) (f : WireFrame) (rest : List Byte), s.resetPin = false →
    (s.port p).portState = .up → (s.port p).link.rx ++ bytes = f.bytes ++ rest → f.payload.length ≤ 1040 →
    f.cls = 0xC0 →
    let b := s.port p
    let l := b.link
    (l.used = [] → exec (.ackFrameReceived p bytes) s = .next (s.setPort p { b with link := { l with rx := hunt rest } })) ∧
    ∀ g others, l.used = g :: others →
      let k := (f.ack - g.seq + 1).toNat
      let freed := l.used.take k
      let left := l.used.drop k
      exec (.ackFrameReceived p bytes) s = .next (s.setPort p (
        if 1 ≤ k ∧ k ≤ l.sentCount then
          { b with link := { l with
              rx := hunt rest
              used := left
              sentCount := l.sentCount - k
              retransmits := 0
              resendTimer := if k < l.sentCount then some b.config.resendInterval else none
              transmitPoint :=
                match l.transmitPoint with
                | none => none
                | some t => if t ∈ freed.map OutFrame.seq then left.head?.map OutFrame.seq else some t } }
        else { b with link := { l with rx := hunt rest } }))

/-- REQ_DAT_FRAME_RECEIVED on an UP port, no HELLO (R167, R168, R119): the acknowledgement is applied (R170) whatever becomes
of the frame; a frame in sequence is taken, with a slot reserved for a REQ's reply and room promised for a DAT's data, or
refused BUSY; one 1 to 127 ahead is refused ORDER; any other is a duplicate and owes an acknowledgement. -/
def Obligations.SequenceTestOnAnUpPort : Prop :=
  ∀ (s : State) (p : Port) (bytes : List Byte) (f : WireFrame) (rest : List Byte) (c : InClass), s.resetPin = false →
    (s.port p).portState = .up → (s.port p).link.rx ++ bytes = f.bytes ++ rest → f.payload.length ≤ 1040 →
    ((f.cls = 0x01 ∧ c = .req ∧ f.payload.head? ≠ some 0x01) ∨ (f.cls = 0x02 ∧ c = .dat)) →
    let b := s.port p
    let l : Link := { b.link.applyAck b.config.resendInterval f.ack with rx := hunt rest }
    let e := l.expected
    let d := (f.seq - e).toNat
    let refused : NakReason → PortBlock := fun why => { b with link := { l with nak := some ⟨why, e⟩ } }
    let taken : Link := { l with inbound := l.inbound ++ [⟨c, f.payload⟩], expected := e + 1, ackOwed := true }
    let size := f.payload.length - 6
    exec (.reqDatFrameReceived p bytes) s = .next (s.setPort p (
      if d = 0 then
        if 4 ≤ l.inbound.length then refused .busy
        else
          match c with
          | .req =>
            if 8 ≤ l.used.length + l.reserved then refused .busy
            else { b with link := { taken with reserved := l.reserved + 1 } }
          | .dat =>
            if f.payload.length < 7 ∨ 1030 < f.payload.length then { b with link := taken }
            else if 4096 < b.staging.held.length + b.staging.promised + size then refused .busy
            else { b with link := taken, staging := { b.staging with promised := b.staging.promised + size } }
      else if d ≤ 127 then refused .order
      else { b with link := { l with ackOwed := true } }))

/-- A good frame that is no HELLO on a port that is not UP (R169): refused NAK SYNC with the expected sequence when LOST,
NAK SYNC 0 when UNSYNCED or DISABLED, NAK BUSY 0 when RESETTING; its acknowledgement is not applied. HELLO_FRAME_RECEIVED
(R176, R169): an UP, LOST or UNSYNCED port takes it when the inbound buffer has room, without a reservation or a change of
the expected sequence, and else refuses it BUSY; a DISABLED port refuses it SYNC and a RESETTING one BUSY. -/
def Obligations.FramesOutsideASession : Prop :=
  (∀ (s : State) (p : Port) (bytes : List Byte) (f : WireFrame) (rest : List Byte), s.resetPin = false →
     (s.port p).link.rx ++ bytes = f.bytes ++ rest → f.payload.length ≤ 1040 → (s.port p).portState ≠ .up →
     let b := s.port p
     let nak : Nak :=
       match b.portState with
       | .lost => ⟨.sync, b.link.expected⟩
       | .resetting _ => ⟨.busy, 0⟩
       | _ => ⟨.sync, 0⟩
     let refused := s.setPort p { b with link := { b.link with rx := hunt rest, nak := some nak } }
     ((f.cls = 0x02 ∨ f.cls = 0x01 ∧ f.payload.head? ≠ some 0x01) → exec (.reqDatFrameReceived p bytes) s = .next refused) ∧
     (f.cls = 0xC0 → exec (.ackFrameReceived p bytes) s = .next refused)) ∧
  (∀ (s : State) (p : Port) (bytes : List Byte) (f : WireFrame) (rest : List Byte), s.resetPin = false →
     (s.port p).link.rx ++ bytes = f.bytes ++ rest → f.payload.length ≤ 1040 →
     f.cls = 0x01 → f.payload.head? = some 0x01 →
     let b := s.port p
     let l : Link := { b.link with rx := hunt rest }
     let refused : NakReason → BitVec 8 → PortBlock := fun why e => { b with link := { l with nak := some ⟨why, e⟩ } }
     let offered : BitVec 8 → PortBlock := fun e =>
       if l.inbound.length < 4 then { b with link := { l with inbound := l.inbound ++ [⟨.req, f.payload⟩] } }
       else refused .busy e
     exec (.helloFrameReceived p bytes) s = .next (s.setPort p (
       match b.portState with
       | .up => offered l.expected
       | .lost => offered l.expected
       | .unsynced => offered 0
       | .disabled => refused .sync 0
       | .resetting _ => refused .busy 0)))

/-! ### Sending, resending, loss -/

/-- FRAME_TRANSMIT (R173, R171): the pending NAK first, whatever the port's state; then, on an UP port, the pending HELLO
reply, the frame at the transmit point, an ACK frame when one is owed; else idle fill. Every frame carries the
acknowledgement value, expected inbound minus 1. A listed frame moves the transmit point to the next one, counts as sent if
it had not been, starts a stopped resend timer and clears ACK owed. -/
def Obligations.TransmitterChoosesInOrder : Prop :=
  ∀ (s : State) (p : Port), s.resetPin = false →
    let b := s.port p
    let l := b.link
    let a := l.expected - 1
    let sends := fun l' : Link => exec (.frameTransmit p) s = .next (s.setPort p { b with link := l' })
    (∀ n, l.nak = some n →
      sends { l with nak := none, lane := some ⟨0xC1, 0, a, [BitVec.ofNat 8 n.reason.code, n.seq]⟩ }) ∧
    (l.nak = none → b.portState ≠ .up → sends { l with lane := none }) ∧
    (l.nak = none → b.portState = .up →
      (∀ h, l.helloReply = some h → sends { l with helloReply := none, lane := some ⟨0x81, h.seq, a, h.payload⟩ }) ∧
      (l.helloReply = none →
        (∀ (before : List OutFrame) (f : OutFrame) (after : List OutFrame), l.used = before ++ f :: after →
          (∀ g ∈ before, g.seq ≠ f.seq) → l.transmitPoint = some f.seq →
          sends { l with
            lane := some ⟨f.cls.code, f.seq, a, f.payload⟩
            transmitPoint := after.head?.map OutFrame.seq
            sentCount := if l.sentCount ≤ before.length then l.sentCount + 1 else l.sentCount
            resendTimer := some (l.resendTimer.getD b.config.resendInterval)
            ackOwed := false }) ∧
        (l.transmitPoint = none → l.ackOwed = true →
          sends { l with ackOwed := false, lane := some ⟨0xC0, 0, a, []⟩ }) ∧
        (l.transmitPoint = none → l.ackOwed = false → sends { l with lane := none })))

/-- RESEND_TIMER_EXPIRY within the limit (R174): the retransmit count rises by 1, the transmit point goes back to the
oldest frame, and the timer restarts. That the time left passes first, for every timer of the part, is the model's choice
(log 6). Above the limit on an UP port (R175, R151, R83): the timer stops, the count stays at the value that exceeded the
limit, the port goes LOST and its queue halts: to HALTING with an ACTIVE job, else to HALTED with the HALTED flag set
(and, from HALTING or HALTED, no change). The link keeps its frames. -/
def Obligations.ResendTimerExpires : Prop :=
  (∀ (s : State) (p : Port) (left : Nat), s.resetPin = false → (s.port p).link.resendTimer = some left →
     (s.port p).link.retransmits + 1 ≤ (s.port p).config.retransmitLimit →
     let t := s.elapse left
     let b := t.port p
     exec (.resendTimerExpiry p) s = .next (t.setPort p { b with link := { b.link with
       retransmits := b.link.retransmits + 1
       transmitPoint := b.link.used.head?.map OutFrame.seq
       resendTimer := some b.config.resendInterval } })) ∧
  (∀ (s : State) (p : Port) (left : Nat), s.resetPin = false → (s.port p).link.resendTimer = some left →
     (s.port p).config.retransmitLimit < (s.port p).link.retransmits + 1 → (s.port p).portState = .up →
     let t := s.elapse left
     let b : PortBlock := { t.port p with
       portState := .lost
       link := { (t.port p).link with retransmits := (t.port p).link.retransmits + 1, resendTimer := none } }
     ((b.queue.run = .run ∧ b.queue.active.isSome = true) →
       exec (.resendTimerExpiry p) s = .next (t.setPort p { b with queue := { b.queue with run := .halting } })) ∧
     ((b.queue.run = .run ∧ (∀ e ∈ b.queue.entries, e.isQueued = true) ∧ b.queue.haltWaiters = []) →
       exec (.resendTimerExpiry p) s = .next (t.setPort p ({ b with queue := { b.queue with run := .halted } }.raise .halted))) ∧
     (∀ e rest n, b.queue.run = .run → b.queue.entries = e :: rest → e.state = .waiting n → rest.all Entry.isQueued = true →
       b.queue.haltWaiters = [] →
       exec (.resendTimerExpiry p) s = .next (t.setPort p (({ b with
         request := none
         link := { b.link with reserved := b.link.reserved - 1 }
         queue := { b.queue with run := .halted, entries := { e with state := .queued false } :: rest } } :
           PortBlock).raise .halted))) ∧
     (b.queue.run = .halting ∨ b.queue.run = .halted → exec (.resendTimerExpiry p) s = .next (t.setPort p b)))

/-! ### Sessions and port resets -/

/-- A HELLO with a whole header processed on an UNSYNCED port begins a session, whatever its mode (R150, R177, R183): the
port goes UP, the sequences are set, and the HELLO reply, which says FRESH, is frame 0. The command is HELLO_RESUME when the
mode byte asks RESUME and HELLO_FRESH otherwise (log 11). A HELLO that the rules do not perform is discarded unanswered
(R183): shorter than a header on an UNSYNCED port, or, on an UP or LOST one, not 6 bytes long or of a mode other than FRESH
and RESUME. HELLO_RESUME on an UP or LOST port (R150, R178): the sequence received is applied as an acknowledgement (with
R170's restart of the resend timer, log 26), the retransmit count returns to 0, the transmit point goes to the oldest frame
left, the port is UP, and the reply, which says RESUMED, is pending outside the list; the queue is as it was (R83). That it
replaces the reply of an earlier HELLO RESUME still pending is the model's choice (log 31). -/
def Obligations.HelloOnAPortWithoutReset : Prop :=
  (∀ (s : State) (p : Port) (payload : List Byte) (rest : List InFrame),
     s.Oldest p .req payload rest → IsRequest payload 0x01 → (s.port p).portState = .unsynced →
     (s.port p).link.used.length + (s.port p).link.reserved < 8 →
     let b := (s.port p).took rest
     let t := s.setPort p { b with portState := .up, link := b.link.sessionBegun p (BitVec.ofNat 16 (num16 payload 2)) }
     (num8 payload 4 ≠ 0x02 → exec (.helloFresh p) s = .next t) ∧
     (num8 payload 4 = 0x02 → exec (.helloResume p) s = .next t)) ∧
  (∀ (s : State) (p : Port) (payload : List Byte) (rest : List InFrame),
     s.Oldest p .req payload rest → num8 payload 0 = 0x01 →
     ((s.port p).portState = .unsynced ∧ payload.length < 4 ∨
       ((s.port p).portState = .up ∨ (s.port p).portState = .lost) ∧
         (payload.length ≠ 6 ∨ num8 payload 4 ≠ 0x01 ∧ num8 payload 4 ≠ 0x02)) →
     let t := s.setPort p ((s.port p).took rest)
     (num8 payload 4 ≠ 0x02 → exec (.helloFresh p) s = .next t) ∧
     (num8 payload 4 = 0x02 → exec (.helloResume p) s = .next t)) ∧
  (∀ (s : State) (p : Port) (payload : List Byte) (rest : List InFrame),
     s.Oldest p .req payload rest → IsRequest payload 0x01 → payload.length = 6 → num8 payload 4 = 0x02 →
     (s.port p).portState = .up ∨ (s.port p).portState = .lost →
     let b := (s.port p).took rest
     let l := b.link.applyAck b.config.resendInterval (byteAt payload 5)
     let reply : HelloReply := ⟨(l.used.head?.map OutFrame.seq).getD l.nextOut,
       helloReplyBytes p (BitVec.ofNat 16 (num16 payload 2)) 0x02 l.expected⟩
     exec (.helloResume p) s = .next (s.setPort p { b with
       portState := .up
       link := { l with retransmits := 0, transmitPoint := l.used.head?.map OutFrame.seq, helloReply := some reply } }))

/-- Every step keeps the RESETTING ports quiet: such a port has no frame taken and not processed (R156, R169, R179), and its
queue is empty once it has reported that it has stopped (R87). -/
def Obligations.ResettingPortsStayQuiet : Prop :=
  ∀ s t : State, s.ResettingPortsQuiet → step s = .next t → t.ResettingPortsQuiet

/-- The orders of a port reset in the step it begins (R156): the port's own blocks, its ACTIVE job asked to stop, and its
fault records; then the canvas manager's part (R56 to R58), with the grants in their places (R37). Of the port's pins only
those of its ACTIVE job remain (R87). No other part of the machine but the other ports, the canvas table, the free map and
the clear list is touched, and another port keeps its state (but that P0's reset removes P0's requesters from it, R159),
its quotas, its configuration, the frames it has taken and its job sequence. -/
def Obligations.PortResetBeginning : Prop :=
  ∀ (s : State) (t : Port) (op : ResetOp), op.requesters = [] →
    let u := s.beginReset t op
    PortResetOwnPart s u t ∧ (s.GrantsPlaced → PortResetCanvasPart u t) ∧
    (s.PinsExact → ∀ n c, u.canvas n = some c → c.pinsOf t =
      (s.port t).queue.entries.countP fun e : Entry => e.isActive && e.pins.contains (s.handle n)) ∧
    (u.port t).portState = .resetting { op with queueStopped := ((s.port t).queue.active).isNone } ∧
    u.store = s.store ∧ u.arbiter = s.arbiter ∧ u.engine = s.engine ∧ u.resetPin = s.resetPin ∧ u.pending = s.pending ∧
    u.deviceResets = s.deviceResets ∧
    ∀ q, q ≠ t →
      (u.port q).portState =
        (match (s.port q).portState with
          | .resetting o => if t = .p0 then .resetting { o with requesters := [] } else .resetting o
          | st => st) ∧
      (u.port q).blockQuota = (s.port q).blockQuota ∧ (u.port q).canvasQuota = (s.port q).canvasQuota ∧
      (u.port q).config = (s.port q).config ∧ (u.port q).link.inbound = (s.port q).link.inbound ∧
      (u.port q).link.expected = (s.port q).link.expected ∧ (u.port q).queue.nextSeq = (s.port q).queue.nextSeq ∧
      (u.port q).claims = (s.port q).claims ∧ (u.port q).queue.run = (s.port q).queue.run

/-- HELLO_FRESH on an UP or LOST port begins a port reset with final state UP and the HELLO pending (R150, R156).
RESET_PORT and PORT_SET_DISABLE from P0 on another port that is not RESETTING (R153, R156) begin one with the final state and
held quotas of their cause. With nothing left to wait for it completes in the same step (R157), and P0's request is answered;
else P0's request becomes its requester and is deferred. -/
def Obligations.APortResetIsBegun : Prop :=
  (∀ (s : State) (p : Port) (payload : List Byte) (rest : List InFrame),
     s.Oldest p .req payload rest → IsRequest payload 0x01 → payload.length = 6 → num8 payload 4 = 0x01 →
     (s.port p).portState = .up ∨ (s.port p).portState = .lost →
     let op : ResetOp := ⟨.up, [], some (BitVec.ofNat 16 (num16 payload 2)), none, false⟩
     let u := (s.setPort p ((s.port p).took rest)).beginReset p op
     let op' : ResetOp := { op with queueStopped := ((s.port p).queue.active).isNone }
     exec (.helloFresh p) s = .next (
       if op'.queueStopped = true ∧ (u.port p).canvasesHeld = 0 ∧ (u.port p).blocksHeld = 0 ∧ u.noMarkedGrant p = true then
         u.completeReset p op'
       else u)) ∧
  (∀ (s : State) (t : Port) (payload : List Byte) (rest : List InFrame) (c : Instr) (final : FinalState)
     (quotas : Option (Nat × Nat)),
     s.Oldest .p0 .req payload rest → t ≠ .p0 → num8 payload 4 = t.num →
     (∀ op, (s.port t).portState ≠ .resetting op) →
     (c = .resetPort .p0 ∧ IsRequest payload 0x04 ∧ payload.length = 6 ∧ quotas = none ∧
         final = (if (s.port t).portState = .disabled then .disabled else .unsynced) ∨
       c = .portSetDisable .p0 ∧ IsRequest payload 0x02 ∧ payload.length = 10 ∧ num8 payload 5 = 0x02 ∧
         num16 payload 6 ≤ 4096 ∧ num16 payload 8 ≤ 255 ∧ quotas = some (num16 payload 6, num16 payload 8) ∧
         final = .disabled) →
     let op : ResetOp := ⟨final, [], none, quotas, ((s.port t).queue.active).isNone⟩
     let u := (s.setPort .p0 ((s.port .p0).took rest)).beginReset t op
     let v := u.completeReset t op
     let contents := [BitVec.ofNat 8 t.num, BitVec.ofNat 8 (v.port t).portState.code] ++ enc16 (v.port t).blockQuota ++
       enc16 (v.port t).canvasQuota
     0 < (v.port .p0).link.reserved →
     exec c s = .next (
       if op.queueStopped = true ∧ (u.port t).canvasesHeld = 0 ∧ (u.port t).blocksHeld = 0 ∧ u.noMarkedGrant t = true then
         v.setPort .p0 ((v.port .p0).answered payload 0x00 contents)
       else
         let w := u.setPort t { u.port t with
           portState := .resetting { op with requesters := [BitVec.ofNat 16 (num16 payload 2)] } }
         w.setPort .p0 ((w.port .p0).putOff payload)))

/-- A RESET-PORT or PORT-SET of P0 on a RESETTING port joins its reset (R159): it is appended to the requesters and
deferred; the final state changes as the table gives; a final state other than UP makes HELLO pending absent; a PORT-SET
replaces the held quotas. Nothing is begun anew. -/
def Obligations.SupervisorJoinsAPortReset : Prop :=
  ∀ (s : State) (t : Port) (payload : List Byte) (rest : List InFrame) (op : ResetOp) (c : Instr) (final : FinalState)
    (quotas : Option (Nat × Nat)),
    s.Oldest .p0 .req payload rest → num8 payload 4 = t.num → (s.port t).portState = .resetting op →
    (c = .resetPort .p0 ∧ IsRequest payload 0x04 ∧ payload.length = 6 ∧ t ≠ .p0 ∧ quotas = op.quotas ∧
        final = (if op.final = .disabled then .disabled else .unsynced) ∨
      c = .portSetDisable .p0 ∧ IsRequest payload 0x02 ∧ payload.length = 10 ∧ num8 payload 5 = 0x02 ∧ t ≠ .p0 ∧
        num16 payload 6 ≤ 4096 ∧ num16 payload 8 ≤ 255 ∧ quotas = some (num16 payload 6, num16 payload 8) ∧
        final = .disabled ∨
      c = .portSetEnable .p0 ∧ IsRequest payload 0x02 ∧ payload.length = 10 ∧ num8 payload 5 = 0x01 ∧
        num16 payload 6 ≤ 4096 ∧ num16 payload 8 ≤ 255 ∧ quotas = some (num16 payload 6, num16 payload 8) ∧
        final = .unsynced) →
    let u := s.setPort .p0 ((s.port .p0).took rest)
    let w := u.setPort t { u.port t with portState := .resetting { op with
      final := final, requesters := op.requesters ++ [BitVec.ofNat 16 (num16 payload 2)], hello := none, quotas := quotas } }
    exec c s = .next (w.setPort .p0 ((w.port .p0).putOff payload))

/-- PORT_RESET_COMPLETE (R157, R158): with the queue stopped, the holdings zero and no marked grant, the held quotas are
applied, the queue is in RUN, empty, with next job sequence 1, the port takes its final state, a pending HELLO begins the
session, and P0's requesters are answered, oldest first. With a condition missing nothing changes. -/
def Obligations.PortResetCompletion : Prop :=
  ∀ (s : State) (p : Port) (op : ResetOp), s.resetPin = false → (s.port p).portState = .resetting op →
    (op.hello.isSome = true → (s.port p).link.used.length + (s.port p).link.reserved < 8) →
    let b := s.port p
    let ready := op.queueStopped = true ∧ b.canvasesHeld = 0 ∧ b.blocksHeld = 0 ∧
      ∀ n c, s.canvas n = some c → ∀ g ∈ c.grants, g.port = p → ∀ r, g.revoke = some r → r.granteeReset = false
    let d : PortBlock := { b with
      portState := op.final.portState
      blockQuota := (op.quotas.map Prod.fst).getD b.blockQuota
      canvasQuota := (op.quotas.map Prod.snd).getD b.canvasQuota
      queue := ⟨[], .run, 1, [], [], none⟩
      link :=
        match op.hello with
        | some id => b.link.sessionBegun p id
        | none => { b.link with expected := 0, nextOut := 0 } }
    let t := s.setPort p d
    let contents := [BitVec.ofNat 8 p.num, BitVec.ofNat 8 d.portState.code] ++ enc16 d.blockQuota ++ enc16 d.canvasQuota
    (ready → exec (.portResetComplete p) s = .next (t.setPort .p0 ((t.port .p0).answerAll op.requesters contents))) ∧
    (¬ ready → exec (.portResetComplete p) s = .next s)

/-- PORT_SET_ENABLE of P0 on a target that is not RESETTING (R152, R153): IN-USE when its holdings exceed the new quotas;
else the quotas are set, a DISABLED target goes UNSYNCED, and the reply gives the target's state and quotas. -/
def Obligations.PortSetEnableSetsQuotas : Prop :=
  ∀ (s : State) (t : Port) (payload : List Byte) (rest : List InFrame),
    s.Oldest .p0 .req payload rest → IsRequest payload 0x02 → payload.length = 10 → num8 payload 4 = t.num →
    num8 payload 5 = 0x01 → num16 payload 6 ≤ 4096 → num16 payload 8 ≤ 255 →
    (∀ op, (s.port t).portState ≠ .resetting op) → 0 < (s.port .p0).link.reserved →
    let u := s.setPort .p0 ((s.port .p0).took rest)
    let d : PortBlock := { u.port t with
      blockQuota := num16 payload 6
      canvasQuota := num16 payload 8
      portState := if (s.port t).portState = .disabled then .unsynced else (s.port t).portState }
    let v := u.setPort t d
    let contents := [BitVec.ofNat 8 t.num, BitVec.ofNat 8 d.portState.code] ++ enc16 (num16 payload 6) ++
      enc16 (num16 payload 8)
    exec (.portSetEnable .p0) s = .next (
      if num16 payload 6 < (s.port t).blocksHeld ∨ num16 payload 8 < (s.port t).canvasesHeld then
        u.setPort .p0 ((u.port .p0).answered payload 0x0F [])
      else v.setPort .p0 ((v.port .p0).answered payload 0x00 contents))

/-- CONFIG (R154, R187): settings with distinct codes, each of a known code, with its value among its codes or in its range,
are all applied in one step; an absent setting keeps its value; the reply gives the whole configuration. A payload that does
not hold the settings it counts, more than 14, a code twice, an unknown code or a value outside its codes is refused
MALFORMED, a numeric value outside its range BOUNDS, and nothing changes. -/
def Obligations.ConfigAppliesEverySetting : Prop :=
  (∀ (s : State) (p : Port) (payload header : List Byte) (rest : List InFrame) (xs : List (Nat × Nat)),
     s.Oldest p .req payload rest → IsRequest payload 0x03 → header.length = 4 → xs.length ≤ 14 →
     payload = header ++ [BitVec.ofNat 8 xs.length] ++ xs.flatMap (fun x => BitVec.ofNat 8 x.1 :: enc16 x.2) →
     (xs.map Prod.fst).Nodup →
     (∀ x ∈ xs,
       (x.1 = 0x01 ∨ x.1 = 0x02) ∧ 1 ≤ x.2 ∧ x.2 ≤ 1000 ∨ x.1 = 0x03 ∧ 1 ≤ x.2 ∧ x.2 ≤ 5000 ∨
       x.1 = 0x04 ∧ 1 ≤ x.2 ∧ x.2 ≤ 100 ∨ x.1 = 0x05 ∧ 1 ≤ x.2 ∧ x.2 ≤ 32 ∨
       0x10 ≤ x.1 ∧ x.1 ≤ 0x13 ∧ (x.2 = 1 ∨ x.2 = 2) ∨ 0x20 ≤ x.1 ∧ x.1 ≤ 0x23 ∧ (x.2 = 0 ∨ x.2 = 1) ∨
       x.1 = 0x30 ∧ x.2 < 64) →
     0 < (s.port p).link.reserved →
     let b := (s.port p).took rest
     let value : Nat → Nat → Nat := fun code old => ((xs.find? fun x => x.1 == code).map Prod.snd).getD old
     let flag : Nat → Nat → Bool → Bool := fun code yes old =>
       ((xs.find? fun x => x.1 == code).map fun x => x.2 == yes).getD old
     let c := b.config
     let config : PortConfig := ⟨value 0x01 c.dataTimeout, value 0x02 c.readStall, value 0x03 c.waitTimeout,
       value 0x04 c.resendInterval, value 0x05 c.retransmitLimit,
       ⟨flag 0x10 2 c.severityHalt.storeEcc, flag 0x11 2 c.severityHalt.dataTimeout, flag 0x12 2 c.severityHalt.readStall,
         flag 0x13 2 c.severityHalt.waitTimeout⟩,
       ⟨flag 0x20 1 c.quiet.storeEcc, flag 0x21 1 c.quiet.dataTimeout, flag 0x22 1 c.quiet.readStall,
         flag 0x23 1 c.quiet.waitTimeout⟩⟩
     let mask : Nat → Bool → Bool := fun i old => ((xs.find? fun x => x.1 == 0x30).map fun x => x.2.testBit i).getD old
     let m := b.attn.mask
     let masks : FlagSet := ⟨mask 0 m.fault, mask 1 m.logFull, mask 2 m.grantLost, mask 3 m.canvasLost, mask 4 m.halted,
       mask 5 m.dataRejected⟩
     let severity : Bool → Byte := fun x => if x then 2 else 1
     let quiet : Bool → Byte := fun x => if x then 1 else 0
     let contents := enc16 config.dataTimeout ++ enc16 config.readStall ++ enc16 config.waitTimeout ++
       [BitVec.ofNat 8 config.resendInterval, BitVec.ofNat 8 config.retransmitLimit,
        severity config.severityHalt.storeEcc, severity config.severityHalt.dataTimeout,
        severity config.severityHalt.readStall, severity config.severityHalt.waitTimeout,
        quiet config.quiet.storeEcc, quiet config.quiet.dataTimeout, quiet config.quiet.readStall,
        quiet config.quiet.waitTimeout, masks.byte, 0]
     exec (.config p) s = .next (s.setPort p
       ({ b with config := config, attn := { b.attn with mask := masks } } |>.answered payload 0x00 contents))) ∧
  (∀ (s : State) (p : Port) (payload : List Byte) (rest : List InFrame),
    s.Oldest p .req payload rest → IsRequest payload 0x03 → 0 < (s.port p).link.reserved →
    let refused : Nat → Prop := fun status =>
      exec (.config p) s = .next (s.setPort p (((s.port p).took rest).answered payload status []))
    (payload.length ≠ 5 + 3 * num8 payload 4 ∨ 14 < num8 payload 4 → refused 0x01) ∧
    ∀ (header : List Byte) (xs : List (Nat × Nat)), header.length = 4 → xs.length ≤ 14 →
      payload = header ++ [BitVec.ofNat 8 xs.length] ++ xs.flatMap (fun x => BitVec.ofNat 8 x.1 :: enc16 x.2) →
      (∀ x ∈ xs, x.1 ≤ 255 ∧ x.2 ≤ 65535) →
      let known : Nat × Nat → Prop := fun x =>
        1 ≤ x.1 ∧ x.1 ≤ 5 ∨ 0x10 ≤ x.1 ∧ x.1 ≤ 0x13 ∧ (x.2 = 1 ∨ x.2 = 2) ∨
        0x20 ≤ x.1 ∧ x.1 ≤ 0x23 ∧ (x.2 = 0 ∨ x.2 = 1) ∨ x.1 = 0x30 ∧ x.2 < 64
      let ranged : Nat × Nat → Prop := fun x =>
        (x.1 ≤ 5 → 1 ≤ x.2) ∧ (x.1 = 1 ∨ x.1 = 2 → x.2 ≤ 1000) ∧ (x.1 = 3 → x.2 ≤ 5000) ∧ (x.1 = 4 → x.2 ≤ 100) ∧
        (x.1 = 5 → x.2 ≤ 32)
      (¬ ((xs.map Prod.fst).Nodup ∧ ∀ x ∈ xs, known x) → refused 0x01) ∧
      ((xs.map Prod.fst).Nodup → (∀ x ∈ xs, known x) → (∃ x ∈ xs, ¬ ranged x) → refused 0x0A))

/-! ### Refusals of requests -/

/-- A REQ too short for a header is refused MALFORMED with request id 0 and the kind of its first byte, or 0; a kind
outside the table of 10.5 is refused UNKNOWN-KIND (R182). A request whose payload length its kind does not allow is
refused MALFORMED with the reply header alone, and a SUBMIT with job position 0 as well (R182, R187). PORT-SET, RESET-PORT
and RESET-DEVICE of P1, P2 and P3 are refused NOT-SUPERVISOR (R149). A field whose value is not among its codes is refused
MALFORMED (R152, R156, R186, and log 14 for LIST), and P0's quotas out of range, DISABLE of P0 and RESET-PORT of P0 are
refused BOUNDS (R152, R156). Nothing else changes. That a REQ of 1 to 3 bytes beginning with SUBMIT's 0x20 is refused with
the bare header, and no job position, is the model's choice (log 27). -/
def Obligations.RequestsAreRefused : Prop :=
  (∀ (s : State) (p : Port) (payload : List Byte) (rest : List InFrame),
     s.Oldest p .req payload rest → 0 < (s.port p).link.reserved →
     let b := (s.port p).took rest
     (payload.length < 4 → num8 payload 0 ≠ 0x01 →
       exec (.unknownKind p) s = .next (s.setPort p { b with
         link := b.link.placedReserved .rep [byteAt payload 0, 0x01, 0x00, 0x00] })) ∧
     (4 ≤ payload.length →
       num8 payload 0 ∉ [0x01, 0x02, 0x03, 0x04, 0x05, 0x10, 0x11, 0x12, 0x13, 0x14, 0x15, 0x20, 0x21, 0x22, 0x23, 0x30,
         0x31, 0x32, 0x33] →
       exec (.unknownKind p) s = .next (s.setPort p (b.answered payload 0x02 [])))) ∧
  (∀ (s : State) (p : Port) (payload : List Byte) (rest : List InFrame) (c : Instr) (code : Nat) (lengths : List Nat),
     (c, code, lengths) ∈ [(if num8 payload 5 = 0x02 then Instr.portSetDisable p else .portSetEnable p, 0x02, [10]),
       (.resetPort p, 0x04, [6]), (.resetDevice p, 0x05, [4]), (.openCanvas p, 0x10, [10, 14, 18]),
       (.closeCanvas p, 0x11, [10]), (.query p, 0x12, [6]), (.list p, 0x13, [6]), (.grant p, 0x14, [8]),
       (.revoke p, 0x15, [10]), (.submit p, 0x20, List.range' 14 105), (.cancel p, 0x21, [6]), (.halt p, 0x22, [4]),
       (.resume p, 0x23, [4]), (.status p, 0x30, [6]), (.faultRead p, 0x31, [6]), (.faultAck p, 0x32, List.range' 6 12),
       (.attnClear p, 0x33, [6]), (.config p, 0x03, List.range' 5 43)] →
     s.Oldest p .req payload rest → IsRequest payload code → payload.length ∉ lengths → 0 < (s.port p).link.reserved →
     exec c s = .next (s.setPort p
       (((s.port p).took rest).answered payload 0x01 (if code = 0x20 then [0, 0] else [])))) ∧
  (∀ (s : State) (p : Port) (payload : List Byte) (rest : List InFrame) (c : Instr),
     p ≠ .p0 → s.Oldest p .req payload rest → 0 < (s.port p).link.reserved →
     (c = .portSetEnable p ∧ IsRequest payload 0x02 ∧ payload.length = 10 ∧ num8 payload 5 ≠ 0x02 ∨
       c = .portSetDisable p ∧ IsRequest payload 0x02 ∧ payload.length = 10 ∧ num8 payload 5 = 0x02 ∨
       c = .resetPort p ∧ IsRequest payload 0x04 ∧ payload.length = 6 ∨
       c = .resetDevice p ∧ IsRequest payload 0x05 ∧ payload.length = 4) →
     exec c s = .next (s.setPort p (((s.port p).took rest).answered payload 0x03 []))) ∧
  (∀ (s : State) (p : Port) (payload : List Byte) (rest : List InFrame) (c : Instr) (code status : Nat),
    s.Oldest p .req payload rest → IsRequest payload code → 0 < (s.port p).link.reserved →
    let choice := num8 payload 5
    (p = .p0 ∧ code = 0x02 ∧ payload.length = 10 ∧ c = (if choice = 2 then .portSetDisable p else .portSetEnable p) ∧
        ((3 < num8 payload 4 ∨ choice ∉ [1, 2]) ∧ status = 0x01 ∨
          num8 payload 4 ≤ 3 ∧ choice ∈ [1, 2] ∧ status = 0x0A ∧
            (4096 < num16 payload 6 ∨ 255 < num16 payload 8 ∨ num8 payload 4 = 0 ∧ choice = 2)) ∨
      p = .p0 ∧ code = 0x04 ∧ payload.length = 6 ∧ c = .resetPort p ∧
        (3 < num8 payload 4 ∧ status = 0x01 ∨ num8 payload 4 = 0 ∧ status = 0x0A) ∨
      code = 0x13 ∧ payload.length = 6 ∧ c = .list p ∧ 1 < num8 payload 4 ∧ status = 0x01 ∨
      code = 0x15 ∧ payload.length = 10 ∧ c = .revoke p ∧ (3 < num8 payload 6 ∨ num8 payload 7 ∉ [1, 2]) ∧ status = 0x01 ∨
      code = 0x11 ∧ payload.length = 10 ∧ c = .closeCanvas p ∧ num8 payload 6 ∉ [1, 2] ∧ status = 0x01) →
    exec c s = .next (s.setPort p (((s.port p).took rest).answered payload status [])))

/-! ### Canvases -/

/-- The pitch is the row length, ceil(width × bits per pixel ÷ 8), rounded up to the next multiple of 64; the block count is
ceil(pitch × height ÷ 4096); rows follow one another at intervals of the pitch from the first byte of the first block; the
pitch of a canvas lies between 64 and 16384 and an M1 row of the greatest width is 512 bytes (R5), with the sizes of R5's
table. -/
def Obligations.CanvasSizes : Prop :=
  (∀ (f : Format) (w h : Nat), 1 ≤ w → w ≤ 4096 →
    8 * f.rowBytes w < w * f.bits + 8 ∧ w * f.bits ≤ 8 * f.rowBytes w ∧
    f.pitch w % 64 = 0 ∧ f.rowBytes w ≤ f.pitch w ∧ f.pitch w < f.rowBytes w + 64 ∧ 64 ≤ f.pitch w ∧ f.pitch w ≤ 16384 ∧
    f.pitch w * h ≤ 4096 * f.blockCount w h ∧ 4096 * f.blockCount w h < f.pitch w * h + 4096) ∧
  (∀ (g : Geo) (y : Nat), g.rowBase 0 = g.firstBlock * 4096 ∧ g.rowBase (y + 1) = g.rowBase y + g.pitch) ∧
  Format.m1.rowBytes 4096 = 512 ∧
  [(Format.c32, 1, 1), (.m1, 100, 100), (.i8, 1000, 1), (.i8, 320, 240), (.c16, 640, 480), (.c32, 1024, 768),
    (.c16, 1920, 1080), (.m1, 4096, 4096), (.c32, 4096, 1024), (.c32, 4096, 4096)].map
      (fun x => (x.1.rowBytes x.2.1, x.1.pitch x.2.1, x.1.pitch x.2.1 * x.2.2, x.1.blockCount x.2.1 x.2.2)) =
    [(4, 64, 64, 1), (13, 64, 6400, 2), (1000, 1024, 1024, 1), (320, 320, 76800, 19), (1280, 1280, 614400, 150),
      (4096, 4096, 3145728, 768), (3840, 3840, 4147200, 1013), (512, 512, 2097152, 512), (16384, 16384, 16777216, 4096),
      (16384, 16384, 67108864, 16384)]

/-- OPEN that passes its checks is taken (R14): into the FREE slot with the lowest number (R13), with the lowest run of free
blocks long enough (R29); the record is set, the blocks are allocated, the canvas joins the clear list, the port's holdings
rise, and the reply is deferred. Nothing else changes. An OPEN of an allowed length that fails a check is refused and changes
no state: MALFORMED for an unknown format, BOUNDS for a width or height outside 1 to 4096, QUOTA (R12), NO-SPACE when no slot
is FREE or no run of free blocks is long enough (R13), the first in this order (R11). -/
def Obligations.OpenIsTakenOrRefused : Prop :=
  (∀ (s : State) (p : Port) (payload : List Byte) (rest : List InFrame) (f : Format) (n first : Nat),
     s.Oldest p .req payload rest → IsRequest payload 0x10 → payload.length ∈ [10, 14, 18] →
     let w := num16 payload 4
     let h := num16 payload 6
     let k := f.blockCount w h
     Format.ofCode (num8 payload 8) = some f → 1 ≤ w → w ≤ 4096 → 1 ≤ h → h ≤ 4096 →
     (s.port p).canvasesHeld < (s.port p).canvasQuota → (s.port p).blocksHeld + k ≤ (s.port p).blockQuota → k ≤ 4096 →
     1 ≤ n → n ≤ 255 → s.canvas n = none → (∀ m, 1 ≤ m → m < n → s.canvas m ≠ none) →
     first + k ≤ 4096 → (∀ b, first ≤ b → b < first + k → s.allocated.getLsbD b = false) →
     (∀ g, g < first → ∃ b, g ≤ b ∧ b < g + k ∧ s.allocated.getLsbD b = true) →
     let b := (s.port p).took rest
     let d : PortBlock := { b with canvasesHeld := b.canvasesHeld + 1, blocksHeld := b.blocksHeld + k }
     ∃ t, exec (.openCanvas p) s = .next t ∧
       t = { s with
         ports := s.ports.set p (d.putOff payload)
         slots := t.slots
         allocated := t.allocated
         clear := { s.clear with list := s.clear.list ++ [n] } } ∧
       t.slot n = ⟨(s.slot n).generation, some ⟨p, f, w, h, f.pitch w, first, k,
         BitVec.ofNat 32 (num32 payload 14), f.truncate (BitVec.ofNat 32 (num32 payload 10)), 0, [],
         .clearing ⟨p, BitVec.ofNat 16 (num16 payload 2)⟩⟩⟩ ∧
       (∀ m, m ≠ n → t.slot m = s.slot m) ∧
       (∀ b, b < 4096 → t.allocated.getLsbD b = (s.allocated.getLsbD b || decide (first ≤ b ∧ b < first + k)))) ∧
  (∀ (s : State) (p : Port) (payload : List Byte) (rest : List InFrame),
     s.Oldest p .req payload rest → IsRequest payload 0x10 → payload.length ∈ [10, 14, 18] →
     0 < (s.port p).link.reserved →
     let w := num16 payload 4
     let h := num16 payload 6
     let refused : Nat → Prop := fun status =>
       exec (.openCanvas p) s = .next (s.setPort p (((s.port p).took rest).answered payload status []))
     (num8 payload 8 ∉ [1, 2, 3, 4] → refused 0x01) ∧
     ∀ f, Format.ofCode (num8 payload 8) = some f →
       let k := f.blockCount w h
       let bounds := 1 ≤ w ∧ w ≤ 4096 ∧ 1 ≤ h ∧ h ≤ 4096
       let quota := (s.port p).canvasesHeld < (s.port p).canvasQuota ∧ (s.port p).blocksHeld + k ≤ (s.port p).blockQuota ∧
         k ≤ 4096
       let space := (∃ n, 1 ≤ n ∧ n ≤ 255 ∧ s.canvas n = none) ∧
         ∃ g, g + k ≤ 4096 ∧ ∀ b, g ≤ b → b < g + k → s.allocated.getLsbD b = false
       (¬ bounds → refused 0x0A) ∧ (bounds → ¬ quota → refused 0x0C) ∧ (bounds → quota → ¬ space → refused 0x0B))

/-- A handle is stale when its slot number or its generation is 0, its slot is FREE or CLEARING, or its generation is not
the slot's; any other names the canvas of its slot (R2, R3). QUERY of a canvas by its owner, a grantee in either grant
state or P0 is answered with the record, field by field at its place of 10.5; another port is refused NO-RIGHT, and a
stale handle BAD-HANDLE (R17, R3). LIST (R18): with option 0x00 the canvases in LIVE or CLOSING that the port owns or
holds a grant on, with 0x01 from P0 every one, in ascending slot order, four bytes each; 0x01 from another port is refused
NOT-SUPERVISOR. Nothing else changes. -/
def Obligations.QueryAndListReport : Prop :=
  (∀ (s : State) (h : Handle),
     let n := h.toNat % 256
     let stale := n = 0 ∨ h.toNat / 256 = 0 ∨ (s.slot n).canvas = none ∨
       (∃ c w, (s.slot n).canvas = some c ∧ c.phase = .clearing w) ∨ (s.slot n).generation.toNat ≠ h.toNat / 256
     (stale → s.lookup h = none) ∧ (¬ stale → s.lookup h = (s.slot n).canvas)) ∧
  (∀ (s : State) (p : Port) (payload : List Byte) (rest : List InFrame),
     s.Oldest p .req payload rest → IsRequest payload 0x12 → payload.length = 6 → 0 < (s.port p).link.reserved →
     let h : Handle := BitVec.ofNat 16 (num16 payload 4)
     let answer : Nat → List Byte → Prop := fun status contents =>
       exec (.query p) s = .next (s.setPort p (((s.port p).took rest).answered payload status contents))
     (s.lookup h = none → answer 0x04 []) ∧
     ∀ c, s.lookup h = some c →
       let allowed := c.owner = p ∨ (∃ g ∈ c.grants, g.port = p) ∨ p = .p0
       (¬ allowed → answer 0x06 []) ∧
       (allowed → ∃ m : List Byte, answer 0x00 m ∧ m.length = 28 + 4 * c.grants.length ∧
         m.take 2 = enc16 (num16 payload 4) ∧
         m.getD 2 0 = (if c.phase.isClosing then 0x03 else 0x02) ∧
         m.getD 3 0 = BitVec.ofNat 8 c.owner.num ∧ m.getD 4 0 = BitVec.ofNat 8 c.format.code ∧
         m.getD 5 0 = BitVec.ofNat 8 c.grants.length ∧
         (m.drop 6).take 10 = enc16 c.width ++ enc16 c.height ++ enc16 c.pitch ++ enc16 c.firstBlock ++ enc16 c.blockCount ∧
         (m.drop 16).take 8 = enc32 c.tag.toNat ++ enc32 c.fill.toNat ∧
         m.getD 24 0 = BitVec.ofNat 8 c.ownerPins ∧ m.getD 25 0 = BitVec.ofNat 8 c.pinCount ∧
         m.getD 26 0 = (match c.phase with
           | .closing op => (match op.mode with
             | .drain _ => 0x01
             | .cut => 0x02)
           | _ => 0x00) ∧
         m.getD 27 0 = 0 ∧
         ∀ i g, c.grants[i]? = some g →
           (m.drop (28 + 4 * i)).take 4 = [BitVec.ofNat 8 g.port.num, BitVec.ofNat 8 g.rights.code,
             (match g.revoke with
               | none => 0x01
               | some r => (match r.mode with
                 | .drain _ => 0x02
                 | .cut => 0x03)),
             BitVec.ofNat 8 g.pins])) ∧
  (∀ (s : State) (p : Port) (payload : List Byte) (rest : List InFrame),
     s.Oldest p .req payload rest → IsRequest payload 0x13 → payload.length = 6 → 0 < (s.port p).link.reserved →
     let answer : Nat → List Byte → Prop := fun status contents =>
       exec (.list p) s = .next (s.setPort p (((s.port p).took rest).answered payload status contents))
     let relation : Canvas → Byte := fun c =>
       if c.owner = p then 0x01
       else
         match c.grants.find? fun g => g.port == p with
         | none => 0x00
         | some g => if g.rights = .r then 0x02 else 0x03
     let entry : Bool → Nat → Option (List Byte) := fun all n => (s.canvas n).bind fun c =>
       if c.phase.known = true ∧ (all = true ∨ relation c ≠ 0x00) then
         some [BitVec.ofNat 8 n, (s.slot n).generation,
           BitVec.ofNat 8 (c.owner.num + if c.phase.isClosing then 0x80 else 0), relation c]
       else none
     let listed := fun all => (List.range' 1 255).filterMap (entry all)
     (num8 payload 4 = 0x00 → answer 0x00 ([BitVec.ofNat 8 (listed false).length, 0] ++ (listed false).flatten)) ∧
     (num8 payload 4 = 0x01 → p ≠ .p0 → answer 0x03 []) ∧
     (num8 payload 4 = 0x01 → p = .p0 → answer 0x00 ([BitVec.ofNat 8 (listed true).length, 0] ++ (listed true).flatten)))

/-- BLOCK_CLEARED (R25, R33 to R35, R15, R16): every byte of the block holds the fill pattern and every word of it is good,
its check bits computed from the pattern (R22), the rest of the store is as before, and the store is idle. With a removal pending the head of the clear list is released;
else the block is counted, and with the last one the canvas leaves the list, goes LIVE and its OPEN is answered. The fill
pattern (R33): M1 0x00 or 0xFF, I8 the fill, C16 and C32 the bytes of the fill, least significant first, repeated. -/
def Obligations.BlockClearedFillsAndCounts : Prop :=
  (∀ (s : State) (b : Nat) (f : Format) (fill : Colour) (n : Nat) (others : List Nat) (c : Canvas) (w : Waiter),
     s.resetPin = false → s.arbiter.serving = some (.block b f fill) → b < 4096 →
     s.clear.list = n :: others → s.canvas n = some c → c.phase = .clearing w →
     let u : State := { s with store := s.store.clearBlock b f fill, arbiter := ⟨none, s.arbiter.lastServed⟩ }
     let k := s.clear.clearedSoFar + 1
     (∀ a, (s.store.clearBlock b f fill).read a =
       if a / 4096 = b then patternByte f fill (a % 4096) else s.store.read a) ∧
     (∀ x, (s.store.clearBlock b f fill).condition x = if x / 512 = b then none else s.store.condition x) ∧
     (∀ x, (s.store.clearBlock b f fill).checkBits x =
       if x / 512 = b then Config.checkCode ((s.store.clearBlock b f fill).word x) else s.store.checkBits x) ∧
     let popped : State := { u with clear := ⟨others, 0, false⟩ }
     (s.clear.removalPending = true → exec .blockCleared s = .next (popped.release n)) ∧
     (s.clear.removalPending = false → k < c.blockCount →
       exec .blockCleared s = .next { u with clear := ⟨n :: others, k, false⟩ }) ∧
     (s.clear.removalPending = false → c.blockCount ≤ k →
       let v := popped.setCanvas n { c with phase := .live }
       let contents := [BitVec.ofNat 8 n, (s.slot n).generation] ++ enc16 c.pitch ++ enc16 c.firstBlock ++ enc16 c.blockCount
       exec .blockCleared s = .next (v.setPort w.port ((v.port w.port).answer w.id contents)))) ∧
  (∀ (fill : Colour) (i : Nat),
     patternByte .m1 fill i = (if fill.getLsbD 0 then 0xFF else 0x00) ∧
     patternByte .i8 fill i = BitVec.ofNat 8 fill.toNat ∧
     patternByte .c16 fill (2 * i) = BitVec.ofNat 8 fill.toNat ∧
     patternByte .c16 fill (2 * i + 1) = BitVec.ofNat 8 (fill.toNat / 256) ∧
     patternByte .c32 fill (4 * i) = BitVec.ofNat 8 fill.toNat ∧
     patternByte .c32 fill (4 * i + 1) = BitVec.ofNat 8 (fill.toNat / 256) ∧
     patternByte .c32 fill (4 * i + 2) = BitVec.ofNat 8 (fill.toNat / 65536) ∧
     patternByte .c32 fill (4 * i + 3) = BitVec.ofNat 8 (fill.toNat / 16777216))

/-- The release of a slot that is not FREE (R10, R30, R2): the slot is FREE with its generation advanced by one, 255 to 1;
the run's blocks are free; the owner's holdings fall by one canvas and its block count; nothing else changes. -/
def Obligations.ReleaseFreesTheSlot : Prop :=
  ∀ (s : State) (n : Nat) (c : Canvas), s.canvas n = some c →
    let t := s.release n
    let b := s.port c.owner
    t = { s with
      ports := s.ports.set c.owner
        { b with canvasesHeld := b.canvasesHeld - 1, blocksHeld := b.blocksHeld - c.blockCount }
      slots := t.slots
      allocated := t.allocated } ∧
    t.slot n = ⟨if (s.slot n).generation = 255 then 1 else (s.slot n).generation + 1, none⟩ ∧
    (∀ m, m ≠ n → t.slot m = s.slot m) ∧
    (∀ x, x < 4096 → t.allocated.getLsbD x = (s.allocated.getLsbD x && !decide (c.firstBlock ≤ x ∧ x < c.firstBlock + c.blockCount)))

/-! ### Sharing -/

/-- GRANT (R39, R40): its checks in order, and its three results. ADDED appends an ACTIVE record with no pins, UPGRADED makes
R to RW, UNCHANGED leaves the record; nothing else changes. -/
def Obligations.GrantChecksAndResults : Prop :=
  ∀ (s : State) (p : Port) (payload : List Byte) (rest : List InFrame),
    s.Oldest p .req payload rest → IsRequest payload 0x14 → payload.length = 8 → 0 < (s.port p).link.reserved →
    let h : Handle := BitVec.ofNat 16 (num16 payload 4)
    let answered : Nat → List Byte → State := fun status contents =>
      s.setPort p (((s.port p).took rest).answered payload status contents)
    let refused : Nat → Prop := fun status => exec (.grant p) s = .next (answered status [])
    (3 < num8 payload 6 ∨ num8 payload 7 ∉ [1, 2] → refused 0x01) ∧
    ∀ t asked, num8 payload 6 = Port.num t → num8 payload 7 = Rights.code asked →
      let granted : Nat → State := fun result =>
        answered 0x00 (enc16 (num16 payload 4) ++
          [BitVec.ofNat 8 t.num, BitVec.ofNat 8 result, BitVec.ofNat 8 asked.code, 0])
      (s.lookup h = none → refused 0x04) ∧
      ∀ c, s.lookup h = some c →
        (c.owner ≠ p → refused 0x05) ∧
        (c.owner = p → c.phase.isClosing = true → refused 0x08) ∧
        (c.owner = p → c.phase = .live →
          (t = p → refused 0x0A) ∧
          (t ≠ p → (∀ g ∈ c.grants, g.port ≠ t) →
            exec (.grant p) s = .next
              ((granted 1).setCanvas (handleSlot h) { c with grants := c.grants ++ [⟨t, asked, 0, none⟩] })) ∧
          ∀ before g after, t ≠ p → c.grants = before ++ g :: after → g.port = t →
            (∀ x ∈ before ++ after, x.port ≠ t) →
            (g.revoke ≠ none → refused 0x10) ∧
            (g.revoke = none → g.rights = asked → exec (.grant p) s = .next (granted 3)) ∧
            (g.revoke = none → g.rights = .rw → asked = .r → refused 0x0F) ∧
            (g.revoke = none → g.rights = .r → asked = .rw →
              exec (.grant p) s = .next ((granted 2).setCanvas (handleSlot h)
                { c with grants := before ++ { g with rights := .rw } :: after })))

/-- REVOKE (R41 to R43, R61): its checks in order; on an ACTIVE grant without pins the grant is removed at once, GRANT-LOST
is set on the grantee and the outcome is DRAINED or CUT by the mode; with pins the grant goes to REVOKING, the reply is
deferred, and in CUT mode the grantee is cut; on a REVOKING grant the request joins the waiters, and a CUT escalates a
DRAIN, whose timer is then absent. -/
def Obligations.RevokeBeginsOrJoins : Prop :=
  ∀ (s : State) (p : Port) (payload : List Byte) (rest : List InFrame) (t : Port) (mode : WaitMode),
    s.Oldest p .req payload rest → IsRequest payload 0x15 → payload.length = 10 → 0 < (s.port p).link.reserved →
    num8 payload 6 = t.num →
    (num8 payload 7 = 1 ∧ mode = .drain (num16 payload 8) ∨ num8 payload 7 = 2 ∧ mode = .cut) →
    let h : Handle := BitVec.ofNat 16 (num16 payload 4)
    let n := handleSlot h
    let u := s.setPort p ((s.port p).took rest)
    let put := u.setPort p ((u.port p).putOff payload)
    let me : Waiter := ⟨p, BitVec.ofNat 16 (num16 payload 2)⟩
    let refused : Nat → Prop := fun status =>
      exec (.revoke p) s = .next (u.setPort p ((u.port p).answered payload status []))
    let outcome : Byte := match mode with
      | .drain _ => 1
      | .cut => 2
    (s.lookup h = none → refused 0x04) ∧
    ∀ c, s.lookup h = some c →
      (c.owner ≠ p → refused 0x05) ∧
      (c.owner = p → c.phase.isClosing = true → refused 0x08) ∧
      (c.owner = p → c.phase = .live →
        (num8 payload 7 = 1 → ¬ (1 ≤ num16 payload 8 ∧ num16 payload 8 ≤ 250) → refused 0x0A) ∧
        ((mode = .cut ∨ 1 ≤ num16 payload 8 ∧ num16 payload 8 ≤ 250) →
          (c.grantTo t = none → refused 0x07) ∧
          ∀ g, c.grantTo t = some g →
            let revoking : RevokeOp → Canvas := fun r =>
              { c with grants := c.grants.map fun x : Grant => if x.port = t then { x with revoke := some r } else x }
            (g.revoke = none → g.pins = 0 →
              let v := (u.setCanvas n { c with grants := c.grants.filter fun x : Grant => x.port != t }).modPort t
                fun b => b.raise .grantLost
              exec (.revoke p) s = .next (v.setPort p ((v.port p).answered payload 0x00
                (enc16 (num16 payload 4) ++ [BitVec.ofNat 8 t.num, outcome])))) ∧
            (g.revoke = none → 0 < g.pins →
              let v := put.setCanvas n (revoking ⟨mode, [me], false⟩)
              exec (.revoke p) s = .next (if mode = .cut then v.cutPort n t else v)) ∧
            (∀ r, g.revoke = some r →
              let escalates := r.mode ≠ .cut ∧ mode = .cut
              let r' : RevokeOp := { r with mode := if escalates then .cut else r.mode, waiters := r.waiters ++ [me] }
              let v := put.setCanvas n (revoking r')
              exec (.revoke p) s = .next (if escalates then v.cutPort n t else v))))

/-- CLOSE (R49 to R51, R55): its checks in order; P0's close of another port's canvas is forced and CUT, its deadline not
checked; on a LIVE canvas without pins the close ends at once; with pins the canvas goes to CLOSING, the reply is deferred,
and in CUT mode the owner and every grantee are cut; on a CLOSING canvas the request joins, and a CUT escalates a DRAIN. -/
def Obligations.CloseBeginsOrJoins : Prop :=
  ∀ (s : State) (p : Port) (payload : List Byte) (rest : List InFrame) (asked : WaitMode),
    s.Oldest p .req payload rest → IsRequest payload 0x11 → payload.length = 10 → 0 < (s.port p).link.reserved →
    (num8 payload 6 = 1 ∧ asked = .drain (num16 payload 8) ∨ num8 payload 6 = 2 ∧ asked = .cut) →
    let h : Handle := BitVec.ofNat 16 (num16 payload 4)
    let n := handleSlot h
    let u := s.setPort p ((s.port p).took rest)
    let put := u.setPort p ((u.port p).putOff payload)
    let me : Waiter := ⟨p, BitVec.ofNat 16 (num16 payload 2)⟩
    let refused : Nat → Prop := fun status =>
      exec (.closeCanvas p) s = .next (u.setPort p ((u.port p).answered payload status []))
    (s.lookup h = none → refused 0x04) ∧
    ∀ c, s.lookup h = some c →
      let forced := decide (c.owner ≠ p)
      let mode := if forced then .cut else asked
      let outcome : Byte := match mode with
        | .drain _ => 1
        | .cut => 2
      (c.owner ≠ p → p ≠ .p0 → refused 0x05) ∧
      (c.owner = p → num8 payload 6 = 1 → ¬ (1 ≤ num16 payload 8 ∧ num16 payload 8 ≤ 250) → refused 0x0A) ∧
      ((c.owner = p ∧ (asked = .cut ∨ 1 ≤ num16 payload 8 ∧ num16 payload 8 ≤ 250) ∨ c.owner ≠ p ∧ p = .p0) →
        (c.phase = .live → c.pinCount = 0 →
          let op : CloseOp := ⟨mode, [], forced, false⟩
          let v := (u.setCanvas n { c with phase := .closing op }).endClose n op
          0 < (v.port p).link.reserved →
          exec (.closeCanvas p) s = .next (v.setPort p ((v.port p).answered payload 0x00
            (enc16 (num16 payload 4) ++ [outcome, 0])))) ∧
        (c.phase = .live → 0 < c.pinCount →
          let v := put.setCanvas n { c with phase := .closing ⟨mode, [me], forced, false⟩ }
          exec (.closeCanvas p) s = .next (if mode = .cut then v.cutCanvas n else v)) ∧
        (∀ op, c.phase = .closing op →
          let escalates := op.mode ≠ .cut ∧ mode = .cut
          let op' : CloseOp := { op with
            mode := if escalates then .cut else op.mode
            waiters := op.waiters ++ [me]
            forced := op.forced || forced }
          let v := put.setCanvas n { c with phase := .closing op' }
          exec (.closeCanvas p) s = .next (if escalates then v.cutCanvas n else v)))

/-- A cut order for slot `n` is taken by the queue of a port with pins on the canvas (R46, R112): a QUEUED or WAITING
entry that names the canvas becomes a cut entry and drops its pins, a WAITING one withdraws its claim request and releases
its notice slot; an ACTIVE one gets the cut cause and is asked to stop, and keeps its pins; other entries are left. The
pins dropped then reach the canvas manager one by one, and each may end a revoke or a close. A port without pins is sent
nothing. That they come by entries in queue order, a job's source before its destination, is the model's choice (log 28). -/
def Obligations.CutOrderActsOnEachEntry : Prop :=
  ∀ (s : State) (n : Nat) (p : Port) (c : Canvas), s.canvas n = some c →
    let h := s.handle n
    let b := s.port p
    (c.pinsOf p = 0 → s.cutPort n p = s) ∧
    (c.pinsOf p ≠ 0 →
      let hit : Entry → Prop := fun e => h ∈ e.job.names
      let struck := b.queue.entries.filter fun e => e.job.names.contains h && !e.isActive
      let dropped := (struck.filter fun e => e.state != .queued true).flatMap Entry.pins
      let waiting := ∃ e ∈ b.queue.entries, hit e ∧ e.isWaiting = true
      let active := ∃ e ∈ b.queue.entries, hit e ∧ e.isActive = true
      ∃ d : PortBlock,
        s.cutPort n p = dropped.foldl (fun t a => t.unpin p a) (s.setPort p d) ∧
        d.queue.entries = b.queue.entries.map (fun e : Entry =>
          if e.job.names.contains h then
            match e.state with
            | .active causes => { e with state := .active { causes with cut := true } }
            | .queued true => e
            | _ => { e with state := .queued true, pins := [] }
          else e) ∧
        (waiting → d.request = none ∧ d.link = { b.link with reserved := b.link.reserved - 1 }) ∧
        (¬ waiting → d.request = b.request ∧ d.link = b.link) ∧
        (active → ∀ r, b.record = some r →
          ((∃ x, s.engine.span = some x ∧ x.port = p) →
            d.record = some { r with stopMark := true } ∧ d.queue.report = b.queue.report) ∧
          ((∀ x, s.engine.span = some x → x.port ≠ p) →
            d.record = none ∧ d.queue.report = some (.stopped .noSpan))) ∧
        ((¬ active ∨ b.record = none) → d.record = b.record ∧ d.queue.report = b.queue.report) ∧
        d.staging = ({ b with queue := d.queue } : PortBlock).refreshStaging.staging ∧
        d.queue = { b.queue with entries := d.queue.entries, report := d.queue.report } ∧
        d = { b with
          queue := d.queue
          request := d.request
          link := d.link
          record := d.record
          staging := d.staging })

/-- The deadlines (R44, R52): the mode becomes CUT with its timer absent, and the grantee, or the owner and every grantee,
are cut; an operation that has ended, or is in CUT mode, has no expiry. A canvas is cut by a cut order to its owner and
one to each grantee of its list, with grants in either state, if they have pins (R46); the spec gives no order, and the
model takes the owner first, then the grantees as they stand in the list (log 19). That the time left passes first, for
every timer of the part, is the model's choice (log 6). -/
def Obligations.DeadlinesBecomeCuts : Prop :=
  (∀ (s : State) (n : Nat) (p : Port), s.resetPin = false →
    (∀ (c : Canvas) (g : Grant) (left : Nat) (ws : List Waiter) (mark : Bool),
      s.canvas n = some c → c.grantTo p = some g → g.revoke = some ⟨.drain left, ws, mark⟩ →
      exec (.revokeDeadlineExpiry n p) s = .next (((s.elapse left).modCanvas n fun d =>
        { d with grants := d.grants.map fun x : Grant =>
          if x.port = p then { x with revoke := some ⟨.cut, ws, mark⟩ } else x }).cutPort n p)) ∧
    ((∀ c g left ws mark, s.canvas n = some c → c.grantTo p = some g → g.revoke ≠ some ⟨.drain left, ws, mark⟩) →
      exec (.revokeDeadlineExpiry n p) s = .next s)) ∧
  (∀ (s : State) (n : Nat), s.resetPin = false →
    (∀ (c : Canvas) (left : Nat) (ws : List Waiter) (forced mark : Bool),
      s.canvas n = some c → c.phase = .closing ⟨.drain left, ws, forced, mark⟩ →
      exec (.closeDeadlineExpiry n) s = .next (((s.elapse left).modCanvas n fun d =>
        { d with phase := .closing ⟨.cut, ws, forced, mark⟩ }).cutCanvas n)) ∧
    ((∀ c left ws forced mark, s.canvas n = some c → c.phase ≠ .closing ⟨.drain left, ws, forced, mark⟩) →
      exec (.closeDeadlineExpiry n) s = .next s)) ∧
  (∀ (s : State) (n : Nat) (c : Canvas), s.canvas n = some c →
    s.cutCanvas n = (c.grants.map Grant.port).foldl (fun t q => t.cutPort n q) (s.cutPort n c.owner))

/-- REVOKE_END (R45, R54): with no pins left on a REVOKING grant, and pins left on the canvas if it is CLOSING, the grant is
removed, each waiter is answered with GRANTEE-RESET, CUT or DRAINED, and GRANT-LOST is set on the grantee. CLOSE_END (R53):
with no pins left on a CLOSING canvas, the revoke waiters, the grants, the close waiters, CANVAS-LOST of a forced close and
the release, in this order. An unpin (R9, R70) lowers one pin count, and in its own step it ends the close when it brings the
pin count of a CLOSING canvas to 0, else the revoke when it brings the pins of a REVOKING grant to 0, and else nothing (R44,
R45, R52 to R54; log 3). -/
def Obligations.RevokesAndClosesEnd : Prop :=
  ∀ (s : State) (n : Nat) (c : Canvas), s.resetPin = false → s.canvas n = some c →
    let handle := [BitVec.ofNat 8 n, (s.slot n).generation]
    (∀ p g r, c.grantTo p = some g → g.revoke = some r → g.pins = 0 → (c.phase.isClosing = true → c.pinCount ≠ 0) →
      let outcome : Byte := if r.granteeReset then 4 else if r.mode = .cut then 2 else 1
      let u := s.setCanvas n { c with grants := c.grants.filter fun x : Grant => x.port != p }
      exec (.revokeEnd n p) s = .next ((u.answerWaiters r.waiters (handle ++ [BitVec.ofNat 8 p.num, outcome])).modPort p
        fun b => b.raise .grantLost)) ∧
    (∀ op, c.phase = .closing op → c.pinCount = 0 →
      let revokes := c.grants.filterMap fun g : Grant => g.revoke.map fun r => (g.port, r)
      let s1 := revokes.foldl (fun x pr => x.answerWaiters pr.2.waiters
        (handle ++ [BitVec.ofNat 8 pr.1.num, if pr.2.granteeReset then 4 else 3])) s
      let s2 := (c.grants.map Grant.port).foldl (fun x q => x.modPort q fun b => b.raise .grantLost)
        (s1.setCanvas n { c with grants := [] })
      let s3 := s2.answerWaiters op.waiters (handle ++ [if op.mode = .cut then 2 else 1, 0])
      let s4 := if op.forced then s3.modPort c.owner fun b => b.raise .canvasLost else s3
      exec (.closeEnd n) s = .next (s4.release n)) ∧
    (∀ p h, handleSlot h = n →
      let d : Canvas :=
        if c.owner = p then { c with ownerPins := c.ownerPins - 1 }
        else { c with grants := c.grants.map fun g : Grant => if g.port = p then { g with pins := g.pins - 1 } else g }
      let u := s.setCanvas n d
      let closes := d.phase.isClosing = true ∧ d.pinCount = 0
      let revokes := ∃ g r, d.grantTo p = some g ∧ g.revoke = some r ∧ g.pins = 0
      (closes → exec (.closeEnd n) u = .next (s.unpin p h)) ∧
      (¬ closes → revokes → exec (.revokeEnd n p) u = .next (s.unpin p h)) ∧
      (¬ closes → ¬ revokes → s.unpin p h = u))

/-! ### Submission and the controls of a queue -/

/-- SUBMIT (R63, R66 to R70, R187): when every job passes its checks and the queue has room, all of them are admitted in
one step, in order, QUEUED at the tail with consecutive sequences, each with one pin on each canvas it names; the first
WRITE becomes the served WRITE if there is none (R118). Otherwise the whole SUBMIT is refused and changes no state:
MALFORMED of the payload, or the position and the first failing check of the first failing job: MALFORMED for a raster
function above 15, then for each canvas, source before destination, BAD-HANDLE, CLOSING and NO-RIGHT (canvas by canvas,
log 13), then FORMAT, then BOUNDS; or QUEUE-FULL. The payload holds the jobs as 10.6 lays their descriptors out, 1 to 4 of
them, and nothing more. -/
def Obligations.SubmitAdmitsAllOrNone : Prop :=
  ∀ (s : State) (p : Port) (payload : List Byte) (rest : List InFrame),
    s.Oldest p .req payload rest → IsRequest payload 0x20 → 14 ≤ payload.length → payload.length ≤ 118 →
    0 < (s.port p).link.reserved →
    let b := (s.port p).took rest
    let refused : Nat → Nat → Prop := fun status position =>
      exec (.submit p) s = .next (s.setPort p (b.answered payload status [BitVec.ofNat 8 position, 0]))
    let holds : List (Job × Bool) → Prop := fun jobs => 1 ≤ num8 payload 4 ∧ num8 payload 4 ≤ 4 ∧
      ∃ ds : List (List Byte), ds.length = num8 payload 4 ∧ payload.drop 6 = ds.flatten ∧ List.Forall₂ Describes ds jobs
    ((∀ jobs, ¬ holds jobs) → refused 0x01 0) ∧
    ∀ jobs, holds jobs →
      (∀ j ∈ jobs, ¬ s.JobAllowed p j.1 ↔ ∃ status, s.JobFails p j.1 status) ∧
      (∀ before j after status, jobs = before ++ j :: after → (∀ x ∈ before, s.JobAllowed p x.1) →
        s.JobFails p j.1 status → refused status (before.length + 1)) ∧
      ((∀ x ∈ jobs, s.JobAllowed p x.1) → 16 < b.queue.entries.length + jobs.length → refused 0x0D 0) ∧
      ((∀ x ∈ jobs, s.JobAllowed p x.1) → b.queue.entries.length + jobs.length ≤ 16 →
        1 ≤ b.queue.nextSeq → b.queue.nextSeq ≤ 65535 →
        let seq : Nat → Nat := fun i => (b.queue.nextSeq - 1 + i) % 65535 + 1
        let added : List Entry := jobs.zipIdx.map fun x => ⟨seq x.2, x.1.1, x.1.2, .queued false, x.1.1.names, 0⟩
        let served := b.queue.entries ++ added |>.find? fun e => e.job.kind == .write && e.state != .queued true
        ∃ t, exec (.submit p) s = .next t ∧
          t = { s with ports := s.ports.set p (t.port p), slots := t.slots } ∧
          (b.staging.served = ((b.queue.entries.find? fun e => e.job.kind == .write && e.state != .queued true).map
              Entry.seq) →
            t.port p = ({ b with
              queue := { b.queue with entries := b.queue.entries ++ added, nextSeq := seq jobs.length }
              staging := { b.staging with served := served.map Entry.seq } } : PortBlock).answered payload 0x00
                (enc16 b.queue.nextSeq ++ [BitVec.ofNat 8 jobs.length, 0])) ∧
          (∀ n, (t.slot n).generation = (s.slot n).generation) ∧
          (∀ n, s.canvas n = none → t.canvas n = none) ∧
          ∀ n c, s.canvas n = some c →
            let k := jobs.countP fun x => x.1.names.any fun h => handleSlot h == n
            t.canvas n = some (if c.owner = p then { c with ownerPins := c.ownerPins + k }
              else { c with grants := c.grants.map fun g : Grant =>
                if g.port = p then { g with pins := g.pins + k } else g }))

/-- HALT in each run state (R80): deferred behind an ACTIVE job, with the queue HALTING; else the queue goes to HALTED, a
WAITING head back to QUEUED with its claim request withdrawn and its notice slot released, and the HALT is answered
HALTED; in HALTED it is answered and nothing else changes. RESUME in each run state (R82): HALTED and HALTING go to RUN,
the HALT waiters answered RESUMED-BEFORE-HALT; in RUN it is answered and nothing else changes. That the HALT's reply is
placed before the HALTED flag's frame is the model's reading (log 15). At a RESUME that the HALT waiters are answered
before it (log 15), the oldest first (log 29), is the model's choice. -/
def Obligations.HaltAndResumeInEachRunState : Prop :=
  ∀ (s : State) (p : Port) (payload : List Byte) (rest : List InFrame),
    s.Oldest p .req payload rest → payload.length = 4 → 0 < (s.port p).link.reserved →
    let b := (s.port p).took rest
    let q := b.queue
    let leaves : Instr → PortBlock → Prop := fun c d => exec c s = .next (s.setPort p d)
    (IsRequest payload 0x22 →
      let waits : PortBlock := { b with
        queue := { q with run := .halting, haltWaiters := q.haltWaiters ++ [BitVec.ofNat 16 (num16 payload 2)] } }
      let halted : PortBlock → PortBlock := fun d =>
        (({ d with queue := { d.queue with run := .halted } } : PortBlock).answered payload 0x00 [0x01, 0]).raise .halted
      (q.run = .run → (∃ e ∈ q.entries, e.isActive = true) → leaves (.halt p) (waits.putOff payload)) ∧
      (q.run = .run → (∀ e ∈ q.entries, e.isQueued = true) → leaves (.halt p) (halted b)) ∧
      (∀ e later n, q.run = .run → q.entries = e :: later → e.state = .waiting n → (∀ x ∈ later, x.isQueued = true) →
        2 ≤ b.link.reserved →
        leaves (.halt p) (halted { b with
          request := none
          link := { b.link with reserved := b.link.reserved - 1 }
          queue := { q with entries := { e with state := .queued false } :: later } })) ∧
      (q.run = .halting → leaves (.halt p) (waits.putOff payload)) ∧
      (q.run = .halted → leaves (.halt p) (b.answered payload 0x00 [0x01, 0]))) ∧
    (IsRequest payload 0x23 →
      let runs : PortBlock := { b with queue := { q with run := .run } }
      (q.run = .halted ∨ q.run = .run → leaves (.resume p) (runs.answered payload 0x00 [])) ∧
      (q.run = .halting →
        let told := ({ b with queue := { q with run := .run, haltWaiters := [] } } : PortBlock).answerAll q.haltWaiters
          [0x02, 0]
        0 < told.link.reserved → leaves (.resume p) (told.answered payload 0x00 [])))

/-- An owner's answer to a deferred request (R184): the oldest entry with its id gives the kind of the reply, leaves the
list, and the reply goes into a reserved slot; without an entry nothing is placed. A pin is taken and dropped on the
record of its canvas (R9, R70): among the owner pins for the owner, among the grant's pins for a grantee; dropping one of
several on a canvas that is not CLOSING does nothing more. Pins dropped in one step (R77) lower the counts, and end what the
same unpins would have ended one by one. -/
def Obligations.DeferredRepliesAndPins : Prop :=
  (∀ (b : PortBlock) (id : ReqId) (contents : List Byte),
    ((∀ d ∈ b.deferred, d.id ≠ id) → b.answer id contents = b) ∧
    ∀ before d after, 0 < b.link.reserved → b.deferred = before ++ d :: after → (∀ x ∈ before, x.id ≠ id) → d.id = id →
      b.answer id contents = { b with
        deferred := before ++ after
        link := b.link.placedReserved .rep
          ([d.kind, 0x00, BitVec.ofNat 8 id.toNat, BitVec.ofNat 8 (id.toNat / 256)] ++ contents) }) ∧
  (∀ (s : State) (p : Port) (h : Handle) (c : Canvas), s.canvas (handleSlot h) = some c →
    (c.owner = p →
      s.pin p h = s.setCanvas (handleSlot h) { c with ownerPins := c.ownerPins + 1 } ∧
      (c.phase.isClosing = false → (∀ g ∈ c.grants, g.port ≠ p) →
        s.unpin p h = s.setCanvas (handleSlot h) { c with ownerPins := c.ownerPins - 1 })) ∧
    ∀ before g after, c.owner ≠ p → c.grants = before ++ g :: after → g.port = p →
      (∀ x ∈ before ++ after, x.port ≠ p) →
      s.pin p h = s.setCanvas (handleSlot h) { c with grants := before ++ { g with pins := g.pins + 1 } :: after } ∧
      (c.phase.isClosing = false → g.revoke = none ∨ 1 < g.pins →
        s.unpin p h = s.setCanvas (handleSlot h) { c with grants := before ++ { g with pins := g.pins - 1 } :: after })) ∧
  (∀ (s : State) (p : Port) (h : Handle), (s.dropPins p [h]).settleAll p [h] = s.unpin p h ∧
    ∀ k : Handle, handleSlot h ≠ handleSlot k →
      (s.dropPins p [h, k]).settleAll p [h, k] = (s.unpin p h).unpin p k)

/-- CANCEL (R84, R85): a sequence that names no entry is refused NO-JOB. Each entry named that is not ACTIVE leaves the
queue, a WAITING one's claim request withdrawn and its slot released; the answer lists them CANCELLED in queue order. A
named ACTIVE job gets the cancel cause, the CANCEL joins the CANCEL waiters and is deferred, and the engine is asked to
stop: the mark with a span in progress, "stopped" at once without one, nothing without a record (R112). A job whose last
span has ended is not named. The pins of the entries that left are dropped with them (R77); that the ends this brings come
after the queue's own part is the model's reading (log 3), and their order, by entries and then source before destination,
the model's choice (log 28). -/
def Obligations.CancelRemovesOrStops : Prop :=
  ∀ (s : State) (p : Port) (payload : List Byte) (rest : List InFrame),
    s.Oldest p .req payload rest → IsRequest payload 0x21 → payload.length = 6 → 0 < (s.port p).link.reserved →
    let b := (s.port p).took rest
    let q := b.queue
    let target := num16 payload 4
    let ended := q.report = some .finished ∨ q.report = some (.stopped .last)
    let named : Entry → Bool := fun e => decide ((target = 0 ∨ e.seq = target) ∧ ¬ (e.isActive = true ∧ ended))
    let removed := q.entries.filter fun e => named e && !e.isActive
    let kept := (q.entries.filter fun e => !(named e && !e.isActive)).map fun e : Entry =>
      match e.state with
      | .active c => if named e then { e with state := .active { c with cancel := true } } else e
      | _ => e
    let waited := removed.any Entry.isWaiting
    let d : PortBlock := { b with
      request := if waited then none else b.request
      link := { b.link with reserved := if waited then b.link.reserved - 1 else b.link.reserved }
      queue := { q with entries := kept } }
    let x := d.refreshStaging
    let leaves : PortBlock → Prop := fun y =>
      let pins := removed.flatMap Entry.pins
      exec (.cancel p) s = .next (((s.dropPins p pins).setPort p y).settleAll p pins)
    (target ≠ 0 → (∀ e ∈ q.entries, named e = false) → exec (.cancel p) s = .next (s.setPort p (b.answered payload 0x0E []))) ∧
    ((target = 0 ∨ ∃ e ∈ q.entries, named e = true) →
      ((∀ e ∈ q.entries, named e = true → e.isActive = false) → 0 < x.link.reserved →
        leaves (x.answered payload 0x00
          ([BitVec.ofNat 8 removed.length, 0] ++ removed.flatMap fun e => enc16 e.seq ++ [0x03]))) ∧
      ((∃ e ∈ q.entries, named e = true ∧ e.isActive = true) →
        let y : PortBlock := { x with queue := { x.queue with
          cancelWaiters := x.queue.cancelWaiters ++ [⟨BitVec.ofNat 16 (num16 payload 2), removed.map Entry.seq⟩] } }
        (b.record = none → leaves (y.putOff payload)) ∧
        ∀ r, b.record = some r →
          ((∃ z, s.engine.span = some z ∧ z.port = p) →
            leaves (({ y with record := some { r with stopMark := true } } : PortBlock).putOff payload)) ∧
          ((∀ z, s.engine.span = some z → z.port ≠ p) →
            leaves (({ y with
              record := none
              queue := { y.queue with report := some (.stopped .noSpan) } } : PortBlock).putOff payload))))

/-! ### Reports, fault log, attention -/

/-- STATUS (R144, R145, 10.5): MALFORMED for a target above 3, NOT-SUPERVISOR for another port asked about by P1, P2 or P3;
else the record of the target as it stands. A port asking about itself clears its outstanding and due marks and no flag;
P0 asking about another port changes nothing of it. -/
def Obligations.StatusReportsThePort : Prop :=
  ∀ (s : State) (p : Port) (payload : List Byte) (rest : List InFrame),
    s.Oldest p .req payload rest → IsRequest payload 0x30 → payload.length = 6 → 0 < (s.port p).link.reserved →
    let b := (s.port p).took rest
    let leaves : PortBlock → Prop := fun d => exec (.status p) s = .next (s.setPort p d)
    (3 < num8 payload 4 → leaves (b.answered payload 0x01 [])) ∧
    ∀ t, num8 payload 4 = Port.num t →
      let d := s.port t
      let pendingIndex := s.faultLog.arrival.find? fun i => (s.faultLog.record i).any fun r => r.port == t
      let contents := [BitVec.ofNat 8 t.num, BitVec.ofNat 8 d.portState.code, BitVec.ofNat 8 d.queue.run.code,
          BitVec.ofNat 8 d.queue.entries.length] ++ enc16 d.queue.nextSeq ++
        enc16 (((d.queue.entries.find? Entry.isActive).map Entry.seq).getD 0) ++
        [d.attn.flags.byte, d.attn.mask.byte, BitVec.ofNat 8 (pendingIndex.getD 0xFF),
          BitVec.ofNat 8 (8 - (d.link.used.length + d.link.reserved))] ++ enc16 d.blocksHeld ++
        [BitVec.ofNat 8 d.canvasesHeld, if d.staging.lastRejected.isSome then 1 else 0] ++
        enc16 ((d.staging.lastRejected.map Prod.fst).getD 0) ++ enc32 ((d.staging.lastRejected.map Prod.snd).getD 0)
      (p ≠ .p0 → t ≠ p → leaves (b.answered payload 0x03 [])) ∧
      (p = .p0 → t ≠ p → leaves (b.answered payload 0x00 contents)) ∧
      (t = p → leaves (({ b with attn := { b.attn with outstanding := false, due := false } } : PortBlock).answered
        payload 0x00 contents))

/-- FAULT_READ (R136, 10.5): MALFORMED for an index above 11, NOT-OWNER for another port's PENDING record asked for by P1, P2
or P3, else the record, or the asking port's PENDING records in arrival order; the log keeps its state. FAULT_ACK (R137):
each listed index in turn is FREED, NOT-YOURS or ALREADY-FREE; a freed record's index leaves the arrival list; no flag is
cleared; a bad list is refused whole. -/
def Obligations.FaultLogIsReadAndFreed : Prop :=
  (∀ (s : State) (p : Port) (payload : List Byte) (rest : List InFrame),
    s.Oldest p .req payload rest → IsRequest payload 0x31 → payload.length = 6 → 0 < (s.port p).link.reserved →
    let i := num8 payload 4
    let answer : Nat → List Byte → Prop := fun status contents =>
      exec (.faultRead p) s = .next (s.setPort p (((s.port p).took rest).answered payload status contents))
    let bytes : Nat → List Byte := fun i =>
      match s.faultLog.record i with
      | none => [BitVec.ofNat 8 i, 0x00, 0, 0, 0, 0, 0, 0, 0, 0, 0, 0, 0, 0, 0, 0, 0, 0]
      | some r =>
        let place := r.detail.position.getD (0, 0)
        [BitVec.ofNat 8 i, 0x01] ++ enc16 r.serial ++
          [BitVec.ofNat 8 r.port.num, BitVec.ofNat 8 r.detail.kind.code] ++ enc16 r.jobSeq ++
          [BitVec.ofNat 8 r.jobKind.code,
            match r.detail.position, r.detail.block with
            | none, none => 0
            | some _, none => 1
            | none, some _ => 2
            | some _, some _ => 3] ++
          enc16 r.detail.handle.toNat ++ enc16 place.1 ++ enc16 place.2 ++ enc16 (r.detail.block.getD 0)
    let mine := s.faultLog.arrival.filter fun i => (s.faultLog.record i).any fun r => r.port == p
    (12 ≤ i → i ≠ 0xFF → answer 0x01 []) ∧
    (i ≤ 11 → (∃ r, s.faultLog.record i = some r ∧ r.port ≠ p) → p ≠ .p0 → answer 0x05 []) ∧
    (i ≤ 11 → ((∀ r, s.faultLog.record i = some r → r.port = p) ∨ p = .p0) → answer 0x00 ([1, 0] ++ bytes i)) ∧
    (i = 0xFF → answer 0x00 ([BitVec.ofNat 8 mine.length, 0] ++ mine.flatMap bytes))) ∧
  (∀ (s : State) (p : Port) (payload header : List Byte) (is : List Nat) (rest : List InFrame),
    s.Oldest p .req payload rest → IsRequest payload 0x32 → 0 < (s.port p).link.reserved →
    header.length = 5 → payload = header ++ is.map (BitVec.ofNat 8) → (∀ i ∈ is, i ≤ 255) →
    let b := (s.port p).took rest
    let good := 1 ≤ is.length ∧ is.length ≤ 12 ∧ num8 payload 4 = is.length ∧ ∀ i ∈ is, i ≤ 11
    let mayFree : Nat → Bool := fun i => (s.faultLog.record i).any fun r => r.port == p || p == .p0
    let outcome : Nat × Nat → Byte := fun x =>
      if (s.faultLog.record x.1).isNone then 0x03
      else if mayFree x.1 then (if x.1 ∈ is.take x.2 then 0x03 else 0x01)
      else 0x02
    (¬ good → exec (.faultAck p) s = .next (s.setPort p (b.answered payload 0x01 []))) ∧
    (good → ∃ log : FaultLog,
      exec (.faultAck p) s = .next (State.setPort { s with faultLog := log } p (b.answered payload 0x00
        ([BitVec.ofNat 8 is.length, 0] ++ is.zipIdx.flatMap fun x => [BitVec.ofNat 8 x.1, outcome x]))) ∧
      log.serial = s.faultLog.serial ∧
      log.arrival = s.faultLog.arrival.filter (fun i => !(is.contains i && mayFree i)) ∧
      ∀ i, log.record i = if i ∈ is ∧ mayFree i = true then none else s.faultLog.record i)) ∧
  (∀ (s : State) (p : Port) (payload : List Byte) (rest : List InFrame),
    s.Oldest p .req payload rest → IsRequest payload 0x32 → payload.length = 4 → 0 < (s.port p).link.reserved →
    exec (.faultAck p) s = .next (s.setPort p (((s.port p).took rest).answered payload 0x01 [])))

/-- The setting of a flag (R139, R140): ignored by a RESETTING port and for a flag already set; a masked flag, or one set
while attention is outstanding, is only set; any other raises a frame, placed at once in a free slot of an UP or LOST
port, with the flags as they stand (R142), else due. ATTENTION_FRAME_PLACED (R141) places a due frame when it can.
ATTN_CLEAR (R143): a code that is no flag is MALFORMED; else the listed flags and both marks are cleared, and the reply
gives the flags. -/
def Obligations.AttentionFlagsAndFrames : Prop :=
  (∀ (f : FlagSet), [f.byte.getLsbD 0, f.byte.getLsbD 1, f.byte.getLsbD 2, f.byte.getLsbD 3, f.byte.getLsbD 4,
      f.byte.getLsbD 5, f.byte.getLsbD 6, f.byte.getLsbD 7] =
    [f.fault, f.logFull, f.grantLost, f.canvasLost, f.halted, f.dataRejected, false, false]) ∧
  (∀ (b : PortBlock) (k : Flag),
    let a : Attention := { b.attn with flags := b.attn.flags.set k true }
    let canPlace := (b.portState = .up ∨ b.portState = .lost) ∧ b.link.used.length + b.link.reserved < 8
    ((∃ op, b.portState = .resetting op) ∨ b.attn.flags.get k = true → b.raise k = b) ∧
    ((∀ op, b.portState ≠ .resetting op) → b.attn.flags.get k = false →
      (b.attn.mask.get k = true ∨ b.attn.outstanding = true → b.raise k = { b with attn := a }) ∧
      (b.attn.mask.get k = false → b.attn.outstanding = false →
        (canPlace → b.raise k =
          { b with attn := { a with outstanding := true }, link := b.link.placed .atn [a.flags.byte, 0] }) ∧
        (¬ canPlace → b.raise k = { b with attn := { a with outstanding := true, due := true } })))) ∧
  (∀ (s : State) (p : Port), s.resetPin = false →
    let b := s.port p
    let canPlace := b.attn.due = true ∧ (b.portState = .up ∨ b.portState = .lost) ∧
      b.link.used.length + b.link.reserved < 8
    (canPlace → exec (.attentionFramePlaced p) s = .next (s.setPort p
      { b with attn := { b.attn with due := false }, link := b.link.placed .atn [b.attn.flags.byte, 0] })) ∧
    (¬ canPlace → exec (.attentionFramePlaced p) s = .next s)) ∧
  (∀ (s : State) (p : Port) (payload : List Byte) (rest : List InFrame),
    s.Oldest p .req payload rest → IsRequest payload 0x33 → payload.length = 6 → 0 < (s.port p).link.reserved →
    let b := (s.port p).took rest
    let listed : Nat → Bool := fun i => (num8 payload 4).testBit i
    let f := b.attn.flags
    let flags : FlagSet := ⟨f.fault && !listed 0, f.logFull && !listed 1, f.grantLost && !listed 2,
      f.canvasLost && !listed 3, f.halted && !listed 4, f.dataRejected && !listed 5⟩
    (64 ≤ num8 payload 4 → exec (.attnClear p) s = .next (s.setPort p (b.answered payload 0x01 []))) ∧
    (num8 payload 4 < 64 → exec (.attnClear p) s = .next (s.setPort p
      (({ b with attn := { b.attn with flags := flags, outstanding := false, due := false } } : PortBlock).answered
        payload 0x00 [flags.byte, 0]))))

/-! ### Write data -/

/-- DAT_FRAME (R120, R121, R124): the promise is taken back; the data of a well-formed frame for the served WRITE, at the
offset its entry expects and within the job's data, is appended, the bytes received advance, and the data timeout of its
ACTIVE job is set afresh; any other frame's data is rejected: the last rejected record is set and DATA-REJECTED is set.
The served WRITE (R118, R123): it stays while its entry stands uncut; when it has gone, the held bytes are discarded and
the oldest uncut WRITE of the queue is served. That the last rejected record of a payload of exactly 6 bytes takes its
sequence and offset, and only a shorter one 0 and 0, is the model's reading (log 19). -/
def Obligations.WriteDataIsAppendedOrRejected : Prop :=
  (∀ (s : State) (p : Port) (payload : List Byte) (rest : List InFrame), s.Oldest p .dat payload rest →
    let b := (s.port p).took rest
    let size := payload.length - 6
    let wellFormed := 7 ≤ payload.length ∧ payload.length ≤ 1030
    let seq := num16 payload 0
    let offset := num32 payload 2
    let staging : Staging := { b.staging with
      promised := if wellFormed then b.staging.promised - size else b.staging.promised }
    (∀ before e after dst rect c, wellFormed → b.staging.served = some seq → b.queue.entries = before ++ e :: after →
      (∀ x ∈ before ++ after, x.seq ≠ seq) → e.seq = seq → e.job = .write dst rect →
      s.canvas (handleSlot dst) = some c → offset = e.received →
      offset + size ≤ rect.h * ((rect.w * c.format.bits + 7) / 8) →
      exec (.datFrame p) s = .next (s.setPort p { b with
        staging := { staging with held := staging.held ++ payload.drop 6 }
        queue := { b.queue with entries := before ++ { e with received := e.received + size } :: after }
        record := b.record.map fun r : EngineRecord =>
          if r.seq = seq then { r with timer := some b.config.dataTimeout } else r })) ∧
    ((¬ wellFormed ∨ b.staging.served ≠ some seq ∨
        ∀ e ∈ b.queue.entries, e.seq = seq → offset ≠ e.received ∨ s.dataLength e.job < offset + size) →
      exec (.datFrame p) s = .next (s.setPort p (({ b with staging := { staging with
        lastRejected := some (if payload.length < 6 then (0, 0) else (seq, offset)) } } : PortBlock).raise
          .dataRejected)))) ∧
  (∀ (b : PortBlock),
    let stands : Nat → Prop := fun q => ∃ e ∈ b.queue.entries, e.seq = q ∧ e.job.kind = .write ∧ e.state ≠ .queued true
    let next := b.queue.entries.find? fun e => e.job.kind == .write && e.state != .queued true
    (∀ q, b.staging.served = some q → stands q → b.refreshStaging = b) ∧
    (∀ q, b.staging.served = some q → ¬ stands q →
      b.refreshStaging = { b with staging := { b.staging with held := [], served := next.map Entry.seq } }) ∧
    (b.staging.served = none → b.refreshStaging = { b with staging := { b.staging with served := next.map Entry.seq } }))

/-! ### The head of a queue and the claims -/

/-- JOB_DISPATCH (R72 to R74, R89): only in RUN, of a QUEUED head, with a slot neither used nor reserved. A head that is no
MARK reserves its notice slot, goes to WAITING with the wait timeout, and asks for a READ claim on its source rectangle and
a WRITE claim on its destination rectangle. A MARK ends DONE with its notice if it notifies; a cut entry ends GONE with its
notice. -/
def Obligations.HeadIsDispatched : Prop :=
  ∀ (s : State) (p : Port) (e : Entry) (later : List Entry), s.resetPin = false → (s.port p).queue.entries = e :: later →
    let b := s.port p
    let may := b.queue.run = .run ∧ b.link.used.length + b.link.reserved < 8
    let claims : List Claim :=
      match e.job with
      | .fill dst r _ _ => [⟨handleSlot dst, r, true⟩]
      | .move src x y dst r _ _ => [⟨handleSlot src, ⟨x, y, r.w, r.h⟩, false⟩, ⟨handleSlot dst, r, true⟩]
      | .expand src x y dst r _ _ _ => [⟨handleSlot src, ⟨x, y, r.w, r.h⟩, false⟩, ⟨handleSlot dst, r, true⟩]
      | .write dst r => [⟨handleSlot dst, r, true⟩]
      | .read src r => [⟨handleSlot src, r, false⟩]
      | .mark _ => []
    (¬ may ∨ e.isQueued = false → exec (.jobDispatch p) s = .next s) ∧
    (may → e.state = .queued false → e.job.kind ≠ .mark →
      exec (.jobDispatch p) s = .next (s.setPort p { b with
        link := { b.link with reserved := b.link.reserved + 1 }
        request := some claims
        queue := { b.queue with entries := { e with state := .waiting b.config.waitTimeout } :: later } })) ∧
    (may → b.record = none → b.request = none → b.queue.report = none → b.queue.cancelWaiters = [] → e.pins = [] →
      let gone : Link → State := fun l =>
        s.setPort p ({ b with link := l, queue := { b.queue with entries := later } } : PortBlock).refreshStaging
      (e.state = .queued false → e.job.kind = .mark →
        exec (.jobDispatch p) s = .next
          (gone (if e.notify then b.link.placed .ntc (e.noticeBytes 0x01 0xFF) else b.link))) ∧
      (e.state = .queued true →
        exec (.jobDispatch p) s = .next (gone (b.link.placed .ntc (e.noticeBytes 0x04 0xFF)))))

/-- Two claims conflict (R90) when they name the same slot, some column and some row lie in both rectangles, and at least one
is a WRITE claim. The test is made between the claims requested and the claims of other ports: the pairs of R90's table, and
the claims of one job, which are never tested against each other. -/
def Obligations.ClaimsConflict : Prop :=
  (∀ a b : Claim, a.conflicts b = true ↔
    a.slot = b.slot ∧
    (∃ x, a.rect.x ≤ x ∧ x < a.rect.x + a.rect.w ∧ b.rect.x ≤ x ∧ x < b.rect.x + b.rect.w) ∧
    (∃ y, a.rect.y ≤ y ∧ y < a.rect.y + a.rect.h ∧ b.rect.y ≤ y ∧ y < b.rect.y + b.rect.h) ∧
    (a.write = true ∨ b.write = true)) ∧
  (∀ (s : State) (p : Port) (cs : List Claim), (s.firstConflict p cs).isSome = true ↔ ∃ a ∈ cs, s.Conflicting p a) ∧
  Claim.conflicts ⟨4, ⟨0, 0, 100, 100⟩, true⟩ ⟨4, ⟨99, 99, 10, 10⟩, false⟩ = true ∧
  Claim.conflicts ⟨4, ⟨0, 0, 100, 100⟩, true⟩ ⟨4, ⟨100, 0, 50, 50⟩, true⟩ = false ∧
  Claim.conflicts ⟨4, ⟨0, 0, 100, 100⟩, false⟩ ⟨4, ⟨50, 50, 100, 100⟩, false⟩ = false ∧
  Claim.conflicts ⟨4, ⟨0, 0, 100, 100⟩, true⟩ ⟨5, ⟨0, 0, 100, 100⟩, true⟩ = false ∧
  Claim.conflicts ⟨4, ⟨10, 10, 1, 1⟩, false⟩ ⟨4, ⟨0, 0, 4096, 4096⟩, true⟩ = true

/-- CLAIM_GRANT (R91, R75, R101, R97, R98): a waiting request that conflicts with a claim present of another port stays; any
other is granted: its claims are added, the head goes to ACTIVE without stop causes, and the engine takes the job up, with
rows upward or spans leftward only in a MOVE within one canvas, the progress at its first span, the stop mark clear and the
stream timer of a WRITE or a READ at its setting. -/
def Obligations.ClaimsAreGranted : Prop :=
  ∀ (s : State) (p : Port) (e : Entry) (later : List Entry) (cs : List Claim) (left : Nat), s.resetPin = false →
    (s.port p).queue.entries = e :: later → e.state = .waiting left → (s.port p).request = some cs →
    ((∃ a ∈ cs, s.Conflicting p a) → exec (.claimGrant p) s = .next s) ∧
    ((∀ a ∈ cs, ¬ s.Conflicting p a) → exec (.claimGrant p) s = .next (s.setPort p (s.grantedBlock p e later cs)))

/-- The release of a port's claims (R92): the port's claims are removed, and in the same step every waiting request of
another port is reconsidered, from the port after it round. A request is granted, as CLAIM_GRANT grants it, exactly when
it conflicts with no claim then present: those of the ports reconsidered before it as they stand after, earlier grants
included, and those of the ports after it as they stood. So afterwards every request still waiting conflicts with a claim
present, and none granted does. Nothing else changes. A port that awaits claims holds none (R71, R89). -/
def Obligations.ReleaseReconsidersRequests : Prop :=
  ∀ (s : State) (p : Port), (∀ cs, ¬ s.AwaitsClaims p cs) → (∀ q cs, s.AwaitsClaims q cs → (s.port q).claims = []) →
    let t := s.releaseClaims p
    t = { s with ports := t.ports } ∧ t.port p = { s.port p with claims := [] } ∧
    ∀ q, q ≠ p →
      ((∀ cs, ¬ s.AwaitsClaims q cs) → t.port q = s.port q) ∧
      ∀ cs e later, (s.port q).request = some cs → (s.port q).queue.entries = e :: later → e.isWaiting = true →
        ((∃ a ∈ cs, t.Conflicting q a) ∧ t.port q = s.port q ∨
          (∀ a ∈ cs, ¬ t.Conflicting q a) ∧ t.port q = s.grantedBlock q e later cs) ∧
        ∀ before after, p.roundAfter = before ++ q :: after →
          let present : Port → List Claim := fun r => if r ∈ before then (t.port r).claims else (s.port r).claims
          let opposed := ∃ r, r ≠ p ∧ r ≠ q ∧ ∃ d ∈ present r, ∃ a ∈ cs, a.conflicts d = true
          (opposed → t.port q = s.port q) ∧ (¬ opposed → t.port q = s.grantedBlock q e later cs)

/-- A head leaves its queue at its job's end (R77, R78, R81, R85): the entry is removed, an ACTIVE one's claims are
released and requests reconsidered, its pins are dropped, its notice is placed for DONE with notify, FAULTED and GONE or
its slot is released, staged bytes are discarded, every CANCEL waiter is answered with the job's status and the entries it
removed, and a HALTING queue, or one in RUN whose fault's severity is HALT, goes to HALTED with its HALT waiters answered
HALTED; then the canvas manager ends the revoke or the close that the dropped pins held. That these ends come after the
queue's six steps (log 3), and that these replies are placed before the HALTED flag's frame (log 15), is the model's
reading. That the CANCEL waiters are answered
oldest first (log 29), and that of a source and a destination canvas the source's end comes first (log 28), are the
model's choices. -/
def Obligations.HeadLeavesTheQueue : Prop :=
  ∀ (s : State) (p : Port) (e : Entry) (later : List Entry) (status : JobStatus) (index : Option Nat) (halts : Bool),
    (s.port p).queue.entries = e :: later →
    let b := s.port p
    let u := s.setPort p { b with
      record := none, request := none, queue := { b.queue with entries := later, report := none } }
    let v := if e.isActive then u.releaseClaims p else u
    let d := v.port p
    0 < d.link.reserved →
    let link : Link :=
      if (status = .done ∧ e.notify = true) ∨ status = .faulted ∨ status = .gone then
        d.link.placedReserved .ntc (e.noticeBytes status.code (index.getD 0xFF))
      else { d.link with reserved := d.link.reserved - 1 }
    let noticed : PortBlock := { d with link := link }
    let x := noticed.refreshStaging
    let told := d.queue.cancelWaiters.foldl (fun (y : PortBlock) (w : CancelWaiter) => y.answer w.id
        ([BitVec.ofNat 8 (w.removed.length + 1), 0] ++ enc16 e.seq ++ [BitVec.ofNat 8 status.code] ++
          w.removed.flatMap fun n => enc16 n ++ [0x03]))
      ({ x with queue := { x.queue with cancelWaiters := [] } } : PortBlock)
    let halted := (({ told with queue := { told.queue with run := .halted, haltWaiters := [] } } : PortBlock).answerAll
      told.queue.haltWaiters [0x01, 0]).raise .halted
    s.endHead p e status index halts =
      ((v.dropPins p e.pins).setPort p
        (if b.queue.run = .halting ∨ halts = true ∧ b.queue.run = .run then halted else told)).settleAll p e.pins

/-- The hand-over of a fault (R132 to R134): with a record FREE, the one of lowest index is written with the next serial,
its index joins the tail of the arrival list and goes to the notice; with none, nothing is logged and LOG-FULL is set.
FAULT is set either way unless the kind is quiet for the port. That LOG-FULL is set before FAULT is the model's reading
(log 30). -/
def Obligations.FaultsAreLogged : Prop :=
  ∀ (s : State) (p : Port) (seq : Nat) (kind : JobKind) (d : FaultDetail),
    let b := s.port p
    let serial := if s.faultLog.serial = 65535 then 1 else s.faultLog.serial + 1
    s.faultLog.serial ≤ 65535 →
    (∀ i, i < 12 → s.faultLog.record i = none → (∀ j, j < i → s.faultLog.record j ≠ none) →
      ∃ log : FaultLog,
        s.logFault p seq kind d =
          (State.setPort { s with faultLog := log } p (if b.config.quiet.get d.kind then b else b.raise .fault), some i) ∧
        log.serial = serial ∧ log.arrival = s.faultLog.arrival ++ [i] ∧
        log.record i = some ⟨serial, p, seq, kind, d⟩ ∧ ∀ j, j ≠ i → log.record j = s.faultLog.record j) ∧
    ((∀ i, i < 12 → s.faultLog.record i ≠ none) →
      s.logFault p seq kind d =
        (s.setPort p (if b.config.quiet.get d.kind then b.raise .logFull else (b.raise .logFull).raise .fault), none))

/-- JOB_END (R76, R86): the job ends DONE when its last span ended without error, FAULTED when a span met an uncorrectable
word or its stream timer expired, and else, stopped, GONE with a cut among its causes or CANCELLED. FAULTED hands the
fault to the log, and the severity of its kind decides whether the queue halts (R79). In RESETTING (R87) the claims are
released and the pins dropped, with no status, notice or fault, and an empty queue reports that it has stopped.
WAIT_TIMER_EXPIRY (R75, R94): the WAITING head ends FAULTED with the canvas of its first conflicting claim; a request that
conflicts with nothing has no expiry (log 4). That the time left passes first, for every timer of the part (log 6), that
the fault's frame is placed before the notice (log 15), that the ends the dropped pins bring come last (log 3), and that of
a source and a destination canvas the source's end comes first (log 28), are the model's choices. -/
def Obligations.JobsEndAsReported : Prop :=
  (∀ (s : State) (p : Port) (e : Entry) (later : List Entry) (causes : StopCauses) (rep : Report), s.resetPin = false →
    (s.port p).queue.entries = e :: later → e.state = .active causes → (s.port p).queue.report = some rep →
    let b := s.port p
    let ends : JobStatus → Prop := fun status => exec (.jobEnd p) s = .next (s.endHead p e status none false)
    (b.queue.run ≠ .resetting →
      (rep = .finished ∨ rep = .stopped .last → ends .done) ∧
      (rep = .stopped .noSpan ∨ rep = .stopped .notLast → ends (if causes.cut then .gone else .cancelled)) ∧
      (∀ d, rep = .uncorrectable d ∨ rep = .timedOut d ∨ rep = .stopped (.uncorrectable d) →
        let l := s.logFault p e.seq e.job.kind d
        exec (.jobEnd p) s = .next (l.1.endHead p e .faulted l.2 (b.config.severityHalt.get d.kind)))) ∧
    (b.queue.run = .resetting →
      let u := s.setPort p { b with record := none, queue := { b.queue with entries := later, report := none } }
      let v := u.releaseClaims p
      let x := (v.port p).refreshStaging
      exec (.jobEnd p) s = .next (((v.dropPins p e.pins).setPort p
        (match x.portState with
          | .resetting op => { x with portState := .resetting { op with queueStopped := later.isEmpty } }
          | _ => x)).settleAll p e.pins))) ∧
  (∀ (s : State) (p : Port) (e : Entry) (later : List Entry) (cs : List Claim) (left : Nat), s.resetPin = false →
    (s.port p).queue.entries = e :: later → e.state = .waiting left → (s.port p).request = some cs →
    ((∀ a ∈ cs, ¬ s.Conflicting p a) → exec (.waitTimerExpiry p) s = .next s) ∧
    ∀ before a after, cs = before ++ a :: after → (∀ x ∈ before, ¬ s.Conflicting p x) → s.Conflicting p a →
      let handle : Handle := (s.slot a.slot).generation ++ BitVec.ofNat 8 a.slot
      let l := (s.elapse left).logFault p e.seq e.job.kind ⟨.waitTimeout, handle, none, none⟩
      exec (.waitTimerExpiry p) s =
        .next (l.1.endHead p e .faulted l.2 (s.port p).config.severityHalt.waitTimeout))

/-! ### The engine and the store -/

/-- SPAN_BEGIN (R102 to R104): with no span in progress, the first port from the one after the marker round whose job is
ready begins its span and becomes the marker; a WRITE draws the bytes at the front of the held bytes (R122), a READ
reserves its slot. STORE_ACCESS_BEGIN (R26): the idle store begins the only access waiting, or of two the one the marker
does not name, and the marker names its requester. With nothing to begin nothing changes. That a WRITE span's bytes are
taken from the held bytes at its beginning is the model's reading (log 19). -/
def Obligations.ArbitersChoose : Prop :=
  (∀ s : State, s.resetPin = false →
    (s.engine.span ≠ none → exec .spanBegin s = .next s) ∧
    (s.engine.span = none → (∀ p, ¬ (s.port p).HasReadyJob) → exec .spanBegin s = .next s) ∧
    ∀ before p after r, s.engine.span = none → s.engine.lastServed.roundAfter = before ++ p :: after →
      (∀ q ∈ before, ¬ (s.port q).HasReadyJob) → (s.port p).HasReadyJob → (s.port p).record = some r →
      let b := s.port p
      exec .spanBegin s = .next (State.setPort
        { s with engine := ⟨some ⟨p, if r.job.kind = .write then b.staging.held.take r.spanBytes else []⟩, p⟩ } p
        (if r.job.kind = .read then
          { b with link := { b.link with reserved := b.link.reserved + 1 }, record := some { r with spanSlot := true } }
        else b))) ∧
  (∀ s : State, s.resetPin = false →
    let begins : Access → Requester → Prop := fun a r => exec .storeAccessBegin s = .next { s with arbiter := ⟨some a, r⟩ }
    (s.arbiter.serving ≠ none → exec .storeAccessBegin s = .next s) ∧
    (s.arbiter.serving = none →
      (s.engine.span = none → s.clear.list = [] → exec .storeAccessBegin s = .next s) ∧
      (∀ x, s.engine.span = some x → s.clear.list = [] → begins .span .engine) ∧
      ∀ n others c, s.clear.list = n :: others → s.canvas n = some c →
        let block : Access := .block (c.firstBlock + s.clear.clearedSoFar) c.format c.fill
        (s.engine.span = none → begins block .clearUnit) ∧
        ∀ x, s.engine.span = some x →
          (s.arbiter.lastServed = .engine → begins block .clearUnit) ∧
          (s.arbiter.lastServed = .clearUnit → begins .span .engine)))

/-- SPAN_COMPLETE (R105, R112, R114, R122, R125, R127): the write phase is done, the span has ended and the store is idle.
Words the access wrote are good, their check bits computed afresh from the data written, and every other word keeps its own; a
word read with one flipped bit stays correctable (R22). A WRITE's bytes leave the held bytes; a READ's data goes, with the job's sequence and its offset, into the reserved slot, or under the port's reset the slot
is released. After the last span "finished" is reported, with the stop mark "stopped" with how it ended, and the record is
removed; else the progress advances. In the same step the arbiter chooses the next span, as SPAN_BEGIN does (R103, R105). -/
def Obligations.SpanCompletes : Prop :=
  ∀ (s : State) (p : Port) (r : EngineRecord) (data : List Byte) (corrected : List Nat), s.SpanServed p r data →
    let b := s.port p
    let offset :=
      match r.src with
      | some g => r.row * g.format.rowBytes r.job.rect.w + g.format.rowBytes r.col
      | none => 0
    (r.job.kind = .read → r.leftward = false) → (r.spanSlot = true → 0 < b.link.reserved) →
    ∃ t v, exec (.spanComplete corrected) s = .next v ∧ exec .spanBegin t = .next v ∧
      t = { s with
        ports := s.ports.set p (t.port p)
        store := r.writePhase (s.store.noteCorrected r.reads corrected) data
        engine := { s.engine with span := none }
        arbiter := { s.arbiter with serving := none } } ∧
      (∀ w, t.store.condition w =
        if w ∈ r.dstWords then none
        else if w ∈ r.reads ∧ w ∈ corrected ∧ s.store.condition w = none then some .correctable
        else s.store.condition w) ∧
      ((∀ g, r.dst = some g → g.pitch % 8 = 0) → 0 < r.spanPixels → ∀ w, t.store.checkBits w =
        if w ∈ r.dstWords then Config.checkCode (t.store.word w) else s.store.checkBits w) ∧
      t.port p = { b with
        staging :=
          if r.job.kind = .write then { b.staging with held := b.staging.held.drop r.spanBytes } else b.staging
        link :=
          if r.job.kind = .read ∧ r.spanSlot = true then
            if b.portState.isResetting then { b.link with reserved := b.link.reserved - 1 }
            else b.link.placedReserved .dat (enc16 r.seq ++ enc32 offset ++ r.readData s.store)
          else b.link
        record :=
          match r.nextProgress, r.stopMark with
          | some (row, col), false => some { r with
              row := row, col := col, spanSlot := false
              timer := if r.spanSlot then some b.config.readStall else r.timer }
          | _, _ => none
        queue := { b.queue with report :=
          match r.nextProgress, r.stopMark with
          | none, false => some .finished
          | none, true => some (.stopped .last)
          | some _, true => some (.stopped .notLast)
          | some _, false => b.queue.report } }

/-- What a span does to the pixels (R107 to R111, R21, R128). The raster function is applied bit by bit. Each pixel of the
span gets its new value: FILL the function of the colour, MOVE of the source pixel unless it equals the key, EXPAND of the
foreground or background colour or the old value, WRITE the value its data carries; every other pixel of the row and every
byte beside the span's keeps its value. A READ delivers each pixel of the span, with the padding bits of an M1 row 0. -/
def Obligations.SpanPixelValues : Prop :=
  (∀ (code : Nat) (x y : Colour) (k : Nat), k < 32 →
    (raster code x y).getLsbD k = code.testBit (2 * (x.getLsbD k).toNat + (y.getLsbD k).toNat)) ∧
  (∀ (r : EngineRecord) (m : Store) (data : List Byte) (g : Geo), r.dst = some g →
    let f := g.format
    let x := r.job.rect.x + r.spanLeft
    let y := r.job.rect.y + r.row
    let n := r.spanPixels
    let t := r.writePhase m data
    (∀ i, i < n →
      let old := m.pixel g (x + i) y
      let source : Colour :=
        match r.src with
        | none => 0
        | some h => m.pixel h (r.job.srcOrigin.1 + r.spanLeft + i) (r.job.srcOrigin.2 + r.row)
      match r.job with
      | .fill _ _ colour rop => t.pixel g (x + i) y = f.truncate (raster rop (f.truncate colour) old)
      | .move _ _ _ _ _ rop key =>
        t.pixel g (x + i) y =
          if key.map f.truncate = some source then old else f.truncate (raster rop source old)
      | .expand _ _ _ _ _ fg bg rop =>
        t.pixel g (x + i) y =
          if source = 1 then f.truncate (raster rop (f.truncate fg) old)
          else
            match bg with
            | some c => f.truncate (raster rop (f.truncate c) old)
            | none => old
      | .write _ _ =>
        t.pixel g (x + i) y =
          match f with
          | .m1 => if (data.getD (i / 8) 0).getLsbD (7 - i % 8) then 1 else 0
          | .i8 => BitVec.ofNat 32 (data.getD i 0).toNat
          | .c16 => BitVec.ofNat 32 (num16 data (2 * i))
          | .c32 => BitVec.ofNat 32 (num32 data (4 * i))
      | _ => t.pixel g (x + i) y = old) ∧
    (∀ x', x' < x ∨ x + n ≤ x' → t.pixel g x' y = m.pixel g x' y) ∧
    (∀ a, a < g.rowBase y + x * f.bits / 8 ∨ g.rowBase y + f.rowBytes (x + n) ≤ a → t.read a = m.read a)) ∧
  (∀ (r : EngineRecord) (m : Store) (g : Geo), r.job.kind = .read → r.src = some g →
    (r.readData m).length = g.format.rowBytes r.spanPixels ∧
    (∀ i, i < r.spanPixels → unpackPixel g.format (r.readData m) i =
      m.pixel g (r.job.rect.x + r.spanLeft + i) (r.job.rect.y + r.row)) ∧
    (g.format = .m1 → ∀ i, r.spanPixels ≤ i → i < 8 * g.format.rowBytes r.spanPixels →
      unpackPixel .m1 (r.readData m) i = 0))

/-- A job of any kind with spans has h × ceil(w ÷ P) of them, P by the format of its destination or, for a READ, its
source: each has 1 to P pixels, and each pixel of the rectangle lies in exactly one (R96, R98). A MOVE that runs to its
end acts as if its source had been copied aside before the job began, whatever the overlap (R97, R99): every destination
pixel gets the raster function of the source pixel and the destination pixel as both stood before, but one whose source
pixel equals the key keeps its value, and every other pixel of the destination canvas keeps its value. -/
def Obligations.SpansCoverAJobAndMoveActsAsIfCopied : Prop :=
  (∀ (r : EngineRecord) (g : Geo), (if r.job.kind = .read then r.src else r.dst) = some g →
    1 ≤ r.job.rect.w → 1 ≤ r.job.rect.h → r.row = (if r.upward then r.job.rect.h - 1 else 0) →
    r.col = (if r.leftward then r.job.rect.w - 1 else 0) →
    let w := r.job.rect.w
    let h := r.job.rect.h
    let most := match g.format with
      | .m1 => w
      | .i8 => 1024
      | .c16 => 512
      | .c32 => 256
    let spans := r.spans (w * h)
    spans.length = h * ((w + most - 1) / most) ∧
    (∀ k ∈ spans, 1 ≤ k.spanPixels ∧ k.spanPixels ≤ most) ∧
    ∀ i j, i < w → j < h →
      spans.countP (fun k => decide (k.row = j ∧ k.spanLeft ≤ i ∧ i < k.spanLeft + k.spanPixels)) = 1) ∧
  (∀ (m : Store) (r : EngineRecord) (a g : Geo) (src dst : Handle) (sx sy srcHeight dstHeight : Nat) (rect : Rect) (rop : Nat)
      (key : Option Colour),
      r.job = .move src sx sy dst rect rop key → r.src = some a → r.dst = some g → a.format = g.format →
      a.IsCanvas srcHeight → g.IsCanvas dstHeight → 1 ≤ rect.w → 1 ≤ rect.h →
      rect.x + rect.w ≤ g.width → rect.y + rect.h ≤ dstHeight → sx + rect.w ≤ a.width → sy + rect.h ≤ srcHeight →
      (src = dst ∧ a = g ∨
        src ≠ dst ∧ (a.firstBlock + a.blockCount ≤ g.firstBlock ∨ g.firstBlock + g.blockCount ≤ a.firstBlock)) →
      r.upward = decide (src = dst ∧ sy < rect.y) → r.leftward = decide (src = dst ∧ sy = rect.y ∧ sx < rect.x) →
      r.row = (if r.upward then rect.h - 1 else 0) → r.col = (if r.leftward then rect.w - 1 else 0) →
      let f := g.format
      let t := (r.spans (rect.w * rect.h)).foldl (fun (x : Store) (k : EngineRecord) => k.writePhase x []) m
      (∀ i j, i < rect.w → j < rect.h →
        let source := m.pixel a (sx + i) (sy + j)
        let old := m.pixel g (rect.x + i) (rect.y + j)
        t.pixel g (rect.x + i) (rect.y + j) =
          if key.map f.truncate = some source then old else f.truncate (raster rop source old)) ∧
      (∀ x y, x < g.width → y < dstHeight → ¬ (rect.x ≤ x ∧ x < rect.x + rect.w ∧ rect.y ≤ y ∧ y < rect.y + rect.h) →
        t.pixel g x y = m.pixel g x y))

/-- SPAN_UNCORRECTABLE (R24, R106, R112): nothing is written, and the word found stays uncorrectable. A READ's slot is
released, the progress stays, the record is removed, and the engine reports the block of the first uncorrectable word in
the order of reading, the progress and the canvas whose run holds the block, as a stopped report when the stop mark is
set. In the same step the arbiter chooses the next span, as SPAN_BEGIN does (R103). An access outside the store stops the
model (R21, log 20). -/
def Obligations.UncorrectableSpanWritesNothing : Prop :=
  (∀ (s : State) (p : Port) (r : EngineRecord) (data : List Byte) (w first : Nat) (before after : List Nat),
    s.resetPin = false → s.arbiter.serving = some .span → s.engine.span = some ⟨p, data⟩ → (s.port p).record = some r →
    r.accessInStore = true → w ∈ r.reads → r.reads = before ++ first :: after →
    (∀ x ∈ before, x ≠ w ∧ s.store.condition x ≠ some .uncorrectable) →
    (first = w ∨ s.store.condition first = some .uncorrectable) →
    let b := s.port p
    let block := first / 512
    let handle : Handle :=
      match r.src, r.dst with
      | some a, some g => if a.firstBlock ≤ block ∧ block < a.firstBlock + a.blockCount then a.handle else g.handle
      | some a, none => a.handle
      | none, some g => g.handle
      | none, none => 0
    let d : FaultDetail := ⟨.storeEcc, handle, some (r.row, r.col), some block⟩
    ∃ t v, exec (.spanUncorrectable w) s = .next v ∧ exec .spanBegin t = .next v ∧
      t = { s with
        ports := s.ports.set p (t.port p)
        store := { s.store with flips := t.store.flips }
        engine := { s.engine with span := none }
        arbiter := { s.arbiter with serving := none } } ∧
      (∀ x, t.store.condition x = if x = w then some .uncorrectable else s.store.condition x) ∧
      t.port p = { b with
        link := { b.link with reserved := if r.spanSlot then b.link.reserved - 1 else b.link.reserved }
        record := none
        queue := { b.queue with report := some (if r.stopMark then .stopped (.uncorrectable d) else .uncorrectable d) } }) ∧
  (∀ (s : State) (p : Port) (r : EngineRecord) (data : List Byte) (w : Nat) (ws : List Nat),
    s.resetPin = false → s.arbiter.serving = some .span → s.engine.span = some ⟨p, data⟩ → (s.port p).record = some r →
    r.accessInStore = false →
    exec (.spanUncorrectable w) s = .fault .storeAddressOutside ∧ exec (.spanComplete ws) s = .fault .storeAddressOutside)

/-- DATA_TIMEOUT_EXPIRY and READ_STALL_EXPIRY (R124 to R126): of an ACTIVE WRITE whose held bytes do not cover its next span,
or an ACTIVE READ without a slot, with no span of its own in progress: the record is removed, and the engine reports "timed
out" with the kind, the canvas and the progress. A job that is not short, or has a span in progress, has no expiry. That the
time left passes first, for every timer of the part, is the model's choice (log 6). -/
def Obligations.StreamTimersExpire : Prop :=
  ∀ (s : State) (p : Port) (r : EngineRecord) (g : Geo) (left : Nat), s.resetPin = false → (s.port p).record = some r →
    r.timer = some left →
    let b := s.port p
    let noSpan := ∀ x, s.engine.span = some x → x.port ≠ p
    let u := s.elapse left
    let expired : FaultKind → State := fun kind =>
      u.setPort p { u.port p with
        record := none
        queue := { (u.port p).queue with report := some (.timedOut ⟨kind, g.handle, some (r.row, r.col), none⟩) } }
    (r.job.kind = .write → r.dst = some g →
      let short := b.staging.held.length < g.format.rowBytes r.spanPixels
      (noSpan ∧ short → exec (.dataTimeoutExpiry p) s = .next (expired .dataTimeout)) ∧
      (¬ (noSpan ∧ short) → exec (.dataTimeoutExpiry p) s = .next s)) ∧
    (r.job.kind = .read → r.src = some g →
      let full := 8 ≤ b.link.used.length + b.link.reserved
      (noSpan ∧ full → exec (.readStallExpiry p) s = .next (expired .readStall)) ∧
      (¬ (noSpan ∧ full) → exec (.readStallExpiry p) s = .next s))

/-- The words of a span's access (R23, R107). It writes every word that holds a bit of the span's destination pixels; it
reads first every word that holds a bit of its source pixels, then, of the words it writes, all of them when the raster
function reads the destination, in a MOVE with a key colour and in an EXPAND without a background colour, and otherwise
those it writes only in part; each group in ascending order. Without a source or a destination canvas there are no such
words. -/
def Obligations.SpanAccessWords : Prop :=
  ∀ r : EngineRecord,
    let n := r.spanPixels
    let holds : Geo → Nat → Nat → Nat → Prop := fun g x y w => 0 < n ∧
      8 * g.rowBase y + x * g.format.bits < 64 * w + 64 ∧ 64 * w < 8 * g.rowBase y + (x + n) * g.format.bits
    let whole : Geo → Nat → Nat → Nat → Prop := fun g x y w =>
      8 * g.rowBase y + x * g.format.bits ≤ 64 * w ∧ 64 * w + 64 ≤ 8 * g.rowBase y + (x + n) * g.format.bits
    let readsOld : Prop :=
      match r.job with
      | .fill _ _ _ rop => rop ∉ [0, 3, 12, 15]
      | .move _ _ _ _ _ rop key => rop ∉ [0, 3, 12, 15] ∨ key ≠ none
      | .expand _ _ _ _ _ _ bg rop => rop ∉ [0, 3, 12, 15] ∨ bg = none
      | _ => False
    r.reads = r.srcWords ++ r.dstReads ∧
    r.srcWords.Pairwise (· < ·) ∧ r.dstWords.Pairwise (· < ·) ∧ r.dstReads.Pairwise (· < ·) ∧
    (r.src = none → r.srcWords = []) ∧ (r.dst = none → r.dstWords = [] ∧ r.dstReads = []) ∧
    (∀ g w, r.src = some g → g.pitch % 8 = 0 →
      (w ∈ r.srcWords ↔ holds g (r.job.srcOrigin.1 + r.spanLeft) (r.job.srcOrigin.2 + r.row) w)) ∧
    (∀ g w, r.dst = some g → g.pitch % 8 = 0 →
      let x := r.job.rect.x + r.spanLeft
      let y := r.job.rect.y + r.row
      (w ∈ r.dstWords ↔ holds g x y w) ∧
      (w ∈ r.dstReads ↔ w ∈ r.dstWords ∧ (readsOld ∨ ¬ whole g x y w)))

/-! ### What every step keeps -/

/-- Every step keeps the slots and buffers of the links within their bounds: used and reserved slots together at most 8
(R172), at most 4 frames taken (R166), and held bytes and promised room together at most 4096, with the promised room that of
the DAT frames taken and not yet processed (R117). -/
def Obligations.LinkBuffersStayInBounds : Prop :=
  ∀ s t : State, step s = .next t →
    (s.OutboundFits → t.OutboundFits) ∧ (s.InboundFits → t.InboundFits) ∧ (s.StagingFits → t.StagingFits)

/-- Every step keeps at most 16 entries in a queue, only the oldest WAITING or ACTIVE (R71), and, with that, no two claims of
different ports that conflict (R91). -/
def Obligations.QueuesAndClaimsStayOrdered : Prop :=
  ∀ s t : State, step s = .next t → (s.QueuesOrdered → t.QueuesOrdered) ∧ (s.ClaimsApart → t.ClaimsApart)

/-- Every step keeps the grants in their places (R37), the holdings of every port equal to those of its canvases and
within its quotas (R8), and the free block map in step with the canvas records, whose runs are disjoint (R28); and no
revoke or close outlives its last pin: a REVOKING grant and a CLOSING canvas always have pins (R9, R54). -/
def Obligations.CanvasTableStaysExact : Prop :=
  ∀ s t : State, step s = .next t →
    (s.GrantsPlaced → t.GrantsPlaced) ∧ (s.HoldingsExact → t.HoldingsExact) ∧ (s.BlocksExact → t.BlocksExact) ∧
    (s.GrantsPlaced → s.EndsTaken → t.EndsTaken)

/-- Every step keeps every pin accounted for: each port's pins on a canvas are its entries that hold one there, on
canvases that are LIVE or CLOSING (R9, R70), and the clear list names the CLEARING canvases, each once (R32). A queue that
has reported that it has stopped is empty (R87). -/
def Obligations.PinsStayExact : Prop :=
  ∀ s t : State, s.PinsExact → s.ClearListExact → s.ResettingPortsQuiet → step s = .next t →
    t.PinsExact ∧ t.ClearListExact

/-- Every step keeps the store in its canonical form and the check bits of every word written agreeing with its data (R22,
R27), the arrival list naming every PENDING fault record once (R130), an ATN
frame due only while attention is outstanding (R140), and every generation from 1 to 255 (R1). -/
def Obligations.StoreLogAndMarksStayConsistent : Prop :=
  ∀ s t : State, step s = .next t →
    (s.StoreCanonical → t.StoreCanonical) ∧ (s.store.ChecksAgree → t.store.ChecksAgree) ∧
    (s.faultLog.Consistent → t.faultLog.Consistent) ∧
    (s.DueOutstanding → t.DueOutstanding) ∧ (s.GenerationsValid → t.GenerationsValid)

/-- No command but power-on and the reset pin changes a canvas's owner, format, size, run, tag or fill while its slot is not
FREE (R7); the slot's generation stays while its state does or a canvas is opened in it, and advances by one exactly when the
slot goes to FREE (R2, R19, R20). -/
def Obligations.RecordsAreFixedUntilRelease : Prop :=
  ∀ (s t : State) (n : Nat), s.pending.head? ≠ some .powerOn → s.pending.head? ≠ some .resetPinAssert →
    s.pending.head? ≠ some .resetPinRelease → step s = .next t →
    (s.canvas n = none → (t.slot n).generation = (s.slot n).generation) ∧
    ∀ c, s.canvas n = some c →
      (t.canvas n = none ∧
        (t.slot n).generation = if (s.slot n).generation = 255 then 1 else (s.slot n).generation + 1) ∨
      ∃ d, t.canvas n = some d ∧ (t.slot n).generation = (s.slot n).generation ∧ d.owner = c.owner ∧
        d.format = c.format ∧ d.width = c.width ∧ d.height = c.height ∧ d.pitch = c.pitch ∧
        d.firstBlock = c.firstBlock ∧ d.blockCount = c.blockCount ∧ d.tag = c.tag ∧ d.fill = c.fill

/-- The state after reset meets every invariant the other statements keep. -/
def Obligations.ResetMeetsEveryInvariant : Prop :=
  let s := State.reset
  s.StoreCanonical ∧ s.store.ChecksAgree ∧ s.OutboundFits ∧ s.InboundFits ∧ s.StagingFits ∧ s.QueuesOrdered ∧ s.ClaimsApart ∧ s.GrantsPlaced ∧
  s.HoldingsExact ∧ s.BlocksExact ∧ s.PinsExact ∧ s.ClearListExact ∧ s.faultLog.Consistent ∧ s.DueOutstanding ∧
  s.GenerationsValid ∧ s.EndsTaken ∧ s.ResettingPortsQuiet
end

