-- ==== Sys2Proof/Laws/State.lean ====
section
/-! SUPPORT. What the updates of State and of its parts read as, field by field, so that no later proof unfolds a record
update. -/

namespace Sys2Proof.Machine

/-! ### Four of a kind -/

@[simp] theorem Quad.get_set_same {α : Type} (q : Quad α) (p : Port) (x : α) : (q.set p x).get p = x := by
  cases p <;> rfl

@[simp] theorem Quad.get_set_ne {α : Type} (q : Quad α) (p r : Port) (x : α) (h : r ≠ p) :
    (q.set p x).get r = q.get r := by
  cases p <;> cases r <;> first | rfl | exact absurd rfl h

theorem Quad.get_set {α : Type} (q : Quad α) (p r : Port) (x : α) :
    (q.set p x).get r = if r = p then x else q.get r := by
  cases p <;> cases r <;> rfl

@[simp] theorem Quad.get_all {α : Type} (x : α) (p : Port) : (Quad.all x).get p = x := by cases p <;> rfl

@[simp] theorem Quad.get_map {α β : Type} (f : α → β) (q : Quad α) (p : Port) : (q.map f).get p = f (q.get p) := by
  cases p <;> rfl

theorem Quad.ext_get {α : Type} (q r : Quad α) (h : ∀ p, q.get p = r.get p) : q = r := by
  cases q; cases r
  have h0 := h .p0; have h1 := h .p1; have h2 := h .p2; have h3 := h .p3
  simp only [Quad.get] at h0 h1 h2 h3
  simp only [h0, h1, h2, h3]

@[simp] theorem Quad.set_get {α : Type} (q : Quad α) (p : Port) : q.set p (q.get p) = q := by cases p <;> rfl

@[simp] theorem Quad.set_set {α : Type} (q : Quad α) (p : Port) (x y : α) : (q.set p x).set p y = q.set p y := by
  cases p <;> rfl

theorem Quad.set_comm {α : Type} (q : Quad α) (p r : Port) (x y : α) (h : p ≠ r) :
    (q.set p x).set r y = (q.set r y).set p x := by
  cases p <;> cases r <;> first | rfl | exact absurd rfl h

/-! ### The block of one port -/

@[simp] theorem State.port_setPort_same (s : State) (p : Port) (b : PortBlock) : (s.setPort p b).port p = b := by
  simp [State.port, State.setPort]

@[simp] theorem State.port_setPort_ne (s : State) (p r : Port) (b : PortBlock) (h : r ≠ p) :
    (s.setPort p b).port r = s.port r := by
  simp [State.port, State.setPort, h]

theorem State.port_setPort (s : State) (p r : Port) (b : PortBlock) :
    (s.setPort p b).port r = if r = p then b else s.port r := by
  simp [State.port, State.setPort, Quad.get_set]

@[simp] theorem State.port_modPort_same (s : State) (p : Port) (f : PortBlock → PortBlock) :
    (s.modPort p f).port p = f (s.port p) := by
  simp [State.modPort]

@[simp] theorem State.port_modPort_ne (s : State) (p r : Port) (f : PortBlock → PortBlock) (h : r ≠ p) :
    (s.modPort p f).port r = s.port r := by
  simp [State.modPort, h]

theorem State.port_modPort (s : State) (p r : Port) (f : PortBlock → PortBlock) :
    (s.modPort p f).port r = if r = p then f (s.port r) else s.port r := by
  unfold State.modPort
  rw [State.port_setPort]
  split <;> simp_all

@[simp] theorem State.setPort_port (s : State) (p : Port) : s.setPort p (s.port p) = s := by
  simp [State.port, State.setPort]

@[simp] theorem State.setPort_setPort (s : State) (p : Port) (a b : PortBlock) :
    (s.setPort p a).setPort p b = s.setPort p b := by
  simp [State.setPort]

@[simp] theorem State.modPort_modPort (s : State) (p : Port) (f g : PortBlock → PortBlock) :
    (s.modPort p f).modPort p g = s.modPort p fun b => g (f b) := by
  simp [State.modPort]

@[simp] theorem State.setPort_resetPin (s : State) (p : Port) (b : PortBlock) : (s.setPort p b).resetPin = s.resetPin := rfl
@[simp] theorem State.setPort_slots (s : State) (p : Port) (b : PortBlock) : (s.setPort p b).slots = s.slots := rfl
@[simp] theorem State.setPort_allocated (s : State) (p : Port) (b : PortBlock) : (s.setPort p b).allocated = s.allocated := rfl
@[simp] theorem State.setPort_clear (s : State) (p : Port) (b : PortBlock) : (s.setPort p b).clear = s.clear := rfl
@[simp] theorem State.setPort_store (s : State) (p : Port) (b : PortBlock) : (s.setPort p b).store = s.store := rfl
@[simp] theorem State.setPort_arbiter (s : State) (p : Port) (b : PortBlock) : (s.setPort p b).arbiter = s.arbiter := rfl
@[simp] theorem State.setPort_engine (s : State) (p : Port) (b : PortBlock) : (s.setPort p b).engine = s.engine := rfl
@[simp] theorem State.setPort_faultLog (s : State) (p : Port) (b : PortBlock) : (s.setPort p b).faultLog = s.faultLog := rfl
@[simp] theorem State.setPort_deviceResets (s : State) (p : Port) (b : PortBlock) : (s.setPort p b).deviceResets = s.deviceResets := rfl
@[simp] theorem State.setPort_pending (s : State) (p : Port) (b : PortBlock) : (s.setPort p b).pending = s.pending := rfl

@[simp] theorem State.modPort_resetPin (s : State) (p : Port) (f : PortBlock → PortBlock) : (s.modPort p f).resetPin = s.resetPin := rfl
@[simp] theorem State.modPort_slots (s : State) (p : Port) (f : PortBlock → PortBlock) : (s.modPort p f).slots = s.slots := rfl
@[simp] theorem State.modPort_allocated (s : State) (p : Port) (f : PortBlock → PortBlock) : (s.modPort p f).allocated = s.allocated := rfl
@[simp] theorem State.modPort_clear (s : State) (p : Port) (f : PortBlock → PortBlock) : (s.modPort p f).clear = s.clear := rfl
@[simp] theorem State.modPort_store (s : State) (p : Port) (f : PortBlock → PortBlock) : (s.modPort p f).store = s.store := rfl
@[simp] theorem State.modPort_arbiter (s : State) (p : Port) (f : PortBlock → PortBlock) : (s.modPort p f).arbiter = s.arbiter := rfl
@[simp] theorem State.modPort_engine (s : State) (p : Port) (f : PortBlock → PortBlock) : (s.modPort p f).engine = s.engine := rfl
@[simp] theorem State.modPort_faultLog (s : State) (p : Port) (f : PortBlock → PortBlock) : (s.modPort p f).faultLog = s.faultLog := rfl
@[simp] theorem State.modPort_deviceResets (s : State) (p : Port) (f : PortBlock → PortBlock) : (s.modPort p f).deviceResets = s.deviceResets := rfl
@[simp] theorem State.modPort_pending (s : State) (p : Port) (f : PortBlock → PortBlock) : (s.modPort p f).pending = s.pending := rfl

@[simp] theorem State.setPort_slot (s : State) (p : Port) (b : PortBlock) (n : Nat) : (s.setPort p b).slot n = s.slot n := by
  cases n <;> rfl

@[simp] theorem State.modPort_slot (s : State) (p : Port) (f : PortBlock → PortBlock) (n : Nat) :
    (s.modPort p f).slot n = s.slot n := by
  cases n <;> rfl

@[simp] theorem State.setPort_canvas (s : State) (p : Port) (b : PortBlock) (n : Nat) :
    (s.setPort p b).canvas n = s.canvas n := by
  simp [State.canvas]

@[simp] theorem State.modPort_canvas (s : State) (p : Port) (f : PortBlock → PortBlock) (n : Nat) :
    (s.modPort p f).canvas n = s.canvas n := by
  simp [State.canvas]

/-! ### The canvas table -/

@[simp] theorem State.setSlot_resetPin (s : State) (n : Nat) (x : Slot) : (s.setSlot n x).resetPin = s.resetPin := by
  cases n <;> rfl
@[simp] theorem State.setSlot_ports (s : State) (n : Nat) (x : Slot) : (s.setSlot n x).ports = s.ports := by
  cases n <;> rfl
@[simp] theorem State.setSlot_allocated (s : State) (n : Nat) (x : Slot) : (s.setSlot n x).allocated = s.allocated := by
  cases n <;> rfl
@[simp] theorem State.setSlot_clear (s : State) (n : Nat) (x : Slot) : (s.setSlot n x).clear = s.clear := by
  cases n <;> rfl
@[simp] theorem State.setSlot_store (s : State) (n : Nat) (x : Slot) : (s.setSlot n x).store = s.store := by
  cases n <;> rfl
@[simp] theorem State.setSlot_arbiter (s : State) (n : Nat) (x : Slot) : (s.setSlot n x).arbiter = s.arbiter := by
  cases n <;> rfl
@[simp] theorem State.setSlot_engine (s : State) (n : Nat) (x : Slot) : (s.setSlot n x).engine = s.engine := by
  cases n <;> rfl
@[simp] theorem State.setSlot_faultLog (s : State) (n : Nat) (x : Slot) : (s.setSlot n x).faultLog = s.faultLog := by
  cases n <;> rfl
@[simp] theorem State.setSlot_deviceResets (s : State) (n : Nat) (x : Slot) : (s.setSlot n x).deviceResets = s.deviceResets := by
  cases n <;> rfl
@[simp] theorem State.setSlot_pending (s : State) (n : Nat) (x : Slot) : (s.setSlot n x).pending = s.pending := by
  cases n <;> rfl

@[simp] theorem State.setSlot_port (s : State) (n : Nat) (x : Slot) (p : Port) : (s.setSlot n x).port p = s.port p := by
  simp [State.port]

/-- A slot that exists reads as what was last stored in it. -/
@[simp] theorem State.slot_setSlot_same (s : State) (n : Nat) (x : Slot) (h : 1 ≤ n) (h' : n ≤ 255) :
    (s.setSlot n x).slot n = x := by
  cases n with
  | zero => omega
  | succ k =>
    have hk : k < 255 := by omega
    simp [State.slot, State.setSlot, hk]

@[simp] theorem State.slot_setSlot_ne (s : State) (n m : Nat) (x : Slot) (h : m ≠ n) : (s.setSlot n x).slot m = s.slot m := by
  cases n with
  | zero => rfl
  | succ k =>
    cases m with
    | zero => rfl
    | succ j =>
      have hj : k ≠ j := by omega
      simp [State.slot, State.setSlot, hj]

/-- Only slots 1 to 255 hold anything (R1). -/
theorem State.slot_outside (s : State) (n : Nat) (h : n = 0 ∨ 255 < n) : s.slot n = ⟨0, none⟩ := by
  cases n with
  | zero => rfl
  | succ k =>
    have hk : ¬ k < 255 := by omega
    simp [State.slot, hk]

theorem State.canvas_bounds (s : State) (n : Nat) (c : Canvas) (h : s.canvas n = some c) : 1 ≤ n ∧ n ≤ 255 := by
  by_contra hn
  have : n = 0 ∨ 255 < n := by omega
  simp [State.canvas, State.slot_outside s n this] at h

theorem State.setSlot_outside (s : State) (n : Nat) (x : Slot) (h : n = 0 ∨ 255 < n) : s.setSlot n x = s := by
  cases n with
  | zero => rfl
  | succ k =>
    have hk : s.slots.setIfInBounds k x = s.slots := by
      apply Vector.ext
      intro i hi
      rw [Vector.getElem_setIfInBounds_ne]
      omega
    simp [State.setSlot, hk]

@[simp] theorem State.canvas_setSlot_ne (s : State) (n m : Nat) (x : Slot) (h : m ≠ n) :
    (s.setSlot n x).canvas m = s.canvas m := by
  simp [State.canvas, h]

@[simp] theorem State.canvas_setSlot_same (s : State) (n : Nat) (x : Slot) (h : 1 ≤ n) (h' : n ≤ 255) :
    (s.setSlot n x).canvas n = x.canvas := by
  simp [State.canvas, h, h']

@[simp] theorem State.setCanvas_resetPin (s : State) (n : Nat) (c : Canvas) : (s.setCanvas n c).resetPin = s.resetPin := by
  simp [State.setCanvas]
@[simp] theorem State.setCanvas_ports (s : State) (n : Nat) (c : Canvas) : (s.setCanvas n c).ports = s.ports := by
  simp [State.setCanvas]
@[simp] theorem State.setCanvas_allocated (s : State) (n : Nat) (c : Canvas) : (s.setCanvas n c).allocated = s.allocated := by
  simp [State.setCanvas]
@[simp] theorem State.setCanvas_clear (s : State) (n : Nat) (c : Canvas) : (s.setCanvas n c).clear = s.clear := by
  simp [State.setCanvas]
@[simp] theorem State.setCanvas_store (s : State) (n : Nat) (c : Canvas) : (s.setCanvas n c).store = s.store := by
  simp [State.setCanvas]
@[simp] theorem State.setCanvas_arbiter (s : State) (n : Nat) (c : Canvas) : (s.setCanvas n c).arbiter = s.arbiter := by
  simp [State.setCanvas]
@[simp] theorem State.setCanvas_engine (s : State) (n : Nat) (c : Canvas) : (s.setCanvas n c).engine = s.engine := by
  simp [State.setCanvas]
@[simp] theorem State.setCanvas_faultLog (s : State) (n : Nat) (c : Canvas) : (s.setCanvas n c).faultLog = s.faultLog := by
  simp [State.setCanvas]
@[simp] theorem State.setCanvas_deviceResets (s : State) (n : Nat) (c : Canvas) : (s.setCanvas n c).deviceResets = s.deviceResets := by
  simp [State.setCanvas]
@[simp] theorem State.setCanvas_pending (s : State) (n : Nat) (c : Canvas) : (s.setCanvas n c).pending = s.pending := by
  simp [State.setCanvas]

@[simp] theorem State.setCanvas_port (s : State) (n : Nat) (c : Canvas) (p : Port) : (s.setCanvas n c).port p = s.port p := by
  simp [State.setCanvas]

@[simp] theorem State.canvas_setCanvas_same (s : State) (n : Nat) (c d : Canvas) (h : s.canvas n = some d) :
    (s.setCanvas n c).canvas n = some c := by
  have hb := s.canvas_bounds n d h
  simp [State.setCanvas, hb.1, hb.2]

@[simp] theorem State.canvas_setCanvas_ne (s : State) (n m : Nat) (c : Canvas) (h : m ≠ n) :
    (s.setCanvas n c).canvas m = s.canvas m := by
  simp [State.setCanvas, h]

/-- A change of a canvas keeps every generation (R2). -/
@[simp] theorem State.setCanvas_generation (s : State) (n m : Nat) (c : Canvas) :
    ((s.setCanvas n c).slot m).generation = (s.slot m).generation := by
  by_cases hm : m = n
  · subst hm
    by_cases hb : 1 ≤ m ∧ m ≤ 255
    · simp [State.setCanvas, hb.1, hb.2]
    · have : m = 0 ∨ 255 < m := by omega
      simp [State.setCanvas, State.setSlot_outside _ _ _ this]
  · simp [State.setCanvas, hm]

@[simp] theorem State.modCanvas_resetPin (s : State) (n : Nat) (f : Canvas → Canvas) : (s.modCanvas n f).resetPin = s.resetPin := by
  unfold State.modCanvas; split <;> simp
@[simp] theorem State.modCanvas_ports (s : State) (n : Nat) (f : Canvas → Canvas) : (s.modCanvas n f).ports = s.ports := by
  unfold State.modCanvas; split <;> simp
@[simp] theorem State.modCanvas_allocated (s : State) (n : Nat) (f : Canvas → Canvas) : (s.modCanvas n f).allocated = s.allocated := by
  unfold State.modCanvas; split <;> simp
@[simp] theorem State.modCanvas_clear (s : State) (n : Nat) (f : Canvas → Canvas) : (s.modCanvas n f).clear = s.clear := by
  unfold State.modCanvas; split <;> simp
@[simp] theorem State.modCanvas_store (s : State) (n : Nat) (f : Canvas → Canvas) : (s.modCanvas n f).store = s.store := by
  unfold State.modCanvas; split <;> simp
@[simp] theorem State.modCanvas_arbiter (s : State) (n : Nat) (f : Canvas → Canvas) : (s.modCanvas n f).arbiter = s.arbiter := by
  unfold State.modCanvas; split <;> simp
@[simp] theorem State.modCanvas_engine (s : State) (n : Nat) (f : Canvas → Canvas) : (s.modCanvas n f).engine = s.engine := by
  unfold State.modCanvas; split <;> simp
@[simp] theorem State.modCanvas_faultLog (s : State) (n : Nat) (f : Canvas → Canvas) : (s.modCanvas n f).faultLog = s.faultLog := by
  unfold State.modCanvas; split <;> simp
@[simp] theorem State.modCanvas_deviceResets (s : State) (n : Nat) (f : Canvas → Canvas) : (s.modCanvas n f).deviceResets = s.deviceResets := by
  unfold State.modCanvas; split <;> simp
@[simp] theorem State.modCanvas_pending (s : State) (n : Nat) (f : Canvas → Canvas) : (s.modCanvas n f).pending = s.pending := by
  unfold State.modCanvas; split <;> simp

@[simp] theorem State.modCanvas_port (s : State) (n : Nat) (f : Canvas → Canvas) (p : Port) :
    (s.modCanvas n f).port p = s.port p := by
  simp [State.port]

theorem State.canvas_modCanvas (s : State) (n m : Nat) (f : Canvas → Canvas) :
    (s.modCanvas n f).canvas m = if m = n then (s.canvas m).map f else s.canvas m := by
  unfold State.modCanvas
  by_cases hm : m = n
  · subst hm
    cases hc : s.canvas m with
    | none => simp [hc]
    | some c => simp [s.canvas_setCanvas_same m (f c) c hc]
  · split <;> simp [hm]

@[simp] theorem State.modCanvas_generation (s : State) (n m : Nat) (f : Canvas → Canvas) :
    ((s.modCanvas n f).slot m).generation = (s.slot m).generation := by
  unfold State.modCanvas; split <;> simp

end Sys2Proof.Machine
end

