-- ==== Sys2Proof/Laws/Link.lean ====
section
/-! SUPPORT. What the operations of a link and of the request unit do: one lemma for each, cited in place of unfolding. -/

namespace Sys2Proof.Machine

/-! ### Slots (R172) -/

theorem Link.freeSlots_eq_zero (l : Link) : l.freeSlots = 0 ↔ 8 ≤ l.used.length + l.reserved := by
  simp only [Link.freeSlots, Config.outboundSlots]; omega

theorem Link.reserve_of_free (l : Link) (h : l.used.length + l.reserved < 8) :
    l.reserve = { l with reserved := l.reserved + 1 } := by
  have : l.freeSlots ≠ 0 := by rw [Ne, Link.freeSlots_eq_zero]; omega
  simp [Link.reserve, this]

theorem Link.enqueue_eq_placed (l : Link) (c : OutClass) (m : List Byte) : l.enqueue c m = l.placed c m := rfl

theorem Link.fill_of_reserved (l : Link) (c : OutClass) (m : List Byte) (h : 0 < l.reserved) :
    l.fill c m = l.placedReserved c m := by
  simp [Link.fill, Nat.ne_of_gt h, Link.placedReserved, Link.enqueue_eq_placed]

theorem Link.placeFree_of_free (l : Link) (c : OutClass) (m : List Byte) (h : l.used.length + l.reserved < 8) :
    l.placeFree c m = l.placed c m := by
  have : l.freeSlots ≠ 0 := by rw [Ne, Link.freeSlots_eq_zero]; omega
  simp [Link.placeFree, this, Link.enqueue_eq_placed]

/-- A frame placed where a slot has just been reserved stands like one placed in a free slot. -/
theorem Link.fill_reserve_of_free (l : Link) (c : OutClass) (m : List Byte) (h : l.used.length + l.reserved < 8) :
    l.reserve.fill c m = l.placed c m := by
  rw [l.reserve_of_free h, Link.fill_of_reserved _ _ _ (by simp)]
  simp [Link.placedReserved, Link.placed]

theorem Link.release_reserve_of_free (l : Link) (h : l.used.length + l.reserved < 8) : l.reserve.release = l := by
  rw [l.reserve_of_free h]; simp [Link.release]

/-- No slot operation makes more than 8 slots used or reserved (R172). -/
theorem Link.fits_reserve (l : Link) (h : l.used.length + l.reserved ≤ 8) :
    l.reserve.used.length + l.reserve.reserved ≤ 8 := by
  unfold Link.reserve; split
  · exact h
  · next hf => rw [Link.freeSlots_eq_zero] at hf; simp; omega

theorem Link.fits_fill (l : Link) (c : OutClass) (m : List Byte) (h : l.used.length + l.reserved ≤ 8) :
    (l.fill c m).used.length + (l.fill c m).reserved ≤ 8 := by
  unfold Link.fill Link.enqueue; split
  · exact h
  · simp; omega

theorem Link.fits_placeFree (l : Link) (c : OutClass) (m : List Byte) (h : l.used.length + l.reserved ≤ 8) :
    (l.placeFree c m).used.length + (l.placeFree c m).reserved ≤ 8 := by
  unfold Link.placeFree Link.enqueue; split
  · exact h
  · next hf => rw [Link.freeSlots_eq_zero] at hf; simp; omega

/-! ### Replies (R184) -/

theorem PortBlock.reply_eq_answered (b : PortBlock) (payload : List Byte) (st : Status) (contents : List Byte)
    (h : 0 < b.link.reserved) :
    b.reply (byteAt payload 0) st (reqId payload) contents = b.answered payload st.code contents := by
  have h2 : BitVec.ofNat 8 (num16 payload 2 % 65536) = byteAt payload 2 := by
    apply BitVec.eq_of_toNat_eq
    have := (byteAt payload 2).isLt
    have := (byteAt payload 3).isLt
    simp [num16, num8]; omega
  have h3 : BitVec.ofNat 8 (num16 payload 2 % 65536 / 256) = byteAt payload 3 := by
    apply BitVec.eq_of_toNat_eq
    have := (byteAt payload 2).isLt
    have := (byteAt payload 3).isLt
    simp [num16, num8]; omega
  simp [PortBlock.reply, PortBlock.answered, Link.fill_of_reserved _ _ _ h, replyPayload, enc8, enc16, reqId, h2, h3]

theorem State.reply_eq_answered (s : State) (p : Port) (payload : List Byte) (st : Status) (contents : List Byte)
    (h : 0 < (s.port p).link.reserved) :
    s.reply p payload st contents = s.setPort p ((s.port p).answered payload st.code contents) := by
  simp [State.reply, State.modPort, PortBlock.reply_eq_answered _ _ _ _ h]

theorem State.refuse_eq_answered (s : State) (p : Port) (payload : List Byte) (st : Status)
    (h : 0 < (s.port p).link.reserved) :
    s.refuse p payload st = s.setPort p ((s.port p).answered payload st.code []) := s.reply_eq_answered p payload st [] h

theorem State.defer_eq_putOff (s : State) (p : Port) (payload : List Byte) :
    s.defer p payload = s.setPort p ((s.port p).putOff payload) := rfl

/-! ### The frame a row processes (R181) -/

/-- A row of the request unit processes the oldest frame when it is one of the row's. -/
theorem State.process_of_oldest (s : State) (p : Port) (cls : InClass) (payload : List Byte) (rest : List InFrame)
    (row : StreamRow) (f : List Byte → State → State) (h : s.Oldest p cls payload rest)
    (hr : (InFrame.mk cls payload).row = row) :
    s.process p row f = .next (f payload (s.setPort p ((s.port p).took rest))) := by
  unfold State.process State.takeFrame
  simp [State.unlessHeld, h.1, h.2, hr, State.modPort, PortBlock.took]

/-- A request of a kind other than HELLO and PORT-SET belongs to that kind's row. -/
theorem InFrame.row_request (payload : List Byte) (k : ReqKind) (h : IsRequest payload k.code) (h1 : k ≠ .hello)
    (h2 : k ≠ .portSet) : (InFrame.mk .req payload).row = .request k := by
  obtain ⟨h3, h4⟩ := h
  have hk : ReqKind.ofCode k.code = some k := by cases k <;> rfl
  have : ¬ payload.length < 4 := by omega
  unfold InFrame.row
  simp only [h4, hk]
  cases k <;> simp_all

theorem InFrame.row_hello (payload : List Byte) (h : num8 payload 0 = 0x01) :
    (InFrame.mk .req payload).row = if num8 payload 4 = 0x02 then .helloResume else .helloFresh := by
  have : ReqKind.ofCode 0x01 = some .hello := rfl
  simp [InFrame.row, h, this]

theorem InFrame.row_portSet (payload : List Byte) (h : IsRequest payload 0x02) :
    (InFrame.mk .req payload).row = if num8 payload 5 = 0x02 then .portSetDisable else .portSetEnable := by
  obtain ⟨h3, h4⟩ := h
  have hk : ReqKind.ofCode 0x02 = some .portSet := rfl
  have : ¬ payload.length < 4 := by omega
  simp [InFrame.row, h4, hk, this]

theorem InFrame.row_dat (payload : List Byte) : (InFrame.mk .dat payload).row = .dat := rfl

@[simp] theorem PortBlock.took_link (b : PortBlock) (rest : List InFrame) :
    (b.took rest).link = { b.link with inbound := rest } := rfl

end Sys2Proof.Machine
end

