-- ==== Sys2Proof/Laws/Ops.lean ====
section
/-! SUPPORT. What the shared operations of Machine/Ops.lean do: for each, one lemma that says what it changes and what it
leaves, cited in place of unfolding. -/

namespace Sys2Proof.Machine

/-! ### Canvases and handles (R1 to R3) -/

/-- A handle that is not stale names the canvas of its slot, known to hosts, and is that slot's handle (R2, R3). -/
theorem State.lookup_some (s : State) (h : Handle) (c : Canvas) (hl : s.lookup h = some c) :
    s.canvas (handleSlot h) = some c ∧ c.phase.known = true ∧ (s.slot (handleSlot h)).generation = handleGen h ∧
      s.handle (handleSlot h) = h := by
  unfold State.lookup at hl
  split at hl
  · simp at hl
  · next hg =>
    split at hl
    · simp at hl
    · next d hd =>
      split at hl
      · next hk =>
        simp only [Option.some.injEq] at hl
        subst hl
        simp only [Bool.or_eq_true, decide_eq_true_eq, bne_iff_ne, ne_eq, not_or, Decidable.not_not] at hg
        refine ⟨hd, hk, hg.2.symm, ?_⟩
        unfold State.handle handleOf
        rw [← hg.2]
        unfold handleGen handleSlot
        apply BitVec.eq_of_toNat_eq
        have hlt := h.isLt
        have h1 : h.toNat % 256 < 2 ^ 8 := by omega
        rw [BitVec.toNat_append, BitVec.toNat_ofNat, BitVec.toNat_ofNat, Nat.mod_eq_of_lt (by omega : h.toNat / 256 < 2 ^ 8),
          Nat.mod_eq_of_lt h1, ← Nat.shiftLeft_add_eq_or_of_lt h1, Nat.shiftLeft_eq]
        omega
      · simp at hl

theorem State.lookup_congr (s t : State) (h : Handle) (hs : s.slots = t.slots) : s.lookup h = t.lookup h := by
  simp [State.lookup, State.canvas, State.slot, hs]

theorem State.canvas_congr (s t : State) (n : Nat) (hs : s.slots = t.slots) : s.canvas n = t.canvas n := by
  simp [State.canvas, State.slot, hs]

@[simp] theorem State.lookup_setPort (s : State) (p : Port) (b : PortBlock) (h : Handle) :
    (s.setPort p b).lookup h = s.lookup h := by
  simp [State.lookup]

@[simp] theorem State.lookup_modPort (s : State) (p : Port) (f : PortBlock → PortBlock) (h : Handle) :
    (s.modPort p f).lookup h = s.lookup h := by
  simp [State.lookup]

/-- A grant that is found belongs to the port asked for and stands in the list. -/
theorem Canvas.grantTo_some (c : Canvas) (p : Port) (g : Grant) (h : c.grantTo p = some g) : g ∈ c.grants ∧ g.port = p := by
  unfold Canvas.grantTo at h
  exact ⟨List.mem_of_find?_eq_some h, by simpa using List.find?_some h⟩

/-! ### Pins (R9, R70) -/

/-- A change of pins touches the canvas table alone, and there only pin counts. -/
theorem State.modCanvas_eq (s : State) (n : Nat) (f : Canvas → Canvas) :
    s.modCanvas n f = { s with slots := (s.modCanvas n f).slots } := by
  simp only [State.modCanvas]
  split
  · rfl
  · simp only [State.setCanvas, State.setSlot]; split <;> rfl

theorem State.modCanvas_slots_congr (s t : State) (h : s.slots = t.slots) (n : Nat) (f : Canvas → Canvas) :
    (s.modCanvas n f).slots = (t.modCanvas n f).slots := by
  have h1 : s.canvas n = t.canvas n := s.canvas_congr t n h
  have h2 : s.slot n = t.slot n := by simp [State.slot, h]
  simp only [State.modCanvas, h1]
  split
  · exact h
  · simp only [State.setCanvas, State.setSlot, h2]
    split
    · exact h
    · simp [h]

/-- Taking and dropping pins keeps all of a canvas but its pin counts. -/
theorem Canvas.modPins_fixed (c : Canvas) (p : Port) (f : Nat → Nat) :
    ∃ pins grants, c.modPins p f = { c with ownerPins := pins, grants := grants } ∧
      grants.map (fun g => (g.port, g.rights, g.revoke)) = c.grants.map (fun g => (g.port, g.rights, g.revoke)) := by
  unfold Canvas.modPins
  split
  · exact ⟨_, _, rfl, rfl⟩
  · refine ⟨_, _, rfl, ?_⟩
    rw [List.map_map]
    apply List.map_congr_left
    intro g _
    simp only [Function.comp]
    split <;> rfl

/-! ### Release (R10) -/

/-- A release frees the run, lowers the owner's holdings, and leaves the slot FREE at its next generation. -/
theorem State.release_eq (s : State) (n : Nat) (c : Canvas) (h : s.canvas n = some c) :
    s.release n = ({ s with allocated := freeRun s.allocated c.firstBlock c.blockCount }.modPort c.owner fun b =>
      { b with canvasesHeld := b.canvasesHeld - 1, blocksHeld := b.blocksHeld - c.blockCount }).setSlot n
        ⟨nextGeneration (s.slot n).generation, none⟩ := by
  have hs : ∀ a : BitVec 4096, ({ s with allocated := a } : State).slot n = s.slot n := by intro a; cases n <;> rfl
  simp [State.release, h, hs]

theorem State.release_none (s : State) (n : Nat) (h : s.canvas n = none) : s.release n = s := by
  simp [State.release, h]

/-! ### Attention (R139 to R141) -/

/-- Setting a flag changes the attention unit and, when a frame is placed, the outbound list; nothing else of the port. -/
theorem PortBlock.raise_eq (b : PortBlock) (k : Flag) : b.raise k = { b with attn := (b.raise k).attn, link := (b.raise k).link } := by
  unfold PortBlock.raise
  split
  · rfl
  · dsimp only; split
    · rfl
    · split <;> rfl

/-- The slots a port uses and reserves stay within the 8 when a flag is set (R172). -/
theorem PortBlock.raise_fits (b : PortBlock) (k : Flag) (h : b.link.used.length + b.link.reserved ≤ 8) :
    (b.raise k).link.used.length + (b.raise k).link.reserved ≤ 8 := by
  unfold PortBlock.raise
  split
  · exact h
  · dsimp only; split
    · exact h
    · split
      · exact Link.fits_placeFree _ _ _ h
      · exact h

/-- A due frame comes only with an outstanding mark (R140). -/
theorem PortBlock.raise_due (b : PortBlock) (k : Flag) (h : b.attn.due = true → b.attn.outstanding = true) :
    (b.raise k).attn.due = true → (b.raise k).attn.outstanding = true := by
  unfold PortBlock.raise
  split
  · exact h
  · dsimp only; split
    · exact h
    · split <;> simp_all

/-! ### Answers (R184) -/

/-- An answer changes the deferred entries and the outbound list of its port alone. -/
theorem PortBlock.answer_eq (b : PortBlock) (id : ReqId) (contents : List Byte) :
    b.answer id contents = { b with deferred := (b.answer id contents).deferred, link := (b.answer id contents).link } := by
  unfold PortBlock.answer
  split <;> rfl

theorem PortBlock.answerAll_eq (b : PortBlock) (ids : List ReqId) (contents : List Byte) :
    b.answerAll ids contents =
      { b with deferred := (b.answerAll ids contents).deferred, link := (b.answerAll ids contents).link } := by
  induction ids generalizing b with
  | nil => rfl
  | cons id t ih =>
    simp only [PortBlock.answerAll, List.foldl_cons] at *
    rw [ih (b.answer id contents)]
    unfold PortBlock.answer
    split <;> rfl

/-- The answer to a request that a port's stream remembers goes into its reserved slot, with the kind remembered. -/
theorem PortBlock.answer_of_deferred (b : PortBlock) (id : ReqId) (contents : List Byte) (d : Deferred)
    (h : (b.deferred.find? fun x => x.id == id) = some d) (hr : 0 < b.link.reserved) :
    b.answer id contents = { b with
      deferred := b.deferred.erase d, link := b.link.placedReserved .rep (replyPayload d.kind .ok id contents) } := by
  simp [PortBlock.answer, h, PortBlock.reply, Link.fill_of_reserved _ _ _ hr]

/-- The answers to waiting requests change the port blocks alone. -/
theorem State.answerWaiters_eq (s : State) (ws : List Waiter) (contents : List Byte) :
    s.answerWaiters ws contents = { s with ports := (s.answerWaiters ws contents).ports } := by
  induction ws generalizing s with
  | nil => rfl
  | cons w t ih =>
    simp only [State.answerWaiters, List.foldl_cons] at *
    rw [ih (s.modPort w.port _)]
    rfl

@[simp] theorem State.answerWaiters_slot (s : State) (ws : List Waiter) (contents : List Byte) (n : Nat) :
    (s.answerWaiters ws contents).slot n = s.slot n := by
  rw [State.answerWaiters_eq]; cases n <;> rfl

@[simp] theorem State.answerWaiters_canvas (s : State) (ws : List Waiter) (contents : List Byte) (n : Nat) :
    (s.answerWaiters ws contents).canvas n = s.canvas n := by
  simp [State.canvas]

/-! ### Staging (R118, R123) -/

/-- A change of the queue's entries reaches the staging buffer alone. -/
theorem PortBlock.refreshStaging_eq (b : PortBlock) : b.refreshStaging = { b with staging := b.refreshStaging.staging } := by
  unfold PortBlock.refreshStaging
  split
  · split <;> rfl
  · rfl

/-- It keeps the promised room and never adds held bytes (R117, R123). -/
theorem PortBlock.refreshStaging_room (b : PortBlock) :
    b.refreshStaging.staging.promised = b.staging.promised ∧
      b.refreshStaging.staging.held.length ≤ b.staging.held.length := by
  unfold PortBlock.refreshStaging
  split
  · split <;> simp
  · simp

/-! ### Cuts (R46, R112) -/

/-- A cut keeps an entry's sequence, job, notify option and received count, and never makes a QUEUED entry WAITING or
ACTIVE (R46). -/
theorem Entry.cutBy_fixed (e : Entry) (h : Handle) :
    (e.cutBy h).1.seq = e.seq ∧ (e.cutBy h).1.job = e.job ∧ (e.cutBy h).1.notify = e.notify ∧
      (e.cutBy h).1.received = e.received ∧ (e.isQueued = true → (e.cutBy h).1.isQueued = true) := by
  unfold Entry.cutBy
  split
  · cases hs : e.state with
    | queued b => cases b <;> simp [Entry.isQueued, hs]
    | waiting n => simp [Entry.isQueued, hs]
    | active c => simp [Entry.isQueued, hs]
  · simp

/-- A stop request changes the record and the report alone (R112). -/
theorem PortBlock.stopRequest_eq (b : PortBlock) (busy : Bool) :
    b.stopRequest busy = { b with
      record := (b.stopRequest busy).record
      queue := { b.queue with report := (b.stopRequest busy).queue.report } } := by
  unfold PortBlock.stopRequest
  split
  · rfl
  · split <;> rfl

/-! ### Claims (R91, R92) -/

/-- A claim of a port is granted only when no claim present of another port conflicts with it (R91). -/
theorem State.firstConflict_none (s : State) (p : Port) (cs : List Claim) (h : s.firstConflict p cs = none) :
    ∀ c ∈ cs, ∀ d ∈ s.othersClaims p, c.conflicts d = false := by
  intro c hc d hd
  have := List.find?_eq_none.1 h c hc
  simp only [List.any_eq_true, not_exists, not_and, Bool.not_eq_true] at this
  exact this d hd

theorem State.mem_othersClaims (s : State) (p : Port) (d : Claim) :
    d ∈ s.othersClaims p ↔ ∃ q, q ≠ p ∧ d ∈ (s.port q).claims := by
  unfold State.othersClaims
  simp only [List.mem_flatMap]
  constructor
  · rintro ⟨q, hq, hd⟩
    refine ⟨q, ?_, hd⟩
    cases p <;> cases q <;> simp_all [Port.roundAfter, Port.after]
  · rintro ⟨q, hq, hd⟩
    refine ⟨q, ?_, hd⟩
    cases p <;> cases q <;> simp_all [Port.roundAfter, Port.after]

/-- A request that is tested either stands as it was, or is granted: the claims are added, the head is ACTIVE and the
engine has its record (R75, R91). -/
theorem State.tryGrant_cases (s : State) (p : Port) :
    s.tryGrant p = s ∨
    ∃ cs e rest, (s.port p).request = some cs ∧ (s.port p).queue.entries = e :: rest ∧ e.isWaiting = true ∧
      s.firstConflict p cs = none ∧
      s.tryGrant p = s.setPort p { s.port p with
        claims := cs
        request := none
        record := some (s.takeUp p e)
        queue := { (s.port p).queue with entries := { e with state := .active ⟨false, false, false⟩ } :: rest } } := by
  unfold State.tryGrant
  split
  · next cs e rest hr he =>
    split
    · next hg =>
      simp only [Bool.and_eq_true, Option.isNone_iff_eq_none] at hg
      exact .inr ⟨cs, e, rest, hr, he, hg.1, hg.2, rfl⟩
    · exact .inl rfl
  · exact .inl rfl

/-! ### Fault log (R132, R133) -/

/-- The record chosen is FREE, and every one below it is PENDING (R132). -/
theorem FaultLog.firstFree_some (l : FaultLog) (i : Nat) (h : l.firstFree = some i) :
    i < 12 ∧ l.record i = none ∧ ∀ j, j < i → l.record j ≠ none := by
  unfold FaultLog.firstFree at h
  rw [List.find?_range_eq_some] at h
  obtain ⟨h1, h2, h3⟩ := h
  refine ⟨by simpa using h2, by simpa [FaultLog.record] using h1, fun j hj => ?_⟩
  have := h3 j hj
  simp only [FaultLog.record]
  intro hn
  simp [hn] at this

/-- Without a choice every record is PENDING (R133). -/
theorem FaultLog.firstFree_none (l : FaultLog) (h : l.firstFree = none) : ∀ i, i < 12 → l.record i ≠ none := by
  intro i hi
  unfold FaultLog.firstFree at h
  have := List.find?_eq_none.1 h i (by simpa using hi)
  simpa [FaultLog.record] using this

theorem FaultLog.record_log (l : FaultLog) (i j : Nat) (p : Port) (q : Nat) (k : JobKind) (d : FaultDetail) (h : i < 12) :
    (l.log i p q k d).record j = if j = i then some ⟨nextSerial l.serial, p, q, k, d⟩ else l.record j := by
  by_cases hj : j = i
  · subst hj; simp [FaultLog.record, FaultLog.log, h]
  · have hij : i ≠ j := fun e => hj e.symm
    simp [FaultLog.record, FaultLog.log, hj, hij]

theorem FaultLog.record_free (l : FaultLog) (i j : Nat) : (l.free i).record j = if j = i then none else l.record j := by
  by_cases hj : j = i
  · subst hj
    by_cases h : j < 12
    · simp [FaultLog.record, FaultLog.free, h]
    · simp [FaultLog.record, FaultLog.free, h]
  · have hij : i ≠ j := fun e => hj e.symm
    simp [FaultLog.record, FaultLog.free, hj, hij]

/-! ### Time -/

/-- The passing of time, port by port. -/
theorem State.elapse_port (s : State) (ms : Nat) (p : Port) :
    (s.elapse ms).port p = (s.port p).elapse ms (s.spanBusy p) := by
  cases p <;> rfl

/-- The passing of time, slot by slot. -/
theorem State.elapse_slot (s : State) (ms n : Nat) : (s.elapse ms).slot n = Slot.elapse ms (s.slot n) := by
  cases n with
  | zero => rfl
  | succ k =>
    simp only [State.slot, State.elapse]
    by_cases hk : k < 255
    · simp [hk]
    · simp [hk, Slot.elapse]

/-- Time changes the port blocks and the canvas table alone. -/
theorem State.elapse_eq (s : State) (ms : Nat) :
    s.elapse ms = { s with ports := (s.elapse ms).ports, slots := (s.elapse ms).slots } := rfl

end Sys2Proof.Machine
end

