-- ==== Sys2Proof/Laws/Ends.lean ====
section
/-! SUPPORT. What an unpin does: one lemma that says which of three things it comes to (R45, R53, R54), and one that says
what the ends of revokes and closes reach beyond the canvas table: replies, flags and holdings. -/

namespace Sys2Proof.Machine

/-- From `s` to `t` nothing changed but the canvas table, the free map and, in each port, the outbound list, the deferred
entries, the attention unit and the holdings. -/
def State.OnlyEnds (s t : State) : Prop :=
  t = { s with ports := t.ports, slots := t.slots, allocated := t.allocated } ∧
  ∀ q, t.port q = { s.port q with
    link := (t.port q).link
    deferred := (t.port q).deferred
    attn := (t.port q).attn
    canvasesHeld := (t.port q).canvasesHeld
    blocksHeld := (t.port q).blocksHeld }

theorem State.OnlyEnds.refl (s : State) : s.OnlyEnds s := ⟨rfl, fun _ => rfl⟩

theorem State.OnlyEnds.trans {s t u : State} (h : s.OnlyEnds t) (k : t.OnlyEnds u) : s.OnlyEnds u := by
  obtain ⟨h1, h2⟩ := h
  obtain ⟨k1, k2⟩ := k
  refine ⟨?_, fun q => ?_⟩
  · rw [k1, h1]
  · rw [k2 q, h2 q]

/-- A step that ends changes one port's block in the parts named is such a change. -/
theorem State.onlyEnds_modPort (s : State) (p : Port) (f : PortBlock → PortBlock)
    (h : ∀ b, f b = { b with
      link := (f b).link, deferred := (f b).deferred, attn := (f b).attn
      canvasesHeld := (f b).canvasesHeld, blocksHeld := (f b).blocksHeld }) : s.OnlyEnds (s.modPort p f) := by
  refine ⟨rfl, fun q => ?_⟩
  rw [State.port_modPort]
  split
  · exact h _
  · rfl

theorem State.onlyEnds_setSlot (s : State) (n : Nat) (x : Slot) : s.OnlyEnds (s.setSlot n x) := by
  cases n <;> exact ⟨rfl, fun _ => rfl⟩

theorem State.onlyEnds_modCanvas (s : State) (n : Nat) (f : Canvas → Canvas) : s.OnlyEnds (s.modCanvas n f) := by
  unfold State.modCanvas
  split
  · exact .refl s
  · exact s.onlyEnds_setSlot _ _

theorem State.onlyEnds_foldl {α : Type} (f : State → α → State) (h : ∀ (s : State) (a : α), s.OnlyEnds (f s a)) (xs : List α) (s : State) :
    s.OnlyEnds (xs.foldl f s) := by
  induction xs generalizing s with
  | nil => exact .refl s
  | cons a t ih => exact (h s a).trans (ih _)

theorem State.onlyEnds_answerWaiters (s : State) (ws : List Waiter) (m : List Byte) : s.OnlyEnds (s.answerWaiters ws m) := by
  unfold State.answerWaiters
  refine State.onlyEnds_foldl _ (fun s w => State.onlyEnds_modPort s w.port _ fun b => ?_) ws s
  rw [PortBlock.answer_eq]

theorem State.onlyEnds_raise (s : State) (p : Port) (k : Flag) : s.OnlyEnds (s.modPort p fun b => b.raise k) :=
  s.onlyEnds_modPort p (fun b => b.raise k) fun b => by rw [PortBlock.raise_eq]

theorem State.onlyEnds_release (s : State) (n : Nat) : s.OnlyEnds (s.release n) := by
  cases hc : s.canvas n with
  | none => rw [s.release_none n hc]; exact .refl s
  | some c =>
    rw [s.release_eq n c hc]
    refine (State.OnlyEnds.trans ?_ (State.onlyEnds_modPort _ _ _ fun b => rfl)).trans (State.onlyEnds_setSlot _ _ _)
    exact ⟨rfl, fun _ => rfl⟩

/-- The end of a revoke (R45) reaches replies and flags, and the grant list. -/
theorem State.onlyEnds_endRevoke (s : State) (n : Nat) (p : Port) : s.OnlyEnds (s.endRevoke n p) := by
  unfold State.endRevoke
  split
  · exact .refl s
  · split
    · exact .refl s
    · split
      · exact .refl s
      · exact ((s.onlyEnds_setSlot _ _).trans (State.onlyEnds_answerWaiters _ _ _)).trans (State.onlyEnds_raise _ _ _)

/-- The end of a close (R53) reaches replies, flags, holdings, the canvas table and the free map. -/
theorem State.onlyEnds_endClose (s : State) (n : Nat) (op : CloseOp) : s.OnlyEnds (s.endClose n op) := by
  unfold State.endClose
  split
  · exact .refl s
  · next c _ =>
    refine State.OnlyEnds.trans ?_ (State.onlyEnds_release _ n)
    have h (u : State) : u.OnlyEnds (if op.forced then u.modPort c.owner fun b => b.raise .canvasLost else u) := by
      split
      · exact State.onlyEnds_raise _ _ _
      · exact .refl u
    refine State.OnlyEnds.trans ?_ (h _)
    refine State.OnlyEnds.trans ?_ (State.onlyEnds_answerWaiters _ _ _)
    refine State.OnlyEnds.trans ?_ (State.onlyEnds_foldl _ (fun s (g : Grant) => State.onlyEnds_raise s g.port .grantLost) _ _)
    refine State.OnlyEnds.trans ?_ (State.onlyEnds_setSlot _ _ _)
    refine State.onlyEnds_foldl _ (fun s g => ?_) _ _
    unfold State.answerRevoke
    split
    · exact .refl s
    · exact State.onlyEnds_answerWaiters _ _ _

/-- What the pins of a port on a slot bring about: the end of the close, or else the end of the revoke, or else nothing
(R45, R53, R54). -/
theorem State.settle_cases (s : State) (n : Nat) (p : Port) :
    (∃ c op, s.canvas n = some c ∧ c.closeDue = some op ∧ s.settle n p = s.endClose n op) ∨
    (∃ c, s.canvas n = some c ∧ c.closeDue = none ∧ c.revokeDue p = true ∧ s.settle n p = s.endRevoke n p) ∨
    s.settle n p = s ∧ ∀ c, s.canvas n = some c → c.closeDue = none ∧ c.revokeDue p = false := by
  unfold State.settle
  split
  · next h => exact .inr (.inr ⟨rfl, by simp [h]⟩)
  · next c hc =>
    split
    · next op ho => exact .inl ⟨c, op, hc, ho, rfl⟩
    · next ho =>
      split
      · next hr => exact .inr (.inl ⟨c, hc, ho, hr, rfl⟩)
      · next hr => exact .inr (.inr ⟨rfl, fun d hd => by simp_all⟩)

theorem State.onlyEnds_settle (s : State) (n : Nat) (p : Port) : s.OnlyEnds (s.settle n p) := by
  obtain ⟨_, op, _, _, h⟩ | ⟨_, _, _, _, h⟩ | ⟨h, _⟩ := s.settle_cases n p <;> rw [h]
  · exact s.onlyEnds_endClose n op
  · exact s.onlyEnds_endRevoke n p
  · exact .refl s

/-- Dropping pins, with the ends it brings, reaches nothing else (R9, R46, R70). -/
theorem State.onlyEnds_unpinAll (s : State) (p : Port) (hs : List Handle) : s.OnlyEnds (s.unpinAll p hs) :=
  State.onlyEnds_foldl _ (fun s _ => (s.onlyEnds_modCanvas _ _).trans (State.onlyEnds_settle _ _ _)) hs s

@[simp] theorem State.dropPins_port (s : State) (p q : Port) (hs : List Handle) : (s.dropPins p hs).port q = s.port q := by
  induction hs generalizing s with
  | nil => rfl
  | cons h t ih => rw [State.dropPins, List.foldl_cons]; exact (ih _).trans (State.modCanvas_port _ _ _ _)

/-- Dropping pins reaches nothing but the canvas table (R9, R70). -/
theorem State.onlyEnds_dropPins (s : State) (p : Port) (hs : List Handle) : s.OnlyEnds (s.dropPins p hs) :=
  State.onlyEnds_foldl _ (fun s _ => s.onlyEnds_modCanvas _ _) hs s

/-- The ends that dropped pins bring reach nothing else (R45, R53). -/
theorem State.onlyEnds_settleAll (s : State) (p : Port) (hs : List Handle) : s.OnlyEnds (s.settleAll p hs) := by
  induction hs generalizing s with
  | nil => exact .refl s
  | cons h t ih =>
    rw [State.settleAll]
    refine State.OnlyEnds.trans ?_ (ih _)
    split
    · exact .refl s
    · exact s.onlyEnds_settle _ _

/-! ### Ends on one slot and changes of another -/

/-- `F` neither reads nor writes slot `k`. -/
def State.ApartFrom (k : Nat) (F : State → State) : Prop := ∀ (s : State) (x : Slot), F (s.setSlot k x) = (F s).setSlot k x

theorem State.ApartFrom.comp {k : Nat} {F G : State → State} (hF : State.ApartFrom k F) (hG : State.ApartFrom k G) :
    State.ApartFrom k fun s => G (F s) := fun s x => by
  dsimp only
  rw [hF, hG]

theorem State.ApartFrom.foldl {k : Nat} {α : Type} {F : State → α → State} (h : ∀ a, State.ApartFrom k fun s => F s a)
    (xs : List α) : State.ApartFrom k fun s => xs.foldl F s := by
  induction xs with
  | nil => exact fun _ _ => rfl
  | cons a t ih => exact (h a).comp ih

theorem State.apart_modPort (k : Nat) (p : Port) (f : PortBlock → PortBlock) : State.ApartFrom k fun s => s.modPort p f := by
  intro s x
  cases k <;> rfl

theorem State.apart_setSlot {k n : Nat} (h : n ≠ k) (y : Slot) : State.ApartFrom k fun s => s.setSlot n y := by
  intro s x
  cases k with
  | zero => rfl
  | succ i =>
    cases n with
    | zero => rfl
    | succ j =>
      have hij : i ≠ j := by omega
      have : (s.slots.setIfInBounds i x).setIfInBounds j y = (s.slots.setIfInBounds j y).setIfInBounds i x := by
        apply Vector.ext
        intro m hm
        simp only [Vector.getElem_setIfInBounds]
        split <;> split <;> first | rfl | omega
      simp only [State.setSlot, this]

theorem State.apart_answerWaiters (k : Nat) (ws : List Waiter) (m : List Byte) :
    State.ApartFrom k fun s => s.answerWaiters ws m := by
  unfold State.answerWaiters
  exact State.ApartFrom.foldl (fun w => State.apart_modPort k w.port _) ws

/-- What depends on slot `n` through its contents alone. -/
theorem State.ApartFrom.ofSlot {k n : Nat} (h : n ≠ k) {F : Slot → State → State} (hF : ∀ y, State.ApartFrom k (F y)) :
    State.ApartFrom k fun s => F (s.slot n) s := fun s x => by simp only [State.slot_setSlot_ne _ _ _ _ h]; exact hF _ s x

theorem State.apart_release {k n : Nat} (h : n ≠ k) : State.ApartFrom k fun s => s.release n := by
  intro s x
  have hc : (s.setSlot k x).canvas n = s.canvas n := s.canvas_setSlot_ne _ _ _ h
  cases hs : s.canvas n with
  | none => simp only [State.release_none _ n hs, State.release_none _ n (hc.trans hs)]
  | some c =>
    simp only [State.release_eq _ n c hs, State.release_eq _ n c (hc.trans hs), State.slot_setSlot_ne _ _ _ _ h]
    have h1 : State.ApartFrom k fun s => { s with allocated := freeRun s.allocated c.firstBlock c.blockCount } :=
      fun _ _ => by cases k <;> rfl
    exact ((h1.comp (State.apart_modPort k c.owner _)).comp (State.apart_setSlot h _)) s x

theorem State.apart_endRevoke {k n : Nat} (h : n ≠ k) (p : Port) : State.ApartFrom k fun s => s.endRevoke n p := by
  intro s x
  unfold State.endRevoke
  simp only [State.canvas_setSlot_ne _ _ _ _ h, State.handle, State.setCanvas, State.slot_setSlot_ne _ _ _ _ h]
  split
  · rfl
  · split
    · rfl
    · split
      · rfl
      · exact (((State.apart_setSlot h _).comp (State.apart_answerWaiters k _ _)).comp (State.apart_modPort k p _)) s x

theorem State.apart_endClose {k n : Nat} (h : n ≠ k) (op : CloseOp) : State.ApartFrom k fun s => s.endClose n op := by
  intro s x
  unfold State.endClose
  simp only [State.canvas_setSlot_ne _ _ _ _ h, State.handle, State.slot_setSlot_ne _ _ _ _ h]
  split
  · rfl
  · next c _ =>
    have h1 (H : Handle) : State.ApartFrom k fun s => c.grants.foldl (State.answerRevoke H) s :=
      State.ApartFrom.foldl (fun g s x => by
        unfold State.answerRevoke
        split
        · rfl
        · exact State.apart_answerWaiters _ _ _ _ _) _
    have h2 (y : Canvas) : State.ApartFrom k fun s => s.setCanvas n y :=
      State.ApartFrom.ofSlot h fun z => State.apart_setSlot h { z with canvas := some y }
    have h3 : State.ApartFrom k fun s => c.grants.foldl (fun s g => s.modPort g.port fun b => b.raise .grantLost) s :=
      State.ApartFrom.foldl (fun g => State.apart_modPort _ _ _) _
    have h4 : State.ApartFrom k fun s => if op.forced then s.modPort c.owner fun b => b.raise .canvasLost else s := by
      intro s x
      dsimp only
      split
      · exact State.apart_modPort _ _ _ _ _
      · rfl
    exact ((((h1 _).comp (h2 _)).comp h3).comp (State.apart_answerWaiters _ _ _)).comp (h4.comp (State.apart_release h)) s x

theorem State.apart_settle {k n : Nat} (h : n ≠ k) (p : Port) : State.ApartFrom k fun s => s.settle n p := by
  intro s x
  unfold State.settle
  simp only [State.canvas_setSlot_ne _ _ _ _ h]
  split
  · rfl
  · split
    · exact State.apart_endClose h _ s x
    · split
      · exact State.apart_endRevoke h p s x
      · rfl

/-- What neither reads nor writes a slot commutes with a change of its canvas. -/
theorem State.ApartFrom.modCanvas {k : Nat} {F : State → State} (hF : State.ApartFrom k F) (s : State) (f : Canvas → Canvas) :
    F (s.modCanvas k f) = (F s).modCanvas k f := by
  by_cases hk : 1 ≤ k ∧ k ≤ 255
  · have hs : s.setSlot k (s.slot k) = s := by
      obtain ⟨i, rfl⟩ : ∃ i, k = i + 1 := ⟨k - 1, by omega⟩
      have hi : i < 255 := by omega
      have : s.slots.setIfInBounds i (s.slots[i]) = s.slots := by
        apply Vector.ext
        intro m hm
        rw [Vector.getElem_setIfInBounds]
        split
        · next hm => subst hm; rfl
        · rfl
      simp [State.setSlot, State.slot, hi, this]
    have h1 : (F s).slot k = s.slot k := by
      conv_lhs => rw [← hs, hF]
      exact State.slot_setSlot_same _ _ _ hk.1 hk.2
    simp only [State.modCanvas, State.canvas, State.setCanvas, h1]
    split
    · rfl
    · exact hF s _
  · have hk : k = 0 ∨ 255 < k := by omega
    simp [State.modCanvas, State.canvas, State.slot_outside _ k hk]

/-- The ends on one slot do not see the pins of another. -/
theorem State.settle_modCanvas (s : State) {n k : Nat} (h : n ≠ k) (p : Port) (f : Canvas → Canvas) :
    (s.modCanvas k f).settle n p = (s.settle n p).modCanvas k f := (State.apart_settle h p).modCanvas s f

/-- An unpin that ends nothing changes one pin count alone (R9). -/
theorem State.unpin_of_not_due (s : State) (p : Port) (h : Handle) (c : Canvas) (hc : s.canvas (handleSlot h) = some c)
    (hs : 1 ≤ handleSlot h)
    (h1 : (c.modPins p (· - 1)).closeDue = none) (h2 : (c.modPins p (· - 1)).revokeDue p = false) :
    s.unpin p h = s.setCanvas (handleSlot h) (c.modPins p (· - 1)) := by
  have hm : s.modCanvas (handleSlot h) (fun c => c.modPins p (· - 1)) =
      s.setCanvas (handleSlot h) (c.modPins p (· - 1)) := by simp [State.modCanvas, hc]
  have hd : (s.setCanvas (handleSlot h) (c.modPins p (· - 1))).canvas (handleSlot h) = some (c.modPins p (· - 1)) := by
    have hlt : handleSlot h ≤ 255 := by unfold handleSlot; omega
    simp [State.canvas, State.setCanvas, hs, hlt]
  simp only [State.unpin, hm, State.settle, hd, h1, h2]
  rfl

end Sys2Proof.Machine
end

