-- ==== Sys2Proof/Laws/Store.lean ====
section
/-! SUPPORT. What the operations of the pixel store do, and that each keeps its canonical form. -/

namespace Sys2Proof.Machine

/-! ### The canonical form -/

theorem keysRise_iff {α : Type} (bound : Nat) (l : List (Nat × α)) :
    keysRise bound l = true ↔ l.Pairwise (fun c d => c.1 < d.1) ∧ ∀ c ∈ l, c.1 < bound := by
  induction l with
  | nil => simp [keysRise]
  | cons c t ih =>
    cases t with
    | nil => simp [keysRise]
    | cons d t =>
      simp only [keysRise, Bool.and_eq_true, decide_eq_true_eq, ih]
      constructor
      · rintro ⟨h, hp, hb⟩
        refine ⟨List.pairwise_cons.2 ⟨?_, hp⟩, ?_⟩
        · intro x hx
          rcases List.mem_cons.1 hx with rfl | hx
          · exact h
          · exact Nat.lt_trans h ((List.pairwise_cons.1 hp).1 x hx)
        · intro x hx
          rcases List.mem_cons.1 hx with rfl | hx
          · exact Nat.lt_trans h (hb d (by simp))
          · exact hb x hx
      · rintro ⟨hp, hb⟩
        have hp' := List.pairwise_cons.1 hp
        exact ⟨hp'.1 d (by simp), hp'.2, fun x hx => hb x (List.mem_cons_of_mem _ hx)⟩

theorem keysRise_filter {α : Type} (bound : Nat) (l : List (Nat × α)) (p : Nat × α → Bool) (h : keysRise bound l = true) :
    keysRise bound (l.filter p) = true := by
  rw [keysRise_iff] at h ⊢
  exact ⟨h.1.filter _, fun c hc => h.2 c (List.mem_of_mem_filter hc)⟩

/-- Entries of consecutive keys take the place of the old ones, and the form is kept. -/
theorem keysRise_splice {α : Type} (bound a n : Nat) (l mid : List (Nat × α)) (h : keysRise bound l = true)
    (hp : mid.Pairwise fun c d => c.1 < d.1) (hm : ∀ c ∈ mid, a ≤ c.1 ∧ c.1 < a + n) (hb : a + n ≤ bound) :
    keysRise bound (l.filter (fun c => c.1 < a) ++ mid ++ l.filter (fun c => a + n ≤ c.1)) = true := by
  rw [keysRise_iff] at h ⊢
  constructor
  · rw [List.pairwise_append, List.pairwise_append]
    refine ⟨⟨h.1.filter _, hp, fun x hx y hy => ?_⟩, h.1.filter _, fun x hx y hy => ?_⟩
    · have := hm y hy
      have := (List.mem_filter.1 hx).2
      simp at this; omega
    · have h2 := (List.mem_filter.1 hy).2
      simp at h2
      rcases List.mem_append.1 hx with hx | hx
      · have := (List.mem_filter.1 hx).2
        simp at this; omega
      · have := hm x hx; omega
  · intro c hc
    rcases List.mem_append.1 hc with hc | hc
    · rcases List.mem_append.1 hc with hc | hc
      · exact h.2 c (List.mem_of_mem_filter hc)
      · have := hm c hc; omega
    · exact h.2 c (List.mem_of_mem_filter hc)

/-- What a list with such a splice holds under a key. -/
theorem find_splice {α : Type} (a n : Nat) (l mid : List (Nat × α)) (x : Nat) (hm : ∀ c ∈ mid, a ≤ c.1 ∧ c.1 < a + n) :
    (l.filter (fun c => c.1 < a) ++ mid ++ l.filter (fun c => a + n ≤ c.1)).find? (fun c => c.1 == x) =
      if a ≤ x ∧ x < a + n then mid.find? (fun c => c.1 == x) else l.find? (fun c => c.1 == x) := by
  have hlow : (l.filter fun c => c.1 < a).find? (fun c => c.1 == x) =
      if x < a then l.find? (fun c => c.1 == x) else none := by
    rw [List.find?_filter]
    split
    · next h =>
      congr 1; funext c
      by_cases hc : c.1 = x <;> simp [hc, h]
    · next h =>
      rw [List.find?_eq_none]; intro c _
      simp; omega
  have hhigh : (l.filter fun c => a + n ≤ c.1).find? (fun c => c.1 == x) =
      if a + n ≤ x then l.find? (fun c => c.1 == x) else none := by
    rw [List.find?_filter]
    split
    · next h =>
      congr 1; funext c
      by_cases hc : c.1 = x <;> simp [hc, h]
    · next h =>
      rw [List.find?_eq_none]; intro c _
      simp; omega
  have hmid (h : ¬ (a ≤ x ∧ x < a + n)) : mid.find? (fun c => c.1 == x) = none := by
    rw [List.find?_eq_none]; intro c hc
    have := hm c hc
    simp; omega
  rw [List.find?_append, List.find?_append, hlow, hhigh]
  by_cases h : a ≤ x ∧ x < a + n
  · rw [if_pos h, if_neg (by omega), if_neg (by omega)]; simp
  · rw [if_neg h, hmid h]
    by_cases h2 : x < a
    · rw [if_pos h2, if_neg (by omega)]; simp
    · rw [if_neg h2, if_pos (by omega)]; simp

theorem Store.wf_iff (m : Store) : m.wf = true ↔
    keysRise Config.storeBytes m.cells = true ∧ keysRise (Config.storeBytes / 8) m.checks = true ∧
      keysRise (Config.storeBytes / 8) m.flips = true := by
  simp [Store.wf, and_assoc]

/-! ### Bytes -/

theorem mem_cellsFrom (a : Nat) (bytes : List Byte) (c : Host.Cell) :
    c ∈ cellsFrom a bytes → a ≤ c.1 ∧ c.1 < a + bytes.length := by
  induction bytes generalizing a with
  | nil => simp [cellsFrom]
  | cons b t ih =>
    intro h
    rcases List.mem_cons.1 h with rfl | h
    · simp
    · have := ih (a + 1) h
      simp only [List.length_cons]; omega

theorem cellsFrom_pairwise (a : Nat) (bytes : List Byte) :
    (cellsFrom a bytes).Pairwise (fun c d => c.1 < d.1) := by
  induction bytes generalizing a with
  | nil => simp [cellsFrom]
  | cons b t ih =>
    refine List.pairwise_cons.2 ⟨fun x hx => ?_, ih (a + 1)⟩
    have := mem_cellsFrom (a + 1) t x hx
    show a < x.1
    omega

theorem find_cellsFrom (a : Nat) (bytes : List Byte) (x : Nat) :
    ((cellsFrom a bytes).find? fun c => c.1 == x).map Prod.snd = if a ≤ x then bytes[x - a]? else none := by
  induction bytes generalizing a with
  | nil => simp [cellsFrom]
  | cons b t ih =>
    simp only [cellsFrom, List.find?_cons]
    by_cases h : a = x
    · subst h; simp
    · have h' : (a == x) = false := by simpa using h
      simp only [h', ih]
      by_cases h1 : a + 1 ≤ x
      · rw [if_pos h1, if_pos (by omega)]
        obtain ⟨k, hk⟩ : ∃ k, x - a = k + 1 := ⟨x - a - 1, by omega⟩
        rw [hk, List.getElem?_cons_succ]
        congr 1; omega
      · rw [if_neg h1, if_neg (by omega)]

/-- What is written at an address after consecutive bytes have been written. -/
theorem Store.written_write (m : Store) (a : Nat) (bytes : List Byte) (x : Nat) :
    (m.write a bytes).written x = if a ≤ x ∧ x < a + bytes.length then bytes[x - a]? else m.written x := by
  have h := find_cellsFrom a bytes x
  simp only [Store.written, Store.write, Store.computeChecks, Store.putBytes, find_splice _ _ _ _ _ (mem_cellsFrom a bytes)]
  split
  · next hx => rw [h, if_pos hx.1]
  · rfl

/-- A byte reads as it was last written. -/
theorem Store.read_write (m : Store) (a : Nat) (bytes : List Byte) (x : Nat) :
    (m.write a bytes).read x = if a ≤ x ∧ x < a + bytes.length then bytes.getD (x - a) 0 else m.read x := by
  simp only [Store.read, Store.written_write]
  split
  · next h =>
    rw [List.getD_eq_getElem?_getD, List.getElem?_eq_getElem (by omega)]; simp
  · rfl

@[simp] theorem Store.write_flips (m : Store) (a : Nat) (bytes : List Byte) : (m.write a bytes).flips = m.flips := rfl
@[simp] theorem Store.write_condition (m : Store) (a : Nat) (bytes : List Byte) (w : Nat) :
    (m.write a bytes).condition w = m.condition w := rfl
@[simp] theorem Store.makeGood_cells (m : Store) (ws : List Nat) : (m.makeGood ws).cells = m.cells := rfl
@[simp] theorem Store.makeGood_read (m : Store) (ws : List Nat) (a : Nat) : (m.makeGood ws).read a = m.read a := rfl
@[simp] theorem Store.setCondition_cells (m : Store) (w : Nat) (c : WordCondition) :
    (m.setCondition w c).cells = m.cells := rfl
@[simp] theorem Store.setCondition_read (m : Store) (w : Nat) (c : WordCondition) (a : Nat) :
    (m.setCondition w c).read a = m.read a := rfl

/-! ### Check bits (R22) -/

@[simp] theorem Store.computeChecks_cells (m : Store) (w n : Nat) : (m.computeChecks w n).cells = m.cells := rfl
@[simp] theorem Store.computeChecks_flips (m : Store) (w n : Nat) : (m.computeChecks w n).flips = m.flips := rfl
@[simp] theorem Store.computeChecks_read (m : Store) (w n a : Nat) : (m.computeChecks w n).read a = m.read a := rfl
@[simp] theorem Store.computeChecks_word (m : Store) (w n x : Nat) : (m.computeChecks w n).word x = m.word x := rfl
@[simp] theorem Store.computeChecks_condition (m : Store) (w n x : Nat) :
    (m.computeChecks w n).condition x = m.condition x := rfl
@[simp] theorem Store.putBytes_checkBits (m : Store) (a : Nat) (bytes : List Byte) (w : Nat) :
    (m.putBytes a bytes).checkBits w = m.checkBits w := rfl
@[simp] theorem Store.makeGood_checkBits (m : Store) (ws : List Nat) (w : Nat) :
    (m.makeGood ws).checkBits w = m.checkBits w := rfl
@[simp] theorem Store.makeGood_word (m : Store) (ws : List Nat) (w : Nat) : (m.makeGood ws).word w = m.word w := rfl
@[simp] theorem Store.setCondition_checkBits (m : Store) (w : Nat) (c : WordCondition) (x : Nat) :
    (m.setCondition w c).checkBits x = m.checkBits x := rfl
@[simp] theorem Store.setCondition_word (m : Store) (w : Nat) (c : WordCondition) (x : Nat) :
    (m.setCondition w c).word x = m.word x := rfl

/-- Two stores whose bytes read the same hold the same data bits. -/
theorem Store.word_congr (m m' : Store) (w : Nat) (h : ∀ i, i < 8 → m.read (8 * w + i) = m'.read (8 * w + i)) :
    m.word w = m'.word w := by
  have : m.readMany (8 * w) 8 = m'.readMany (8 * w) 8 :=
    List.map_congr_left fun i hi => h i (List.mem_range.1 hi)
  rw [Store.word, Store.word, this]

theorem Store.mem_freshChecks (m : Store) (w n : Nat) (c : Nat × BitVec 8) :
    c ∈ m.freshChecks w n ↔ (w ≤ c.1 ∧ c.1 < w + n) ∧ c.2 = Config.checkCode (m.word c.1) := by
  rw [Store.freshChecks, List.mem_map]
  constructor
  · rintro ⟨i, hi, rfl⟩
    have := List.mem_range.1 hi
    exact ⟨by simpa using this, rfl⟩
  · rintro ⟨⟨h1, h2⟩, h3⟩
    refine ⟨c.1 - w, List.mem_range.2 (by omega), ?_⟩
    rw [show w + (c.1 - w) = c.1 by omega, ← h3]

theorem Store.freshChecks_keys (m : Store) (w n : Nat) : ∀ c ∈ m.freshChecks w n, w ≤ c.1 ∧ c.1 < w + n :=
  fun c hc => ((m.mem_freshChecks w n c).1 hc).1

theorem Store.freshChecks_pairwise (m : Store) (w n : Nat) : (m.freshChecks w n).Pairwise fun c d => c.1 < d.1 := by
  rw [Store.freshChecks, List.pairwise_map]
  exact List.pairwise_lt_range.imp fun h => by simpa using h

theorem Store.find_freshChecks (m : Store) (w n x : Nat) (h : w ≤ x ∧ x < w + n) :
    (m.freshChecks w n).find? (fun c => c.1 == x) = some (x, Config.checkCode (m.word x)) := by
  cases hf : (m.freshChecks w n).find? fun c => c.1 == x with
  | none =>
    rw [List.find?_eq_none] at hf
    exact absurd (by simp) (hf (x, Config.checkCode (m.word x)) ((m.mem_freshChecks w n _).2 ⟨h, rfl⟩))
  | some c =>
    have h1 : c.1 = x := by simpa using List.find?_some hf
    have h2 := ((m.mem_freshChecks w n c).1 (List.mem_of_find?_eq_some hf)).2
    rw [← h1, ← h2]

/-- The check bits of a word after those of a run of words have been computed afresh. -/
theorem Store.checkBits_computeChecks (m : Store) (w n x : Nat) :
    (m.computeChecks w n).checkBits x = if w ≤ x ∧ x < w + n then Config.checkCode (m.word x) else m.checkBits x := by
  simp only [Store.checkBits, Store.computeChecks]
  rw [find_splice _ _ _ _ _ (m.freshChecks_keys w n)]
  split
  · next h => rw [m.find_freshChecks w n x h]; rfl
  · rfl

/-- The check bits of a word after a write (R22): computed from the word's new data if the write reaches the word. -/
theorem Store.checkBits_write (m : Store) (a : Nat) (bytes : List Byte) (x : Nat) :
    (m.write a bytes).checkBits x =
      if a / 8 ≤ x ∧ x < a / 8 + wordsHolding a bytes.length then Config.checkCode ((m.write a bytes).word x)
      else m.checkBits x := Store.checkBits_computeChecks _ _ _ _

/-- The words that hold some bytes are those that hold one of them. -/
theorem mem_wordsHolding (a n x : Nat) :
    (a / 8 ≤ x ∧ x < a / 8 + wordsHolding a n) ↔ 0 < n ∧ a < 8 * x + 8 ∧ 8 * x < a + n := by
  unfold wordsHolding
  split <;> omega

/-- The data bits of a word that a write does not reach stay. -/
theorem Store.word_write (m : Store) (a : Nat) (bytes : List Byte) (x : Nat)
    (h : ¬ (a / 8 ≤ x ∧ x < a / 8 + wordsHolding a bytes.length)) : (m.write a bytes).word x = m.word x := by
  rw [mem_wordsHolding] at h
  refine Store.word_congr _ _ x fun i hi => ?_
  rw [Store.read_write, if_neg (by omega)]

theorem Store.wf_computeChecks (m : Store) (w n : Nat) (h : m.wf = true) (hb : w + n ≤ Config.storeBytes / 8) :
    (m.computeChecks w n).wf = true := by
  rw [Store.wf_iff] at h ⊢
  exact ⟨h.1, keysRise_splice _ _ _ _ _ h.2.1 (m.freshChecks_pairwise w n) (m.freshChecks_keys w n) hb, h.2.2⟩

/-- A write inside the store keeps the canonical form. -/
theorem Store.wf_write (m : Store) (a : Nat) (bytes : List Byte) (h : m.wf = true)
    (hb : a + bytes.length ≤ Config.storeBytes) : (m.write a bytes).wf = true := by
  refine Store.wf_computeChecks _ _ _ ?_ ?_
  · rw [Store.wf_iff] at h ⊢
    exact ⟨keysRise_splice _ _ _ _ _ h.1 (cellsFrom_pairwise a bytes) (mem_cellsFrom a bytes) hb, h.2⟩
  · have hx := mem_wordsHolding a bytes.length (a / 8 + wordsHolding a bytes.length - 1)
    simp only [Config.storeBytes] at hb ⊢
    by_cases h0 : wordsHolding a bytes.length = 0
    · omega
    · omega

/-! ### Word conditions (R22) -/

theorem Store.condition_setCondition (m : Store) (w x : Nat) (c : WordCondition) :
    (m.setCondition w c).condition x = if x = w then some c else m.condition x := by
  simp only [Store.condition, Store.setCondition, List.find?_append, List.find?_filter]
  by_cases h : x = w
  · subst h
    have h1 : m.flips.find? (fun d => decide (decide (d.1 < x) = true ∧ (d.1 == x) = true)) = none := by
      rw [List.find?_eq_none]; intro d _; simp; omega
    rw [h1]; simp
  · rw [if_neg h]
    have hw : (List.find? (fun d : Nat × WordCondition => d.1 == x) [(w, c)]) = none := by
      simp; omega
    rw [hw]
    rcases Nat.lt_or_gt_of_ne h with hlt | hgt
    · have h1 : m.flips.find? (fun d => decide (decide (w < d.1) = true ∧ (d.1 == x) = true)) = none := by
        rw [List.find?_eq_none]; intro d _; simp; omega
      have h2 : (fun d : Nat × WordCondition => decide (decide (d.1 < w) = true ∧ (d.1 == x) = true)) =
          fun d => d.1 == x := by
        funext d; by_cases hd : d.1 = x <;> simp [hd, hlt]
      rw [h1, h2]; simp
    · have h1 : m.flips.find? (fun d => decide (decide (d.1 < w) = true ∧ (d.1 == x) = true)) = none := by
        rw [List.find?_eq_none]; intro d _; simp; omega
      have h2 : (fun d : Nat × WordCondition => decide (decide (w < d.1) = true ∧ (d.1 == x) = true)) =
          fun d => d.1 == x := by
        funext d; by_cases hd : d.1 = x <;> simp [hd, hgt]
      rw [h1, h2]; simp

theorem Store.condition_makeGood (m : Store) (ws : List Nat) (x : Nat) :
    (m.makeGood ws).condition x = if x ∈ ws then none else m.condition x := by
  simp only [Store.condition, Store.makeGood, List.find?_filter]
  split
  · next h =>
    have : m.flips.find? (fun d => decide ((!ws.contains d.1) = true ∧ (d.1 == x) = true)) = none := by
      rw [List.find?_eq_none]; intro d _; simp; intro h1 h2; exact h1 (h2 ▸ h)
    rw [this]; rfl
  · next h =>
    have : (fun d : Nat × WordCondition => decide ((!ws.contains d.1) = true ∧ (d.1 == x) = true)) =
        fun d => d.1 == x := by
      funext d; by_cases hd : d.1 = x <;> simp [hd, h]
    rw [this]

theorem Store.wf_setCondition (m : Store) (w : Nat) (c : WordCondition) (h : m.wf = true)
    (hw : w < Config.storeBytes / 8) : (m.setCondition w c).wf = true := by
  rw [Store.wf_iff] at h ⊢
  exact ⟨h.1, h.2.1, keysRise_splice _ w 1 _ [(w, c)] h.2.2 (by simp) (by simp) hw⟩

theorem Store.wf_makeGood (m : Store) (ws : List Nat) (h : m.wf = true) : (m.makeGood ws).wf = true := by
  rw [Store.wf_iff] at h ⊢
  exact ⟨h.1, h.2.1, keysRise_filter _ _ _ h.2.2⟩

theorem Store.wf_noteCorrected (m : Store) (reads corrected : List Nat) (h : m.wf = true) :
    (m.noteCorrected reads corrected).wf = true := by
  unfold Store.noteCorrected
  generalize reads.filter corrected.contains = ws
  induction ws generalizing m with
  | nil => exact h
  | cons w t ih =>
    rw [List.foldl_cons]
    apply ih
    split
    · next hw =>
      simp only [Bool.and_eq_true, wordOk, decide_eq_true_eq] at hw
      exact m.wf_setCondition w _ h hw.2
    · exact h

@[simp] theorem Store.noteCorrected_read (m : Store) (reads corrected : List Nat) (a : Nat) :
    (m.noteCorrected reads corrected).read a = m.read a := by
  unfold Store.noteCorrected
  generalize reads.filter corrected.contains = ws
  induction ws generalizing m with
  | nil => rfl
  | cons w t ih =>
    rw [List.foldl_cons, ih]
    split <;> rfl

@[simp] theorem Store.noteCorrected_checkBits (m : Store) (reads corrected : List Nat) (w : Nat) :
    (m.noteCorrected reads corrected).checkBits w = m.checkBits w := by
  unfold Store.noteCorrected
  generalize reads.filter corrected.contains = ws
  induction ws generalizing m with
  | nil => rfl
  | cons w t ih =>
    rw [List.foldl_cons, ih]
    split <;> rfl

/-! ### Blocks and abandoned accesses (R25, R27) -/

theorem Store.wf_clearBlock (m : Store) (b : Nat) (f : Format) (fill : Colour) (h : m.wf = true)
    (hb : b < Config.blocks) : (m.clearBlock b f fill).wf = true := by
  have hw := m.wf_write (b * Config.blockBytes) ((List.range Config.blockBytes).map (patternByte f fill)) h (by
    simp [Config.blockBytes, Config.blocks, Config.storeBytes] at *; omega)
  rw [Store.wf_iff] at hw ⊢
  exact ⟨hw.1, hw.2.1, keysRise_filter _ _ _ hw.2.2⟩

theorem Store.wf_abandonWord (n : Nat) (after m : Store) (w : Nat) (h : m.wf = true) (hw : wordOk w = true) :
    (Store.abandonWord n after m w).wf = true := by
  unfold Store.abandonWord
  split
  · refine Store.wf_makeGood _ _ (m.wf_write _ _ h ?_)
    have hw' : w < 2097152 := of_decide_eq_true hw
    simp [Store.readMany, Config.storeBytes]; omega
  · split
    · exact Store.wf_makeGood _ _ (m.wf_computeChecks w 1 h (of_decide_eq_true hw))
    · exact h

theorem Store.wf_abandon (m : Store) (n : Nat) (after : Store) (words : List Nat) (h : m.wf = true) :
    (m.abandon n after words).wf = true := by
  unfold Store.abandon
  have hall : ∀ w ∈ words.filter wordOk, wordOk w = true := fun w hw => (List.mem_filter.1 hw).2
  generalize words.filter wordOk = ws at hall
  induction ws generalizing m with
  | nil => exact h
  | cons w t ih =>
    rw [List.foldl_cons]
    exact ih _ (Store.wf_abandonWord n after m w h (hall w (by simp))) (fun x hx => hall x (List.mem_cons_of_mem _ hx))

/-- What is left of one word of an abandoned access (R27): the new contents, good; or the old, good or as it was; and every
other word as before. -/
theorem Store.abandonWord_cases (n : Nat) (after m : Store) (w : Nat) :
    let t := Store.abandonWord n after m w
    let good := t.condition w = none ∧ t.checkBits w = Config.checkCode (t.word w)
    (∀ a, a / 8 ≠ w → t.read a = m.read a) ∧
    (∀ x, x ≠ w → t.condition x = m.condition x ∧ t.checkBits x = m.checkBits x) ∧
    ((∀ i, i < 8 → t.read (8 * w + i) = after.read (8 * w + i)) ∧ good ∨ (∀ a, t.read a = m.read a) ∧ (good ∨ t = m)) := by
  unfold Store.abandonWord
  have hl : (after.readMany (8 * w) 8).length = 8 := by simp [Store.readMany]
  have hw (x : Nat) : (8 * w / 8 ≤ x ∧ x < 8 * w / 8 + wordsHolding (8 * w) (after.readMany (8 * w) 8).length) ↔ x = w := by
    rw [mem_wordsHolding, hl]; omega
  split
  · refine ⟨fun a ha => ?_, fun x hx => ⟨?_, ?_⟩, .inl ⟨fun i hi => ?_, ?_, ?_⟩⟩
    · rw [Store.makeGood_read, Store.read_write, hl, if_neg (by omega)]
    · rw [Store.condition_makeGood, if_neg (by simpa using hx), Store.write_condition]
    · rw [Store.makeGood_checkBits, Store.checkBits_write, if_neg (by rw [hw]; exact hx)]
    · rw [Store.makeGood_read, Store.read_write, hl, if_pos (by omega)]
      simp [Store.readMany, hi]
    · rw [Store.condition_makeGood, if_pos (by simp)]
    · rw [Store.makeGood_checkBits, Store.checkBits_write, if_pos ((hw w).2 rfl), Store.makeGood_word]
  · split
    · refine ⟨fun a _ => rfl, fun x hx => ⟨?_, ?_⟩, .inr ⟨fun a => rfl, .inl ⟨?_, ?_⟩⟩⟩
      · rw [Store.condition_makeGood, if_neg (by simpa using hx), Store.computeChecks_condition]
      · rw [Store.makeGood_checkBits, Store.checkBits_computeChecks, if_neg (by omega)]
      · rw [Store.condition_makeGood, if_pos (by simp)]
      · rw [Store.makeGood_checkBits, Store.checkBits_computeChecks, if_pos (by omega), Store.makeGood_word,
          Store.computeChecks_word]
    · exact ⟨fun _ _ => rfl, fun _ _ => ⟨rfl, rfl⟩, .inr ⟨fun _ => rfl, .inr rfl⟩⟩

/-- A block access computes the check bits of the block's words afresh and leaves all others (R25, R22). -/
theorem Store.checkBits_clearBlock (m : Store) (b : Nat) (f : Format) (fill : Colour) (x : Nat) :
    (m.clearBlock b f fill).checkBits x =
      if x / Config.blockWords = b then Config.checkCode ((m.clearBlock b f fill).word x) else m.checkBits x := by
  have h := m.checkBits_write (b * Config.blockBytes) ((List.range Config.blockBytes).map (patternByte f fill)) x
  have hx : (b * Config.blockBytes / 8 ≤ x ∧ x < b * Config.blockBytes / 8 +
      wordsHolding (b * Config.blockBytes) ((List.range Config.blockBytes).map (patternByte f fill)).length) ↔
      x / Config.blockWords = b := by
    rw [mem_wordsHolding]
    simp only [List.length_map, List.length_range, Config.blockBytes, Config.blockWords]
    omega
  rw [if_congr hx rfl rfl] at h
  exact h

/-- How many bytes hold a row of pixels that begins at bit `x * bits`. -/
theorem Store.length_rowBytes (m : Store) (g : Geo) (x y : Nat) (px : List Colour) :
    (m.rowBytes g x y px).length =
      if g.format = .m1 then (x + px.length + 7) / 8 - x / 8 else px.length * (g.format.bits / 8) := by
  have h (f : Format) (k : Nat) (hk : ∀ v, (pixelBytes f v).length = k) (l : List Colour) :
      (l.flatMap (pixelBytes f)).length = l.length * k := by
    induction l with
    | nil => simp
    | cons v t ih => simp only [List.flatMap_cons, List.length_append, ih, hk, List.length_cons]; ring
  unfold Store.rowBytes
  cases hf : g.format
  · simp
  · exact h .i8 1 (fun _ => rfl) px
  · exact h .c16 2 (fun _ => rfl) px
  · exact h .c32 4 (fun _ => rfl) px

/-- The words of a row that hold the bits `lo` to `hi - 1`. -/
theorem Geo.mem_words (g : Geo) (y lo hi w : Nat) (h : lo < hi) :
    w ∈ g.words y lo hi ↔ g.rowBase y / 8 + lo / 64 ≤ w ∧ w ≤ g.rowBase y / 8 + (hi - 1) / 64 := by
  unfold Geo.words
  rw [if_neg (by omega), List.mem_map]
  constructor
  · rintro ⟨a, ha, rfl⟩
    have := List.mem_range.1 ha
    omega
  · rintro ⟨h1, h2⟩
    exact ⟨w - (g.rowBase y / 8 + lo / 64), List.mem_range.2 (by omega), by omega⟩

/-- A write phase computes the check bits of the span's destination words afresh and leaves all others (R23, R22). -/
theorem EngineRecord.checkBits_writePhase (r : EngineRecord) (m : Store) (data : List Byte) (w : Nat)
    (hp : ∀ g, r.dst = some g → g.pitch % 8 = 0) (hn : 0 < r.spanPixels) :
    (r.writePhase m data).checkBits w =
      if w ∈ r.dstWords then Config.checkCode ((r.writePhase m data).word w) else m.checkBits w := by
  cases hd : r.dst with
  | none => simp [EngineRecord.writePhase, EngineRecord.dstWords, hd]
  | some g =>
    have hr : g.rowBase (r.job.rect.y + r.row) % 8 = 0 := by
      unfold Geo.rowBase Config.blockBytes
      have : (r.job.rect.y + r.row) * g.pitch % 8 = 0 := by rw [Nat.mul_mod, hp g hd]; simp
      omega
    simp only [EngineRecord.writePhase, hd, Store.makeGood_checkBits, Store.makeGood_word, Store.checkBits_write]
    refine if_congr ?_ rfl rfl
    rw [mem_wordsHolding, Store.length_rowBytes]
    simp only [EngineRecord.dstWords, hd, bitRange, Geo.pixelStart, Geo.bitAddress, List.length_map, List.length_range]
    generalize r.job.rect.x + r.spanLeft = x
    cases hf : g.format <;> rw [Geo.mem_words _ _ _ _ _ (by simp only [Format.bits]; omega)] <;>
      simp only [Format.bits, if_true, reduceCtorEq, if_false] <;> omega

/-! ### The check bits of written words agree with their data (R22) -/

/-- A step of the store that lists no check bits but fresh ones keeps the agreement. -/
theorem Store.checksAgree_write (m : Store) (a : Nat) (bytes : List Byte) (h : m.ChecksAgree) :
    (m.write a bytes).ChecksAgree := by
  intro c hc
  have h1 : ∀ d ∈ m.checks, ¬ (a / 8 ≤ d.1 ∧ d.1 < a / 8 + wordsHolding a bytes.length) →
      d.2 = Config.checkCode ((m.write a bytes).word d.1) := fun d hd hx => by rw [m.word_write a bytes d.1 hx, h d hd]
  rcases List.mem_append.1 hc with hc | hc
  · rcases List.mem_append.1 hc with hc | hc
    · have hk := (List.mem_filter.1 hc).2
      simp only [decide_eq_true_eq] at hk
      exact h1 c (List.mem_of_mem_filter hc) (by omega)
    · exact ((Store.mem_freshChecks _ _ _ c).1 hc).2
  · have hk := (List.mem_filter.1 hc).2
    simp only [decide_eq_true_eq] at hk
    exact h1 c (List.mem_of_mem_filter hc) (by omega)

theorem Store.checksAgree_computeChecks (m : Store) (w n : Nat) (h : m.ChecksAgree) :
    (m.computeChecks w n).ChecksAgree := by
  intro c hc
  rcases List.mem_append.1 hc with hc | hc
  · rcases List.mem_append.1 hc with hc | hc
    · exact h c (List.mem_of_mem_filter hc)
    · exact ((m.mem_freshChecks w n c).1 hc).2
  · exact h c (List.mem_of_mem_filter hc)

theorem Store.checksAgree_noteCorrected (m : Store) (reads corrected : List Nat) (h : m.ChecksAgree) :
    (m.noteCorrected reads corrected).ChecksAgree := by
  unfold Store.noteCorrected
  generalize reads.filter corrected.contains = ws
  induction ws generalizing m with
  | nil => exact h
  | cons w t ih =>
    rw [List.foldl_cons]
    apply ih
    split <;> exact h

theorem Store.checksAgree_clearBlock (m : Store) (b : Nat) (f : Format) (fill : Colour) (h : m.ChecksAgree) :
    (m.clearBlock b f fill).ChecksAgree := m.checksAgree_write _ _ h

theorem Store.checksAgree_abandon (m : Store) (n : Nat) (after : Store) (words : List Nat) (h : m.ChecksAgree) :
    (m.abandon n after words).ChecksAgree := by
  unfold Store.abandon
  generalize words.filter wordOk = ws
  induction ws generalizing m with
  | nil => exact h
  | cons w t ih =>
    rw [List.foldl_cons]
    apply ih
    unfold Store.abandonWord
    split
    · exact m.checksAgree_write _ _ h
    · split
      · exact m.checksAgree_computeChecks w 1 h
      · exact h

theorem EngineRecord.checksAgree_writePhase (r : EngineRecord) (m : Store) (data : List Byte) (h : m.ChecksAgree) :
    (r.writePhase m data).ChecksAgree := by
  unfold EngineRecord.writePhase
  split
  · exact h
  · exact m.checksAgree_write _ _ h

/-- The store after reset is in canonical form. -/
theorem State.reset_store_wf : State.reset.store.wf = true := rfl

end Sys2Proof.Machine
end

