-- ==== Sys2Proof/Tests/Slice0.lean ====
section
/-! SUPPORT. Tests. First the smoke test of WellFormed; then single steps whose results the spec's examples and tables give;
then, for each statement with hypotheses, a theorem that shows a state and operands that meet them, clause by clause. -/

namespace Sys2Proof.Tests

open Sys2Proof Sys2Proof.Machine

/- Each test is checked before the next begins: a hundred kernel evaluations at once would each hold a thread. -/
set_option Elab.async false

/-! ### Well-formedness -/

theorem test_wellFormed_refuses_what_does_not_exist :
    (Instr.revokeEnd 0 .p1).wellFormed = false ∧ (Instr.revokeEnd 256 .p1).wellFormed = false ∧
    (Instr.revokeDeadlineExpiry 0 .p0).wellFormed = false ∧ (Instr.closeDeadlineExpiry 256).wellFormed = false ∧
    (Instr.closeEnd 0).wellFormed = false ∧ (Instr.spanUncorrectable 2097152).wellFormed = false ∧
    (Instr.spanComplete [3, 2097152]).wellFormed = false := by decide

theorem test_wellFormed_admits_the_bounds :
    (Instr.revokeEnd 1 .p1).wellFormed = true ∧ (Instr.closeEnd 255).wellFormed = true ∧
    (Instr.spanUncorrectable 2097151).wellFormed = true ∧ (Instr.spanComplete [0, 2097151]).wellFormed = true := by decide

/-- The table gives no command any bits, so no word spells one. -/
theorem test_decode_spells_nothing : decodeTableWord 0 0 = none ∧ decodeTableWord 32 0x10 = none := by decide

/-! ### States -/

/-- Every port UP with two slots reserved. -/
def up : State :=
  { State.reset with ports := State.reset.ports.map fun b =>
      { b with portState := .up, link := { b.link with reserved := 2 } } }

/-- A frame is the oldest of the port's inbound buffer. -/
def has (p : Port) (c : InClass) (payload : List Byte) (s : State) : State :=
  s.modPort p fun b => { b with link := { b.link with inbound := [⟨c, payload⟩] } }

/-- `f` done to the block of a port of `up`. -/
def upWith (p : Port) (f : PortBlock → PortBlock) : State := up.modPort p f

/-- A canvas of 640 × 480 C16 of P1 at block 150: pitch 1280, 150 blocks. -/
def picture (phase : Phase) (ownerPins : Nat) (grants : List Grant) : Canvas :=
  ⟨.p1, .c16, 640, 480, 1280, 150, 150, 0x11, 0xF800, ownerPins, grants, phase⟩

/-- `up` with that canvas in slot 4; its handle is 0x0104. -/
def shown (c : Canvas) : State := up.setSlot 4 ⟨1, some c⟩

/-- The state a command leaves, if it leaves one. -/
def after (c : Instr) (s : State) : Option State :=
  match exec c s with
  | .next t => some t
  | _ => none

/-- The reply payloads in a port's outbound list after a command. -/
def sent (c : Instr) (s : State) (p : Port) : Option (List (List Byte)) :=
  (after c s).map fun t => (t.port p).link.used.map OutFrame.payload


/-! ### Single steps -/

/-- The CRC of the nine ASCII digits (R164). -/
theorem test_crc_of_the_nine_digits :
    crc16 [0x31, 0x32, 0x33, 0x34, 0x35, 0x36, 0x37, 0x38, 0x39] = 0x29B1 := by decide +kernel

/-- The first REQ of a session, for STATUS of P1 (R167, R168): it is taken, with a slot for its reply. -/
theorem test_frame_is_taken :
    ((after (.reqDatFrameReceived .p1 (WireFrame.bytes ⟨0x01, 0, 0, [0x30, 0, 7, 0, 1, 0]⟩)) up).map fun t =>
      ((t.port .p1).link.inbound, (t.port .p1).link.expected, (t.port .p1).link.reserved)) =
    some ([⟨.req, [0x30, 0, 7, 0, 1, 0]⟩], 1, 3) := by decide +kernel

/-- The reply to HELLO gives the port, the part code 0x0416 and revision 1, and is frame 0 (R150, R177, 10.5). -/
theorem test_hello_begins_a_session :
    sent (.helloFresh .p2) (has .p2 .req [0x01, 0, 0x34, 0x12, 0x01, 0] State.reset) .p2 =
    some [[0x01, 0, 0x34, 0x12, 2, 0, 0x16, 0x04, 0x01, 0x01, 1, 0]] := by decide +kernel

/-- P2 is no supervisor: PORT-SET is refused with the reply header alone (R149, R182). -/
theorem test_portSet_of_a_port_that_is_not_P0 :
    sent (.portSetEnable .p2) (has .p2 .req [0x02, 0, 9, 0, 1, 1, 0, 4, 64, 0] up) .p2 = some [[0x02, 0x03, 9, 0]] := by
  decide +kernel

/-- The data timeout 2000 lies outside 1 to 1000: the CONFIG is refused BOUNDS (R154, the example of chapter 10). -/
theorem test_config_out_of_range :
    sent (.config .p1) (has .p1 .req [0x03, 0, 3, 1, 1, 0x01, 0xD0, 0x07] up) .p1 = some [[0x03, 0x0A, 3, 1]] := by
  decide +kernel

/-- OPEN of 640 × 480 C16 takes slot 1 and blocks 0 to 149, and holds 150 blocks (the example of chapter 1). -/
theorem test_open_takes_the_lowest_slot_and_run :
    ((after (.openCanvas .p1) (has .p1 .req [0x10, 0, 1, 1, 0x80, 0x02, 0xE0, 0x01, 3, 0] up)).map fun t =>
      ((t.port .p1).blocksHeld, (t.canvas 1).map fun c => (c.firstBlock, c.blockCount, c.pitch), t.clear.list)) =
    some (150, some (0, 150, 1280), [1]) := by decide +kernel

/-- CLOSE without pins ends at once: outcome DRAINED, and the slot is FREE with its next generation (R51, R10). -/
theorem test_close_without_pins :
    (sent (.closeCanvas .p1) (has .p1 .req [0x11, 0, 5, 0, 4, 1, 1, 0, 100, 0] (shown (picture .live 0 []))) .p1,
      (after (.closeCanvas .p1) (has .p1 .req [0x11, 0, 5, 0, 4, 1, 1, 0, 100, 0] (shown (picture .live 0 [])))).map
        fun t => t.slot 4) =
    (some [[0x11, 0, 5, 0, 4, 1, 0x01, 0]], some ⟨2, none⟩) := by decide +kernel

/-- A CLEARING canvas is unknown to hosts: QUERY is refused BAD-HANDLE (R3, the example of chapter 1). -/
theorem test_query_of_a_clearing_canvas :
    sent (.query .p2) (has .p2 .req [0x12, 0, 5, 0, 4, 1] (shown (picture (.clearing ⟨.p1, 0x101⟩) 0 []))) .p2 =
    some [[0x12, 0x04, 5, 0]] := by decide +kernel

/-- LIST gives the handle, the owner, and relation GRANT-RW to a grantee (R18, 10.5). -/
theorem test_list_of_a_grantee :
    sent (.list .p2) (has .p2 .req [0x13, 0, 5, 0, 0, 0] (shown (picture .live 0 [⟨.p2, .rw, 0, none⟩]))) .p2 =
    some [[0x13, 0, 5, 0, 1, 0, 4, 1, 1, 0x03]] := by decide +kernel

/-- GRANT of R to P2: result ADDED (R40, 10.5). -/
theorem test_grant_adds :
    sent (.grant .p1) (has .p1 .req [0x14, 0, 5, 0, 4, 1, 2, 1] (shown (picture .live 0 []))) .p1 =
    some [[0x14, 0, 5, 0, 4, 1, 2, 0x01, 0x01, 0]] := by decide +kernel

/-- REVOKE of a grant without pins: outcome CUT for its mode, and an attention frame GRANT-LOST to the grantee (R42, R45). -/
theorem test_revoke_without_pins :
    (sent (.revoke .p1) (has .p1 .req [0x15, 0, 5, 0, 4, 1, 2, 2, 0, 0] (shown (picture .live 0 [⟨.p2, .r, 0, none⟩]))) .p1,
      sent (.revoke .p1) (has .p1 .req [0x15, 0, 5, 0, 4, 1, 2, 2, 0, 0] (shown (picture .live 0 [⟨.p2, .r, 0, none⟩]))) .p2) =
    (some [[0x15, 0, 5, 0, 4, 1, 2, 0x02]], some [[0x04, 0]]) := by decide +kernel

/-- Of two FILLs the second does not fit in the width: refused BOUNDS, job position 2 (R66, the example of chapter 4). -/
theorem test_submit_all_or_none :
    sent (.submit .p1) (has .p1 .req ([0x20, 0, 5, 0, 2, 0] ++
      [1, 0, 3, 0, 4, 1, 0, 0, 0, 0, 0, 0, 0x80, 2, 0xE0, 1, 0, 0, 0, 0] ++
      [1, 0, 3, 0, 4, 1, 0, 0, 0x58, 2, 0, 0, 41, 0, 10, 0, 0, 0, 0, 0]) (shown (picture .live 0 []))) .p1 =
    some [[0x20, 0x0A, 5, 0, 2, 0]] := by decide +kernel

/-- The MARK and its tag: admitted as sequence 1, and DONE with its notice at its dispatch (R74, 10.7). -/
theorem test_submit_and_dispatch_of_a_mark :
    sent (.submit .p1) (has .p1 .req [0x20, 0, 5, 0, 1, 0, 6, 1, 0, 0, 0x01, 0x5A, 0, 0] up) .p1 =
      some [[0x20, 0, 5, 0, 1, 0, 1, 0]] ∧
    ((after (.submit .p1) (has .p1 .req [0x20, 0, 5, 0, 1, 0, 6, 1, 0, 0, 0x01, 0x5A, 0, 0] up)).bind fun t =>
      sent (.jobDispatch .p1) t .p1) =
      some [[0x20, 0, 5, 0, 1, 0, 1, 0], [0x01, 0x06, 1, 0, 0x01, 0xFF, 0, 0, 0x01, 0x5A, 0, 0]] := by decide +kernel

/-- HALT of an empty queue is answered HALTED and raises HALTED (R80, R81). -/
theorem test_halt_of_an_empty_queue :
    sent (.halt .p3) (has .p3 .req [0x22, 0, 5, 0] up) .p3 = some [[0x22, 0, 5, 0, 0x01, 0], [0x10, 0]] := by decide +kernel

/-- CANCEL of a sequence that names no entry is refused NO-JOB (R84). -/
theorem test_cancel_of_nothing :
    sent (.cancel .p3) (has .p3 .req [0x21, 0, 5, 0, 9, 0] up) .p3 = some [[0x21, 0x0E, 5, 0]] := by decide +kernel

/-- STATUS after power-on's defaults: RUN, next sequence 1, no record pending, six slots free (R145, 10.5). -/
theorem test_status_of_an_idle_port :
    sent (.status .p1) (has .p1 .req [0x30, 0, 5, 0, 1, 0] up) .p1 =
    some [[0x30, 0, 5, 0, 1, 2, 0, 0, 1, 0, 0, 0, 0, 0, 0xFF, 6, 0, 0, 0, 0, 0, 0, 0, 0, 0, 0]] := by decide +kernel

/-- FAULT_READ of a FREE record gives its index and state, the rest 0 (R136, 10.5). -/
theorem test_fault_read_of_a_free_record :
    sent (.faultRead .p1) (has .p1 .req [0x31, 0, 5, 0, 11, 0] up) .p1 =
    some [[0x31, 0, 5, 0, 1, 0, 11, 0, 0, 0, 0, 0, 0, 0, 0, 0, 0, 0, 0, 0, 0, 0, 0, 0]] := by decide +kernel

/-- FAULT_ACK of a FREE record: ALREADY-FREE (R137). -/
theorem test_fault_ack_of_a_free_record :
    sent (.faultAck .p1) (has .p1 .req [0x32, 0, 5, 0, 1, 3] up) .p1 = some [[0x32, 0, 5, 0, 1, 0, 3, 0x03]] := by
  decide +kernel

/-- ATTN-CLEAR with bit 6 set lists no flag and is refused MALFORMED (R143, R186). -/
theorem test_attn_clear_of_no_flag :
    sent (.attnClear .p1) (has .p1 .req [0x33, 0, 5, 0, 0x40, 0] up) .p1 = some [[0x33, 0x01, 5, 0]] ∧
    sent (.attnClear .p1) (has .p1 .req [0x33, 0, 5, 0, 0x3F, 0] up) .p1 = some [[0x33, 0, 5, 0, 0, 0]] := by decide +kernel

/-- A DAT frame without a served WRITE is rejected and recorded (R121). -/
theorem test_dat_without_a_write :
    ((after (.datFrame .p2) (has .p2 .dat [20, 0, 0, 8, 0, 0, 0xAA] up)).map fun t =>
      ((t.port .p2).staging.lastRejected, (t.port .p2).attn.flags.dataRejected)) =
    some (some (20, 2048), true) := by decide +kernel

/-- A FILL of one row, span by span (R96, R107): 1000 pixels of C16 take spans of 512 and 488. -/
theorem test_span_progress :
    let r : EngineRecord := ⟨1, .fill 0x104 ⟨0, 7, 1000, 1⟩ 0 3, none, some ⟨0x104, 0, 300, 2048, 1024, .c16⟩, false,
      false, 0, 0, false, none, false⟩
    (r.spanPixels, r.nextProgress) = (512, some (0, 512)) ∧
    (({ r with col := 512 } : EngineRecord).spanPixels, ({ r with col := 512 } : EngineRecord).nextProgress) =
      (488, none) := by decide +kernel

/-- Between frames a lane carries the idle fill byte (R162). -/
theorem test_idle_lane : (up.port .p1).link.laneBytes = [0x4B] := by decide +kernel

/-- P2's last unpin ends the revoke of its grant in the same step: DRAINED, GRANT-LOST (R44, R45, the example of chapter 3). -/
theorem test_last_unpin_ends_a_revoke :
    (let t := ((shown (picture .live 0 [⟨.p2, .r, 1, some ⟨.drain 9, [⟨.p1, 5⟩], false⟩⟩])).modPort .p1 fun b =>
       b.defer 0x15 5).unpin .p2 0x104
     ((t.canvas 4).map Canvas.grants, (t.port .p1).link.used.map OutFrame.payload, (t.port .p2).attn.flags.grantLost)) =
    (some [], [[0x15, 0, 5, 0, 4, 1, 2, 0x01]], true) := by decide +kernel

/-- P2 is reset while P1's DRAIN revoke of its grant waits for a QUEUED job: the queue's part drops the pin, and the revoke ends
in the canvas manager's, GRANTEE-RESET, without a flag on P2 (R156, R58, R60; 11.6, item 5). -/
theorem test_reset_ends_a_drain_revoke :
    (let s := (((shown (picture .live 0 [⟨.p2, .r, 1, some ⟨.drain 9, [⟨.p1, 5⟩], false⟩⟩])).modPort .p1 fun b =>
       b.defer 0x15 5).modPort .p2 fun b =>
         { b with queue := { b.queue with entries := [⟨7, .read 0x104 ⟨0, 0, 8, 1⟩, true, .queued false, [0x104], 0⟩] } })
     let t := s.beginReset .p2 ⟨.unsynced, [], none, none, false⟩
     ((t.canvas 4).map Canvas.grants, (t.port .p1).link.used.map OutFrame.payload, (t.port .p2).attn.flags.grantLost)) =
    (some [], [[0x15, 0, 5, 0, 4, 1, 2, 0x04]], false) := by decide +kernel

/-! ### Witnesses: states and operands that meet the hypotheses of the statements -/

theorem not_resetting (b : PortState) (h : b.isResetting = false) : ∀ op, b ≠ .resetting op := by
  rintro op rfl; cases h

theorem witness_StepRunsTheFrontCommand :
    ({ up with pending := [.spanBegin, .powerOn] } : State).pending = .spanBegin :: [.powerOn] := rfl

/-- The part in reset. -/
def held : State := { up with resetPin := true }

theorem witness_TimePassesOnlyOutOfReset :
    up.pending = [] ∧ up.resetPin = false ∧ held.pending = [] ∧ held.resetPin = true ∧
    Instr.spanBegin ≠ .powerOn ∧ Instr.spanBegin ≠ .resetPinAssert ∧ Instr.spanBegin ≠ .resetPinRelease := by decide +kernel

theorem witness_PowerOnValues : held.resetPin = true := rfl

/-- A FILL of the canvas in slot 4, and an entry of it in a given state. -/
def aFill : Job := .fill 0x104 ⟨0, 0, 8, 1⟩ 0 3
def anEntry (st : EntryState) : Entry := ⟨7, aFill, true, st, [0x104], 0⟩
def running : EntryState := .active ⟨false, false, false⟩

/-- P1's queue with these entries, pins on the picture, a request and a record if given. -/
def queued (entries : List Entry) (request : Option (List Claim)) (record : Option EngineRecord) : State :=
  (shown (picture .live 1 [⟨.p2, .r, 0, none⟩])).modPort .p1 fun b => { b with
    queue := { b.queue with entries := entries, nextSeq := 8 }, request := request, record := record
    claims := if record.isSome then aFill.claims else [] }

/-- The engine's record of that FILL: 8 pixels of C16 from block 150, words 76800 and 76801. -/
def aRecord : EngineRecord :=
  ⟨7, aFill, none, some ⟨0x104, 150, 150, 1280, 640, .c16⟩, false, false, 0, 0, false, none, false⟩

def spanning (s : State) (data : List Byte) : State := { s with engine := ⟨some ⟨.p1, data⟩, .p1⟩ }

/-- The store serves the span of this record. -/
def served (r : EngineRecord) (data : List Byte) : State :=
  { spanning ((queued [anEntry running] none (some aRecord)).modPort .p1 fun b => { b with record := some r }) data with
    arbiter := ⟨some .span, .engine⟩ }
def aRead : EngineRecord :=
  ⟨7, .read 0x104 ⟨0, 0, 8, 1⟩, some ⟨0x104, 150, 150, 1280, 640, .c16⟩, none, false, false, 0, 0, false, some 5, true⟩
def aWriteRecord : EngineRecord :=
  ⟨7, .write 0x104 ⟨0, 0, 8, 1⟩, none, some ⟨0x104, 150, 150, 1280, 640, .c16⟩, false, false, 0, 0, true, some 5, false⟩

/-- The end of a span begins the next one, of the FILL's second row, in the same step, before the store is asked (R103, R105,
R26). -/
theorem test_span_end_begins_the_next :
    ((after (.spanComplete []) (served { aRecord with job := .fill 0x104 ⟨0, 0, 8, 2⟩ 0 3 } [])).map fun t =>
      (t.engine.span, t.arbiter.serving, (t.port .p1).record.map EngineRecord.row)) =
    some (some ⟨.p1, []⟩, none, some 1) := by decide +kernel

/-- A block cleared, and a word of it written in part after that: the check bits are the code's over the word's new data
(R22, R25). -/
theorem test_check_bits_follow_the_data :
    ((⟨[], [], [], 0⟩ : Store).clearBlock 1 .c16 0x1234).checkBits 513 = Config.checkCode 0x1234123412341234 ∧
    (((⟨[], [], [], 0⟩ : Store).clearBlock 1 .c16 0x1234).write 4106 [0xAB, 0xCD]).checkBits 513 =
      Config.checkCode 0x12341234CDAB1234 := by
  constructor
  · rw [Store.checkBits_clearBlock, if_pos (by decide)]
    exact congrArg _ (by decide +kernel)
  · rw [Store.checkBits_write, if_pos (by decide)]
    exact congrArg _ (by decide +kernel)

/-- RESET-DEVICE waits on P0; the store serves `access`. -/
def reset0 (access : Option Access) : State :=
  { has .p0 .req [5, 0, 1, 0] up with arbiter := ⟨access, .clearUnit⟩ }

theorem witness_ResetDeviceResetsEveryBlock :
    (reset0 none).Oldest .p0 .req [5, 0, 1, 0] [] ∧ IsRequest [5, 0, 1, 0] 0x05 ∧ (reset0 none).arbiter.serving = none ∧
    (reset0 (some (.block 4095 .i8 0))).Oldest .p0 .req [5, 0, 1, 0] [] ∧
    (reset0 (some (.block 4095 .i8 0))).arbiter.serving = some (.block 4095 .i8 0) := by
  unfold State.Oldest IsRequest; decide +kernel

/-- A span access abandoned: of a FILL, and of a READ that has met an uncorrectable word. -/
theorem witness_ResetDeviceResetsEveryBlock_span :
    (has .p0 .req [5, 0, 1, 0] (served aRecord [])).Oldest .p0 .req [5, 0, 1, 0] [] ∧
    (has .p0 .req [5, 0, 1, 0] (served aRecord [])).arbiter.serving = some .span ∧
    (has .p0 .req [5, 0, 1, 0] (served aRecord [])).engine.span = some ⟨.p1, []⟩ ∧
    ((has .p0 .req [5, 0, 1, 0] (served aRecord [])).port .p1).record = some aRecord ∧
    aRecord.dstWords = [76800, 76801] ∧
    76801 ∈ aRead.reads ∧ ((served aRead []).store.setCondition 76801 .uncorrectable).condition 76801 =
      some .uncorrectable := by
  unfold State.Oldest; decide +kernel

theorem witness_ReceiverReadsWhatIsSent :
    (∀ b ∈ ([0x00, 0xD0] : List Byte), b ≠ 0xD1) ∧
    (WireFrame.mk 1 0 0 (List.replicate 1040 0)).payload.length = 1040 ∧ (up.port .p1).link.lane = none ∧
    ({ (up.port .p1).link with lane := some ⟨1, 0, 0, List.replicate 1040 0⟩ } : Link).lane =
      some ⟨1, 0, 0, List.replicate 1040 0⟩ := by decide +kernel

/-- The bytes of a too long frame, of a frame with a wrong CRC, and of one of class 0x05. -/
def tooLong : List Byte := [1, 0, 0, 0x11, 0x04]
def badCrc : List Byte := [1, 0, 0, 0, 0, 0, 0]
def classFive : WireFrame := ⟨0x05, 0, 0, []⟩

theorem witness_FaultyFramesAreDiscarded :
    up.resetPin = false ∧ (up.port .p1).link.rx ++ (0xD1 :: tooLong) = 0xD1 :: tooLong ∧ 5 ≤ tooLong.length ∧
    1040 < num16 tooLong 3 ∧
    (up.port .p1).link.rx ++ (0xD1 :: badCrc) = 0xD1 :: badCrc ∧ 5 ≤ badCrc.length ∧ num16 badCrc 3 ≤ 1040 ∧
    num16 badCrc 3 + 7 ≤ badCrc.length ∧
    (crc16 (badCrc.take (num16 badCrc 3 + 5))).toNat ≠ num16 badCrc (num16 badCrc 3 + 5) ∧
    (up.port .p1).link.rx ++ classFive.bytes = classFive.bytes ++ [] ∧ classFive.payload.length ≤ 1040 ∧
    classFive.cls ≠ 0x01 ∧ classFive.cls ≠ 0x02 ∧ classFive.cls ≠ 0xC0 := by decide +kernel

/-- Frames 5, 6 and 7 in P1's outbound list, the first two sent. -/
def threeUsed : State := upWith .p1 fun b => { b with link := { b.link with
  used := [⟨.rep, 5, []⟩, ⟨.rep, 6, []⟩, ⟨.rep, 7, []⟩], nextOut := 8, sentCount := 2, transmitPoint := some 7
  resendTimer := some 3 } }

/-- Values 5 and 6 free one and two frames, 7 and 4 none; with no used frame nothing is freed. -/
theorem witness_AcknowledgementFreesTheOldestFrames :
    threeUsed.resetPin = false ∧ (threeUsed.port .p1).portState = .up ∧
    (threeUsed.port .p1).link.rx ++ (WireFrame.mk 0xC0 0 6 []).bytes = (WireFrame.mk 0xC0 0 6 []).bytes ++ [] ∧
    (threeUsed.port .p1).link.used = ⟨.rep, 5, []⟩ :: [⟨.rep, 6, []⟩, ⟨.rep, 7, []⟩] ∧
    (5 - 5 + 1 : BitVec 8).toNat = 1 ∧ (6 - 5 + 1 : BitVec 8).toNat = (threeUsed.port .p1).link.sentCount ∧
    (threeUsed.port .p1).link.sentCount < (7 - 5 + 1 : BitVec 8).toNat ∧ (4 - 5 + 1 : BitVec 8).toNat = 0 ∧
    (up.port .p1).portState = .up ∧ (up.port .p1).link.used = [] := by decide +kernel

/-- A lane that has gathered nothing receives a whole frame, whatever the frame. -/
theorem whole (s : State) (p : Port) (f : WireFrame) (h : (s.port p).link.rx = []) :
    (s.port p).link.rx ++ f.bytes = f.bytes ++ [] := by rw [h, List.append_nil, List.nil_append]

/-- With `whole`: a REQ in sequence, one 127 and one 128 ahead, and DAT frames with payloads of 6, 7, 1030 and 1031 bytes. -/
theorem witness_SequenceTestOnAnUpPort :
    up.resetPin = false ∧ (up.port .p1).portState = .up ∧ (up.port .p1).link.rx = [] ∧
    (∀ f ∈ [WireFrame.mk 1 0 0 [0x22, 0, 0, 0], ⟨1, 127, 0, []⟩, ⟨1, 128, 0, []⟩, ⟨2, 0, 0, List.replicate 6 0⟩,
        ⟨2, 0, 0, List.replicate 7 0⟩, ⟨2, 0, 0, List.replicate 1030 0⟩, ⟨2, 0, 0, List.replicate 1031 0⟩],
      f.payload.length ≤ 1040 ∧ ((f.cls = 0x01 ∧ f.payload.head? ≠ some 0x01) ∨ f.cls = 0x02)) := by decide +kernel

/-- The port with this state. -/
def inState (st : PortState) : State := upWith .p1 fun b => { b with portState := st }

theorem witness_FramesOutsideASession :
    (∀ st ∈ [PortState.lost, .unsynced, .disabled, .resetting ⟨.up, [], none, none, false⟩],
      (inState st).resetPin = false ∧ ((inState st).port .p1).portState = st ∧ st ≠ .up ∧
      ∀ f ∈ [WireFrame.mk 1 0 0 [0x22, 0, 0, 0], ⟨2, 0, 0, []⟩, ⟨0xC0, 0, 0, []⟩, ⟨1, 9, 9, [1, 0, 0, 0, 1, 0]⟩],
        ((inState st).port .p1).link.rx ++ f.bytes = f.bytes ++ []) ∧
    (WireFrame.mk 1 0 0 [0x22, 0, 0, 0]).payload.head? ≠ some 0x01 ∧
    (WireFrame.mk 1 9 9 [1, 0, 0, 0, 1, 0]).payload.head? = some 0x01 := by decide +kernel

/-- `up` with this change of P1's link. -/
def linked (f : Link → Link) : State := upWith .p1 fun b => { b with link := f b.link }

theorem witness_TransmitterChoosesInOrder :
    ((linked fun l => { l with nak := some ⟨.crc, 3⟩ }).port .p1).link.nak = some ⟨.crc, 3⟩ ∧
    ((inState .lost).port .p1).link.nak = none ∧ ((inState .lost).port .p1).portState ≠ .up ∧
    ((linked fun l => { l with helloReply := some ⟨3, []⟩ }).port .p1).link.helloReply = some ⟨3, []⟩ ∧
    (threeUsed.port .p1).portState = .up ∧ (threeUsed.port .p1).link.nak = none ∧
    (threeUsed.port .p1).link.helloReply = none ∧
    (threeUsed.port .p1).link.used = [⟨.rep, 5, []⟩, ⟨.rep, 6, []⟩] ++ ⟨.rep, 7, []⟩ :: [] ∧
    (∀ g ∈ [OutFrame.mk .rep 5 [], ⟨.rep, 6, []⟩], g.seq ≠ 7) ∧ (threeUsed.port .p1).link.transmitPoint = some 7 ∧
    ((linked fun l => { l with ackOwed := true }).port .p1).link.transmitPoint = none ∧
    ((linked fun l => { l with ackOwed := true }).port .p1).link.ackOwed = true ∧
    (up.port .p1).link.transmitPoint = none ∧ (up.port .p1).link.ackOwed = false := by decide +kernel

/-- P1's resend timer is due; its queue holds these entries in this run state. -/
def due (retransmits : Nat) (state : RunState) (entries : List Entry) : State := upWith .p1 fun b => { b with
  link := { b.link with resendTimer := some 0, retransmits := retransmits }
  queue := { b.queue with run := state, entries := entries } }

theorem witness_ResendTimerExpires :
    (due 7 .run []).resetPin = false ∧ ((due 7 .run []).port .p1).link.resendTimer = some 0 ∧
    ((due 7 .run []).port .p1).link.retransmits + 1 ≤ ((due 7 .run []).port .p1).config.retransmitLimit ∧
    ((due 8 .run []).port .p1).config.retransmitLimit < ((due 8 .run []).port .p1).link.retransmits + 1 ∧
    ((due 8 .run []).port .p1).portState = .up ∧
    (((due 8 .run [anEntry running]).elapse 0).port .p1).queue.run = .run ∧
    (((due 8 .run [anEntry running]).elapse 0).port .p1).queue.active.isSome = true ∧
    (∀ e ∈ (((due 8 .run [anEntry (.queued false)]).elapse 0).port .p1).queue.entries, e.isQueued = true) ∧
    (((due 8 .run []).elapse 0).port .p1).queue.entries = [] ∧ (((due 8 .run []).elapse 0).port .p1).queue.haltWaiters = [] ∧
    (((due 8 .run [anEntry (.waiting 9), anEntry (.queued false)]).elapse 0).port .p1).queue.entries =
      anEntry (.waiting 9) :: [anEntry (.queued false)] ∧
    [anEntry (.queued false)].all Entry.isQueued = true ∧
    (((due 8 .halting []).elapse 0).port .p1).queue.run = .halting ∧
    (((due 8 .halted []).elapse 0).port .p1).queue.run = .halted := by decide +kernel

/-- A HELLO waits on P1 in this state. -/
def hello (st : PortState) (payload : List Byte) : State := has .p1 .req payload (inState st)

theorem witness_HelloOnAPortWithoutReset :
    (∀ m ∈ ([[1, 0, 5, 0], [1, 0, 5, 0, 1, 0], [1, 0, 5, 0, 2, 0], [1, 0, 5, 0, 3, 0]] : List (List Byte)),
      (hello .unsynced m).resetPin = false ∧ ((hello .unsynced m).port .p1).link.inbound = ⟨.req, m⟩ :: [] ∧
      4 ≤ m.length ∧ num8 m 0 = 0x01 ∧ ((hello .unsynced m).port .p1).portState = .unsynced ∧
      ((hello .unsynced m).port .p1).link.used.length + ((hello .unsynced m).port .p1).link.reserved < 8) ∧
    ((hello .unsynced [1, 0, 5]).port .p1).link.inbound = ⟨.req, [1, 0, 5]⟩ :: [] ∧ ([1, 0, 5] : List Byte).length < 4 ∧
    (∀ m ∈ ([[1, 0, 5, 0, 1], [1, 0, 5, 0, 2, 0, 0], [1, 0, 5, 0, 0, 0], [1, 0, 5, 0, 3, 0]] : List (List Byte)),
      num8 m 0 = 0x01 ∧ (m.length ≠ 6 ∨ num8 m 4 ≠ 0x01 ∧ num8 m 4 ≠ 0x02) ∧
      ((hello .up m).port .p1).portState = .up ∧ ((hello .up m).port .p1).link.inbound = ⟨.req, m⟩ :: [] ∧
      ((hello .lost m).port .p1).portState = .lost ∧ ((hello .lost m).port .p1).link.inbound = ⟨.req, m⟩ :: []) := by
  decide +kernel

theorem witness_HelloOnAPortWithoutReset_resume :
    ([1, 0, 5, 0, 2, 9] : List Byte).length = 6 ∧
    (hello .up [1, 0, 5, 0, 2, 9]).Oldest .p1 .req [1, 0, 5, 0, 2, 9] [] ∧ IsRequest [1, 0, 5, 0, 2, 9] 0x01 ∧
    num8 [1, 0, 5, 0, 2, 9] 4 = 0x02 ∧ ((hello .up [1, 0, 5, 0, 2, 9]).port .p1).portState = .up ∧
    (hello .lost [1, 0, 5, 0, 2, 9]).Oldest .p1 .req [1, 0, 5, 0, 2, 9] [] ∧
    ((hello .lost [1, 0, 5, 0, 2, 9]).port .p1).portState = .lost := by
  unfold State.Oldest IsRequest; decide +kernel

/-- A reset operation with a requester, a HELLO pending and the queue stopped. -/
def anOp (final : FinalState) : ResetOp := ⟨final, [3], some 9, none, true⟩

/-- A port whose reset awaits its ACTIVE job, and one whose queue has stopped. -/
theorem witness_ResettingPortsStayQuiet :
    (inState (.resetting (anOp .up))).ResettingPortsQuiet ∧
    ((queued [anEntry running] none none).modPort .p1 fun b =>
      { b with portState := .resetting ⟨.up, [], none, none, false⟩ }).ResettingPortsQuiet ∧
    (∃ t, step (inState (.resetting (anOp .up))) = .next t) := by
  refine ⟨fun p op _ => ?_, fun p op h => ?_, ⟨_, rfl⟩⟩
  · cases p <;> exact ⟨rfl, fun _ => rfl⟩
  · cases p
    case p1 => cases h; exact ⟨rfl, fun h => by cases h⟩
    all_goals exact ⟨rfl, fun _ => rfl⟩

/-- With `witness_PinsStayExact` and `witness_CanvasTableStaysExact`: an ACTIVE job with its span in progress, without one, and without a record. -/
theorem witness_PortResetBeginning :
    (⟨.up, [], some 5, none, false⟩ : ResetOp).requesters = [] ∧
    (∀ s ∈ [queued [anEntry running] none (some aRecord), spanning (queued [anEntry running] none (some aRecord)) []],
      (s.port .p1).record = some aRecord ∧ (s.port .p1).queue.active ≠ none) ∧
    (∃ x ∈ (spanning (queued [anEntry running] none (some aRecord)) []).engine.span, x.port = .p1) ∧
    (queued [anEntry running] none (some aRecord)).engine.span = none ∧
    ((queued [anEntry running] none none).port .p1).record = none ∧ ((queued [] none none).port .p1).queue.active = none := by
  decide +kernel

/-- P0's RESET-PORT and PORT-SET DISABLE of P1. -/
def resetP1 : List Byte := [4, 0, 5, 0, 1, 0]
def disableP1 : List Byte := [2, 0, 5, 0, 1, 2, 0, 0x10, 255, 0]
def p0asks (m : List Byte) (st : PortState) : State := has .p0 .req m (inState st)

/-- The state after the reset that P0 begins with nothing left to wait for. -/
def begunAndDone (m : List Byte) (st : PortState) (final : FinalState) (quotas : Option (Nat × Nat)) : State :=
  let s := p0asks m st
  let op : ResetOp := ⟨final, [], none, quotas, ((s.port .p1).queue.active).isNone⟩
  ((s.setPort .p0 ((s.port .p0).took [])).beginReset .p1 op).completeReset .p1 op

theorem slotsWith_nil (s : State) (f : Canvas → Bool) (h : ∀ n, s.canvas n = none) : s.slotsWith f = [] := by
  simp [State.slotsWith, h]

theorem no_canvas (st : PortState) (n : Nat) : (inState st).canvas n = none := by
  cases n with
  | zero => rfl
  | succ k =>
    simp only [State.canvas, State.slot, inState, upWith, State.modPort, State.setPort, up, State.reset]
    by_cases h : k < 255 <;> simp [h]

/-- With no canvas to reach, the reset takes only P1's blocks, and P0 keeps its two slots. -/
theorem begunAndDone_reserved (m : List Byte) (st : PortState) (final : FinalState) (quotas : Option (Nat × Nat)) :
    ((begunAndDone m st final quotas).port .p0).link.reserved = 2 := by
  have h : ∀ (x : State) n, x.slots = (inState st).slots.map (Slot.resetMarks .p1) → x.canvas n = none := by
    intro x n hx
    have h0 := no_canvas st n
    cases n with
    | zero => rfl
    | succ k =>
      simp only [State.canvas, State.slot, hx, Vector.getElem?_map] at h0 ⊢
      cases hk : (inState st).slots[k]? with
      | none => rfl
      | some y => rw [hk] at h0; simpa [Slot.resetMarks] using h0
  unfold begunAndDone State.beginReset
  dsimp only
  rw [slotsWith_nil _ _ fun n => h _ n rfl, slotsWith_nil _ _ fun n => h _ n rfl]
  rfl

/-- With `begunAndDone_reserved`. -/
theorem witness_APortResetIsBegun :
    (hello .up [1, 0, 5, 0, 1, 0]).Oldest .p1 .req [1, 0, 5, 0, 1, 0] [] ∧ IsRequest [1, 0, 5, 0, 1, 0] 0x01 ∧
    num8 [1, 0, 5, 0, 1, 0] 4 = 0x01 ∧ ((hello .lost [1, 0, 5, 0, 1, 0]).port .p1).portState = .lost ∧
    (p0asks resetP1 .up).Oldest .p0 .req resetP1 [] ∧ num8 resetP1 4 = Port.num .p1 ∧ IsRequest resetP1 0x04 ∧
    resetP1.length = 6 ∧ ((p0asks resetP1 .up).port .p1).portState.isResetting = false ∧
    ((p0asks resetP1 .disabled).port .p1).portState = .disabled ∧
    (p0asks disableP1 .lost).Oldest .p0 .req disableP1 [] ∧ IsRequest disableP1 0x02 ∧ disableP1.length = 10 ∧
    num8 disableP1 5 = 0x02 ∧ num16 disableP1 6 = 4096 ∧ num16 disableP1 8 = 255 := by
  unfold State.Oldest IsRequest; decide +kernel

/-- P0's PORT-SET ENABLE of a target, with the greatest quotas. -/
def enable (target : Byte) : List Byte := [2, 0, 5, 0, target, 1, 0, 0x10, 255, 0]

theorem witness_SupervisorJoinsAPortReset :
    (p0asks resetP1 (.resetting (anOp .up))).Oldest .p0 .req resetP1 [] ∧ num8 resetP1 4 = Port.num .p1 ∧
    ((p0asks resetP1 (.resetting (anOp .up))).port .p1).portState = .resetting (anOp .up) ∧
    ((p0asks disableP1 (.resetting (anOp .disabled))).port .p1).portState = .resetting (anOp .disabled) ∧
    num16 disableP1 6 ≤ 4096 ∧ num16 disableP1 8 ≤ 255 ∧
    (p0asks (enable 1) (.resetting (anOp .up))).Oldest .p0 .req (enable 1) [] ∧ IsRequest (enable 1) 0x02 ∧
    (enable 1).length = 10 ∧ num8 (enable 1) 5 = 0x01 ∧ num16 (enable 1) 6 ≤ 4096 ∧ num16 (enable 1) 8 ≤ 255 := by
  unfold State.Oldest IsRequest; decide +kernel

/-- Its reset can complete; or cannot, since the queue has not stopped. -/
theorem witness_PortResetCompletion :
    (inState (.resetting (anOp .up))).resetPin = false ∧
    ((inState (.resetting (anOp .up))).port .p1).portState = .resetting (anOp .up) ∧
    ((inState (.resetting (anOp .up))).port .p1).link.used.length +
      ((inState (.resetting (anOp .up))).port .p1).link.reserved < 8 ∧
    (anOp .up).queueStopped = true ∧ ((inState (.resetting (anOp .up))).port .p1).canvasesHeld = 0 ∧
    ((inState (.resetting (anOp .up))).port .p1).blocksHeld = 0 ∧
    (∀ n c, (inState (.resetting (anOp .up))).canvas n = some c →
      ∀ g ∈ c.grants, g.port = .p1 → ∀ r, g.revoke = some r → r.granteeReset = false) ∧
    ((inState (.resetting ⟨.unsynced, [], none, none, false⟩)).port .p1).portState =
      .resetting ⟨.unsynced, [], none, none, false⟩ := by
  refine ⟨by decide, by decide, by decide, rfl, by decide, by decide, ?_, by decide⟩
  intro n c h
  rw [no_canvas] at h
  cases h

/-- The target holds nothing, or 4097 blocks, more than any quota. -/
theorem witness_PortSetEnableSetsQuotas :
    (p0asks (enable 1) .up).Oldest .p0 .req (enable 1) [] ∧ IsRequest (enable 1) 0x02 ∧ (enable 1).length = 10 ∧
    num8 (enable 1) 4 = Port.num .p1 ∧ num8 (enable 1) 5 = 0x01 ∧ num16 (enable 1) 6 = 4096 ∧ num16 (enable 1) 8 = 255 ∧
    ((p0asks (enable 1) .disabled).port .p1).portState.isResetting = false ∧
    0 < ((p0asks (enable 1) .up).port .p0).link.reserved ∧
    num16 (enable 1) 6 < (((p0asks (enable 1) .up).modPort .p1 fun b => { b with blocksHeld := 4097 }).port .p1).blocksHeld ∧
    (p0asks [2, 0, 5, 0, 1, 1, 0, 0, 0, 0] .disabled).Oldest .p0 .req [2, 0, 5, 0, 1, 1, 0, 0, 0, 0] [] := by
  unfold State.Oldest IsRequest; decide +kernel

/-- A CONFIG of these settings from P1. -/
def configOf (xs : List (Nat × Nat)) : List Byte :=
  [3, 0, 5, 0] ++ [BitVec.ofNat 8 xs.length] ++ xs.flatMap fun x => BitVec.ofNat 8 x.1 :: enc16 x.2

/-- Every setting at its greatest value, and the numeric ones at their least. -/
def allSettings : List (Nat × Nat) :=
  [(1, 1000), (2, 1000), (3, 5000), (4, 100), (5, 32), (0x10, 2), (0x11, 2), (0x12, 2), (0x13, 2), (0x20, 1), (0x21, 1),
   (0x22, 1), (0x23, 1), (0x30, 63)]

theorem witness_ConfigAppliesEverySetting :
    ∀ xs ∈ [[], allSettings, [(1, 1), (2, 1), (3, 1), (4, 1), (5, 1), (0x10, 1), (0x13, 1), (0x20, 0), (0x23, 0), (0x30, 0)]],
      ((has .p1 .req (configOf xs) up).port .p1).link.inbound = ⟨.req, configOf xs⟩ :: [] ∧
      4 ≤ (configOf xs).length ∧ num8 (configOf xs) 0 = 0x03 ∧ xs.length ≤ 14 ∧ (xs.map Prod.fst).Nodup ∧
      (∀ x ∈ xs,
        (x.1 = 0x01 ∨ x.1 = 0x02) ∧ 1 ≤ x.2 ∧ x.2 ≤ 1000 ∨ x.1 = 0x03 ∧ 1 ≤ x.2 ∧ x.2 ≤ 5000 ∨
        x.1 = 0x04 ∧ 1 ≤ x.2 ∧ x.2 ≤ 100 ∨ x.1 = 0x05 ∧ 1 ≤ x.2 ∧ x.2 ≤ 32 ∨
        0x10 ≤ x.1 ∧ x.1 ≤ 0x13 ∧ (x.2 = 1 ∨ x.2 = 2) ∨ 0x20 ≤ x.1 ∧ x.1 ≤ 0x23 ∧ (x.2 = 0 ∨ x.2 = 1) ∨
        x.1 = 0x30 ∧ x.2 < 64) ∧
      0 < ((has .p1 .req (configOf xs) up).port .p1).link.reserved := by decide +kernel

/-- With `asks_oldest` and `asks_reserved`: lengths that do not fit the count, and settings that are not known. -/
theorem witness_ConfigAppliesEverySetting_malformed :
    (∀ m ∈ ([[3, 0, 5, 0], [3, 0, 5, 0, 1], [3, 0, 5, 0, 0, 1]] : List (List Byte)), 4 ≤ m.length ∧ num8 m 0 = 0x03 ∧
      m.length ≠ 5 + 3 * num8 m 4) ∧
    (∀ xs ∈ [[(1, 5), (1, 5)], [(0, 1)], [(6, 1)], [(0x14, 1)], [(0x10, 0)], [(0x10, 3)], [(0x24, 0)], [(0x20, 2)],
        [(0x30, 64)], [(0x30, 65535)], [(255, 0)]],
      ¬ ((xs.map Prod.fst).Nodup ∧ ∀ x ∈ xs, 1 ≤ x.1 ∧ x.1 ≤ 5 ∨ 0x10 ≤ x.1 ∧ x.1 ≤ 0x13 ∧ (x.2 = 1 ∨ x.2 = 2) ∨
        0x20 ≤ x.1 ∧ x.1 ≤ 0x23 ∧ (x.2 = 0 ∨ x.2 = 1) ∨ x.1 = 0x30 ∧ x.2 < 64)) := by decide +kernel

/-- Numeric settings beside their ranges. -/
theorem witness_ConfigAppliesEverySetting_range :
    ∀ x ∈ [(1, 0), (1, 1001), (2, 1001), (3, 5001), (4, 101), (5, 33), (5, 0)],
      1 ≤ x.1 ∧ x.1 ≤ 5 ∧ ¬ ((x.1 ≤ 5 → 1 ≤ x.2) ∧ (x.1 = 1 ∨ x.1 = 2 → x.2 ≤ 1000) ∧ (x.1 = 3 → x.2 ≤ 5000) ∧
        (x.1 = 4 → x.2 ≤ 100) ∧ (x.1 = 5 → x.2 ≤ 32)) := by decide +kernel

/-- A request waits on a port of `up`. -/
def asks (p : Port) (m : List Byte) : State := has p .req m up

theorem asks_oldest (p : Port) (m : List Byte) : (asks p m).Oldest p .req m [] := by
  cases p <;> exact ⟨rfl, rfl⟩

theorem asks_reserved (p : Port) (m : List Byte) : 0 < ((asks p m).port p).link.reserved := by
  cases p <;> exact (by decide : 0 < 2)

/-- With `asks_oldest` and `asks_reserved`: a header too short, an unknown kind, a length beside each bound, a supervisor's
request of P3, and each field out of its codes or range. -/
theorem witness_RequestsAreRefused :
    (∀ m ∈ ([[], [0x22, 0, 0]] : List (List Byte)), m.length < 4 ∧ num8 m 0 ≠ 0x01) ∧
    num8 [0x34, 0, 0, 0] 0 ∉ [0x01, 0x02, 0x03, 0x04, 0x05, 0x10, 0x11, 0x12, 0x13, 0x14, 0x15, 0x20, 0x21, 0x22, 0x23, 0x30,
      0x31, 0x32, 0x33] ∧
    (∀ n ∈ [13, 119], (0x20 :: List.replicate (n - 1) 0 : List Byte).length ∉ List.range' 14 105) ∧
    (∀ n ∈ [5, 18], (0x32 :: List.replicate (n - 1) 0 : List Byte).length ∉ List.range' 6 12) ∧
    (∀ n ∈ [9, 11, 13, 17, 19], (0x10 :: List.replicate (n - 1) 0 : List Byte).length ∉ [10, 14, 18]) ∧
    (∀ n ∈ [4, 48], (0x03 :: List.replicate (n - 1) 0 : List Byte).length ∉ List.range' 5 43) ∧
    Port.p3 ≠ .p0 ∧ IsRequest (enable 1) 0x02 ∧ num8 (enable 1) 5 ≠ 0x02 ∧ IsRequest disableP1 0x02 ∧
    num8 disableP1 5 = 0x02 ∧ IsRequest resetP1 0x04 ∧ IsRequest [5, 0, 1, 0] 0x05 ∧
    3 < num8 (enable 4) 4 ∧ num8 [2, 0, 5, 0, 1, 0, 0, 0, 0, 0] 5 ∉ [1, 2] ∧ num8 [2, 0, 5, 0, 1, 3, 0, 0, 0, 0] 5 ∉ [1, 2] ∧
    4096 < num16 [2, 0, 5, 0, 3, 1, 1, 0x10, 0, 0] 6 ∧ 255 < num16 [2, 0, 5, 0, 3, 2, 0, 0, 0, 1] 8 ∧
    num8 [2, 0, 5, 0, 0, 2, 0, 0, 0, 0] 4 = 0 ∧
    3 < num8 [4, 0, 5, 0, 4, 0] 4 ∧ num8 [4, 0, 5, 0, 0, 0] 4 = 0 ∧ 1 < num8 [0x13, 0, 5, 0, 2, 0] 4 ∧
    3 < num8 [0x15, 0, 5, 0, 4, 1, 4, 1, 1, 0] 6 ∧ num8 [0x15, 0, 5, 0, 4, 1, 1, 0, 1, 0] 7 ∉ [1, 2] ∧
    num8 [0x11, 0, 5, 0, 4, 1, 3, 0, 1, 0] 6 ∉ [1, 2] := by
  unfold IsRequest; decide +kernel

theorem witness_CanvasSizes : 1 ≤ (1 : Nat) ∧ (1 : Nat) ≤ 4096 ∧ 1 ≤ (4096 : Nat) := by decide

/-- OPEN of 8 × 8 I8, one block, with slot 1 and blocks 0 to 299 taken: slot 2 and block 300 are the first free. -/
def open8 : List Byte := [0x10, 0, 5, 0, 8, 0, 8, 0, 2, 0]
def crowded : State :=
  { (has .p1 .req open8 up).setSlot 1 ⟨1, some (picture .live 0 [])⟩ with allocated := BitVec.ofNat 4096 (2 ^ 300 - 1) }

theorem witness_OpenIsTakenOrRefused :
    crowded.Oldest .p1 .req open8 [] ∧ IsRequest open8 0x10 ∧ open8.length ∈ [10, 14, 18] ∧
    Format.ofCode (num8 open8 8) = some .i8 ∧ Format.i8.blockCount 8 8 = 1 ∧
    (crowded.port .p1).canvasesHeld < (crowded.port .p1).canvasQuota ∧
    (crowded.port .p1).blocksHeld + 1 ≤ (crowded.port .p1).blockQuota ∧ crowded.canvas 2 = none ∧
    (∀ m, 1 ≤ m → m < 2 → crowded.canvas m ≠ none) ∧
    (∀ b, 300 ≤ b → b < 300 + 1 → crowded.allocated.getLsbD b = false) ∧
    (∀ g, g < 300 → ∃ b, g ≤ b ∧ b < g + 1 ∧ crowded.allocated.getLsbD b = true) := by
  have h : ∀ g < 300, crowded.allocated.getLsbD g = true := by decide +kernel
  refine ⟨⟨rfl, rfl⟩, ⟨by decide, by decide⟩, by decide, by decide, by decide +kernel, by decide, by decide, by decide +kernel, ?_, ?_,
    fun g hg => ⟨g, le_refl g, by omega, h g hg⟩⟩
  · intro m h1 h2
    obtain rfl : m = 1 := by omega
    decide +kernel
  · intro b h1 h2
    obtain rfl : b = 300 := by omega
    decide +kernel

/-- With `asks_oldest` and `asks_reserved`: no format, sizes beside their bounds, quotas just reached, a full store. -/
theorem witness_OpenIsTakenOrRefused_refused :
    num8 [0x10, 0, 5, 0, 8, 0, 8, 0, 5, 0] 8 ∉ [1, 2, 3, 4] ∧ num16 [0x10, 0, 5, 0, 0, 0, 8, 0, 2, 0] 4 = 0 ∧
    num16 [0x10, 0, 5, 0, 1, 0x10, 8, 0, 2, 0] 4 = 4097 ∧ num16 [0x10, 0, 5, 0, 8, 0, 1, 0x10, 2, 0] 6 = 4097 ∧
    ¬ (((upWith .p1 fun b => { b with canvasesHeld := 64 }).port .p1).canvasesHeld < 64) ∧
    ¬ (((upWith .p1 fun b => { b with blocksHeld := 1024 }).port .p1).blocksHeld + 1 ≤ 1024) ∧
    ¬ Format.c32.blockCount 4096 4096 ≤ 4096 ∧
    (let s : State := { asks .p1 open8 with allocated := BitVec.allOnes 4096 }
     s.Oldest .p1 .req open8 [] ∧ (s.port .p1).canvasesHeld < (s.port .p1).canvasQuota ∧
     ¬ ∃ g, g + 1 ≤ 4096 ∧ ∀ b, g ≤ b → b < g + 1 → s.allocated.getLsbD b = false) := by
  refine ⟨by decide, by decide, by decide, by decide, by decide, by decide, by decide +kernel, ⟨rfl, by decide⟩,
    by decide, ?_⟩
  rintro ⟨g, hg, h⟩
  have h2 : (BitVec.allOnes 4096).getLsbD g = false := h g (le_refl g) (by omega)
  rw [BitVec.getLsbD_allOnes, decide_eq_false_iff_not] at h2
  omega

/-- The picture LIVE with a grant to P2. -/
def granted (g : Grant) : State := shown (picture .live 0 [g])

theorem shown_slot (c : Canvas) (n : Nat) :
    (shown c).slot n = if n = 4 then ⟨1, some c⟩ else if 1 ≤ n ∧ n ≤ 255 then ⟨1, none⟩ else ⟨0, none⟩ := by
  by_cases h4 : n = 4
  · subst h4; simp [shown]
  · rw [shown, State.slot_setSlot_ne _ _ _ _ h4, if_neg h4]
    cases n with
    | zero => rfl
    | succ j =>
      simp only [State.slot, up, State.reset]
      by_cases hb : j < 255
      · rw [if_pos (by omega)]; simp [hb]
      · rw [if_neg (by omega)]; simp [hb]

theorem shown_canvas (c d : Canvas) (n : Nat) (h : (shown c).canvas n = some d) : n = 4 ∧ d = c := by
  unfold State.canvas at h
  rw [shown_slot] at h
  split at h
  · next h4 => exact ⟨h4, (Option.some.inj h).symm⟩
  · split at h <;> cases h

/-- With `shown_slot`: handles with slot 0, with generation 0, of a FREE slot, of another generation, of a CLEARING canvas, and
one that is not stale. -/
theorem witness_QueryAndListReport_stale :
    (0x0100 : Handle).toNat % 256 = 0 ∧ (0x0004 : Handle).toNat / 256 = 0 ∧
    ∀ c, ((shown c).slot ((0x0105 : Handle).toNat % 256)).canvas = none ∧
      ((shown c).slot ((0x0204 : Handle).toNat % 256)).generation.toNat ≠ (0x0204 : Handle).toNat / 256 ∧
      ((shown c).slot ((0x0104 : Handle).toNat % 256)).canvas = some c ∧
      ((shown c).slot ((0x0104 : Handle).toNat % 256)).generation.toNat = (0x0104 : Handle).toNat / 256 := by
  refine ⟨by decide, by decide, fun c => ?_⟩
  simp only [shown_slot]
  exact ⟨rfl, (by decide : (1 : Nat) ≠ 2), rfl, rfl⟩

/-- The picture asked about by its owner, its grantee, P0 and P3; LIST. -/
theorem witness_QueryAndListReport :
    IsRequest [0x12, 0, 5, 0, 4, 1] 0x12 ∧ (asks .p1 [0x12, 0, 5, 0, 4, 1]).lookup 0x104 = none ∧
    (granted ⟨.p2, .r, 0, none⟩).lookup 0x104 = some (picture .live 0 [⟨.p2, .r, 0, none⟩]) ∧
    (∀ p ∈ Port.all, (has p .req [0x12, 0, 5, 0, 4, 1] (granted ⟨.p2, .r, 0, none⟩)).lookup 0x104 =
      some (picture .live 0 [⟨.p2, .r, 0, none⟩])) ∧
    (∀ p ∈ [Port.p0, .p1, .p2],
      (picture .live 0 [⟨.p2, .r, 0, none⟩]).owner = p ∨ (∃ g ∈ (picture .live 0 [⟨.p2, .r, 0, none⟩]).grants, g.port = p) ∨
        p = .p0) ∧
    ¬ ((picture .live 0 [⟨.p2, .r, 0, none⟩]).owner = .p3 ∨
      (∃ g ∈ (picture .live 0 [⟨.p2, .r, 0, none⟩]).grants, g.port = .p3) ∨ Port.p3 = .p0) ∧
    IsRequest [0x13, 0, 5, 0, 0, 0] 0x13 ∧ num8 [0x13, 0, 5, 0, 0, 0] 4 = 0x00 ∧ num8 [0x13, 0, 5, 0, 1, 0] 4 = 0x01 := by
  unfold IsRequest; decide +kernel

/-- The clear unit's block of the picture is served, after `k` blocks. -/
def clearing (removal : Bool) (k : Nat) : State :=
  { shown (picture (.clearing ⟨.p1, 0x101⟩) 0 []) with
    clear := ⟨[4], k, removal⟩, arbiter := ⟨some (.block (150 + k) .c16 0xF800), .clearUnit⟩ }

/-- The last block but one, the last block, a removal; and block 4095. -/
theorem witness_BlockClearedFillsAndCounts :
    (∀ s ∈ [clearing false 148, clearing false 149, clearing true 3], s.resetPin = false ∧ s.clear.list = 4 :: [] ∧
      s.canvas 4 = some (picture (.clearing ⟨.p1, 0x101⟩) 0 [])) ∧
    (clearing false 148).arbiter.serving = some (.block 298 .c16 0xF800) ∧ 298 < 4096 ∧
    (clearing false 148).clear.clearedSoFar + 1 < (picture (.clearing ⟨.p1, 0x101⟩) 0 []).blockCount ∧
    (picture (.clearing ⟨.p1, 0x101⟩) 0 []).blockCount ≤ (clearing false 149).clear.clearedSoFar + 1 ∧
    (clearing true 3).clear.removalPending = true ∧
    ({ clearing true 3 with arbiter := ⟨some (.block 4095 .c16 0xF800), .clearUnit⟩ } : State).arbiter.serving =
      some (.block 4095 .c16 0xF800) := by decide +kernel

theorem witness_ReleaseFreesTheSlot :
    (shown (picture .live 0 [])).canvas 4 = some (picture .live 0 []) ∧
    (up.setSlot 255 ⟨255, some (picture .live 0 [])⟩).canvas 255 = some (picture .live 0 []) := by decide +kernel

/-- GRANT of rights `r` to `t`, and a REVOKE of `t`'s grant, on handle 0x0104. -/
def grantMsg (t r : Byte) : List Byte := [0x14, 0, 5, 0, 4, 1, t, r]
def revokeMsg (t mode deadline : Byte) : List Byte := [0x15, 0, 5, 0, 4, 1, t, mode, deadline, 0]
def closeMsg (mode deadline : Byte) : List Byte := [0x11, 0, 5, 0, 4, 1, mode, 0, deadline, 0]
def closingOp : CloseOp := ⟨.drain 9, [], false, false⟩
def revoking (m : WaitMode) (pins : Nat) : Grant := ⟨.p2, .r, pins, some ⟨m, [], false⟩⟩

/-- A request waits on a port, the picture in slot 4. -/
def askedOf (p : Port) (m : List Byte) (c : Canvas) : State := has p .req m (shown c)

theorem askedOf_oldest (p : Port) (m : List Byte) (c : Canvas) :
    (askedOf p m c).Oldest p .req m [] ∧ 0 < ((askedOf p m c).port p).link.reserved := by
  cases p <;> exact ⟨⟨rfl, rfl⟩, (by decide : 0 < 2)⟩

/-- With `askedOf_oldest`. -/
theorem witness_GrantChecksAndResults :
    IsRequest (grantMsg 2 1) 0x14 ∧ (grantMsg 2 1).length = 8 ∧ 3 < num8 (grantMsg 4 1) 6 ∧
    num8 (grantMsg 2 0) 7 ∉ [1, 2] ∧ num8 (grantMsg 2 3) 7 ∉ [1, 2] ∧
    num8 (grantMsg 2 2) 6 = Port.num .p2 ∧ num8 (grantMsg 2 2) 7 = Rights.code .rw ∧ num8 (grantMsg 2 1) 7 = Rights.code .r ∧
    (asks .p1 (grantMsg 2 1)).lookup 0x104 = none ∧
    (∀ c ∈ [picture .live 0 [], picture (.closing closingOp) 1 [], picture .live 0 [revoking .cut 1],
        picture .live 0 [⟨.p3, .rw, 0, none⟩, ⟨.p2, .r, 0, none⟩], picture .live 0 [⟨.p2, .rw, 0, none⟩]],
      (askedOf .p1 (grantMsg 2 1) c).lookup 0x104 = some c ∧ (askedOf .p2 (grantMsg 2 1) c).lookup 0x104 = some c ∧
      c.owner = .p1 ∧ c.owner ≠ .p2) ∧
    (picture (.closing closingOp) 1 []).phase.isClosing = true ∧ (revoking .cut 1).revoke ≠ none ∧
    [Grant.mk .p3 .rw 0 none, ⟨.p2, .r, 0, none⟩] = [⟨.p3, .rw, 0, none⟩] ++ ⟨.p2, .r, 0, none⟩ :: [] ∧
    (∀ x ∈ [Grant.mk .p3 .rw 0 none] ++ [], x.port ≠ .p2) := by
  unfold IsRequest; decide +kernel

/-- With `askedOf_oldest`: deadlines at their bounds and beside them, and every state of the canvas and of the grant. -/
theorem witness_RevokeBeginsOrJoins :
    IsRequest (revokeMsg 2 1 1) 0x15 ∧ (revokeMsg 2 1 1).length = 10 ∧ num8 (revokeMsg 2 1 1) 6 = Port.num .p2 ∧
    num8 (revokeMsg 2 1 250) 7 = 1 ∧ num8 (revokeMsg 2 2 0) 7 = 2 ∧ num16 (revokeMsg 2 1 1) 8 = 1 ∧
    num16 (revokeMsg 2 1 250) 8 = 250 ∧ num16 (revokeMsg 2 1 0) 8 = 0 ∧ num16 (revokeMsg 2 1 251) 8 = 251 ∧
    (asks .p1 (revokeMsg 2 1 1)).lookup 0x104 = none ∧
    (∀ c ∈ [picture (.closing closingOp) 1 [], picture .live 0 [], picture .live 0 [⟨.p2, .r, 0, none⟩],
        picture .live 0 [⟨.p2, .r, 1, none⟩], picture .live 0 [revoking (.drain 5) 1], picture .live 0 [revoking .cut 1]],
      (askedOf .p1 (revokeMsg 2 1 1) c).lookup 0x104 = some c ∧ (askedOf .p0 (revokeMsg 2 1 1) c).lookup 0x104 = some c ∧
      c.owner = .p1 ∧ c.owner ≠ .p0) ∧
    (picture .live 0 []).grantTo .p2 = none ∧
    (picture .live 0 [⟨.p2, .r, 1, none⟩]).grantTo .p2 = some ⟨.p2, .r, 1, none⟩ ∧
    (picture .live 0 [revoking (.drain 5) 1]).grantTo .p2 = some (revoking (.drain 5) 1) := by
  unfold IsRequest; decide +kernel

/-- The end of the close of the picture without pins leaves P1 and P0 a slot for the reply. -/
theorem witness_CloseBeginsOrJoins :
    IsRequest (closeMsg 1 1) 0x11 ∧ (closeMsg 1 1).length = 10 ∧ num8 (closeMsg 1 250) 6 = 1 ∧ num8 (closeMsg 2 0) 6 = 2 ∧
    num16 (closeMsg 1 250) 8 = 250 ∧ num16 (closeMsg 1 0) 8 = 0 ∧ num16 (closeMsg 1 251) 8 = 251 ∧
    (asks .p1 (closeMsg 1 1)).lookup 0x104 = none ∧
    (∀ c ∈ [picture .live 0 [], picture .live 1 [], picture (.closing closingOp) 1 [],
        picture (.closing ⟨.cut, [], false, false⟩) 1 []],
      ∀ p ∈ [Port.p0, .p1, .p3], (askedOf p (closeMsg 1 1) c).lookup 0x104 = some c) ∧
    (picture .live 0 []).pinCount = 0 ∧ 0 < (picture .live 1 []).pinCount ∧ (picture .live 0 []).owner ≠ .p3 ∧
    (let u := (askedOf .p1 (closeMsg 1 1) (picture .live 0 [])).modPort .p1 fun b => b.took []
     let op : CloseOp := ⟨.drain 1, [], false, false⟩
     0 < (((u.setCanvas 4 { picture .live 0 [] with phase := .closing op }).endClose 4 op).port .p1).link.reserved) ∧
    (let u := (askedOf .p0 (closeMsg 1 1) (picture .live 0 [])).modPort .p0 fun b => b.took []
     let op : CloseOp := ⟨.cut, [], true, false⟩
     0 < (((u.setCanvas 4 { picture .live 0 [] with phase := .closing op }).endClose 4 op).port .p0).link.reserved) := by
  unfold IsRequest; decide +kernel

theorem witness_CutOrderActsOnEachEntry :
    (queued [] none none).canvas 4 = some (picture .live 1 [⟨.p2, .r, 0, none⟩]) ∧ (queued [] none none).handle 4 = 0x104 ∧
    (picture .live 1 [⟨.p2, .r, 0, none⟩]).pinsOf .p2 = 0 ∧ (picture .live 1 [⟨.p2, .r, 0, none⟩]).pinsOf .p1 ≠ 0 ∧
    (∃ e ∈ ((queued [anEntry (.waiting 3)] (some aFill.claims) none).port .p1).queue.entries,
      0x104 ∈ e.job.names ∧ e.isWaiting = true) ∧
    (¬ ∃ e ∈ ((queued [anEntry running] none none).port .p1).queue.entries, 0x104 ∈ e.job.names ∧ e.isWaiting = true) ∧
    (∃ e ∈ ((queued [anEntry running] none (some aRecord)).port .p1).queue.entries,
      0x104 ∈ e.job.names ∧ e.isActive = true) ∧
    ((queued [anEntry running] none (some aRecord)).port .p1).record = some aRecord ∧
    (∃ x ∈ (spanning (queued [anEntry running] none (some aRecord)) []).engine.span, x.port = .p1) ∧
    (queued [anEntry running] none (some aRecord)).engine.span = none ∧
    ((queued [anEntry running] none none).port .p1).record = none := by decide +kernel

theorem witness_DeadlinesBecomeCuts :
    (granted (revoking (.drain 5) 1)).resetPin = false ∧
    (granted (revoking (.drain 5) 1)).canvas 4 = some (picture .live 0 [revoking (.drain 5) 1]) ∧
    (picture .live 0 [revoking (.drain 5) 1]).grantTo .p2 = some (revoking (.drain 5) 1) ∧
    (revoking (.drain 5) 1).revoke = some ⟨.drain 5, [], false⟩ ∧
    (shown (picture (.closing ⟨.drain 0, [], false, false⟩) 1 [])).canvas 4 =
      some (picture (.closing ⟨.drain 0, [], false, false⟩) 1 []) := by decide +kernel

/-- A revoke and a close in CUT mode have no expiry. -/
theorem witness_DeadlinesBecomeCuts_none :
    (∀ c g left ws mark, (granted (revoking .cut 1)).canvas 4 = some c → c.grantTo .p2 = some g →
      g.revoke ≠ some ⟨.drain left, ws, mark⟩) ∧
    (∀ c left ws forced mark, (shown (picture (.closing ⟨.cut, [], false, false⟩) 1 [])).canvas 4 = some c →
      c.phase ≠ .closing ⟨.drain left, ws, forced, mark⟩) := by
  refine ⟨fun c g left ws mark h hg => ?_, fun c left ws forced mark h => ?_⟩
  · rw [(shown_canvas _ _ _ h).2] at hg
    cases hg
    intro h; cases h
  · rw [(shown_canvas _ _ _ h).2]
    intro h; cases h

/-- P1's last owner pin closes; P2's last pin revokes; a pin of a LIVE canvas does neither. -/
theorem witness_RevokesAndClosesEnd_unpin :
    handleSlot 0x104 = 4 ∧
    (∀ c ∈ [picture (.closing closingOp) 1 [], picture .live 0 [revoking .cut 1], picture .live 1 []],
      (shown c).canvas 4 = some c ∧ c.owner = .p1 ∧ c.owner ≠ .p2) ∧
    ({ picture (.closing closingOp) 1 [] with ownerPins := 1 - 1 } : Canvas).pinCount = 0 ∧
    (picture (.closing closingOp) 1 []).phase.isClosing = true ∧ (picture .live 0 [revoking .cut 1]).phase.isClosing = false ∧
    ({ picture .live 0 [revoking .cut 1] with grants := [revoking .cut (1 - 1)] } : Canvas).grantTo .p2 =
      some (revoking .cut 0) ∧
    (picture .live 1 []).phase.isClosing = false ∧ ({ picture .live 1 [] with ownerPins := 1 - 1 } : Canvas).grantTo .p1 =
      none := by decide +kernel

theorem witness_RevokesAndClosesEnd :
    (∀ c ∈ [picture .live 2 [revoking .cut 0], picture (.closing closingOp) 1 [revoking (.drain 3) 0],
        picture (.closing closingOp) 0 [revoking .cut 0]], (shown c).resetPin = false ∧ (shown c).canvas 4 = some c) ∧
    (picture .live 2 [revoking .cut 0]).grantTo .p2 = some (revoking .cut 0) ∧ (revoking .cut 0).pins = 0 ∧
    (picture .live 2 [revoking .cut 0]).phase.isClosing = false ∧
    (picture (.closing closingOp) 1 [revoking (.drain 3) 0]).grantTo .p2 = some (revoking (.drain 3) 0) ∧
    (picture (.closing closingOp) 1 [revoking (.drain 3) 0]).pinCount ≠ 0 ∧
    (picture (.closing closingOp) 0 [revoking .cut 0]).phase = .closing closingOp ∧
    (picture (.closing closingOp) 0 [revoking .cut 0]).pinCount = 0 := by decide +kernel

/-- SUBMITs from P1: a FILL of the whole picture, one beyond it, a MARK, and one of no job. -/
def fillMsg (x : Byte) : List Byte :=
  [0x20, 0, 5, 0, 1, 0, 1, 0, 3, 0, 4, 1, 0, 0, x, 0, 0, 0, 0x80, 2, 0xE0, 1, 0, 0, 0, 0]
def markMsg : List Byte := [0x20, 0, 5, 0, 1, 0, 6, 1, 0, 0, 0x01, 0x5A, 0, 0]
def wholeFill (x : Nat) : Job := .fill 0x104 ⟨x, 0, 640, 480⟩ 0 3

theorem witness_SubmitAdmitsAllOrNone_allowed :
    State.JobAllowed (askedOf .p1 (fillMsg 0) (picture .live 0 [])) .p1 (wholeFill 0) := by
  refine ⟨by decide, ⟨picture .live 0 [], by decide +kernel, rfl, .inl rfl⟩, ⟨picture .live 0 [], by decide +kernel, ?_⟩⟩
  decide

/-- Each check at its bound: raster function 16; a stale handle; a CLOSING canvas; no grant; EXPAND from a canvas that is not
M1; a rectangle one column too far. -/
theorem witness_SubmitAdmitsAllOrNone_fails :
    (askedOf .p1 (fillMsg 0) (picture .live 0 [])).JobFails .p1 (.fill 0x104 ⟨0, 0, 640, 480⟩ 0 16) 0x01 ∧
    (asks .p1 (fillMsg 0)).JobFails .p1 (wholeFill 0) 0x04 ∧
    (askedOf .p1 (fillMsg 0) (picture (.closing closingOp) 1 [])).JobFails .p1 (wholeFill 0) 0x08 ∧
    (askedOf .p2 (fillMsg 0) (picture .live 0 [])).JobFails .p2 (wholeFill 0) 0x06 ∧
    (askedOf .p1 (fillMsg 0) (picture .live 0 [])).JobFails .p1 (.expand 0x104 0 0 0x104 ⟨0, 0, 1, 1⟩ 0 none 15) 0x09 ∧
    (askedOf .p1 (fillMsg 1) (picture .live 0 [])).JobFails .p1 (wholeFill 1) 0x0A := by
  have live : ∀ p m c, (askedOf p m c).lookup 0x104 = if c.phase.known then some c else none := by
    intro p m c
    have hs : (askedOf p m c).slot 4 = ⟨1, some c⟩ := (show _ = (shown c).slot 4 from rfl).trans (shown_slot c 4)
    unfold State.lookup State.canvas
    rw [show handleSlot 0x104 = 4 by decide, show handleGen 0x104 = 1 by decide, hs]
    rfl
  have own : ∀ m, State.MayName (askedOf .p1 m (picture .live 0 [])) .p1 0x104 True := fun m =>
    ⟨picture .live 0 [], by rw [live]; rfl, rfl, .inl rfl⟩
  refine ⟨.inl ⟨by decide, rfl⟩, .inr (.inl ⟨by decide, [], 0x104, [], rfl, by simp, .inl ⟨by decide +kernel, rfl⟩⟩),
    .inr (.inl ⟨by decide, [], 0x104, [], rfl, by simp, .inr ⟨_, by rw [live]; rfl, .inl ⟨rfl, rfl⟩⟩⟩),
    .inr (.inl ⟨by decide, [], 0x104, [], rfl, by simp, .inr ⟨picture .live 0 [], by rw [live]; rfl, .inr ⟨rfl, ?_, rfl⟩⟩⟩),
    .inr (.inr ⟨by decide, ?_, .inl ⟨?_, rfl⟩⟩), .inr (.inr ⟨by decide, ?_, .inr ⟨trivial, ?_, rfl⟩⟩)⟩
  · rintro ⟨c, hc, _, h⟩
    rw [live] at hc
    cases hc
    rcases h with h | ⟨g, hg, _⟩
    · cases h
    · cases hg
  · intro h hh
    obtain rfl : h = 0x104 := by simpa using hh
    obtain ⟨c, h1, h2, h3⟩ := own (fillMsg 0)
    exact ⟨c, h1, h2, h3.imp_right fun ⟨g, a, b, d⟩ => ⟨g, a, b, fun _ => d trivial⟩⟩
  · rintro ⟨⟨c, hc, hf⟩, _⟩
    have : c = picture .live 0 [] := (shown_canvas (picture .live 0 []) c 4 (by rw [← hc]; rfl)).2
    rw [this] at hf
    cases hf
  · intro h hh
    obtain rfl : h = 0x104 := by simpa [wholeFill] using hh
    obtain ⟨c, h1, h2, h3⟩ := own (fillMsg 1)
    exact ⟨c, h1, h2, h3.imp_right fun ⟨g, a, b, d⟩ => ⟨g, a, b, fun _ => d trivial⟩⟩
  · rintro ⟨c, hc, _, _, hx, _⟩
    have : c = picture .live 0 [] := (shown_canvas (picture .live 0 []) c 4 (by rw [← hc]; rfl)).2
    rw [this] at hx
    have : 1 + 640 ≤ 640 := hx
    omega

/-- With `askedOf_oldest`: payloads that hold a FILL and a MARK, and one that holds no jobs; 15 and 16 entries stand before the
one of the SUBMIT. -/
theorem witness_SubmitAdmitsAllOrNone :
    IsRequest (fillMsg 0) 0x20 ∧ 14 ≤ (fillMsg 0).length ∧ (fillMsg 0).length ≤ 118 ∧ IsRequest markMsg 0x20 ∧
    markMsg.length = 14 ∧ num8 (fillMsg 0) 4 = 1 ∧ (fillMsg 0).drop 6 = [(fillMsg 0).drop 6].flatten ∧
    List.Forall₂ Describes [(fillMsg 0).drop 6] [(wholeFill 0, false)] ∧
    List.Forall₂ Describes [markMsg.drop 6] [(.mark 0x5A01, true)] ∧
    ¬ 1 ≤ num8 (0x20 :: List.replicate 13 0) 4 ∧
    1 ≤ ((asks .p1 markMsg).port .p1).queue.nextSeq ∧ ((asks .p1 markMsg).port .p1).queue.nextSeq ≤ 65535 ∧
    (((asks .p1 markMsg).port .p1).took []).queue.entries.length + 1 ≤ 16 ∧
    16 < (List.replicate 16 (anEntry (.queued false))).length + 1 ∧
    (List.replicate 15 (anEntry (.queued false))).length + 1 ≤ 16 := by
  unfold IsRequest
  refine ⟨by decide, by decide, by decide, by decide, by decide, by decide, by decide, .cons ?_ .nil, .cons ?_ .nil, by decide⟩
  · unfold Describes; decide
  · unfold Describes; decide

/-- P1 asks HALT or RESUME with its queue in this run state. -/
def controlled (m : List Byte) (state : RunState) (entries : List Entry) : State :=
  has .p1 .req m ((queued entries none none).modPort .p1 fun b => { b with queue := { b.queue with run := state } })

theorem witness_HaltAndResumeInEachRunState :
    (∀ st ∈ [RunState.run, .halting, .halted], ∀ m ∈ ([[0x22, 0, 5, 0], [0x23, 0, 5, 0]] : List (List Byte)),
      (controlled m st []).resetPin = false ∧ ((controlled m st []).port .p1).link.inbound = ⟨.req, m⟩ :: [] ∧
      ((controlled m st []).port .p1).queue.run = st ∧ 0 < ((controlled m st []).port .p1).link.reserved ∧
      4 ≤ m.length ∧ (num8 m 0 = 0x22 ∨ num8 m 0 = 0x23)) ∧
    (∃ e ∈ ((controlled [0x22, 0, 5, 0] .run [anEntry running]).port .p1).queue.entries, e.isActive = true) ∧
    (∀ e ∈ ((controlled [0x22, 0, 5, 0] .run [anEntry (.queued false)]).port .p1).queue.entries, e.isQueued = true) ∧
    ((controlled [0x22, 0, 5, 0] .run [anEntry (.waiting 4)]).port .p1).queue.entries = anEntry (.waiting 4) :: [] ∧
    2 ≤ ((controlled [0x22, 0, 5, 0] .run [anEntry (.waiting 4)]).port .p1).link.reserved ∧
    (let b := (controlled [0x23, 0, 5, 0] .halting []).port .p1
     0 < (({ b with queue := { b.queue with run := .run, haltWaiters := [] } } : PortBlock).answerAll b.queue.haltWaiters
       [0x02, 0]).link.reserved) := by decide +kernel

theorem witness_DeferredRepliesAndPins :
    (∀ d ∈ (up.port .p1).deferred, d.id ≠ 5) ∧ 0 < (up.port .p1).link.reserved ∧
    [Deferred.mk 0x10 4, ⟨0x11, 5⟩, ⟨0x15, 5⟩] = [⟨0x10, 4⟩] ++ ⟨0x11, 5⟩ :: [⟨0x15, 5⟩] ∧
    (∀ x ∈ [Deferred.mk 0x10 4], x.id ≠ 5) ∧
    (granted ⟨.p2, .r, 0, none⟩).canvas (handleSlot 0x104) = some (picture .live 0 [⟨.p2, .r, 0, none⟩]) ∧
    (picture .live 0 [⟨.p2, .r, 0, none⟩]).owner = .p1 ∧ (picture .live 0 [⟨.p2, .r, 0, none⟩]).owner ≠ .p2 ∧
    (picture .live 0 [⟨.p2, .r, 0, none⟩]).grants = [] ++ ⟨.p2, .r, 0, none⟩ :: [] ∧
    (picture .live 0 [⟨.p2, .r, 0, none⟩]).phase.isClosing = false ∧ 1 < (revoking .cut 2).pins ∧
    (granted (revoking .cut 2)).canvas (handleSlot 0x104) = some (picture .live 0 [revoking .cut 2]) ∧
    handleSlot 0x104 ≠ handleSlot 0x103 := by decide +kernel

/-- P1 asks CANCEL of job 7, or of all. -/
def cancels (target : Byte) (entries : List Entry) (record : Option EngineRecord) : State :=
  has .p1 .req [0x21, 0, 5, 0, target, 0] (queued entries none record)

theorem witness_CancelRemovesOrStops :
    IsRequest [0x21, 0, 5, 0, 7, 0] 0x21 ∧
    (∀ s ∈ [cancels 7 [] none, cancels 7 [anEntry (.queued false)] none, cancels 7 [anEntry running] none,
        cancels 7 [anEntry running] (some aRecord)],
      s.resetPin = false ∧ (s.port .p1).link.inbound = ⟨.req, [0x21, 0, 5, 0, 7, 0]⟩ :: [] ∧
      0 < (s.port .p1).link.reserved ∧ (s.port .p1).queue.report = none) ∧
    (((cancels 7 [] none).port .p1).queue.entries = []) ∧ (anEntry (.queued false)).seq = 7 ∧
    (anEntry (.queued false)).isActive = false ∧ (anEntry running).isActive = true ∧
    num16 [0x21, 0, 5, 0, 0, 0] 4 = 0 ∧
    ((cancels 7 [anEntry running] (some aRecord)).port .p1).record = some aRecord ∧
    (∃ x ∈ (spanning (cancels 7 [anEntry running] (some aRecord)) []).engine.span, x.port = .p1) ∧
    (cancels 7 [anEntry running] (some aRecord)).engine.span = none ∧
    (let b := (cancels 7 [anEntry (.queued false)] none).port .p1
     0 < ({ b with queue := { b.queue with entries := [] } } : PortBlock).refreshStaging.link.reserved) := by
  unfold IsRequest; decide +kernel

/-- With `asks_oldest` and `asks_reserved`. -/
theorem witness_StatusReportsThePort :
    IsRequest [0x30, 0, 5, 0, 4, 0] 0x30 ∧ 3 < num8 [0x30, 0, 5, 0, 4, 0] 4 ∧ num8 [0x30, 0, 5, 0, 3, 0] 4 = Port.num .p3 ∧
    num8 [0x30, 0, 5, 0, 0, 0] 4 = Port.num .p0 ∧ Port.p1 ≠ .p0 ∧ Port.p3 ≠ .p1 := by
  unfold IsRequest; decide

/-- P2 has one fault record, at index 11. -/
def logged : FaultLog :=
  { records := (Vector.replicate 12 none).setIfInBounds 11
      (some ⟨312, .p2, 57, .move, ⟨.storeEcc, 0x0203, some (4, 512), some 612⟩⟩)
    serial := 312
    arrival := [11] }
def faulted (p : Port) (m : List Byte) : State := { asks p m with faultLog := logged }

/-- A port's own record, another's, P0's view of it, FREE records, selectors at their bounds; acknowledgements of one and of
twelve indexes, of none, of thirteen, with a wrong count, of an index above 11. -/
theorem witness_FaultLogIsReadAndFreed :
    IsRequest [0x31, 0, 5, 0, 11, 0] 0x31 ∧ 12 ≤ num8 [0x31, 0, 5, 0, 12, 0] 4 ∧ num8 [0x31, 0, 5, 0, 0xFE, 0] 4 ≠ 0xFF ∧
    num8 [0x31, 0, 5, 0, 0xFF, 0] 4 = 0xFF ∧ num8 [0x31, 0, 5, 0, 11, 0] 4 ≤ 11 ∧
    (∀ p ∈ Port.all, (faulted p [0x31, 0, 5, 0, 11, 0]).resetPin = false ∧
      ((faulted p [0x31, 0, 5, 0, 11, 0]).port p).link.inbound = ⟨.req, [0x31, 0, 5, 0, 11, 0]⟩ :: [] ∧
      0 < ((faulted p [0x31, 0, 5, 0, 11, 0]).port p).link.reserved ∧
      (faulted p [0x31, 0, 5, 0, 11, 0]).faultLog.record 11 =
        some ⟨312, .p2, 57, .move, ⟨.storeEcc, 0x0203, some (4, 512), some 612⟩⟩ ∧
      (faulted p [0x31, 0, 5, 0, 11, 0]).faultLog.record 0 = none) ∧
    ([0x32, 0, 5, 0, 12] : List Byte).length = 5 ∧
    [0x32, 0, 5, 0, 1, 11] = [0x32, 0, 5, 0, 1] ++ [11].map (BitVec.ofNat 8) ∧
    (∀ is ∈ [[11], [11, 11, 3], List.range 12], 1 ≤ is.length ∧ is.length ≤ 12 ∧ (∀ i ∈ is, i ≤ 11) ∧
      num8 ([0x32, 0, 5, 0, BitVec.ofNat 8 is.length] ++ is.map (BitVec.ofNat 8)) 4 = is.length) ∧
    (∀ is ∈ [[], [12], [255], List.replicate 13 0], ¬ (1 ≤ is.length ∧ is.length ≤ 12 ∧ ∀ i ∈ is, i ≤ 11)) ∧
    num8 ([0x32, 0, 5, 0, 2] ++ [11].map (BitVec.ofNat 8)) 4 ≠ [11].length ∧ IsRequest [0x32, 0, 5, 0] 0x32 := by
  unfold IsRequest; decide +kernel

/-- A port block in this state with its flags, mask and marks. -/
def attentive (st : PortState) (a : Attention) (used : Nat) : PortBlock :=
  { up.port .p1 with portState := st, attn := a, link := { (up.port .p1).link with
      used := List.replicate used ⟨.rep, 0, []⟩, reserved := 0 } }

theorem witness_AttentionFlagsAndFrames :
    (attentive (.resetting (anOp .up)) .reset 0).portState = .resetting (anOp .up) ∧
    (attentive .up ⟨{ FlagSet.empty with halted := true }, .empty, false, false⟩ 0).attn.flags.get .halted = true ∧
    (∀ op, (attentive .up .reset 7).portState ≠ .resetting op) ∧ (attentive .up .reset 7).attn.flags.get .halted = false ∧
    (attentive .up ⟨.empty, { FlagSet.empty with halted := true }, false, false⟩ 7).attn.mask.get .halted = true ∧
    (attentive .up ⟨.empty, .empty, true, false⟩ 7).attn.outstanding = true ∧
    (attentive .up .reset 7).attn.mask.get .halted = false ∧ (attentive .up .reset 7).attn.outstanding = false ∧
    (attentive .up .reset 7).link.used.length + (attentive .up .reset 7).link.reserved < 8 ∧
    ¬ (attentive .lost .reset 8).link.used.length + (attentive .lost .reset 8).link.reserved < 8 ∧
    ((up.setPort .p1 (attentive .lost ⟨.empty, .empty, true, true⟩ 7)).port .p1).attn.due = true ∧
    up.resetPin = false ∧ (up.port .p1).attn.due = false ∧
    IsRequest [0x33, 0, 5, 0, 64, 0] 0x33 ∧ 64 ≤ num8 [0x33, 0, 5, 0, 64, 0] 4 ∧ num8 [0x33, 0, 5, 0, 63, 0] 4 < 64 := by
  refine ⟨rfl, rfl, not_resetting _ rfl, ?_⟩
  unfold IsRequest; decide +kernel

/-- P1's WRITE of 8 × 1 pixels of the picture, 16 bytes of data, served; `m` waits in the inbound buffer. -/
def aWrite : Entry := ⟨20, .write 0x104 ⟨0, 0, 8, 1⟩, true, .queued false, [0x104], 0⟩
def fed (m : List Byte) : State :=
  has .p1 .dat m ((queued [anEntry (.queued false), aWrite] none none).modPort .p1 fun b =>
    { b with staging := ⟨some 20, [], m.length - 6, none⟩ })
def datMsg (seq offset size : Nat) : List Byte := enc16 seq ++ enc32 offset ++ List.replicate size 0

/-- All 16 bytes at once; one byte more; another offset; another job; too short and too long frames. -/
theorem witness_WriteDataIsAppendedOrRejected :
    (fed (datMsg 20 0 16)).Oldest .p1 .dat (datMsg 20 0 16) [] ∧ 7 ≤ (datMsg 20 0 16).length ∧
    (datMsg 20 0 16).length ≤ 1030 ∧ ((fed (datMsg 20 0 16)).port .p1).staging.served = some (num16 (datMsg 20 0 16) 0) ∧
    ((fed (datMsg 20 0 16)).port .p1).queue.entries = [anEntry (.queued false)] ++ aWrite :: [] ∧
    (anEntry (.queued false)).seq ≠ 20 ∧ (fed (datMsg 20 0 16)).canvas (handleSlot 0x104) =
      some (picture .live 1 [⟨.p2, .r, 0, none⟩]) ∧ num32 (datMsg 20 0 16) 2 = aWrite.received ∧
    num32 (datMsg 20 0 16) 2 + 16 ≤ 1 * ((8 * Format.c16.bits + 7) / 8) ∧
    (fed (datMsg 20 0 17)).dataLength aWrite.job < num32 (datMsg 20 0 17) 2 + 17 ∧
    num32 (datMsg 20 3 4) 2 ≠ aWrite.received ∧ some (num16 (datMsg 21 0 4) 0) ≠ some 20 ∧
    (datMsg 20 0 0).length = 6 ∧ (datMsg 20 0 1025).length = 1031 := by
  unfold State.Oldest; decide +kernel

/-- The served WRITE stands, has gone, or there is none. -/
theorem witness_WriteDataIsAppendedOrRejected_served :
    ((fed []).port .p1).staging.served = some 20 ∧
    (∃ e ∈ ((fed []).port .p1).queue.entries, e.seq = 20 ∧ e.job.kind = .write ∧ e.state ≠ .queued true) ∧
    (¬ ∃ e ∈ (up.port .p1).queue.entries, e.seq = 20 ∧ e.job.kind = .write ∧ e.state ≠ .queued true) ∧
    (up.port .p1).staging.served = none := by decide +kernel

/-- A job of each kind at the head, QUEUED; a MARK; a cut entry; a head that is not QUEUED; eight slots taken. -/
theorem witness_HeadIsDispatched :
    (queued [anEntry (.queued false)] none none).resetPin = false ∧
    ((queued [anEntry (.queued false)] none none).port .p1).queue.entries = anEntry (.queued false) :: [] ∧
    ((queued [anEntry (.queued false)] none none).port .p1).queue.run = .run ∧
    ((queued [anEntry (.queued false)] none none).port .p1).link.used.length +
      ((queued [anEntry (.queued false)] none none).port .p1).link.reserved < 8 ∧
    (anEntry (.queued false)).state = .queued false ∧ (anEntry (.queued false)).job.kind ≠ .mark ∧
    (anEntry (.waiting 3)).isQueued = false ∧
    (Entry.mk 7 (.mark 9) true (.queued false) [] 0).job.kind = .mark ∧ (Entry.mk 7 aFill true (.queued true) [] 0).pins = [] ∧
    ((queued [] none none).port .p1).record = none ∧ ((queued [] none none).port .p1).request = none ∧
    ((queued [] none none).port .p1).queue.report = none ∧ ((queued [] none none).port .p1).queue.cancelWaiters = [] ∧
    8 ≤ ((linked fun l => { l with reserved := 8 }).port .p1).link.used.length +
      ((linked fun l => { l with reserved := 8 }).port .p1).link.reserved := by decide +kernel

/-- P1 runs its FILL; P2 waits with a claim that conflicts with it, P3 with one that does not. -/
def aside : List Claim := [⟨4, ⟨8, 0, 8, 1⟩, true⟩]
def crossing : State :=
  ((queued [anEntry running] none (some aRecord)).modPort .p2 fun b =>
    { b with request := some aFill.claims, queue := { b.queue with entries := [anEntry (.waiting 3)] } }).modPort .p3 fun b =>
    { b with request := some aside, queue := { b.queue with entries := [anEntry (.waiting 3)] } }

theorem conflicting_p2 : crossing.Conflicting .p2 ⟨4, ⟨0, 0, 8, 1⟩, true⟩ :=
  ⟨.p1, by decide, ⟨4, ⟨0, 0, 8, 1⟩, true⟩, by decide +kernel, by decide⟩

theorem free_p3 : ∀ a ∈ aside, ¬ crossing.Conflicting .p3 a := by
  rintro a ha ⟨q, hq, d, hd, hc⟩
  rw [aside, List.mem_singleton] at ha
  subst ha
  have h0 : (crossing.port .p0).claims = [] ∧ (crossing.port .p2).claims = [] := by decide +kernel
  cases q
  · rw [h0.1] at hd; cases hd
  · have : d = ⟨4, ⟨0, 0, 8, 1⟩, true⟩ := by
      have h : (crossing.port .p1).claims = [⟨4, ⟨0, 0, 8, 1⟩, true⟩] := by decide +kernel
      rw [h] at hd
      exact List.mem_singleton.1 hd
    subst this
    exact absurd hc (by decide)
  · rw [h0.2] at hd; cases hd
  · exact absurd rfl hq

/-- With `conflicting_p2` and `free_p3`. -/
theorem witness_ClaimsAreGranted :
    crossing.resetPin = false ∧ (crossing.port .p2).queue.entries = anEntry (.waiting 3) :: [] ∧
    (anEntry (.waiting 3)).state = .waiting 3 ∧ (crossing.port .p2).request = some aFill.claims ∧
    aFill.claims = [] ++ ⟨4, ⟨0, 0, 8, 1⟩, true⟩ :: [] ∧ (crossing.port .p3).queue.entries = anEntry (.waiting 3) :: [] ∧
    (crossing.port .p3).request = some aside := by decide +kernel

/-- P1's release: P1 and P0 await nothing, P2 and P3 do; no claim opposes P3's, and P0's would oppose P2's. -/
theorem witness_ReleaseReconsidersRequests :
    (∀ cs, ¬ crossing.AwaitsClaims .p1 cs) ∧ (∀ q cs, crossing.AwaitsClaims q cs → (crossing.port q).claims = []) ∧
    (∀ cs, ¬ crossing.AwaitsClaims .p0 cs) ∧
    crossing.AwaitsClaims .p2 aFill.claims ∧ crossing.AwaitsClaims .p3 aside ∧
    Port.roundAfter .p1 = [.p2] ++ .p3 :: [.p0, .p1] ∧
    (∀ d ∈ ((crossing.releaseClaims .p1).port .p2).claims ++ (crossing.port .p0).claims, ∀ a ∈ aside,
      a.conflicts d = false) ∧
    ((crossing.releaseClaims .p1).port .p2).claims = aFill.claims ∧ Port.roundAfter .p1 = [] ++ .p2 :: [.p3, .p0, .p1] ∧
    (∃ d ∈ ((crossing.modPort .p0 fun b => { b with claims := aFill.claims }).port .p0).claims, ∃ a ∈ aFill.claims,
      a.conflicts d = true) := by
  refine ⟨fun cs h => ?_, fun q cs h => ?_, fun cs h => ?_, ⟨by decide +kernel, _, _, rfl, rfl⟩,
    ⟨by decide +kernel, _, _, rfl, rfl⟩, rfl, by decide +kernel, by decide +kernel, rfl, by decide +kernel⟩
  · have : (crossing.port .p1).request = none := by decide +kernel
    rw [h.1] at this; cases this
  · cases q
    case p1 =>
      have : (crossing.port .p1).request = none := by decide +kernel
      rw [h.1] at this; cases this
    all_goals decide +kernel
  · have : (crossing.port .p0).request = none := by decide +kernel
    rw [h.1] at this; cases this

theorem witness_HeadLeavesTheQueue :
    (crossing.port .p1).queue.entries = anEntry running :: [] ∧
    (crossing.port .p2).queue.entries = anEntry (.waiting 3) :: [] ∧
    (let b := crossing.port .p1
     0 < (((crossing.setPort .p1 { b with
       record := none, request := none, queue := { b.queue with entries := [], report := none } }).releaseClaims .p1).port
         .p1).link.reserved) := by decide +kernel

/-- A log with record 0 FREE, one full but for record 11, one full. -/
def fullBut (n : Nat) : FaultLog :=
  { records := (Vector.replicate 12 (some ⟨1, .p3, 1, .fill, ⟨.waitTimeout, 0, none, none⟩⟩)).setIfInBounds n none
    serial := 65535
    arrival := (List.range 12).filter fun i => i != n }

theorem witness_FaultsAreLogged :
    State.reset.faultLog.serial ≤ 65535 ∧ State.reset.faultLog.record 0 = none ∧
    ({ up with faultLog := fullBut 11 } : State).faultLog.serial = 65535 ∧ (fullBut 11).record 11 = none ∧
    (∀ j < 11, (fullBut 11).record j ≠ none) ∧ (∀ i < 12, (fullBut 12).record i ≠ none) := by decide +kernel

/-- P1's ACTIVE job with this report, in this run state. -/
def reported (rep : Report) (state : RunState) : State :=
  (queued [anEntry running] none none).modPort .p1 fun b => { b with queue := { b.queue with report := some rep, run := state } }

def aDetail : FaultDetail := ⟨.storeEcc, 0x104, some (0, 0), some 150⟩

/-- With `conflicting_p2` and `free_p3` and the theorem before for the waiting heads. -/
theorem witness_JobsEndAsReported :
    (∀ rep ∈ [Report.finished, .uncorrectable aDetail, .timedOut aDetail, .stopped .noSpan, .stopped .last, .stopped .notLast,
        .stopped (.uncorrectable aDetail)], ∀ st ∈ [RunState.run, .halting, .halted, .resetting],
      (reported rep st).resetPin = false ∧ ((reported rep st).port .p1).queue.entries = anEntry running :: [] ∧
      ((reported rep st).port .p1).queue.report = some rep ∧ ((reported rep st).port .p1).queue.run = st) ∧
    (anEntry running).state = .active ⟨false, false, false⟩ := by decide +kernel

/-- No span in progress and no job ready; P1's FILL ready; a span in progress. -/
theorem witness_ArbitersChoose :
    (∀ p, ¬ (up.port p).HasReadyJob) ∧ up.engine.span = none ∧ up.resetPin = false ∧
    up.engine.lastServed.roundAfter = [.p0] ++ .p1 :: [.p2, .p3] ∧ crossing.engine.lastServed.roundAfter =
      [.p0] ++ .p1 :: [.p2, .p3] ∧ (∀ q ∈ [Port.p0], ¬ (crossing.port q).HasReadyJob) ∧ (crossing.port .p1).HasReadyJob ∧
    (crossing.port .p1).record = some aRecord ∧ (spanning crossing []).engine.span ≠ none := by
  have h0 : ∀ p, (up.port p).record = none := by intro p; cases p <;> decide +kernel
  have h1 : (crossing.port .p0).record = none := by decide +kernel
  have h2 : (crossing.port .p1).record = some aRecord := by decide +kernel
  refine ⟨?_, rfl, rfl, rfl, by decide +kernel, ?_, ⟨aRecord, h2, ?_, ?_⟩, h2, by decide +kernel⟩
  · rintro p ⟨r, h, _⟩; rw [h0 p] at h; cases h
  · intro q hq
    rw [List.mem_singleton] at hq
    subst hq
    rintro ⟨r, h, _⟩; rw [h1] at h; cases h
  · intro h; exact absurd h (by decide)
  · intro h; exact absurd h (by decide)

/-- The store idle and serving, with nothing, a span, a block, and both wanting it. -/
theorem witness_ArbitersChoose_store :
    (clearing false 0).arbiter.serving ≠ none ∧ up.arbiter.serving = none ∧ up.clear.list = [] ∧
    (spanning up []).engine.span = some ⟨.p1, []⟩ ∧ (spanning up []).clear.list = [] ∧
    (∀ r ∈ [Requester.engine, .clearUnit],
      (let s : State := { clearing false 0 with arbiter := ⟨none, r⟩ }
       s.resetPin = false ∧ s.arbiter.serving = none ∧ s.clear.list = 4 :: [] ∧ s.engine.span = none ∧
       (spanning s []).arbiter.lastServed = r ∧
       s.canvas 4 = some (picture (.clearing ⟨.p1, 0x101⟩) 0 []))) := by decide +kernel

theorem witness_SpanCompletes :
    (served aRecord []).SpanServed .p1 aRecord [] ∧ (served aRead []).SpanServed .p1 aRead [] ∧
    (served aWriteRecord (List.replicate 16 3)).SpanServed .p1 aWriteRecord (List.replicate 16 3) ∧
    aRead.leftward = false ∧ 0 < ((served aRead []).port .p1).link.reserved ∧
    aRecord.dst = some ⟨0x104, 150, 150, 1280, 640, .c16⟩ ∧ 1280 % 8 = 0 ∧ 0 < aRecord.spanPixels := by
  unfold State.SpanServed; decide +kernel

/-- The FILL's destination and the READ's source; nothing on the other side. -/
theorem witness_SpanAccessWords :
    aRecord.dst = some ⟨0x104, 150, 150, 1280, 640, .c16⟩ ∧ aRecord.src = none ∧ aRead.dst = none ∧
    aRead.src = some ⟨0x104, 150, 150, 1280, 640, .c16⟩ ∧ 1280 % 8 = 0 := by decide +kernel

theorem witness_SpanPixelValues :
    aRecord.dst = some ⟨0x104, 150, 150, 1280, 640, .c16⟩ ∧ aRecord.spanPixels = 8 ∧ aRead.job.kind = .read ∧
    aRead.src = some ⟨0x104, 150, 150, 1280, 640, .c16⟩ ∧
    (⟨7, .read 5 ⟨0, 0, 9, 1⟩, some ⟨5, 1, 1, 64, 9, .m1⟩, none, false, false, 0, 0, false, some 5, true⟩ :
      EngineRecord).spanPixels = 9 := by decide +kernel

/-- A MOVE between `src` and `dst` of 20 × 3 pixels from (sx, sy) to (2, 2), with the record its taking up makes. -/
def moving (a g : Geo) (src : Handle) (sx sy : Nat) : EngineRecord :=
  let up' := decide (src = 0x104 ∧ sy < 2)
  let left := decide (src = 0x104 ∧ sy = 2 ∧ sx < 2)
  ⟨7, .move src sx sy 0x104 ⟨2, 2, 20, 3⟩ 3 none, some a, some g, up', left, if up' then 2 else 0, if left then 19 else 0,
    false, none, false⟩
def here : Geo := ⟨0x104, 1, 1, 64, 30, .i8⟩
def there : Geo := ⟨0x105, 2, 1, 64, 30, .i8⟩

/-- A job of each kind with spans at its first span, of R96's M1, C32 and I8 rectangles among them. -/
theorem witness_SpansCoverAJobAndMoveActsAsIfCopied_spans :
    ∀ x ∈ [(Job.fill 5 ⟨0, 0, 4096, 10⟩ 0 3, Format.i8), (.expand 6 0 0 5 ⟨0, 0, 300, 20⟩ 0 none 3, .c32),
        (.write 5 ⟨3, 0, 100, 100⟩, .m1), (.read 5 ⟨0, 0, 640, 480⟩, .c16)],
      let g : Geo := ⟨5, 0, 4096, 16384, 4096, x.2⟩
      let r : EngineRecord := ⟨1, x.1, some g, some g, false, false, 0, 0, false, none, false⟩
      (if r.job.kind = .read then r.src else r.dst) = some g ∧ 1 ≤ r.job.rect.w ∧ 1 ≤ r.job.rect.h ∧
      r.row = (if r.upward then r.job.rect.h - 1 else 0) ∧ r.col = (if r.leftward then r.job.rect.w - 1 else 0) := by
  decide +kernel

/-- Rows upward, spans leftward, neither, and from another canvas. -/
theorem witness_SpansCoverAJobAndMoveActsAsIfCopied :
    (∀ x ∈ [(here, (0x104 : Handle), 0, 0), (here, 0x104, 0, 2), (here, 0x104, 5, 4), (there, 0x105, 0, 0)],
      let r := moving x.1 here x.2.1 x.2.2.1 x.2.2.2
      r.src = some x.1 ∧ r.dst = some here ∧ x.1.format = here.format ∧
      x.1.pitch = x.1.format.pitch x.1.width ∧ x.1.pitch * 10 ≤ 4096 * x.1.blockCount ∧
      here.pitch = here.format.pitch here.width ∧ here.pitch * 5 ≤ 4096 * here.blockCount ∧
      2 + 20 ≤ here.width ∧ 2 + 3 ≤ 5 ∧ x.2.2.1 + 20 ≤ x.1.width ∧ x.2.2.2 + 3 ≤ 10 ∧
      (x.2.1 = 0x104 ∧ x.1 = here ∨
        x.2.1 ≠ 0x104 ∧ (x.1.firstBlock + x.1.blockCount ≤ here.firstBlock ∨
          here.firstBlock + here.blockCount ≤ x.1.firstBlock)) ∧
      r.upward = decide (x.2.1 = 0x104 ∧ x.2.2.2 < 2) ∧
      r.leftward = decide (x.2.1 = 0x104 ∧ x.2.2.2 = 2 ∧ x.2.2.1 < 2)) ∧
    (moving here here 0x104 0 0).upward = true ∧ (moving here here 0x104 0 2).leftward = true := by decide +kernel

/-- READ of words 76800 and 76801: the second found uncorrectable, the first known to be so or not; and a record whose
canvas would lie beyond the store. -/
theorem witness_UncorrectableSpanWritesNothing :
    (served aRead []).resetPin = false ∧ (served aRead []).arbiter.serving = some .span ∧
    (served aRead []).engine.span = some ⟨.p1, []⟩ ∧ ((served aRead []).port .p1).record = some aRead ∧
    aRead.accessInStore = true ∧ aRead.reads = [76800] ++ 76801 :: [] ∧
    (∀ x ∈ [76800], x ≠ 76801 ∧ (served aRead []).store.condition x ≠ some .uncorrectable) ∧
    (((served aRead []).store.setCondition 76800 .uncorrectable).condition 76800 = some .uncorrectable) ∧
    (let r := { aRead with src := some ⟨0x104, 4096, 150, 1280, 640, .c16⟩ }
     ((served r []).port .p1).record = some r ∧ r.accessInStore = false) := by decide +kernel

/-- A WRITE short of data by all its 16 bytes or by none; a READ with eight slots taken or seven. -/
theorem witness_StreamTimersExpire :
    (let s := (served aWriteRecord []).modPort .p1 fun b => { b with staging := ⟨some 7, List.replicate 15 0, 0, none⟩ }
     s.resetPin = false ∧ (s.port .p1).record = some aWriteRecord ∧ aWriteRecord.timer = some 5 ∧
     aWriteRecord.job.kind = .write ∧ aWriteRecord.dst = some ⟨0x104, 150, 150, 1280, 640, .c16⟩ ∧
     (s.port .p1).staging.held.length < Format.c16.rowBytes aWriteRecord.spanPixels ∧
     Format.c16.rowBytes aWriteRecord.spanPixels = 16 ∧ ({ s with engine := ⟨none, .p1⟩ } : State).engine.span = none) ∧
    aRead.job.kind = .read ∧ aRead.timer = some 5 ∧ ((served aRead []).port .p1).record = some aRead ∧
    8 ≤ ((linked fun l => { l with reserved := 8 }).port .p1).link.used.length +
      ((linked fun l => { l with reserved := 8 }).port .p1).link.reserved ∧
    ¬ 8 ≤ ((linked fun l => { l with reserved := 7 }).port .p1).link.used.length +
      ((linked fun l => { l with reserved := 7 }).port .p1).link.reserved := by decide +kernel

/-! ### A state that meets every invariant, with a command to run -/

/-- P1 owns the picture in slot 4, shared with P2, and has one QUEUED entry on it; P2 has a fault record; a HELLO waits on
P3; JOB_DISPATCH waits. -/
def lived : State :=
  { has .p3 .req [1, 0, 5, 0, 2, 0] ((queued [anEntry (.queued false)] none none).modPort .p1 fun b =>
      { b with canvasesHeld := 1, blocksHeld := 150 }) with
    allocated := BitVec.ofNat 4096 ((2 ^ 150 - 1) <<< 150)
    faultLog := logged
    pending := [.jobDispatch .p1] }

theorem lived_slot (n : Nat) : lived.slot n =
    if n = 4 then ⟨1, some (picture .live 1 [⟨.p2, .r, 0, none⟩])⟩ else if 1 ≤ n ∧ n ≤ 255 then ⟨1, none⟩ else ⟨0, none⟩ := by
  rw [← shown_slot]
  cases n <;> rfl

theorem lived_canvas (n : Nat) (c : Canvas) (h : lived.canvas n = some c) :
    n = 4 ∧ c = picture .live 1 [⟨.p2, .r, 0, none⟩] :=
  shown_canvas _ _ n (by rw [← h, State.canvas, State.canvas, lived_slot, shown_slot])

theorem lived_runs (p : Port) : lived.runsOf p = if p = .p1 then [150] else [] := by
  have h : ∀ n, (lived.canvas n).bind (fun c => if c.owner = p then some c.blockCount else none) =
      if n = 4 ∧ p = .p1 then some 150 else none := by
    intro n
    cases hc : lived.canvas n with
    | none =>
      have : n ≠ 4 := by rintro rfl; unfold State.canvas at hc; rw [lived_slot] at hc; cases hc
      simp [this]
    | some c =>
      obtain ⟨rfl, rfl⟩ := lived_canvas n c hc
      cases p <;> simp [picture]
  unfold State.runsOf
  rw [funext h]
  cases p <;> decide +kernel

theorem witness_lived_steps :
    (∃ t, step lived = .next t) ∧ lived.pending.head? ≠ some .powerOn ∧ lived.pending.head? ≠ some .resetPinAssert ∧
    lived.pending.head? ≠ some .resetPinRelease ∧ lived.canvas 1 = none ∧
    lived.canvas 4 = some (picture .live 1 [⟨.p2, .r, 0, none⟩]) := by
  refine ⟨?_, by decide, by decide, by decide, by decide +kernel, by decide +kernel⟩
  exact ⟨_, rfl⟩

theorem witness_LinkBuffersStayInBounds : lived.OutboundFits ∧ lived.InboundFits ∧ lived.StagingFits := by
  refine ⟨fun p => ?_, fun p => ?_, fun p => ?_⟩ <;> cases p <;> decide +kernel

theorem witness_QueuesAndClaimsStayOrdered : lived.QueuesOrdered ∧ lived.ClaimsApart ∧ crossing.ClaimsApart := by
  refine ⟨fun p => ?_, fun p q _ => ?_, fun p q hpq => ?_⟩
  · unfold JobQueue.Ordered; cases p <;> decide +kernel
  · cases p <;> cases q <;> decide +kernel
  · cases p <;> cases q <;> first | exact absurd rfl hpq | decide +kernel

theorem witness_CanvasTableStaysExact : lived.GrantsPlaced ∧ lived.HoldingsExact ∧ lived.BlocksExact := by
  refine ⟨fun n c h => ?_, fun p => ?_, fun b => ?_, fun n c h => ?_, fun n m c d b h1 h2 _ _ => ?_⟩
  · rw [(lived_canvas n c h).2]
    unfold Canvas.GrantsPlaced
    decide +kernel
  · have h : (lived.port p).canvasesHeld = (if p = .p1 then 1 else 0) ∧ (lived.port p).blocksHeld = (if p = .p1 then 150 else 0) ∧
        (lived.port p).blockQuota = 1024 ∧ (lived.port p).canvasQuota = 64 := by cases p <;> decide
    rw [lived_runs, h.1, h.2.1, h.2.2.1, h.2.2.2]
    cases p <;> decide
  · have h4 : lived.canvas 4 = some (picture .live 1 [⟨.p2, .r, 0, none⟩]) := by decide +kernel
    have hall : ∀ k < 4096, lived.allocated.getLsbD k = decide (150 ≤ k ∧ k < 300) := by
      intro k hk
      have h : lived.allocated = BitVec.ofNat 4096 ((2 ^ 150 - 1) <<< 150) := rfl
      rw [h, BitVec.getLsbD_ofNat, Nat.testBit_shiftLeft, Nat.testBit_two_pow_sub_one]
      by_cases h1 : 150 ≤ k <;> by_cases h2 : k < 300 <;> simp [hk, h1, h2] <;> omega
    constructor
    · intro hb
      have hlt : b < 4096 := by
        by_contra hge
        rw [BitVec.getLsbD_of_ge _ _ (by omega)] at hb
        cases hb
      rw [hall b hlt, decide_eq_true_eq] at hb
      exact ⟨4, _, h4, hb.1, hb.2⟩
    · rintro ⟨n, c, hc, hb⟩
      rw [(lived_canvas n c hc).2] at hb
      have h5 : 150 ≤ b ∧ b < 300 := hb
      rw [hall b (by omega), decide_eq_true_eq]
      exact h5
  · rw [(lived_canvas n c h).2]
    decide
  · rw [(lived_canvas n c h1).1, (lived_canvas m d h2).1]

/-- A CLOSING canvas with a REVOKING grant, both with pins, and time to pass. -/
theorem witness_CanvasTableStaysExact_ends :
    lived.EndsTaken ∧
    (let s := shown (picture (.closing closingOp) 0 [revoking .cut 1])
     s.GrantsPlaced ∧ s.EndsTaken ∧ ∃ t, step s = .next t) := by
  refine ⟨fun n c h => ?_, fun n c h => ?_, fun n c h => ?_, ⟨_, rfl⟩⟩
  · rw [(lived_canvas n c h).2]
    exact ⟨by decide, by decide⟩
  · rw [(shown_canvas _ _ _ h).2]
    unfold Canvas.GrantsPlaced
    decide
  · rw [(shown_canvas _ _ _ h).2]
    exact ⟨by decide, by decide⟩

theorem lived_entries (p : Port) :
    (lived.port p).queue.entries = if p = .p1 then [anEntry (.queued false)] else [] := by
  cases p <;> rfl

theorem witness_PinsStayExact : lived.PinsExact ∧ lived.ClearListExact ∧ lived.ResettingPortsQuiet := by
  refine ⟨⟨fun p e he => ?_, fun n c p hc => ?_⟩, ⟨List.nodup_nil, fun n => ⟨fun h => ?_, ?_⟩⟩, fun p op h => ?_⟩
  · rw [lived_entries] at he
    split at he
    · rw [List.mem_singleton] at he
      subst he
      refine ⟨by decide, fun h hh => ?_⟩
      have : h = 0x104 := List.mem_singleton.1 hh
      subst this
      simp only [State.lookup, State.canvas, lived_slot]
      decide
    · cases he
  · obtain ⟨rfl, rfl⟩ := lived_canvas n c hc
    rw [lived_entries]
    simp only [State.handle, lived_slot]
    cases p <;> decide
  · have h0 : lived.clear.list = [] := rfl
    rw [h0] at h; cases h
  · rintro ⟨c, hc, hk⟩
    rw [(lived_canvas n c hc).2] at hk
    cases hk
  · cases p <;> cases h

/-- A store in which a block has been cleared. -/
theorem witness_StoreLogAndMarksStayConsistent_checks :
    let m := lived.store.clearBlock 150 .c16 0xF800
    m.checkBits 76800 = Config.checkCode 0xF800F800F800F800 ∧ m.wf = true ∧ m.ChecksAgree := by
  have hl : lived.store.checks = [] := rfl
  refine ⟨?_, Store.wf_clearBlock _ _ _ _ rfl (by decide), Store.checksAgree_clearBlock _ _ _ _ fun c hc => ?_⟩
  · rw [Store.checkBits_clearBlock, if_pos (by decide)]
    exact congrArg _ (by decide +kernel)
  · rw [hl] at hc
    cases hc

theorem witness_StoreLogAndMarksStayConsistent :
    lived.StoreCanonical ∧ lived.faultLog.Consistent ∧ lived.DueOutstanding ∧ lived.GenerationsValid := by
  refine ⟨rfl, ⟨by decide, fun i => ?_⟩, fun p => ?_, fun n h1 h2 => ?_⟩
  · by_cases hi : i < 12
    · have : ∀ j < 12, j ∈ lived.faultLog.arrival ↔ (lived.faultLog.record j).isSome = true := by decide +kernel
      exact this i hi
    · have h3 : lived.faultLog.arrival = [11] := rfl
      have h4 : lived.faultLog.record i = none := by
        have : ¬ i < 12 := hi
        simp [FaultLog.record, this]
      rw [h3, h4]
      simp
      omega
  · cases p <;> decide +kernel
  · rw [lived_slot]
    split
    · decide
    · rw [if_pos ⟨h1, h2⟩]; decide

end Sys2Proof.Tests
end

/-! SUPPORT. The canvas table as its pins and its records see it: which changes of it keep every record and every pin
counted, and for each operation of the canvas manager the one of these changes it is. -/

namespace Sys2Proof.Machine

/-! ### Handles and slots (R2, R3) -/

theorem handleOf_toNat (n : Nat) (g : BitVec 8) (h : n ≤ 255) : (handleOf n g).toNat = g.toNat * 256 + n := by
  have h1 : (BitVec.ofNat 8 n).toNat = n := by rw [BitVec.toNat_ofNat]; omega
  rw [handleOf, BitVec.toNat_append, h1, ← Nat.shiftLeft_add_eq_or_of_lt (by omega : n < 2 ^ 8), Nat.shiftLeft_eq]

theorem handleSlot_handleOf (n : Nat) (g : BitVec 8) (h : n ≤ 255) : handleSlot (handleOf n g) = n := by
  rw [handleSlot, handleOf_toNat n g h]
  omega

theorem State.handleSlot_handle (s : State) (n : Nat) (c : Canvas) (h : s.canvas n = some c) :
    handleSlot (s.handle n) = n := handleSlot_handleOf n _ (s.canvas_bounds n c h).2

/-- When a handle is not stale (R3). -/
theorem State.lookup_isSome (s : State) (h : Handle) :
    (s.lookup h).isSome = true ↔ handleGen h ≠ 0 ∧ (s.slot (handleSlot h)).generation = handleGen h ∧
      ∃ c, s.canvas (handleSlot h) = some c ∧ c.phase.known = true := by
  unfold State.lookup
  split
  · next hg =>
    simp only [Bool.or_eq_true, decide_eq_true_eq, bne_iff_ne, ne_eq] at hg
    simp only [Option.isSome_none, Bool.false_eq_true, false_iff, not_and]
    intro h0 h1
    exact absurd hg (not_or.2 ⟨h0, not_not.2 h1.symm⟩)
  · next hg =>
    simp only [Bool.or_eq_true, decide_eq_true_eq, bne_iff_ne, ne_eq, not_or, Decidable.not_not] at hg
    cases hc : s.canvas (handleSlot h) with
    | none => simp
    | some c =>
      by_cases hk : c.phase.known = true
      · simp only [hk, if_true, Option.isSome_some, true_iff]
        exact ⟨hg.1, hg.2.symm, c, rfl, hk⟩
      · simp [hk]

/-- The canvas of a current handle has that handle, and its slot is the handle's. -/
theorem State.handle_of_lookup (s : State) (h : Handle) (hl : (s.lookup h).isSome = true) : s.handle (handleSlot h) = h := by
  obtain ⟨c, hc⟩ := Option.isSome_iff_exists.1 hl
  exact (s.lookup_some h c hc).2.2.2

/-! ### Records (R2, R7) -/

/-- The two canvases agree in every field fixed at OPEN (R7). -/
def Canvas.SameRecord (c d : Canvas) : Prop :=
  d.owner = c.owner ∧ d.format = c.format ∧ d.width = c.width ∧ d.height = c.height ∧ d.pitch = c.pitch ∧
    d.firstBlock = c.firstBlock ∧ d.blockCount = c.blockCount ∧ d.tag = c.tag ∧ d.fill = c.fill

theorem Canvas.SameRecord.refl (c : Canvas) : c.SameRecord c := ⟨rfl, rfl, rfl, rfl, rfl, rfl, rfl, rfl, rfl⟩

theorem Canvas.SameRecord.trans {c d e : Canvas} (h : c.SameRecord d) (k : d.SameRecord e) : c.SameRecord e := by
  unfold Canvas.SameRecord at *
  simp_all

/-- What becomes of a slot without an OPEN: its record and generation stay, or it goes to FREE with its next generation. -/
inductive Slot.Kept (x y : Slot) : Prop
  | free : x.canvas = none → y.canvas = none → y.generation = x.generation → Slot.Kept x y
  | held (c d : Canvas) : x.canvas = some c → y.canvas = some d → c.SameRecord d → y.generation = x.generation → Slot.Kept x y
  | freed (c : Canvas) : x.canvas = some c → y = ⟨nextGeneration x.generation, none⟩ → Slot.Kept x y

theorem Slot.Kept.refl (x : Slot) : x.Kept x := by
  cases h : x.canvas with
  | none => exact .free h h rfl
  | some c => exact .held c c h h (.refl c) rfl

theorem Slot.Kept.trans {x y z : Slot} (h : x.Kept y) (k : y.Kept z) : x.Kept z := by
  cases h with
  | free hx hy hg =>
    cases k with
    | free _ hz hg' => exact .free hx hz (hg'.trans hg)
    | held c d hc => rw [hy] at hc; cases hc
    | freed c hc => rw [hy] at hc; cases hc
  | held c d hx hy hr hg =>
    cases k with
    | free hy' => rw [hy] at hy'; cases hy'
    | held c' e hy' hz hr' hg' =>
      rw [hy] at hy'; cases hy'
      exact .held c e hx hz (hr.trans hr') (hg'.trans hg)
    | freed _ _ hz => exact .freed c hx (by rw [hz, hg])
  | freed c hx hy =>
    subst hy
    cases k with
    | free _ hz hg =>
      refine .freed c hx ?_
      cases z
      simp_all
    | held _ _ hc => cases hc
    | freed _ hc => cases hc

/-- No canvas is opened, and every slot keeps its record until it is released. -/
def State.RecordsKept (s t : State) : Prop := ∀ n, (s.slot n).Kept (t.slot n)

theorem State.RecordsKept.refl (s : State) : s.RecordsKept s := fun n => .refl (s.slot n)

theorem State.RecordsKept.trans {s t u : State} (h : s.RecordsKept t) (k : t.RecordsKept u) : s.RecordsKept u :=
  fun n => (h n).trans (k n)

/-! ### Pins counted (R9, R32) -/

/-- The canvas table counts `k p h` pins of port `p` on the canvas of handle `h`, none on a stale handle; and the clear list
names the CLEARING canvases. -/
structure State.TableExact (s : State) (k : Port → Handle → Nat) : Prop where
  current : ∀ p h, 0 < k p h → (s.lookup h).isSome = true
  counted : ∀ n c p, s.canvas n = some c → c.pinsOf p = k p (s.handle n)
  clearing : s.ClearListExact

/-- A change that keeps every record, and every pin counted as it was. -/
structure State.TableKept (s t : State) : Prop where
  records : s.RecordsKept t
  exact : ∀ k, s.TableExact k → t.TableExact k

theorem State.TableKept.refl (s : State) : s.TableKept s := ⟨.refl s, fun _ h => h⟩

theorem State.TableKept.trans {s t u : State} (h : s.TableKept t) (k : t.TableKept u) : s.TableKept u :=
  ⟨h.records.trans k.records, fun i x => k.exact i (h.exact i x)⟩

theorem State.tableKept_foldl {α : Type} (f : State → α → State) (h : ∀ (s : State) (a : α), s.TableKept (f s a)) (xs : List α)
    (s : State) : s.TableKept (xs.foldl f s) := by
  induction xs generalizing s with
  | nil => exact .refl s
  | cons a t ih => exact (h s a).trans (ih _)

/-- No port has pins on a canvas whose pin count is 0. -/
theorem Canvas.pinsOf_of_pinCount (c : Canvas) (h : c.pinCount = 0) (p : Port) : c.pinsOf p = 0 := by
  unfold Canvas.pinCount at h
  unfold Canvas.pinsOf
  split
  · omega
  · cases hg : c.grantTo p with
    | none => rfl
    | some g =>
      have h1 : g.pins ∈ c.grants.map Grant.pins := List.mem_map_of_mem (c.grantTo_some p g hg).1
      have h2 : g.pins ≤ (c.grants.map Grant.pins).sum := List.le_sum_of_mem h1
      simp only [Option.map_some, Option.getD_some]
      omega

/-! ### Changes that keep every pin count -/

/-- Two canvases with the same record and the same pins, both known to hosts or both CLEARING. -/
structure Canvas.Alike (c d : Canvas) : Prop where
  record : c.SameRecord d
  known : d.phase.known = c.phase.known
  pins : ∀ p, d.pinsOf p = c.pinsOf p

theorem Canvas.Alike.refl (c : Canvas) : c.Alike c := ⟨.refl c, rfl, fun _ => rfl⟩

/-- The two canvas tables have the same generations, and alike canvases in the same slots; the clear list is the same. -/
structure State.TableAlike (s t : State) : Prop where
  list : t.clear.list = s.clear.list
  generation : ∀ n, (t.slot n).generation = (s.slot n).generation
  free : ∀ n, s.canvas n = none → t.canvas n = none
  held : ∀ n c, s.canvas n = some c → ∃ d, t.canvas n = some d ∧ c.Alike d

theorem State.TableAlike.back {s t : State} (h : s.TableAlike t) (n : Nat) (d : Canvas) (hd : t.canvas n = some d) :
    ∃ c, s.canvas n = some c ∧ c.Alike d := by
  cases hc : s.canvas n with
  | none => rw [h.free n hc] at hd; cases hd
  | some c =>
    obtain ⟨d', hd', ha⟩ := h.held n c hc
    rw [hd] at hd'; cases hd'
    exact ⟨c, rfl, ha⟩

theorem State.TableAlike.lookup {s t : State} (h : s.TableAlike t) (a : Handle) (hl : (s.lookup a).isSome = true) :
    (t.lookup a).isSome = true := by
  rw [State.lookup_isSome] at hl ⊢
  obtain ⟨h0, hg, c, hc, hk⟩ := hl
  obtain ⟨d, hd, ha⟩ := h.held _ c hc
  exact ⟨h0, (h.generation _).trans hg, d, hd, ha.known.trans hk⟩

theorem State.TableAlike.kept {s t : State} (h : s.TableAlike t) : s.TableKept t := by
  refine ⟨fun n => ?_, fun k hk => ⟨fun p a ha => h.lookup a (hk.current p a ha), fun n d p hd => ?_, ?_, fun n => ?_⟩⟩
  · cases hc : s.canvas n with
    | none => exact .free hc (h.free n hc) (h.generation n)
    | some c =>
      obtain ⟨d, hd, ha⟩ := h.held n c hc
      exact .held c d hc hd ha.record (h.generation n)
  · obtain ⟨c, hc, ha⟩ := h.back n d hd
    rw [ha.pins, hk.counted n c p hc, State.handle, State.handle, h.generation]
  · rw [h.list]; exact hk.clearing.1
  · rw [h.list, hk.clearing.2 n]
    constructor
    · rintro ⟨c, hc, hk⟩
      obtain ⟨d, hd, ha⟩ := h.held n c hc
      exact ⟨d, hd, ha.known.trans hk⟩
    · rintro ⟨d, hd, hk⟩
      obtain ⟨c, hc, ha⟩ := h.back n d hd
      exact ⟨c, hc, ha.known.symm.trans hk⟩

/-- A change that reaches neither the canvas table nor the clear list. -/
theorem State.tableAlike_of_slots (s t : State) (h : t.slots = s.slots) (hl : t.clear.list = s.clear.list) : s.TableAlike t := by
  have hs (n : Nat) : t.slot n = s.slot n := by simp only [State.slot, h]
  refine ⟨hl, fun n => by rw [hs], fun n hn => ?_, fun n c hc => ⟨c, ?_, .refl c⟩⟩
  · rw [State.canvas, hs]; exact hn
  · rw [State.canvas, hs]; exact hc

theorem State.tableKept_modPort (s : State) (p : Port) (f : PortBlock → PortBlock) : s.TableKept (s.modPort p f) :=
  (s.tableAlike_of_slots (s.modPort p f) rfl rfl).kept

theorem State.tableKept_answerWaiters (s : State) (ws : List Waiter) (m : List Byte) : s.TableKept (s.answerWaiters ws m) := by
  rw [State.answerWaiters_eq]
  exact (s.tableAlike_of_slots { s with ports := (s.answerWaiters ws m).ports } rfl rfl).kept

/-- A canvas gives way to one alike. -/
theorem State.tableAlike_setCanvas (s : State) (n : Nat) (c d : Canvas) (hc : s.canvas n = some c) (h : c.Alike d) :
    s.TableAlike (s.setCanvas n d) := by
  refine ⟨by simp, by simp, fun m hm => ?_, fun m e he => ?_⟩
  · have : m ≠ n := by rintro rfl; rw [hc] at hm; cases hm
    rwa [State.canvas_setCanvas_ne _ _ _ _ this]
  · by_cases hmn : m = n
    · subst hmn
      rw [hc] at he; cases he
      exact ⟨d, State.canvas_setCanvas_same _ _ _ c hc, h⟩
    · rw [State.canvas_setCanvas_ne _ _ _ _ hmn]
      exact ⟨e, he, .refl e⟩

theorem State.tableAlike_modCanvas (s : State) (n : Nat) (f : Canvas → Canvas) (h : ∀ c, s.canvas n = some c → c.Alike (f c)) :
    s.TableAlike (s.modCanvas n f) := by
  unfold State.modCanvas
  split
  · exact s.tableAlike_of_slots s rfl rfl
  · next c hc => exact s.tableAlike_setCanvas n c _ hc (h c hc)

/-- The same change of every slot, which keeps generations and leaves canvases alike. -/
theorem State.tableAlike_map (s : State) (f : Canvas → Canvas) (h : ∀ c : Canvas, c.Alike (f c)) :
    s.TableAlike { s with slots := s.slots.map fun x : Slot => { x with canvas := x.canvas.map f } } := by
  have hs (n : Nat) : State.slot { s with slots := s.slots.map fun x : Slot => { x with canvas := x.canvas.map f } } n =
      { s.slot n with canvas := (s.slot n).canvas.map f } := by
    cases n with
    | zero => rfl
    | succ k => by_cases hk : k < 255 <;> simp [State.slot, hk]
  refine ⟨rfl, fun n => by rw [hs], fun n hn => ?_, fun n c hc => ⟨f c, ?_, h c⟩⟩
  · rw [State.canvas, hs]; simp only [State.canvas] at hn; rw [hn]; rfl
  · rw [State.canvas, hs]; simp only [State.canvas] at hc; rw [hc]; rfl

/-- The pins of a port's first grant are told by the ports and the pin counts of the grants alone. -/
theorem Canvas.pinsOf_eq (c : Canvas) (p : Port) :
    c.pinsOf p = if c.owner = p then c.ownerPins else
      (((c.grants.map fun g => (g.port, g.pins)).find? fun x => x.1 == p).map Prod.snd).getD 0 := by
  rw [List.find?_map, Option.map_map]
  rfl

/-- Canvases that differ in rights, in revokes, and in an operation under way are alike. -/
theorem Canvas.alike_of_grants (c d : Canvas) (hr : c.SameRecord d) (hk : d.phase.known = c.phase.known)
    (ho : d.ownerPins = c.ownerPins)
    (hg : d.grants.map (fun g => (g.port, g.pins)) = c.grants.map fun g => (g.port, g.pins)) : c.Alike d :=
  ⟨hr, hk, fun p => by rw [Canvas.pinsOf_eq, Canvas.pinsOf_eq, hr.1, ho, hg]⟩

theorem Canvas.alike_modGrant (c : Canvas) (p : Port) (f : Grant → Grant)
    (h : ∀ g : Grant, (f g).port = g.port ∧ (f g).pins = g.pins) : c.Alike (c.modGrant p f) := by
  refine c.alike_of_grants _ (.refl c) rfl rfl ?_
  rw [Canvas.modGrant, List.map_map]
  refine List.map_congr_left fun g _ => ?_
  simp only [Function.comp]
  split
  · rw [(h g).1, (h g).2]
  · rfl

/-- A grant without pins may be added for a port that has none (R40). -/
theorem Canvas.alike_addGrant (c : Canvas) (t : Port) (asked : Rights) (h : c.grantTo t = none) :
    c.Alike { c with grants := c.grants ++ [⟨t, asked, 0, none⟩] } := by
  refine ⟨.refl c, rfl, fun p => ?_⟩
  unfold Canvas.pinsOf Canvas.grantTo
  unfold Canvas.grantTo at h
  by_cases hp : t = p
  · subst hp; simp [List.find?_append, h]
  · have hp' : (t == p) = false := by simpa using hp
    simp [List.find?_append, hp']

/-- The grants of a port may be removed when it has no pins by them (R45). -/
theorem Canvas.alike_dropGrant (c : Canvas) (t : Port) (h : ∀ g, c.grantTo t = some g → g.pins = 0) :
    c.Alike { c with grants := c.grants.filter fun g => g.port != t } := by
  refine ⟨.refl c, rfl, fun p => ?_⟩
  unfold Canvas.pinsOf Canvas.grantTo
  unfold Canvas.grantTo at h
  dsimp only
  split
  · rfl
  · rw [List.find?_filter]
    by_cases hp : p = t
    · subst hp
      have h1 : (c.grants.find? fun g => decide ((g.port != p) = true ∧ (g.port == p) = true)) = none := by simp
      rw [h1]
      cases hg : c.grants.find? fun g => g.port == p with
      | none => rfl
      | some g => simp [h g hg]
    · congr 3
      funext g
      by_cases hq : g.port = p <;> simp [hq, hp]

/-- All grants may go from a canvas without pins (R53). -/
theorem Canvas.alike_dropGrants (c : Canvas) (h : c.pinCount = 0) : c.Alike { c with grants := [] } := by
  refine ⟨.refl c, rfl, fun p => ?_⟩
  rw [c.pinsOf_of_pinCount h]
  refine Canvas.pinsOf_of_pinCount _ ?_ p
  unfold Canvas.pinCount at *
  simp only [List.map_nil, List.sum_nil]
  omega

/-- A close may begin or change on a canvas known to hosts (R50, R51). -/
theorem Canvas.alike_setPhase (c : Canvas) (ph : Phase) (h : ph.known = c.phase.known) : c.Alike { c with phase := ph } :=
  c.alike_of_grants _ (.refl c) h rfl rfl

/-! ### Release (R10, R30) -/

theorem State.slot_release_same (s : State) (n : Nat) (c : Canvas) (h : s.canvas n = some c) :
    (s.release n).slot n = ⟨nextGeneration (s.slot n).generation, none⟩ := by
  have hb := s.canvas_bounds n c h
  rw [s.release_eq n c h, State.slot_setSlot_same _ _ _ hb.1 hb.2]

theorem State.slot_release_ne (s : State) (n m : Nat) (h : m ≠ n) : (s.release n).slot m = s.slot m := by
  cases hc : s.canvas n with
  | none => rw [s.release_none n hc]
  | some c =>
    rw [s.release_eq n c hc, State.slot_setSlot_ne _ _ _ _ h, State.modPort_slot]
    cases m <;> rfl

theorem State.release_clear (s : State) (n : Nat) : (s.release n).clear = s.clear := by rw [(s.onlyEnds_release n).1]

theorem State.records_release (s : State) (n : Nat) : s.RecordsKept (s.release n) := by
  intro m
  by_cases hm : m = n
  · subst hm
    cases hc : s.canvas m with
    | none => rw [s.release_none m hc]; exact .refl _
    | some c => exact .freed c hc (s.slot_release_same m c hc)
  · rw [s.slot_release_ne n m hm]; exact .refl _

/-- What a change of slot `n` alone must meet to keep every pin counted. -/
theorem State.TableExact.of_slot {s t : State} {k : Port → Handle → Nat} (h : s.TableExact k) (n : Nat)
    (hne : ∀ m, m ≠ n → t.slot m = s.slot m)
    (hl : ∀ p a, 0 < k p a → handleSlot a = n → (t.lookup a).isSome = true)
    (hp : ∀ d p, t.canvas n = some d → d.pinsOf p = k p (t.handle n)) (hc : t.ClearListExact) : t.TableExact k := by
  have hcne (m : Nat) (hm : m ≠ n) : t.canvas m = s.canvas m := by rw [State.canvas, hne m hm]; rfl
  refine ⟨fun p a ha => ?_, fun m d p hd => ?_, hc⟩
  · by_cases hn : handleSlot a = n
    · exact hl p a ha hn
    · have := h.current p a ha
      rw [State.lookup_isSome] at this ⊢
      rw [hne _ hn, hcne _ hn]
      exact this
  · by_cases hn : m = n
    · subst hn; exact hp d p hd
    · rw [hcne m hn] at hd
      rw [h.counted m d p hd, State.handle, State.handle, hne m hn]

/-- With a slot released that has no pins, and its number off the clear list, all other pins stay counted. -/
theorem State.TableExact.release {s : State} {k : Port → Handle → Nat} (h : s.TableExact k) (n : Nat) (c : Canvas)
    (hc : s.canvas n = some c) (hp : c.pinCount = 0 ∨ c.phase.known = false) (u : ClearUnit) (hu : u.list.Nodup)
    (hm : ∀ m, m ∈ u.list ↔ m ∈ s.clear.list ∧ m ≠ n) : (State.release { s with clear := u } n).TableExact k := by
  have hs (m : Nat) : State.slot { s with clear := u } m = s.slot m := by cases m <;> rfl
  have hcu : State.canvas { s with clear := u } n = some c := by rw [State.canvas, hs]; exact hc
  have hsame : (State.release { s with clear := u } n).canvas n = none := by
    rw [State.canvas, State.slot_release_same _ n c hcu]
  have hne (m : Nat) (h : m ≠ n) : (State.release { s with clear := u } n).slot m = s.slot m := by
    rw [State.slot_release_ne _ _ _ h, hs]
  refine h.of_slot n hne (fun p a ha hn => ?_) (fun d p hd => by rw [hsame] at hd; cases hd) ⟨?_, fun m => ?_⟩
  · exfalso
    have hl := h.current p a ha
    have hh := s.handle_of_lookup a hl
    rw [hn] at hh
    rcases hp with hp | hp
    · have h1 := h.counted n c p hc
      rw [hh, c.pinsOf_of_pinCount hp] at h1
      omega
    · obtain ⟨_, _, d, hd, hk⟩ := (s.lookup_isSome a).1 hl
      rw [hn, hc] at hd; cases hd
      rw [hp] at hk; cases hk
  · rw [State.release_clear]; exact hu
  · rw [State.release_clear]
    change m ∈ u.list ↔ _
    rw [hm, h.clearing.2 m]
    by_cases hn : m = n
    · subst hn; simp [hsame]
    · have : (State.release { s with clear := u } n).canvas m = s.canvas m := by rw [State.canvas, hne m hn]; rfl
      simp [hn, this]

/-- The release of a canvas known to hosts that has no pins. -/
theorem State.tableKept_release (s : State) (n : Nat) (c : Canvas) (hc : s.canvas n = some c) (hp : c.pinCount = 0)
    (hk : c.phase.known = true) : s.TableKept (s.release n) := by
  refine ⟨s.records_release n, fun k h => h.release n c hc (.inl hp) s.clear h.clearing.1 fun m => ?_⟩
  constructor
  · intro hm
    refine ⟨hm, ?_⟩
    rintro rfl
    obtain ⟨d, hd, hkd⟩ := (h.clearing.2 m).1 hm
    rw [hc] at hd; cases hd
    rw [hk] at hkd; cases hkd
  · exact And.left

/-! ### Ends of revokes and closes (R45, R53) -/

theorem State.tableKept_raise (s : State) (p : Port) (k : Flag) : s.TableKept (s.modPort p fun b => b.raise k) :=
  s.tableKept_modPort p _

/-- The end of a revoke whose grant has no pins (R45). -/
theorem State.tableKept_endRevoke (s : State) (n : Nat) (p : Port)
    (h : ∀ c g, s.canvas n = some c → c.grantTo p = some g → g.pins = 0) : s.TableKept (s.endRevoke n p) := by
  unfold State.endRevoke
  split
  · exact .refl s
  · next c hc =>
    split
    · exact .refl s
    · split
      · exact .refl s
      · have h1 := (s.tableAlike_setCanvas n c _ hc (c.alike_dropGrant p fun g hg => h c g hc hg)).kept
        exact (h1.trans (State.tableKept_answerWaiters _ _ _)).trans (State.tableKept_raise _ _ _)

theorem State.tableKept_answerRevoke (a : Handle) (s : State) (g : Grant) : s.TableKept (s.answerRevoke a g) := by
  unfold State.answerRevoke
  split
  · exact .refl s
  · exact s.tableKept_answerWaiters _ _

@[simp] theorem State.answerRevoke_canvas (a : Handle) (s : State) (g : Grant) (n : Nat) :
    (s.answerRevoke a g).canvas n = s.canvas n := by
  unfold State.answerRevoke
  split
  · rfl
  · simp

theorem State.canvas_foldl {α : Type} (f : State → α → State) (n : Nat) (h : ∀ (s : State) (a : α), (f s a).canvas n = s.canvas n)
    (xs : List α) (s : State) : (xs.foldl f s).canvas n = s.canvas n := by
  induction xs generalizing s with
  | nil => rfl
  | cons a t ih => exact (ih _).trans (h s a)

/-- The end of a close: its canvas is known to hosts and has no pins (R53). -/
theorem State.tableKept_endClose (s : State) (n : Nat) (op : CloseOp) (c : Canvas) (hc : s.canvas n = some c)
    (hp : c.pinCount = 0) (hk : c.phase.known = true) : s.TableKept (s.endClose n op) := by
  unfold State.endClose
  simp only [hc]
  set a := s.handle n
  set s1 := c.grants.foldl (State.answerRevoke a) s with hs1
  have hc1 : s1.canvas n = some c := (State.canvas_foldl _ n (fun s g => s.answerRevoke_canvas a g n) c.grants s).trans hc
  set s2 := s1.setCanvas n { c with grants := [] } with hs2
  have hc2 : s2.canvas n = some { c with grants := [] } := State.canvas_setCanvas_same _ _ _ c hc1
  set s3 := c.grants.foldl (fun s g => s.modPort g.port fun b => b.raise .grantLost) s2 with hs3
  have hc3 : s3.canvas n = s2.canvas n := State.canvas_foldl _ n (fun s g => s.modPort_canvas g.port _ n) c.grants s2
  set s4 := s3.answerWaiters op.waiters (closeContents a op.mode.outcome) with hs4
  have hc4 : s4.canvas n = s3.canvas n := s3.answerWaiters_canvas _ _ n
  have h1 : s.TableKept s1 := State.tableKept_foldl _ (State.tableKept_answerRevoke a) _ _
  have h2 : s1.TableKept s2 := (s1.tableAlike_setCanvas n c _ hc1 (c.alike_dropGrants hp)).kept
  have h3 : s2.TableKept s3 := State.tableKept_foldl _ (fun s (g : Grant) => s.tableKept_raise g.port .grantLost) _ _
  have h4 : s3.TableKept s4 := s3.tableKept_answerWaiters _ _
  have hp' : ({ c with grants := [] } : Canvas).pinCount = 0 := by
    simp only [Canvas.pinCount, List.map_nil, List.sum_nil] at hp ⊢
    omega
  have h5 : s4.TableKept ((if op.forced then s4.modPort c.owner fun b => b.raise .canvasLost else s4).release n) := by
    split
    · exact (s4.tableKept_raise _ _).trans
        (State.tableKept_release _ n _ (((State.modPort_canvas _ _ _ _).trans hc4).trans (hc3.trans hc2)) hp' hk)
    · exact s4.tableKept_release n _ (hc4.trans (hc3.trans hc2)) hp' hk
  exact (((h1.trans h2).trans h3).trans h4).trans h5

theorem Canvas.closeDue_some (c : Canvas) (op : CloseOp) (h : c.closeDue = some op) :
    c.phase = .closing op ∧ c.pinCount = 0 := by
  unfold Canvas.closeDue at h
  split at h
  · next op' hp =>
    split at h
    · next h0 => cases h; exact ⟨hp, h0⟩
    · cases h
  · cases h

/-- A close that is due ends (R53). -/
theorem State.tableKept_endClose_of_due (s : State) (n : Nat) (op : CloseOp) (c : Canvas) (hc : s.canvas n = some c)
    (h : c.closeDue = some op) : s.TableKept (s.endClose n op) := by
  obtain ⟨hph, hp⟩ := c.closeDue_some op h
  exact s.tableKept_endClose n op c hc hp (by rw [hph]; rfl)

/-- A revoke that is due ends (R45). -/
theorem State.tableKept_endRevoke_of_due (s : State) (n : Nat) (p : Port) (c : Canvas) (hc : s.canvas n = some c)
    (h : c.revokeDue p = true) : s.TableKept (s.endRevoke n p) := by
  refine s.tableKept_endRevoke n p fun d g hd hg => ?_
  rw [hc] at hd; cases hd
  simp only [Canvas.revokeDue, hg, Option.any_some, Bool.and_eq_true, beq_iff_eq] at h
  exact h.2

theorem State.tableKept_settle (s : State) (n : Nat) (p : Port) : s.TableKept (s.settle n p) := by
  obtain ⟨c, op, hc, hd, h⟩ | ⟨c, hc, _, hd, h⟩ | ⟨h, _⟩ := s.settle_cases n p <;> rw [h]
  · exact s.tableKept_endClose_of_due n op c hc hd
  · exact s.tableKept_endRevoke_of_due n p c hc hd
  · exact .refl s

theorem State.tableKept_settleAll (s : State) (p : Port) (hs : List Handle) : s.TableKept (s.settleAll p hs) := by
  induction hs generalizing s with
  | nil => exact .refl s
  | cons h t ih =>
    rw [State.settleAll]
    refine State.TableKept.trans ?_ (ih _)
    split
    · exact .refl s
    · exact s.tableKept_settle _ _

/-! ### Pins taken and dropped (R9, R70) -/

/-- The counts `k`, and one more for each handle of `hs` on port `p`. -/
def withPins (k : Port → Handle → Nat) (p : Port) (hs : List Handle) : Port → Handle → Nat :=
  fun q h => k q h + if q = p then hs.count h else 0

@[simp] theorem withPins_nil (k : Port → Handle → Nat) (p : Port) : withPins k p [] = k := by
  funext q h
  simp [withPins]

theorem withPins_cons (k : Port → Handle → Nat) (p : Port) (a : Handle) (hs : List Handle) :
    withPins k p (a :: hs) = withPins (withPins k p hs) p [a] := by
  funext q h
  simp only [withPins, List.count_cons, List.count_nil]
  split <;> omega

theorem withPins_comm (k : Port → Handle → Nat) (p : Port) (xs ys : List Handle) :
    withPins (withPins k p xs) p ys = withPins (withPins k p ys) p xs := by
  funext q h
  simp only [withPins]
  omega

/-- The port may hold pins on the canvas: it owns it or has a grant on it. -/
def Canvas.Holds (c : Canvas) (p : Port) : Prop := c.owner = p ∨ (c.grantTo p).isSome = true

theorem Canvas.holds_of_pinsOf (c : Canvas) (p : Port) (h : 0 < c.pinsOf p) : c.Holds p := by
  unfold Canvas.pinsOf at h
  split at h
  · next ho => exact .inl ho
  · cases hg : c.grantTo p with
    | none => simp [hg] at h
    | some g => exact .inr (by simp [hg])

/-- A change of a port's pins is one of the pins of that port alone. -/
theorem Canvas.pinsOf_modPins (c : Canvas) (p q : Port) (f : Nat → Nat) (h : c.Holds p) :
    (c.modPins p f).pinsOf q = if q = p then f (c.pinsOf q) else c.pinsOf q := by
  unfold Canvas.modPins
  by_cases ho : c.owner = p
  · subst ho
    by_cases hq : q = c.owner
    · subst hq; simp [Canvas.pinsOf]
    · have hq' : c.owner ≠ q := fun e => hq e.symm
      simp [Canvas.pinsOf, Canvas.grantTo, hq, hq']
  · simp only [if_neg ho, Canvas.pinsOf, Canvas.grantTo, Canvas.modGrant, List.find?_map]
    have hf : ((fun g : Grant => g.port == q) ∘ fun g => if g.port = p then { g with pins := f g.pins } else g) =
        fun g => g.port == q := by
      funext g
      simp only [Function.comp]
      split <;> rfl
    rw [hf]
    by_cases hq : q = p
    · subst hq
      simp only [if_neg ho, if_true]
      obtain ⟨g, hg⟩ := Option.isSome_iff_exists.1 (h.resolve_left ho)
      have hgp := (c.grantTo_some q g hg).2
      rw [Canvas.grantTo] at hg
      simp [hg, hgp]
    · simp only [if_neg hq]
      by_cases hoq : c.owner = q
      · simp [hoq]
      · simp only [if_neg hoq]
        cases hg : c.grants.find? fun g => g.port == q with
        | none => rfl
        | some g =>
          have hgq : g.port = q := (c.grantTo_some q g hg).2
          have : g.port ≠ p := by rw [hgq]; exact hq
          simp [this]

/-- A change of pins keeps the record and the operation under way. -/
theorem Canvas.modPins_record (c : Canvas) (p : Port) (f : Nat → Nat) :
    c.SameRecord (c.modPins p f) ∧ (c.modPins p f).phase = c.phase := by
  obtain ⟨_, _, h, _⟩ := c.modPins_fixed p f
  rw [h]
  exact ⟨.refl c, rfl⟩

/-- Taking and dropping pins leaves who may hold them. -/
theorem Canvas.holds_modPins (c : Canvas) (p q : Port) (f : Nat → Nat) (h : c.Holds q) : (c.modPins p f).Holds q := by
  obtain ⟨_, gs, he, hg⟩ := c.modPins_fixed p f
  rw [he]
  refine h.imp id fun hs => ?_
  have hp : gs.map Grant.port = c.grants.map Grant.port := by
    have := congrArg (List.map Prod.fst) hg
    simpa [List.map_map, Function.comp_def] using this
  have hiff (l : List Grant) : (l.find? fun g => g.port == q).isSome = true ↔ q ∈ l.map Grant.port := by
    simp [List.find?_isSome]
  simp only [Canvas.grantTo, hiff] at hs ⊢
  rw [hp]
  exact hs

theorem State.records_setCanvas (s : State) (n : Nat) (c d : Canvas) (hc : s.canvas n = some c) (h : c.SameRecord d) :
    s.RecordsKept (s.setCanvas n d) := by
  intro m
  by_cases hm : m = n
  · subst hm
    exact .held c d hc (State.canvas_setCanvas_same _ _ _ c hc) h (s.setCanvas_generation m m d)
  · rw [State.setCanvas, State.slot_setSlot_ne _ _ _ _ hm]; exact .refl _

theorem State.records_modCanvas (s : State) (n : Nat) (f : Canvas → Canvas) (h : ∀ c : Canvas, c.SameRecord (f c)) :
    s.RecordsKept (s.modCanvas n f) := by
  unfold State.modCanvas
  split
  · exact .refl s
  · next c hc => exact s.records_setCanvas n c _ hc (h c)

/-- The pins of a port on a current handle change by `f`; all others stay counted as they were. -/
theorem State.TableExact.modPins {s : State} {k k' : Port → Handle → Nat} (h : s.TableExact k) (p : Port) (a : Handle)
    (f : Nat → Nat) (ha : (s.lookup a).isSome = true) (hh : ∀ c, s.canvas (handleSlot a) = some c → c.Holds p)
    (hk : ∀ q b, k' q b = if q = p ∧ b = a then f (k q b) else k q b) :
    (s.modCanvas (handleSlot a) fun c => c.modPins p f).TableExact k' := by
  set t := s.modCanvas (handleSlot a) fun c => c.modPins p f with ht
  have hg (n : Nat) : (t.slot n).generation = (s.slot n).generation := s.modCanvas_generation _ n _
  have hc (n : Nat) : t.canvas n = if n = handleSlot a then (s.canvas n).map fun c => c.modPins p f else s.canvas n :=
    s.canvas_modCanvas _ n _
  have hph (n : Nat) (c : Canvas) : s.canvas n = some c → ∃ d, t.canvas n = some d ∧ d.phase = c.phase := by
    intro hs
    rw [hc n, hs]
    split
    · exact ⟨_, rfl, (c.modPins_record p f).2⟩
    · exact ⟨c, rfl, rfl⟩
  have hback (n : Nat) (d : Canvas) : t.canvas n = some d → ∃ c, s.canvas n = some c ∧ d.phase = c.phase := by
    intro hd
    cases hs : s.canvas n with
    | none => rw [hc n, hs] at hd; simp at hd
    | some c =>
      obtain ⟨d', hd', he⟩ := hph n c hs
      rw [hd] at hd'; cases hd'
      exact ⟨c, rfl, he⟩
  refine ⟨fun q b hb => ?_, fun n d q hd => ?_, ?_, fun n => ?_⟩
  · have hl : (s.lookup b).isSome = true := by
      rw [hk] at hb
      split at hb
      · next he => rw [he.2]; exact ha
      · exact h.current q b hb
    rw [State.lookup_isSome] at hl ⊢
    obtain ⟨h0, h1, c, h2, h3⟩ := hl
    obtain ⟨d, hd, he⟩ := hph _ c h2
    exact ⟨h0, (hg _).trans h1, d, hd, by rw [he]; exact h3⟩
  · rw [State.handle, hg, ← State.handle, hk]
    rw [hc] at hd
    split at hd
    · next hn =>
      subst hn
      obtain ⟨c, hcs, rfl⟩ := Option.map_eq_some_iff.1 hd
      rw [Canvas.pinsOf_modPins c p q f (hh c hcs), h.counted _ c q hcs, s.handle_of_lookup a ha]
      simp
    · next hn =>
      have : s.handle n ≠ a := by
        rintro rfl
        exact hn (s.handleSlot_handle n d hd).symm
      rw [if_neg (fun e => this e.2)]
      exact h.counted n d q hd
  · rw [ht, State.modCanvas_clear]; exact h.clearing.1
  · rw [ht, State.modCanvas_clear, ← ht, h.clearing.2 n]
    constructor
    · rintro ⟨c, hcs, hkn⟩
      obtain ⟨d, hd, he⟩ := hph n c hcs
      exact ⟨d, hd, by rw [he]; exact hkn⟩
    · rintro ⟨d, hd, hkn⟩
      obtain ⟨c, hcs, he⟩ := hback n d hd
      exact ⟨c, hcs, by rw [← he]; exact hkn⟩

/-- A pin owed is dropped. -/
theorem State.TableExact.drop {s : State} {k : Port → Handle → Nat} {p : Port} {a : Handle}
    (h : s.TableExact (withPins k p [a])) : (s.modCanvas (handleSlot a) fun c => c.modPins p (· - 1)).TableExact k := by
  have h1 : 0 < withPins k p [a] p a := by simp [withPins]
  refine h.modPins p a _ (h.current p a h1) (fun c hc => c.holds_of_pinsOf p ?_) fun q b => ?_
  · rw [h.counted _ c p hc, s.handle_of_lookup a (h.current p a h1)]
    exact h1
  · unfold withPins
    by_cases hq : q = p <;> by_cases hb : b = a <;> simp [hq, hb, Ne.symm]

theorem State.records_modPins (s : State) (n : Nat) (p : Port) (f : Nat → Nat) :
    s.RecordsKept (s.modCanvas n fun c => c.modPins p f) := s.records_modCanvas n _ fun c => (c.modPins_record p f).1

theorem State.records_dropPins (s : State) (p : Port) (hs : List Handle) : s.RecordsKept (s.dropPins p hs) := by
  induction hs generalizing s with
  | nil => exact .refl s
  | cons a t ih => exact (s.records_modPins _ p _).trans (ih _)

/-- Pins owed are dropped, all at once (R77). -/
theorem State.TableExact.dropPins {s : State} {k : Port → Handle → Nat} {p : Port} {hs : List Handle}
    (h : s.TableExact (withPins k p hs)) : (s.dropPins p hs).TableExact k := by
  induction hs generalizing s with
  | nil => rwa [withPins_nil] at h
  | cons a t ih => rw [withPins_cons] at h; exact ih h.drop

theorem State.records_unpinAll (s : State) (p : Port) (hs : List Handle) : s.RecordsKept (s.unpinAll p hs) := by
  induction hs generalizing s with
  | nil => exact .refl s
  | cons a t ih => exact ((s.records_modPins _ p _).trans (State.tableKept_settle _ _ _).records).trans (ih _)

/-- Pins owed are dropped one by one, each with the ends it brings (R46). -/
theorem State.TableExact.unpinAll {s : State} {k : Port → Handle → Nat} {p : Port} {hs : List Handle}
    (h : s.TableExact (withPins k p hs)) : (s.unpinAll p hs).TableExact k := by
  induction hs generalizing s with
  | nil => rwa [withPins_nil] at h
  | cons a t ih => rw [withPins_cons] at h; exact ih ((State.tableKept_settle _ _ _).exact _ h.drop)

/-- A port that may hold pins on a canvas takes one (R70). -/
theorem State.TableExact.pin {s : State} {k : Port → Handle → Nat} (h : s.TableExact k) (p : Port) (a : Handle) (c : Canvas)
    (hl : s.lookup a = some c) (hh : c.Holds p) : (s.pin p a).TableExact (withPins k p [a]) := by
  refine h.modPins p a _ (by simp [hl]) (fun d hd => ?_) fun q b => ?_
  · rw [(s.lookup_some a c hl).1] at hd; cases hd
    exact hh
  · unfold withPins
    by_cases hq : q = p <;> by_cases hb : b = a <;> simp [hq, hb, Ne.symm]

/-- The handle names a canvas on which the port may hold pins. -/
def State.MayPin (s : State) (p : Port) (a : Handle) : Prop := ∃ c, s.lookup a = some c ∧ c.Holds p

/-- Pins taken on one canvas leave what the port may pin. -/
theorem State.MayPin.pin {s : State} {p : Port} {a : Handle} (h : s.MayPin p a) (b : Handle) : (s.pin p b).MayPin p a := by
  obtain ⟨c, hl, hh⟩ := h
  have hc := s.canvas_modCanvas (handleSlot b) (handleSlot a) fun c => c.modPins p (· + 1)
  obtain ⟨h0, h1, d, hd, hk⟩ := (s.lookup_isSome a).1 (by simp [hl])
  obtain rfl : c = d := Option.some.inj ((s.lookup_some a c hl).1.symm.trans hd)
  have hex : ∃ e, (s.pin p b).canvas (handleSlot a) = some e ∧ e.phase = c.phase ∧ e.Holds p := by
    rw [State.pin, hc, hd]
    split
    · exact ⟨_, rfl, (c.modPins_record p _).2, c.holds_modPins p p _ hh⟩
    · exact ⟨c, rfl, rfl, hh⟩
  obtain ⟨e, he, hph, hh'⟩ := hex
  have hs : ((s.pin p b).lookup a).isSome = true :=
    ((s.pin p b).lookup_isSome a).2 ⟨h0, (s.modCanvas_generation _ _ _).trans h1, e, he, by rw [hph]; exact hk⟩
  obtain ⟨e', he'⟩ := Option.isSome_iff_exists.1 hs
  obtain rfl : e' = e := Option.some.inj (((s.pin p b).lookup_some a e' he').1.symm.trans he)
  exact ⟨e', he', hh'⟩

theorem State.records_pins (s : State) (p : Port) (hs : List Handle) :
    s.RecordsKept (hs.foldl (fun s a => s.pin p a) s) := by
  induction hs generalizing s with
  | nil => exact .refl s
  | cons a t ih => exact (s.records_modPins _ p _).trans (ih _)

/-- Several pins are taken (R69). -/
theorem State.TableExact.pins {s : State} {k : Port → Handle → Nat} (h : s.TableExact k) (p : Port) (hs : List Handle)
    (hm : ∀ a ∈ hs, s.MayPin p a) : (hs.foldl (fun s a => s.pin p a) s).TableExact (withPins k p hs) := by
  induction hs generalizing s k with
  | nil => rwa [withPins_nil]
  | cons a t ih =>
    obtain ⟨c, hl, hh⟩ := hm a (List.mem_cons_self ..)
    have := ih (h.pin p a c hl hh) fun b hb => (hm b (List.mem_cons_of_mem _ hb)).pin a
    rwa [withPins_comm, ← withPins_cons] at this

theorem State.MayPin.pins {s : State} {p : Port} {a : Handle} (h : s.MayPin p a) (hs : List Handle) :
    (hs.foldl (fun s a => s.pin p a) s).MayPin p a := by
  induction hs generalizing s with
  | nil => exact h
  | cons b t ih => exact ih (h.pin b)

/-! ### The clear unit and OPEN (R14, R15, R32, R35) -/

theorem State.records_of_slots (s t : State) (h : t.slots = s.slots) : s.RecordsKept t := by
  intro n
  have : t.slot n = s.slot n := by simp only [State.slot, h]
  rw [this]; exact .refl _

/-- What remains of a list that names each slot once when its head goes. -/
theorem mem_tail_of_nodup {n : Nat} {l : List Nat} (hl : l.Nodup) (hn : l.head? = some n) (m : Nat) :
    m ∈ l.tail ↔ m ∈ l ∧ m ≠ n := by
  cases l with
  | nil => cases hn
  | cons a t =>
    simp only [List.head?_cons, Option.some.injEq] at hn
    subst hn
    have := (List.nodup_cons.1 hl).1
    simp only [List.tail_cons, List.mem_cons]
    constructor
    · intro h
      exact ⟨.inr h, by rintro rfl; exact this h⟩
    · rintro ⟨h | h, h'⟩
      · exact absurd h h'
      · exact h

theorem State.records_clear_release (s : State) (u : ClearUnit) (n : Nat) :
    s.RecordsKept (State.release { s with clear := u } n) :=
  (s.records_of_slots { s with clear := u } rfl).trans (State.records_release _ n)

/-- The head of the clear list leaves it with the release of its canvas (R35). -/
theorem State.TableExact.release_head {s : State} {k : Port → Handle → Nat} (h : s.TableExact k) (n : Nat) (u : ClearUnit)
    (hn : s.clear.list.head? = some n) (hu : u.list = s.clear.list.tail) :
    (State.release { s with clear := u } n).TableExact k := by
  obtain ⟨c, hc, hk⟩ := (h.clearing.2 n).1 (List.mem_of_mem_head? hn)
  refine h.release n c hc (.inr hk) u ?_ fun m => ?_
  · rw [hu]; exact h.clearing.1.tail
  · rw [hu]; exact mem_tail_of_nodup h.clearing.1 hn m

/-- The canvas manager abandons the clearing of a CLEARING canvas (R16, R35). -/
theorem State.tableKept_abandonClearing (s : State) (n : Nat) (c : Canvas) (hc : s.canvas n = some c)
    (hk : c.phase.known = false) : s.TableKept (s.abandonClearing n) := by
  unfold State.abandonClearing
  split
  · next hn =>
    split
    · exact (s.tableAlike_of_slots { s with clear := { s.clear with removalPending := true } } rfl rfl).kept
    · exact ⟨s.records_clear_release _ n, fun k h => h.release_head n _ hn rfl⟩
  · refine ⟨s.records_clear_release _ n, fun k h => h.release n c hc (.inr hk) _ (h.clearing.1.filter _) fun m => ?_⟩
    simp

theorem Phase.known_false (ph : Phase) (h : ph.known = false) : ∃ w, ph = .clearing w := by
  cases ph with
  | clearing w => exact ⟨w, rfl⟩
  | live => cases h
  | closing _ => cases h

theorem Canvas.sameRecord_setPhase (c : Canvas) (ph : Phase) : c.SameRecord { c with phase := ph } := .refl c

theorem State.records_canvasLive (s : State) (n : Nat) : s.RecordsKept (s.canvasLive n) := by
  unfold State.canvasLive
  split
  · exact .refl s
  · next c hc =>
    split
    · exact (s.records_setCanvas n c _ hc (c.sameRecord_setPhase _)).trans (State.tableKept_answerWaiters _ _ _).records
    · exact .refl s

/-- The head of the clear list leaves it and its canvas goes LIVE (R15, R34). -/
theorem State.TableExact.canvasLive_head {s : State} {k : Port → Handle → Nat} (h : s.TableExact k) (n : Nat) (u : ClearUnit)
    (hn : s.clear.list.head? = some n) (hu : u.list = s.clear.list.tail) :
    (State.canvasLive { s with clear := u } n).TableExact k := by
  obtain ⟨c, hc, hk⟩ := (h.clearing.2 n).1 (List.mem_of_mem_head? hn)
  obtain ⟨w, hw⟩ := c.phase.known_false hk
  have hs (m : Nat) : State.slot { s with clear := u } m = s.slot m := by cases m <;> rfl
  have hcu : State.canvas { s with clear := u } n = some c := by rw [State.canvas, hs]; exact hc
  unfold State.canvasLive
  simp only [hcu, hw]
  refine (State.tableKept_answerWaiters _ _ _).exact _ ?_
  set t := State.setCanvas { s with clear := u } n { c with phase := .live } with ht
  have htc : t.canvas n = some { c with phase := .live } := State.canvas_setCanvas_same _ _ _ c hcu
  have hne (m : Nat) (hm : m ≠ n) : t.slot m = s.slot m := by
    rw [ht, State.setCanvas, State.slot_setSlot_ne _ _ _ _ hm, hs]
  have hg : (t.slot n).generation = (s.slot n).generation := (State.setCanvas_generation _ _ _ _).trans (by rw [hs])
  refine h.of_slot n hne (fun p a ha hn => ?_) (fun d p hd => ?_) ⟨?_, fun m => ?_⟩
  · obtain ⟨h0, h1, _⟩ := (s.lookup_isSome a).1 (h.current p a ha)
    rw [hn] at h1
    rw [State.lookup_isSome, hn]
    exact ⟨h0, hg.trans h1, _, htc, rfl⟩
  · rw [htc] at hd; cases hd
    rw [State.handle, hg]
    exact h.counted n c p hc
  · rw [ht, State.setCanvas_clear, hu]; exact h.clearing.1.tail
  · rw [ht, State.setCanvas_clear, ← ht, hu, mem_tail_of_nodup h.clearing.1 hn, h.clearing.2 m]
    by_cases hm : m = n
    · subst hm; simp [htc, Phase.known]
    · have : t.canvas m = s.canvas m := by rw [State.canvas, hne m hm]; rfl
      simp [hm, this]

/-- The clear unit hears of a block (R34, R35). -/
theorem State.tableKept_blockReport (s : State) : s.TableKept s.blockReport := by
  unfold State.blockReport
  split
  · exact .refl s
  · next n rest hl =>
    have hn : s.clear.list.head? = some n := by rw [hl]; rfl
    split
    · exact ⟨s.records_clear_release _ n, fun k h => h.release_head n s.clear.popHead hn rfl⟩
    · dsimp only
      split
      · exact (s.tableAlike_of_slots { s with clear := { s.clear with clearedSoFar := s.clear.clearedSoFar + 1 } } rfl rfl).kept
      · exact ⟨(s.records_of_slots { s with clear := s.clear.popHead } rfl).trans (State.records_canvasLive _ n),
          fun k h => h.canvasLive_head n s.clear.popHead hn rfl⟩

theorem mem_slotNumbers (n : Nat) : n ∈ slotNumbers ↔ 1 ≤ n ∧ n ≤ 255 := by
  simp only [slotNumbers, List.mem_map, List.mem_range]
  constructor
  · rintro ⟨k, hk, rfl⟩
    omega
  · rintro ⟨h1, h2⟩
    exact ⟨n - 1, by omega, by omega⟩

/-- The FREE slot of the lowest number (R13). -/
theorem State.freeSlot_eq_some (s : State) (n : Nat) :
    s.freeSlot = some n ↔ (1 ≤ n ∧ n ≤ 255) ∧ s.canvas n = none ∧ ∀ m, 1 ≤ m → m < n → s.canvas m ≠ none := by
  unfold State.freeSlot slotNumbers
  rw [List.find?_map, Option.map_eq_some_iff]
  simp only [List.find?_range_eq_some, Function.comp, List.mem_range, Option.isNone_iff_eq_none, Bool.not_eq_true']
  constructor
  · rintro ⟨k, ⟨h1, h2, h3⟩, rfl⟩
    refine ⟨by omega, h1, fun m hm hmn => ?_⟩
    obtain ⟨j, rfl⟩ : ∃ j, m = j + 1 := ⟨m - 1, by omega⟩
    exact Option.isSome_iff_ne_none.1 (by simpa using h3 j (by omega))
  · rintro ⟨hb, h1, h2⟩
    obtain ⟨k, rfl⟩ : ∃ k, n = k + 1 := ⟨n - 1, by omega⟩
    refine ⟨k, ⟨h1, by omega, fun j hj => ?_⟩, rfl⟩
    simpa using Option.isSome_iff_ne_none.2 (h2 (j + 1) (by omega) (by omega))

/-- The record of a canvas opened at block `f` (R14). -/
def OpenAsk.record (a : OpenAsk) (p : Port) (id : ReqId) (f : Nat) : Canvas :=
  ⟨p, a.format, a.width, a.height, a.format.pitch a.width, f, a.blocks, a.tag, a.format.truncate a.fill, 0, [],
    .clearing ⟨p, id⟩⟩

theorem State.takeOpen_slot (s : State) (p : Port) (id : ReqId) (a : OpenAsk) (n f m : Nat) :
    (s.takeOpen p id a n f).slot m = (s.setCanvas n (a.record p id f)).slot m := by
  cases m <;> rfl

theorem State.takeOpen_slot_same (s : State) (p : Port) (id : ReqId) (a : OpenAsk) (n f : Nat) (h1 : 1 ≤ n) (h2 : n ≤ 255) :
    (s.takeOpen p id a n f).slot n = ⟨(s.slot n).generation, some (a.record p id f)⟩ := by
  rw [State.takeOpen_slot, State.setCanvas, State.slot_setSlot_same _ _ _ h1 h2]

theorem State.takeOpen_slot_ne (s : State) (p : Port) (id : ReqId) (a : OpenAsk) (n f m : Nat) (h : m ≠ n) :
    (s.takeOpen p id a n f).slot m = s.slot m := by
  rw [State.takeOpen_slot, State.setCanvas, State.slot_setSlot_ne _ _ _ _ h]

theorem State.takeOpen_list (s : State) (p : Port) (id : ReqId) (a : OpenAsk) (n f : Nat) :
    (s.takeOpen p id a n f).clear.list = s.clear.list ++ [n] := by
  simp [State.takeOpen]

/-- An OPEN that is taken into a FREE slot (R14). -/
theorem State.TableExact.takeOpen {s : State} {k : Port → Handle → Nat} (h : s.TableExact k) (p : Port) (id : ReqId)
    (a : OpenAsk) (n f : Nat) (h1 : 1 ≤ n) (h2 : n ≤ 255) (hn : s.canvas n = none) : (s.takeOpen p id a n f).TableExact k := by
  have hsame := s.takeOpen_slot_same p id a n f h1 h2
  have hne := fun m hm => s.takeOpen_slot_ne p id a n f m hm
  have hzero (q : Port) (b : Handle) (hb : handleSlot b = n) : k q b = 0 := by
    by_contra h0
    obtain ⟨_, _, c, hc, _⟩ := (s.lookup_isSome b).1 (h.current q b (by omega))
    rw [hb, hn] at hc; cases hc
  have hnot : n ∉ s.clear.list := by
    rw [h.clearing.2 n, hn]
    rintro ⟨c, hc, _⟩
    cases hc
  refine h.of_slot n hne (fun q b hb hbn => by rw [hzero q b hbn] at hb; omega) (fun d q hd => ?_) ⟨?_, fun m => ?_⟩
  · rw [hzero q ((s.takeOpen p id a n f).handle n) (handleSlot_handleOf n _ h2)]
    rw [State.canvas, hsame] at hd
    cases hd
    exact Canvas.pinsOf_of_pinCount (a.record p id f) rfl q
  · rw [State.takeOpen_list]
    exact List.nodup_append.2 ⟨h.clearing.1, List.nodup_singleton n, fun x hx y hy => by
      rw [List.mem_singleton] at hy
      rintro rfl
      exact hnot (hy ▸ hx)⟩
  · rw [State.takeOpen_list, List.mem_append, List.mem_singleton, h.clearing.2 m]
    by_cases hm : m = n
    · subst hm
      simp [State.canvas, hsame, OpenAsk.record, Phase.known]
    · have : (s.takeOpen p id a n f).canvas m = s.canvas m := by rw [State.canvas, hne m hm]; rfl
      simp [hm, this]

/-! ### Time and resets of the whole part -/

theorem Canvas.alike_elapse (ms : Nat) (c : Canvas) : c.Alike
    { c with
      grants := c.grants.map fun g => { g with revoke := g.revoke.map fun r => { r with mode := r.mode.elapse ms } }
      phase := match c.phase with
        | .closing op => .closing { op with mode := op.mode.elapse ms }
        | ph => ph } := by
  refine c.alike_of_grants _ (.refl c) ?_ rfl ?_
  · cases c.phase <;> rfl
  · rw [List.map_map]
    rfl

/-- Time moves deadlines alone (R61). -/
theorem State.tableKept_elapse (s : State) (ms : Nat) : s.TableKept (s.elapse ms) := by
  have h := s.tableAlike_map _ (Canvas.alike_elapse ms)
  have h' : State.TableAlike { s with slots := s.slots.map (Slot.elapse ms) } (s.elapse ms) :=
    State.tableAlike_of_slots _ _ rfl rfl
  exact h.kept.trans h'.kept

theorem Canvas.alike_dropWaiters (c : Canvas) (p : Port) : c.Alike (c.dropWaiters p) := by
  refine c.alike_of_grants _ (.refl c) ?_ rfl ?_
  · unfold Canvas.dropWaiters; cases c.phase <;> rfl
  · simp only [Canvas.dropWaiters, List.map_map]
    rfl

theorem Canvas.Alike.trans {c d e : Canvas} (h : c.Alike d) (k : d.Alike e) : c.Alike e :=
  ⟨h.record.trans k.record, k.known.trans h.known, fun p => (k.pins p).trans (h.pins p)⟩

theorem Canvas.alike_resetMarks (p : Port) (c : Canvas) : c.Alike (c.resetMarks p) := by
  unfold Canvas.resetMarks
  dsimp only
  split
  · exact c.alike_dropWaiters p
  · exact (c.alike_dropWaiters p).trans (Canvas.alike_modGrant _ p _ fun g => ⟨rfl, rfl⟩)

/-- The marks a port reset leaves in the canvas table keep records and pins (R56, R58). -/
theorem State.tableKept_resetMarks (s : State) (p : Port) :
    s.TableKept { s with slots := s.slots.map (Slot.resetMarks p) } :=
  (s.tableAlike_map _ (Canvas.alike_resetMarks p)).kept

end Sys2Proof.Machine

/-! SUPPORT. The pins that the entries of the job queues hold (R70): which changes of a queue keep them, which let some of them
go, and how the canvas manager takes those. -/

namespace Sys2Proof.Machine

/-! ### Entries and their pins -/

/-- What the pins see of an entry: the canvases its job names, the pins it holds, and whether it is cut. -/
def Entry.pinView (e : Entry) : List Handle × List Handle × Bool := (e.job.names, e.pins, decide (e.state = .queued true))

/-- The entry holds the pins of its job, none once it is cut (R46, R70). -/
def Entry.PinsSound (e : Entry) : Prop := e.pins = if e.state = .queued true then [] else e.job.names

theorem Entry.pinsSound_congr {e d : Entry} (h : d.pinView = e.pinView) : e.PinsSound ↔ d.PinsSound := by
  simp only [Entry.pinView, Prod.mk.injEq, decide_eq_decide] at h
  simp only [Entry.PinsSound, h]

theorem Job.names_nodup (j : Job) : j.names.Nodup := by
  unfold Job.names
  split
  · split
    · simp
    · next h => simp [h]
  all_goals simp

theorem Entry.PinsSound.nodup {e : Entry} (h : e.PinsSound) : e.pins.Nodup := by
  rw [h]
  split
  · exact List.nodup_nil
  · exact e.job.names_nodup

/-- The number of entries that hold a pin on a handle. -/
def pinsIn (es : List Entry) (h : Handle) : Nat := es.countP fun e : Entry => e.pins.contains h

theorem pinsIn_congr {es ds : List Entry} (h : ds.map Entry.pinView = es.map Entry.pinView) : pinsIn ds = pinsIn es := by
  funext a
  have hv (l : List Entry) : pinsIn l a = (l.map Entry.pinView).countP fun v => v.2.1.contains a := by
    rw [List.countP_map]; rfl
  rw [hv, hv, h]

theorem pinsSound_congr {es ds : List Entry} (h : ds.map Entry.pinView = es.map Entry.pinView)
    (hs : ∀ e ∈ es, e.PinsSound) : ∀ d ∈ ds, d.PinsSound := by
  intro d hd
  have : d.pinView ∈ es.map Entry.pinView := h ▸ List.mem_map_of_mem hd
  obtain ⟨e, he, hv⟩ := List.mem_map.1 this
  exact (Entry.pinsSound_congr hv.symm).1 (hs e he)

/-- The pins of entries, all listed, name each handle once for each entry that holds a pin on it. -/
theorem count_flatMap_pins (es : List Entry) (hs : ∀ e ∈ es, e.PinsSound) (h : Handle) :
    (es.flatMap Entry.pins).count h = pinsIn es h := by
  induction es with
  | nil => rfl
  | cons e t ih =>
    have he := (hs e (List.mem_cons_self ..)).nodup
    rw [List.flatMap_cons, List.count_append, ih fun d hd => hs d (List.mem_cons_of_mem _ hd), pinsIn, pinsIn,
      List.countP_cons, he.count]
    simp only [List.contains_iff_mem]
    omega

theorem pinsIn_filter (es : List Entry) (f : Entry → Bool) (h : Handle) :
    pinsIn es h = pinsIn (es.filter f) h + pinsIn (es.filter fun e => !f e) h := by
  unfold pinsIn
  induction es with
  | nil => rfl
  | cons e t ih =>
    cases hf : f e <;>
      simp only [List.filter_cons, hf, Bool.not_true, Bool.not_false, if_true, Bool.false_eq_true, if_false,
        List.countP_cons] <;> omega

/-! ### Queues that hold the pins they held -/

/-- The entries of the two queues hold the same pins. -/
def PortBlock.SamePins (b d : PortBlock) : Prop := d.queue.entries.map Entry.pinView = b.queue.entries.map Entry.pinView

theorem PortBlock.SamePins.refl (b : PortBlock) : b.SamePins b := Eq.refl _

theorem PortBlock.SamePins.trans {b c d : PortBlock} (h : b.SamePins c) (k : c.SamePins d) : b.SamePins d := Eq.trans k h

theorem PortBlock.samePins_of_entries {b d : PortBlock} (h : d.queue.entries = b.queue.entries) : b.SamePins d := by
  unfold PortBlock.SamePins
  rw [h]

/-- The pins of port `p` on a handle that its queue holds (R9). -/
def State.pinsHeld (s : State) (p : Port) (h : Handle) : Nat := pinsIn (s.port p).queue.entries h

/-- The promise of the pins and that of the clear list together. -/
def State.PinsKept (s : State) : Prop := s.PinsExact ∧ s.ClearListExact

/-- The queue of port `p` has let go of its pins on `hs`, which the canvas table still counts; all others are accounted for. -/
structure State.Owes (s : State) (p : Port) (hs : List Handle) : Prop where
  sound : ∀ q, ∀ e ∈ (s.port q).queue.entries, e.PinsSound
  table : s.TableExact (withPins s.pinsHeld p hs)

/-- Nothing is owed when every pin is accounted for. -/
theorem State.owes_nil (s : State) (p : Port) : s.Owes p [] ↔ s.PinsKept := by
  constructor
  · rintro ⟨hs, ht⟩
    rw [withPins_nil] at ht
    refine ⟨⟨fun q e he => ⟨hs q e he, fun h hh => ht.current q h ?_⟩, ht.counted⟩, ht.clearing⟩
    exact List.countP_pos_iff.2 ⟨e, he, by simpa using hh⟩
  · rintro ⟨⟨h1, h2⟩, hc⟩
    refine ⟨fun q e he => (h1 q e he).1, ?_⟩
    rw [withPins_nil]
    refine ⟨fun q h hh => ?_, h2, hc⟩
    obtain ⟨e, he, hp⟩ := List.countP_pos_iff.1 hh
    exact (h1 q e he).2 h (by simpa using hp)

/-- A change that keeps every record, the pins counted, and the pins held. -/
structure State.Still (s t : State) : Prop where
  table : s.TableKept t
  pins : ∀ p, (s.port p).SamePins (t.port p)

theorem State.Still.refl (s : State) : s.Still s := ⟨.refl s, fun _ => .refl _⟩

theorem State.Still.trans {s t u : State} (h : s.Still t) (k : t.Still u) : s.Still u :=
  ⟨h.table.trans k.table, fun p => (h.pins p).trans (k.pins p)⟩

theorem State.Still.owes {s t : State} (h : s.Still t) {p : Port} {hs : List Handle} (ho : s.Owes p hs) : t.Owes p hs := by
  refine ⟨fun q => pinsSound_congr (h.pins q) (ho.sound q), ?_⟩
  have : t.pinsHeld = s.pinsHeld := by
    funext q
    exact pinsIn_congr (h.pins q)
  rw [this]
  exact h.table.exact _ ho.table

/-- A change that keeps every record, and every pin accounted for. -/
structure State.Keeps (s t : State) : Prop where
  records : s.RecordsKept t
  pins : s.PinsKept → t.PinsKept

theorem State.Keeps.refl (s : State) : s.Keeps s := ⟨.refl s, id⟩

theorem State.Keeps.trans {s t u : State} (h : s.Keeps t) (k : t.Keeps u) : s.Keeps u :=
  ⟨h.records.trans k.records, k.pins ∘ h.pins⟩

theorem State.Still.keeps {s t : State} (h : s.Still t) : s.Keeps t :=
  ⟨h.table.records, fun hp => (t.owes_nil .p0).1 (h.owes ((s.owes_nil .p0).2 hp))⟩

theorem State.keeps_foldl {α : Type} (f : State → α → State) (h : ∀ (s : State) (a : α), s.Keeps (f s a)) (xs : List α)
    (s : State) : s.Keeps (xs.foldl f s) := by
  induction xs generalizing s with
  | nil => exact .refl s
  | cons a t ih => exact (h s a).trans (ih _)

theorem State.still_foldl {α : Type} (f : State → α → State) (h : ∀ (s : State) (a : α), s.Still (f s a)) (xs : List α)
    (s : State) : s.Still (xs.foldl f s) := by
  induction xs generalizing s with
  | nil => exact .refl s
  | cons a t ih => exact (h s a).trans (ih _)

/-! ### Changes of a port's block, and changes that reach no queue -/

theorem State.still_modPort (s : State) (p : Port) (f : PortBlock → PortBlock) (h : (s.port p).SamePins (f (s.port p))) :
    s.Still (s.modPort p f) := by
  refine ⟨s.tableKept_modPort p f, fun q => ?_⟩
  rw [State.port_modPort]
  split
  · next hq => rw [hq]; exact h
  · exact .refl _

theorem State.still_setPort (s : State) (p : Port) (b : PortBlock) (h : (s.port p).SamePins b) : s.Still (s.setPort p b) :=
  s.still_modPort p (fun _ => b) h

/-- A change of the table reached by an end of a revoke or close leaves the queues as they are. -/
theorem State.OnlyEnds.still {s t : State} (h : s.OnlyEnds t) (k : s.TableKept t) : s.Still t :=
  ⟨k, fun p => PortBlock.samePins_of_entries (by rw [h.2 p])⟩

theorem State.still_of_ports (s t : State) (h : s.TableKept t) (hp : t.ports = s.ports) : s.Still t :=
  ⟨h, fun p => PortBlock.samePins_of_entries (by rw [State.port, hp]; rfl)⟩

/-- A change that reaches neither the ports nor the canvas table nor the clear list. -/
theorem State.still_of_eq (s t : State) (hp : t.ports = s.ports) (hs : t.slots = s.slots)
    (hl : t.clear.list = s.clear.list) : s.Still t := s.still_of_ports t (s.tableAlike_of_slots t hs hl).kept hp

theorem State.still_setCanvas (s : State) (n : Nat) (c d : Canvas) (hc : s.canvas n = some c) (h : c.Alike d) :
    s.Still (s.setCanvas n d) := s.still_of_ports _ (s.tableAlike_setCanvas n c d hc h).kept (s.setCanvas_ports n d)

theorem State.still_modCanvas (s : State) (n : Nat) (f : Canvas → Canvas) (h : ∀ c, s.canvas n = some c → c.Alike (f c)) :
    s.Still (s.modCanvas n f) := s.still_of_ports _ (s.tableAlike_modCanvas n f h).kept (s.modCanvas_ports n f)

theorem State.still_settle (s : State) (n : Nat) (p : Port) : s.Still (s.settle n p) :=
  (s.onlyEnds_settle n p).still (s.tableKept_settle n p)

theorem State.still_settleAll (s : State) (p : Port) (hs : List Handle) : s.Still (s.settleAll p hs) :=
  (s.onlyEnds_settleAll p hs).still (s.tableKept_settleAll p hs)

theorem State.still_endClose_of_due (s : State) (n : Nat) (op : CloseOp) (c : Canvas) (hc : s.canvas n = some c)
    (h : c.closeDue = some op) : s.Still (s.endClose n op) :=
  (s.onlyEnds_endClose n op).still (s.tableKept_endClose_of_due n op c hc h)

theorem State.still_endRevoke (s : State) (n : Nat) (p : Port)
    (h : ∀ c g, s.canvas n = some c → c.grantTo p = some g → g.pins = 0) : s.Still (s.endRevoke n p) :=
  (s.onlyEnds_endRevoke n p).still (s.tableKept_endRevoke n p h)

/-! ### What the operations of a port leave of its queue -/

@[simp] theorem PortBlock.raise_queue (b : PortBlock) (k : Flag) : (b.raise k).queue = b.queue := by
  rw [PortBlock.raise_eq]

@[simp] theorem PortBlock.reply_queue (b : PortBlock) (kind : Byte) (st : Status) (id : ReqId) (m : List Byte) :
    (b.reply kind st id m).queue = b.queue := rfl

@[simp] theorem PortBlock.defer_queue (b : PortBlock) (kind : Byte) (id : ReqId) : (b.defer kind id).queue = b.queue := rfl

@[simp] theorem PortBlock.answer_queue (b : PortBlock) (id : ReqId) (m : List Byte) : (b.answer id m).queue = b.queue := by
  rw [PortBlock.answer_eq]

@[simp] theorem PortBlock.answerAll_queue (b : PortBlock) (ids : List ReqId) (m : List Byte) :
    (b.answerAll ids m).queue = b.queue := by rw [PortBlock.answerAll_eq]

@[simp] theorem PortBlock.refreshStaging_queue (b : PortBlock) : b.refreshStaging.queue = b.queue := by
  rw [PortBlock.refreshStaging_eq]

@[simp] theorem PortBlock.withdraw_queue (b : PortBlock) : b.withdraw.queue = b.queue := rfl

@[simp] theorem PortBlock.nak_queue (b : PortBlock) (r : NakReason) (q : BitVec 8) : (b.nak r q).queue = b.queue := rfl

@[simp] theorem PortBlock.stopRequest_entries (b : PortBlock) (busy : Bool) :
    (b.stopRequest busy).queue.entries = b.queue.entries := by
  rw [PortBlock.stopRequest_eq]

@[simp] theorem PortBlock.stopRequest_portState (b : PortBlock) (busy : Bool) :
    (b.stopRequest busy).portState = b.portState := by
  rw [PortBlock.stopRequest_eq]

@[simp] theorem PortBlock.refreshStaging_portState (b : PortBlock) : b.refreshStaging.portState = b.portState := by
  rw [PortBlock.refreshStaging_eq]

@[simp] theorem PortBlock.withdraw_portState (b : PortBlock) : b.withdraw.portState = b.portState := rfl

@[simp] theorem PortBlock.placeNotice_queue (b : PortBlock) (e : Entry) (st : JobStatus) (i : Option Nat) :
    (b.placeNotice e st i).queue = b.queue := by
  unfold PortBlock.placeNotice
  split <;> rfl

@[simp] theorem PortBlock.answerCancels_entries (b : PortBlock) (q : Nat) (st : JobStatus) :
    (b.answerCancels q st).queue.entries = b.queue.entries := by
  have h (ws : List CancelWaiter) (f : CancelWaiter → List Byte) (d : PortBlock) :
      (ws.foldl (fun d w => d.answer w.id (f w)) d).queue = d.queue := by
    induction ws generalizing d with
    | nil => rfl
    | cons w t ih => exact (ih _).trans (d.answer_queue _ _)
  unfold PortBlock.answerCancels
  dsimp only
  rw [h]

@[simp] theorem PortBlock.becomeHalted_entries (b : PortBlock) : b.becomeHalted.queue.entries = b.queue.entries := by
  simp [PortBlock.becomeHalted]

@[simp] theorem PortBlock.raiseFault_queue (b : PortBlock) (k : FaultKind) : (b.raiseFault k).queue = b.queue := by
  unfold PortBlock.raiseFault
  split
  · rfl
  · simp

@[simp] theorem PortBlock.placeDueAtn_queue (b : PortBlock) : b.placeDueAtn.queue = b.queue := by
  unfold PortBlock.placeDueAtn
  split <;> rfl

@[simp] theorem PortBlock.reserveSpanSlot_queue (b : PortBlock) : b.reserveSpanSlot.queue = b.queue := by
  unfold PortBlock.reserveSpanSlot
  split
  · rfl
  · split <;> rfl

@[simp] theorem PortBlock.timedOut_entries (b : PortBlock) (k : FaultKind) :
    (b.timedOut k).queue.entries = b.queue.entries := by
  unfold PortBlock.timedOut
  split <;> rfl

@[simp] theorem PortBlock.reportStopped_queue (b : PortBlock) : b.reportStopped.queue = b.queue := by
  unfold PortBlock.reportStopped
  split <;> rfl

@[simp] theorem PortBlock.dropRequesters_queue (b : PortBlock) : b.dropRequesters.queue = b.queue := by
  unfold PortBlock.dropRequesters
  split <;> rfl

@[simp] theorem PortBlock.refuseForState_queue (b : PortBlock) : b.refuseForState.queue = b.queue := by
  unfold PortBlock.refuseForState
  split <;> rfl

@[simp] theorem PortBlock.applyAck_queue (b : PortBlock) (a : BitVec 8) : (b.applyAck a).queue = b.queue := rfl

@[simp] theorem PortBlock.takeInSequence_queue (b : PortBlock) (c : InClass) (m : List Byte) :
    (b.takeInSequence c m).queue = b.queue := by
  unfold PortBlock.takeInSequence
  split
  · rfl
  · cases c
    · dsimp only; split <;> rfl
    · dsimp only; split <;> rfl

@[simp] theorem PortBlock.sequenceTest_queue (b : PortBlock) (c : InClass) (f : WireFrame) :
    (b.sequenceTest c f).queue = b.queue := by
  unfold PortBlock.sequenceTest
  dsimp only
  split
  · simp
  · split <;> rfl

@[simp] theorem PortBlock.takeHello_queue (b : PortBlock) (m : List Byte) (q : BitVec 8) :
    (b.takeHello m q).queue = b.queue := by
  unfold PortBlock.takeHello
  split <;> rfl

@[simp] theorem PortBlock.transmit_queue (b : PortBlock) : b.transmit.queue = b.queue := by
  unfold PortBlock.transmit
  dsimp only
  repeat' split
  all_goals rfl

@[simp] theorem PortBlock.enable_queue (b : PortBlock) : b.enable.queue = b.queue := by
  unfold PortBlock.enable
  split <;> rfl

@[simp] theorem PortBlock.applySetting_queue (b : PortBlock) (x : Setting) : (b.applySetting x).queue = b.queue := by
  unfold PortBlock.applySetting
  dsimp only
  repeat' split
  all_goals rfl

@[simp] theorem PortBlock.unpromise_queue (b : PortBlock) (m : List Byte) : (b.unpromise m).queue = b.queue := by
  unfold PortBlock.unpromise
  split <;> rfl

@[simp] theorem PortBlock.rejectData_queue (b : PortBlock) (m : List Byte) : (b.rejectData m).queue = b.queue := by
  simp [PortBlock.rejectData]

/-- Entries changed one by one, in ways the pins do not see. -/
theorem PortBlock.samePins_map {b d : PortBlock} (f : Entry → Entry) (h : ∀ e, (f e).pinView = e.pinView)
    (hd : d.queue.entries = b.queue.entries.map f) : b.SamePins d := by
  unfold PortBlock.SamePins
  rw [hd, List.map_map]
  exact List.map_congr_left fun e _ => h e

/-- A head changed in a way the pins do not see. -/
theorem PortBlock.samePins_head {b d : PortBlock} {e e' : Entry} {rest : List Entry} (hb : b.queue.entries = e :: rest)
    (hd : d.queue.entries = e' :: rest) (h : e'.pinView = e.pinView) : b.SamePins d := by
  unfold PortBlock.SamePins
  rw [hb, hd, List.map_cons, List.map_cons, h]

theorem Entry.pinView_elapse (ms : Nat) (e : Entry) : (e.elapse ms).pinView = e.pinView := by
  unfold Entry.elapse
  split
  · next left h => simp [Entry.pinView, h]
  · rfl

theorem Entry.pinView_resetCause (e : Entry) : e.resetCause.pinView = e.pinView := by
  unfold Entry.resetCause
  split
  · next h => simp [Entry.pinView, h]
  · rfl

theorem Entry.pinView_cancelCause (e : Entry) : e.cancelCause.pinView = e.pinView := by
  unfold Entry.cancelCause
  split
  · next h => simp [Entry.pinView, h]
  · rfl

theorem Entry.isWaiting_iff (e : Entry) : e.isWaiting = true ↔ ∃ left, e.state = .waiting left := by
  unfold Entry.isWaiting
  cases e.state <;> simp

theorem Entry.pinView_of_state (e : Entry) (st : EntryState) (h : e.state ≠ .queued true) (k : st ≠ .queued true) :
    ({ e with state := st } : Entry).pinView = e.pinView := by
  simp [Entry.pinView, h, k, Job.names]

theorem PortBlock.samePins_unwait (b : PortBlock) : b.SamePins b.unwait := by
  unfold PortBlock.unwait
  split
  · next e rest hb =>
    split
    · next hw =>
      obtain ⟨left, hs⟩ := e.isWaiting_iff.1 hw
      exact PortBlock.samePins_head hb rfl (e.pinView_of_state _ (by simp [hs]) (by simp))
    · exact .refl b
  · exact .refl b

theorem PortBlock.samePins_elapse (b : PortBlock) (ms : Nat) (busy : Bool) : b.SamePins (b.elapse ms busy) :=
  PortBlock.samePins_map (Entry.elapse ms) (Entry.pinView_elapse ms) rfl

theorem State.still_elapse (s : State) (ms : Nat) : s.Still (s.elapse ms) :=
  ⟨s.tableKept_elapse ms, fun p => by rw [s.elapse_port ms p]; exact (s.port p).samePins_elapse ms _⟩

/-! ### Claims (R91, R92) -/

/-- A grant of claims makes a WAITING head ACTIVE and leaves its pins (R75, R91). -/
theorem State.still_tryGrant (s : State) (p : Port) : s.Still (s.tryGrant p) := by
  obtain h | ⟨cs, e, rest, _, he, hw, _, h⟩ := s.tryGrant_cases p <;> rw [h]
  · exact .refl s
  · obtain ⟨left, hs⟩ := e.isWaiting_iff.1 hw
    exact s.still_setPort p _ (PortBlock.samePins_head he rfl (e.pinView_of_state _ (by simp [hs]) (by simp)))

theorem State.still_releaseClaims (s : State) (p : Port) : s.Still (s.releaseClaims p) :=
  (s.still_modPort p _ (PortBlock.samePins_of_entries rfl)).trans
    (State.still_foldl _ (fun s q => s.still_tryGrant q) _ _)

/-! ### Pins let go -/

/-- From `b` to `d` a queue lets go of the pins on `hs`: those it held are those it holds and those. -/
def PortBlock.LetsGo (b d : PortBlock) (hs : List Handle) : Prop :=
  (∀ e ∈ b.queue.entries, e.PinsSound) →
    (∀ e ∈ d.queue.entries, e.PinsSound) ∧ ∀ a, pinsIn b.queue.entries a = pinsIn d.queue.entries a + hs.count a

/-- The head leaves the queue. -/
theorem PortBlock.letsGo_tail {b d : PortBlock} {e : Entry} {rest : List Entry} (hb : b.queue.entries = e :: rest)
    (hd : d.queue.entries = rest) : b.LetsGo d e.pins := by
  intro hs
  rw [hb] at hs ⊢
  rw [hd]
  refine ⟨fun x hx => hs x (List.mem_cons_of_mem _ hx), fun a => ?_⟩
  rw [pinsIn, pinsIn, List.countP_cons, (hs e (List.mem_cons_self ..)).nodup.count]
  simp only [List.contains_iff_mem]

/-- Some entries leave the queue; the others keep their pins. -/
theorem PortBlock.letsGo_filter {b d : PortBlock} (f : Entry → Bool)
    (hd : d.queue.entries.map Entry.pinView = (b.queue.entries.filter f).map Entry.pinView) :
    b.LetsGo d ((b.queue.entries.filter fun e => !f e).flatMap Entry.pins) := by
  intro hs
  refine ⟨pinsSound_congr hd fun e he => hs e (List.mem_filter.1 he).1, fun a => ?_⟩
  rw [pinsIn_congr hd, count_flatMap_pins _ (fun e he => hs e (List.mem_filter.1 he).1)]
  exact pinsIn_filter _ f a

/-- A cut entry lets go of its pins (R46). -/
theorem Entry.cutBy_pins (e : Entry) (h : Handle) (hs : e.PinsSound) : (e.cutBy h).1.PinsSound ∧
    ∀ a, pinsIn [e] a = pinsIn [(e.cutBy h).1] a + (e.cutBy h).2.count a := by
  have hone (a : Handle) : pinsIn [e] a = e.pins.count a := by
    simp only [pinsIn, List.countP_singleton, hs.nodup.count, List.contains_iff_mem]
  have hnone (d : Entry) (hd : d.pins = []) (a : Handle) : pinsIn [d] a = 0 := by simp [pinsIn, hd]
  have hsame : e.PinsSound ∧ ∀ a, pinsIn [e] a = pinsIn [e] a + ([] : List Handle).count a := ⟨hs, fun _ => rfl⟩
  unfold Entry.cutBy
  split
  · split
    · exact ⟨rfl, fun a => by rw [hone, hnone _ rfl, Nat.zero_add]⟩
    · exact ⟨rfl, fun a => by rw [hone, hnone _ rfl, Nat.zero_add]⟩
    · next c hst =>
      have hv := e.pinView_of_state (.active { c with cut := true }) (by simp [hst]) (by simp)
      exact ⟨(Entry.pinsSound_congr hv).1 hs, fun a => rfl⟩
    · exact hsame
  · exact hsame

/-- A cut order lets go of the pins of the entries it cuts (R46). -/
theorem PortBlock.letsGo_cut {b d : PortBlock} (h : Handle)
    (hd : d.queue.entries = b.queue.entries.map fun e => (e.cutBy h).1) :
    b.LetsGo d (b.queue.entries.flatMap fun e => (e.cutBy h).2) := by
  have hcons (e : Entry) (t : List Entry) (a : Handle) : pinsIn (e :: t) a = pinsIn [e] a + pinsIn t a := by
    simp only [pinsIn, List.countP_cons, List.countP_nil]
    omega
  intro hs
  rw [hd]
  clear hd
  generalize b.queue.entries = es at hs ⊢
  refine ⟨fun x hx => ?_, fun a => ?_⟩
  · obtain ⟨e, he, rfl⟩ := List.mem_map.1 hx
    exact (e.cutBy_pins h (hs e he)).1
  · induction es with
    | nil => rfl
    | cons e t ih =>
      have h1 := (e.cutBy_pins h (hs e (List.mem_cons_self ..))).2 a
      have h2 := ih fun x hx => hs x (List.mem_cons_of_mem _ hx)
      rw [hcons, List.map_cons, hcons _ (t.map _), List.flatMap_cons, List.count_append]
      omega

/-- The queue of port `p` lets go of pins, which are owed from then on. -/
theorem State.PinsKept.letGo {s : State} (h : s.PinsKept) (p : Port) (f : PortBlock → PortBlock) (hs : List Handle)
    (hf : (s.port p).LetsGo (f (s.port p)) hs) : (s.modPort p f).Owes p hs := by
  obtain ⟨h1, h2⟩ := (s.owes_nil p).2 h
  obtain ⟨hf1, hf2⟩ := hf (h1 p)
  rw [withPins_nil] at h2
  refine ⟨fun q e he => ?_, ?_⟩
  · rw [State.port_modPort] at he
    split at he
    · next hq => subst hq; exact hf1 e he
    · exact h1 q e he
  · have : withPins (s.modPort p f).pinsHeld p hs = s.pinsHeld := by
      funext q a
      unfold withPins State.pinsHeld
      rw [State.port_modPort]
      by_cases hq : q = p
      · subst hq; simp only [if_true]; exact (hf2 a).symm
      · simp [hq]
    rw [this]
    exact (s.tableKept_modPort p f).exact _ h2

theorem State.pinsHeld_congr (s t : State) (h : ∀ p, (s.port p).SamePins (t.port p)) : t.pinsHeld = s.pinsHeld := by
  funext q
  exact pinsIn_congr (h q)

theorem State.Owes.dropPins {s : State} {p : Port} {hs : List Handle} (h : s.Owes p hs) : (s.dropPins p hs).PinsKept := by
  rw [← State.owes_nil _ p]
  have hp (q : Port) : (s.dropPins p hs).port q = s.port q := s.dropPins_port p q hs
  refine ⟨fun q e he => h.sound q e (by rwa [hp] at he), ?_⟩
  rw [withPins_nil, s.pinsHeld_congr _ fun q => PortBlock.samePins_of_entries (by rw [hp])]
  exact h.table.dropPins

theorem State.Owes.unpinAll {s : State} {p : Port} {hs : List Handle} (h : s.Owes p hs) : (s.unpinAll p hs).PinsKept := by
  rw [← State.owes_nil _ p]
  have hp (q : Port) : ((s.unpinAll p hs).port q).queue = (s.port q).queue := by rw [(s.onlyEnds_unpinAll p hs).2 q]
  refine ⟨fun q e he => h.sound q e (by rwa [hp] at he), ?_⟩
  rw [withPins_nil, s.pinsHeld_congr _ fun q => PortBlock.samePins_of_entries (by rw [hp])]
  exact h.table.unpinAll

/-- The queue lets go of pins, the claims may be reconsidered, and the pins are dropped (R77, R156). -/
theorem State.keeps_letGo_drop (s : State) (p : Port) (f : PortBlock → PortBlock) (g : State → State) (hs : List Handle)
    (hf : (s.port p).LetsGo (f (s.port p)) hs) (hg : ∀ u : State, u.Still (g u)) :
    s.Keeps ((g (s.modPort p f)).dropPins p hs) :=
  ⟨((s.tableKept_modPort p f).records.trans (hg _).table.records).trans (State.records_dropPins _ p hs),
    fun h => ((hg _).owes (h.letGo p f hs hf)).dropPins⟩

/-- The queue lets go of pins, and they are dropped one by one with the ends they bring (R46). -/
theorem State.keeps_letGo_unpin (s : State) (p : Port) (f : PortBlock → PortBlock) (hs : List Handle)
    (hf : (s.port p).LetsGo (f (s.port p)) hs) : s.Keeps ((s.modPort p f).unpinAll p hs) :=
  ⟨(s.tableKept_modPort p f).records.trans (State.records_unpinAll _ p hs), fun h => (h.letGo p f hs hf).unpinAll⟩

end Sys2Proof.Machine

/-! SUPPORT. What each command does to the records and to the pins. -/

namespace Sys2Proof.Machine

/-! ### Cuts (R46) -/

@[simp] theorem PortBlock.cut_entries (b : PortBlock) (h : Handle) (busy : Bool) :
    (b.cut h busy).queue.entries = b.queue.entries.map fun e => (e.cutBy h).1 := by
  unfold PortBlock.cut
  dsimp only
  rw [PortBlock.refreshStaging_queue]
  split <;> split <;> simp

@[simp] theorem PortBlock.cut_portState (b : PortBlock) (h : Handle) (busy : Bool) :
    (b.cut h busy).portState = b.portState := by
  unfold PortBlock.cut
  dsimp only
  rw [PortBlock.refreshStaging_portState]
  split <;> split <;> simp

theorem State.keeps_cutPort (s : State) (n : Nat) (p : Port) : s.Keeps (s.cutPort n p) := by
  unfold State.cutPort
  split
  · exact .refl s
  · split
    · exact .refl s
    · exact s.keeps_letGo_unpin p _ _ (PortBlock.letsGo_cut _ (PortBlock.cut_entries _ _ _))

theorem State.keeps_cutCanvas (s : State) (n : Nat) : s.Keeps (s.cutCanvas n) := by
  unfold State.cutCanvas
  split
  · exact .refl s
  · exact State.keeps_foldl _ (fun s p => s.keeps_cutPort n p) _ s

/-! ### The end of a job (R77, R79, R87) -/

theorem PortBlock.samePins_ite_becomeHalted (b : PortBlock) (c : Prop) [Decidable c] :
    b.SamePins (if c then b.becomeHalted else b) := by
  split
  · exact PortBlock.samePins_of_entries (by simp)
  · exact .refl b

/-- The head of the port's queue holds pins on `hs`. -/
def State.HeadPins (s : State) (p : Port) (hs : List Handle) : Prop :=
  ∃ e rest, (s.port p).queue.entries = e :: rest ∧ e.pins = hs

theorem State.Still.headPins {s t : State} (h : s.Still t) {p : Port} {hs : List Handle} (k : s.HeadPins p hs) :
    t.HeadPins p hs := by
  obtain ⟨e, rest, he, rfl⟩ := k
  have hv := h.pins p
  unfold PortBlock.SamePins at hv
  rw [he, List.map_cons] at hv
  obtain ⟨d, ds, hd, hde, _⟩ := List.map_eq_cons_iff.1 hv
  exact ⟨d, ds, hd, congrArg (fun v => v.2.1) hde⟩

theorem State.HeadPins.letsGo {s : State} {p : Port} {hs : List Handle} (k : s.HeadPins p hs) (d : PortBlock)
    (hd : d.queue.entries = (s.port p).queue.entries.tail) : (s.port p).LetsGo d hs := by
  obtain ⟨e, rest, he, rfl⟩ := k
  exact PortBlock.letsGo_tail he (by rw [hd, he]; rfl)

theorem State.keeps_endHead (s : State) (p : Port) (e : Entry) (status : JobStatus) (index : Option Nat) (halts : Bool)
    (h : s.HeadPins p e.pins) : s.Keeps (s.endHead p e status index halts) := by
  unfold State.endHead
  dsimp only
  refine State.Keeps.trans ?_ (State.still_settleAll _ p e.pins).keeps
  refine State.Keeps.trans ?_ (State.still_modPort _ p _ ?_).keeps
  · refine s.keeps_letGo_drop p _ (fun u => if e.isActive then u.releaseClaims p else u) e.pins
      (h.letsGo _ rfl) fun u => ?_
    split
    · exact u.still_releaseClaims p
    · exact .refl u
  · generalize State.port _ p = b
    exact PortBlock.SamePins.trans
      (c := (b.placeNotice e status index).refreshStaging.answerCancels e.seq status)
      (PortBlock.samePins_of_entries (by simp)) (PortBlock.samePins_ite_becomeHalted _ _)

theorem State.keeps_endForReset (s : State) (p : Port) (e : Entry) (h : s.HeadPins p e.pins) :
    s.Keeps (s.endForReset p e) := by
  unfold State.endForReset
  dsimp only
  refine State.Keeps.trans ?_ (State.still_settleAll _ p e.pins).keeps
  refine State.Keeps.trans ?_ (State.still_modPort _ p _ (PortBlock.samePins_of_entries (by simp))).keeps
  exact s.keeps_letGo_drop p _ (fun u => u.releaseClaims p) e.pins (h.letsGo _ rfl) fun u => u.still_releaseClaims p

theorem State.still_logFault (s : State) (p : Port) (seq : Nat) (kind : JobKind) (d : FaultDetail) :
    s.Still (s.logFault p seq kind d).1 := by
  unfold State.logFault
  split
  · next i _ =>
    exact (s.still_of_eq { s with faultLog := s.faultLog.log i p seq kind d } rfl rfl rfl).trans
      (State.still_modPort _ p (fun b => b.raiseFault d.kind) (PortBlock.samePins_of_entries (by simp)))
  · exact s.still_modPort p (fun b => (b.raise .logFull).raiseFault d.kind) (PortBlock.samePins_of_entries (by simp))

theorem State.keeps_endFaulted (s : State) (p : Port) (e : Entry) (d : FaultDetail) (h : s.HeadPins p e.pins) :
    s.Keeps (s.endFaulted p e d) :=
  (s.still_logFault p e.seq e.job.kind d).keeps.trans
    (State.keeps_endHead _ p e _ _ _ ((s.still_logFault p e.seq e.job.kind d).headPins h))

theorem State.keeps_endJob (s : State) (p : Port) (e : Entry) (causes : StopCauses) (rep : Report)
    (h : s.HeadPins p e.pins) : s.Keeps (s.endJob p e causes rep) := by
  unfold State.endJob
  split
  · exact s.keeps_endForReset p e h
  · split
    · exact s.keeps_endFaulted p e _ h
    · exact s.keeps_endHead p e _ none false h

theorem State.keeps_dispatch (s : State) (p : Port) (e : Entry) (rest : List Entry)
    (h : (s.port p).queue.entries = e :: rest) : s.Keeps (s.dispatch p e) := by
  have hh : s.HeadPins p e.pins := ⟨e, rest, h, rfl⟩
  have hr : s.Still (s.modPort p fun b => { b with link := b.link.reserve }) :=
    s.still_modPort p _ (PortBlock.samePins_of_entries rfl)
  unfold State.dispatch
  split
  · exact hr.keeps.trans (State.keeps_endHead _ p e _ _ _ (hr.headPins hh))
  · next hst =>
    split
    · exact hr.keeps.trans (State.keeps_endHead _ p e _ _ _ (hr.headPins hh))
    · have hv := e.pinView_of_state (.waiting (s.port p).config.waitTimeout) (by simp [hst]) (by simp)
      refine (s.still_modPort p _ (PortBlock.samePins_head (rest := rest) h ?_ hv)).keeps
      simp only [PortBlock.startWaiting, h, List.tail_cons]
  · exact .refl s

/-! ### Commands and their frames -/

theorem State.keeps_unlessHeld {s t u : State} (h : s.unlessHeld t = .next u) (k : s.Keeps t) : s.Keeps u := by
  unfold State.unlessHeld at h
  cases h
  split
  · exact .refl s
  · exact k

/-- The oldest frame leaves the inbound buffer (R181). -/
theorem State.takeFrame_some {s t : State} {p : Port} {row : StreamRow} {payload : List Byte}
    (h : s.takeFrame p row = some (payload, t)) : ∃ rest, t = s.setPort p ((s.port p).took rest) := by
  unfold State.takeFrame at h
  split at h
  · cases h
  · next rest _ =>
    split at h
    · cases h; exact ⟨rest, rfl⟩
    · cases h

theorem State.still_took (s : State) (p : Port) (rest : List InFrame) : s.Still (s.setPort p ((s.port p).took rest)) :=
  s.still_setPort p _ (PortBlock.samePins_of_entries rfl)

theorem State.keeps_process {s u : State} {p : Port} {row : StreamRow} {f : List Byte → State → State}
    (h : s.process p row f = .next u) (k : ∀ (payload : List Byte) (v : State), v.Keeps (f payload v)) : s.Keeps u := by
  refine State.keeps_unlessHeld h ?_
  split
  · exact .refl s
  · next payload v hv =>
    obtain ⟨rest, rfl⟩ := State.takeFrame_some hv
    exact (s.still_took p rest).keeps.trans (k payload _)

theorem State.still_reply (s : State) (p : Port) (payload : List Byte) (st : Status) (m : List Byte) :
    s.Still (s.reply p payload st m) := s.still_modPort p _ (PortBlock.samePins_of_entries rfl)

theorem State.still_refuse (s : State) (p : Port) (payload : List Byte) (st : Status) : s.Still (s.refuse p payload st) :=
  s.still_reply p payload st []

theorem State.still_defer (s : State) (p : Port) (payload : List Byte) : s.Still (s.defer p payload) :=
  s.still_modPort p _ (PortBlock.samePins_of_entries rfl)

theorem State.keeps_reply (s : State) (p : Port) (payload : List Byte) (st : Status) (m : List Byte) :
    s.Keeps (s.reply p payload st m) := (s.still_reply p payload st m).keeps

theorem State.keeps_refuse (s : State) (p : Port) (payload : List Byte) (st : Status) : s.Keeps (s.refuse p payload st) :=
  (s.still_refuse p payload st).keeps

/-! ### Heads of queues -/

theorem keeps_jobDispatch (s t : State) (p : Port) (h : execJobDispatch p s = .next t) : s.Keeps t := by
  refine State.keeps_unlessHeld h ?_
  split
  · exact .refl s
  · next e rest he =>
    split
    · exact s.keeps_dispatch p e rest he
    · exact .refl s

theorem keeps_waitTimerExpiry (s t : State) (p : Port) (h : execWaitTimerExpiry p s = .next t) : s.Keeps t := by
  refine State.keeps_unlessHeld h ?_
  split
  · next e rest _ he _ =>
    split
    · next left c _ _ =>
      exact (s.still_elapse left).keeps.trans
        (State.keeps_endFaulted _ p e _ ((s.still_elapse left).headPins ⟨e, rest, he, rfl⟩))
    · exact .refl s
  · exact .refl s

theorem keeps_jobEnd (s t : State) (p : Port) (h : execJobEnd p s = .next t) : s.Keeps t := by
  refine State.keeps_unlessHeld h ?_
  split
  · next rep e rest _ he =>
    split
    · exact s.keeps_endJob p e _ rep ⟨e, rest, he, rfl⟩
    · exact .refl s
  · exact .refl s

/-! ### Closes (R49 to R53, R57) -/

theorem Canvas.alike_setClosing (c : Canvas) (op : CloseOp) (hk : c.phase.known = true) :
    c.Alike { c with phase := .closing op } := c.alike_setPhase _ hk.symm

theorem State.still_setClosing (s : State) (n : Nat) (c : Canvas) (op : CloseOp) (hc : s.canvas n = some c)
    (hk : c.phase.known = true) : s.Still (s.setCanvas n { c with phase := .closing op }) :=
  s.still_setCanvas n c _ hc (c.alike_setClosing op hk)

/-- A close of a canvas without pins ends in the step it begins (R50, R57). -/
theorem State.still_closeAtOnce (s : State) (n : Nat) (c : Canvas) (op : CloseOp) (hc : s.canvas n = some c)
    (hk : c.phase.known = true) (hp : c.pinCount = 0) :
    s.Still ((s.setCanvas n { c with phase := .closing op }).endClose n op) := by
  refine (s.still_setClosing n c op hc hk).trans ((State.onlyEnds_endClose _ n op).still ?_)
  exact State.tableKept_endClose _ n op _ (State.canvas_setCanvas_same _ _ _ c hc) hp rfl

@[simp] theorem State.release_queue (s : State) (n : Nat) (p : Port) :
    ((s.release n).port p).queue = (s.port p).queue := by rw [(s.onlyEnds_release n).2 p]

theorem State.abandonClearing_ports (s : State) (n : Nat) (p : Port) :
    ((s.abandonClearing n).port p).queue = (s.port p).queue ∧
      ((s.abandonClearing n).port p).portState = (s.port p).portState := by
  unfold State.abandonClearing
  split
  · split
    · exact ⟨rfl, rfl⟩
    · rw [(State.onlyEnds_release _ n).2 p]; exact ⟨rfl, rfl⟩
  · rw [(State.onlyEnds_release _ n).2 p]; exact ⟨rfl, rfl⟩

theorem State.still_abandonClearing (s : State) (n : Nat) (c : Canvas) (hc : s.canvas n = some c)
    (hk : c.phase.known = false) : s.Still (s.abandonClearing n) :=
  ⟨s.tableKept_abandonClearing n c hc hk, fun p => PortBlock.samePins_of_entries (by rw [(s.abandonClearing_ports n p).1])⟩

theorem State.keeps_closeForReset (s : State) (n : Nat) : s.Keeps (s.closeForReset n) := by
  unfold State.closeForReset
  split
  · exact .refl s
  · next c hc =>
    have hclose (op : CloseOp) (cut : Bool) (hk : c.phase.known = true) :
        s.Keeps (if c.pinCount = 0 then (s.setCanvas n { c with phase := .closing op }).endClose n op
          else if cut then (s.setCanvas n { c with phase := .closing op }).cutCanvas n
          else s.setCanvas n { c with phase := .closing op }) := by
      have h := (s.still_setClosing n c op hc hk).keeps
      split
      · next hp => exact (s.still_closeAtOnce n c op hc hk hp).keeps
      · split
        · exact h.trans (State.keeps_cutCanvas _ n)
        · exact h
    dsimp only
    split
    · next hph => exact (s.still_abandonClearing n c hc (by rw [hph]; rfl)).keeps
    · next hph => exact hclose _ true (by rw [hph]; rfl)
    · next op hph => exact hclose { op with mode := .cut, reset := true } (op.mode != .cut) (by rw [hph]; rfl)

/-! ### The beginning of a port reset (R156) -/

theorem PortBlock.beginReset_entries (op : ResetOp) (busy : Bool) (b : PortBlock) :
    (b.beginReset op busy).queue.entries = b.queue.resetEntries := by
  unfold PortBlock.beginReset
  dsimp only
  rw [PortBlock.refreshStaging_queue]
  split <;> simp

theorem PortBlock.beginReset_portState (op : ResetOp) (busy : Bool) (b : PortBlock) :
    (b.beginReset op busy).portState = .resetting { op with queueStopped := b.queue.resetEntries.isEmpty } := by
  unfold PortBlock.beginReset
  dsimp only
  rw [PortBlock.refreshStaging_portState]
  split <;> simp

/-- A port reset removes every entry but the ACTIVE one, and lets go of their pins (R87). -/
theorem PortBlock.letsGo_beginReset (op : ResetOp) (busy : Bool) (b : PortBlock) :
    b.LetsGo (b.beginReset op busy) b.queue.resetDrops := by
  refine PortBlock.letsGo_filter Entry.isActive ?_
  rw [PortBlock.beginReset_entries, JobQueue.resetEntries, List.map_map]
  exact List.map_congr_left fun e _ => e.pinView_resetCause

/-- The supervisor's requests leave every reset operation when P0 is reset (R159). -/
def State.dropSupervisor (s : State) (p : Port) : State :=
  if p = .p0 then { s with ports := s.ports.map PortBlock.dropRequesters } else s

/-- The canvas table and the fault log with a port's marks: its waiters gone, its grants revoked, its records freed. -/
def State.resetTables (s : State) (p : Port) : State :=
  { s with faultLog := s.faultLog.freePort p, slots := s.slots.map (Slot.resetMarks p) }

/-- The queue's part of the beginning of a port reset. -/
def State.resetQueue (s : State) (p : Port) (op : ResetOp) : State :=
  (s.modPort p (PortBlock.beginReset op (s.spanBusy p))).dropPins p (s.port p).queue.resetDrops

/-- The canvas manager's part: the closes, then the ends of grants. -/
def State.resetCanvases (s : State) (p : Port) : State :=
  let t := (s.slotsWith fun c => c.owner == p).foldl State.closeForReset s
  (t.slotsWith fun c => c.owner != p && c.revokeDue p).foldl (fun s n => s.settle n p) t

/-- The four parts of the beginning of a port reset. -/
theorem State.beginReset_eq (s : State) (p : Port) (op : ResetOp) :
    s.beginReset p op = (((s.resetQueue p op).dropSupervisor p).resetTables p).resetCanvases p := rfl

theorem State.dropSupervisor_port (s : State) (p q : Port) :
    (s.dropSupervisor p).port q = if p = .p0 then (s.port q).dropRequesters else s.port q := by
  unfold State.dropSupervisor
  split
  · exact Quad.get_map _ _ _
  · rfl

theorem State.still_dropSupervisor (s : State) (p : Port) : s.Still (s.dropSupervisor p) := by
  refine ⟨?_, fun q => ?_⟩
  · unfold State.dropSupervisor
    split
    · exact (s.tableAlike_of_slots { s with ports := s.ports.map PortBlock.dropRequesters } rfl rfl).kept
    · exact .refl s
  · rw [State.dropSupervisor_port]
    split
    · exact PortBlock.samePins_of_entries (by simp)
    · exact .refl _

theorem State.still_resetTables (s : State) (p : Port) : s.Still (s.resetTables p) :=
  (s.still_of_eq { s with faultLog := s.faultLog.freePort p } rfl rfl rfl).trans
    (State.still_of_ports _ _ (State.tableKept_resetMarks { s with faultLog := s.faultLog.freePort p } p) rfl)

theorem State.keeps_resetQueue (s : State) (p : Port) (op : ResetOp) : s.Keeps (s.resetQueue p op) :=
  s.keeps_letGo_drop p _ id _ (PortBlock.letsGo_beginReset op _ _) fun u => .refl u

theorem State.keeps_resetCanvases (s : State) (p : Port) : s.Keeps (s.resetCanvases p) :=
  (State.keeps_foldl _ State.keeps_closeForReset _ s).trans
    (State.still_foldl _ (fun s n => s.still_settle n p) _ _).keeps

theorem State.keeps_beginReset (s : State) (p : Port) (op : ResetOp) : s.Keeps (s.beginReset p op) := by
  rw [State.beginReset_eq]
  exact (((s.keeps_resetQueue p op).trans (State.still_dropSupervisor _ p).keeps).trans
    (State.still_resetTables _ p).keeps).trans (State.keeps_resetCanvases _ p)

/-! ### The completion of a port reset (R157, R158) -/

/-- The queue of a RESETTING port that has reported that it has stopped is empty (R87). -/
def PortBlock.StoppedEmpty (b : PortBlock) : Prop :=
  ∀ op, b.portState.resetOp = some op → op.queueStopped = true → b.queue.entries = []

/-- The port states stand, and no empty queue gets entries. -/
def State.QueuesStand (s t : State) : Prop :=
  ∀ p, (t.port p).portState = (s.port p).portState ∧ ((s.port p).queue.entries = [] → (t.port p).queue.entries = [])

theorem State.QueuesStand.refl (s : State) : s.QueuesStand s := fun _ => ⟨rfl, id⟩

theorem State.QueuesStand.trans {s t u : State} (h : s.QueuesStand t) (k : t.QueuesStand u) : s.QueuesStand u :=
  fun p => ⟨(k p).1.trans (h p).1, (k p).2 ∘ (h p).2⟩

theorem State.QueuesStand.stoppedEmpty {s t : State} (h : s.QueuesStand t) {p : Port} (k : (s.port p).StoppedEmpty) :
    (t.port p).StoppedEmpty := fun op ho hq => (h p).2 (k op ((h p).1 ▸ ho) hq)

theorem State.queuesStand_foldl {α : Type} (f : State → α → State) (h : ∀ (s : State) (a : α), s.QueuesStand (f s a))
    (xs : List α) (s : State) : s.QueuesStand (xs.foldl f s) := by
  induction xs generalizing s with
  | nil => exact .refl s
  | cons a t ih => exact (h s a).trans (ih _)

theorem State.OnlyEnds.queuesStand {s t : State} (h : s.OnlyEnds t) : s.QueuesStand t :=
  fun p => by rw [h.2 p]; exact ⟨rfl, id⟩

theorem State.queuesStand_cutPort (s : State) (n : Nat) (p : Port) : s.QueuesStand (s.cutPort n p) := by
  unfold State.cutPort
  split
  · exact .refl s
  · split
    · exact .refl s
    · refine State.QueuesStand.trans (fun q => ?_) (State.onlyEnds_unpinAll _ p _).queuesStand
      rw [State.port_modPort]
      split
      · exact ⟨PortBlock.cut_portState _ _ _, fun h => by rw [PortBlock.cut_entries, h]; rfl⟩
      · exact ⟨rfl, id⟩

theorem State.queuesStand_cutCanvas (s : State) (n : Nat) : s.QueuesStand (s.cutCanvas n) := by
  unfold State.cutCanvas
  split
  · exact .refl s
  · exact State.queuesStand_foldl _ (fun s p => s.queuesStand_cutPort n p) _ s

theorem State.queuesStand_closeForReset (s : State) (n : Nat) : s.QueuesStand (s.closeForReset n) := by
  unfold State.closeForReset
  split
  · exact .refl s
  · next c hc =>
    have hclose (op : CloseOp) (cut : Bool) :
        s.QueuesStand (if c.pinCount = 0 then (s.setCanvas n { c with phase := .closing op }).endClose n op
          else if cut then (s.setCanvas n { c with phase := .closing op }).cutCanvas n
          else s.setCanvas n { c with phase := .closing op }) := by
      have h : s.QueuesStand (s.setCanvas n { c with phase := .closing op }) := (s.onlyEnds_setSlot n _).queuesStand
      split
      · exact h.trans (State.onlyEnds_endClose _ n op).queuesStand
      · split
        · exact h.trans (State.queuesStand_cutCanvas _ n)
        · exact h
    dsimp only
    split
    · exact fun p => ⟨(s.abandonClearing_ports n p).2, fun h => by rw [(s.abandonClearing_ports n p).1, h]⟩
    · exact hclose _ true
    · next op _ => exact hclose { op with mode := .cut, reset := true } (op.mode != .cut)

theorem State.queuesStand_resetCanvases (s : State) (p : Port) : s.QueuesStand (s.resetCanvases p) :=
  (State.queuesStand_foldl _ State.queuesStand_closeForReset _ s).trans
    (State.queuesStand_foldl _ (fun s n => (s.onlyEnds_settle n p).queuesStand) _ _)

theorem PortBlock.StoppedEmpty.dropRequesters {b : PortBlock} (h : b.StoppedEmpty) : b.dropRequesters.StoppedEmpty := by
  intro op ho hq
  rw [PortBlock.dropRequesters_queue]
  unfold PortBlock.dropRequesters at ho
  split at ho
  · next op' hp =>
    cases ho
    exact h op' (by rw [hp]; rfl) hq
  · exact h op ho hq

/-- After the beginning of a reset, the port's queue is empty if it has reported that it has stopped. -/
theorem State.stoppedEmpty_beginReset (s : State) (p : Port) (op : ResetOp) : ((s.beginReset p op).port p).StoppedEmpty := by
  have h1 : ((s.resetQueue p op).port p).StoppedEmpty := by
    intro op' ho hq
    rw [State.resetQueue, State.dropPins_port, State.port_modPort_same] at *
    rw [PortBlock.beginReset_portState] at ho
    cases ho
    rw [PortBlock.beginReset_entries]
    exact List.isEmpty_iff.1 hq
  have h2 : (((s.resetQueue p op).dropSupervisor p).port p).StoppedEmpty := by
    rw [State.dropSupervisor_port]
    split
    · exact h1.dropRequesters
    · exact h1
  have h3 : (State.resetTables ((s.resetQueue p op).dropSupervisor p) p).port p =
      ((s.resetQueue p op).dropSupervisor p).port p := rfl
  rw [State.beginReset_eq]
  exact (State.queuesStand_resetCanvases _ p).stoppedEmpty (by rw [h3]; exact h2)

theorem State.still_completeReset (s : State) (p : Port) (op : ResetOp) (h : (s.port p).queue.entries = []) :
    s.Still (s.completeReset p op) := by
  unfold State.completeReset
  refine (s.still_modPort p _ (PortBlock.samePins_of_entries (by rw [h]; rfl))).trans (State.still_modPort _ .p0 _ ?_)
  exact PortBlock.samePins_of_entries (by simp)

theorem State.still_tryComplete (s : State) (p : Port) (h : (s.port p).StoppedEmpty) : s.Still (s.tryComplete p) := by
  unfold State.tryComplete
  split
  · exact .refl s
  · next op ho =>
    split
    · next hd =>
      simp only [State.resetDone, Bool.and_eq_true] at hd
      obtain ⟨⟨⟨hq, _⟩, _⟩, _⟩ := hd
      exact s.still_completeReset p op (h op ho hq)
    · exact .refl s

theorem State.keeps_resetNow (s : State) (p : Port) (op : ResetOp) : s.Keeps ((s.beginReset p op).tryComplete p) :=
  (s.keeps_beginReset p op).trans (State.still_tryComplete _ p (s.stoppedEmpty_beginReset p op)).keeps

theorem State.keeps_beginForRequest (s : State) (payload : List Byte) (t : Port) (final : FinalState)
    (quotas : Option (Nat × Nat)) : s.Keeps (s.beginForRequest payload t final quotas) := by
  unfold State.beginForRequest
  refine (s.keeps_resetNow t ⟨final, [], none, quotas, false⟩).trans ?_
  dsimp only
  split
  · exact State.keeps_reply _ _ _ _ _
  · exact ((State.still_modPort _ t _ (PortBlock.samePins_of_entries rfl)).trans (State.still_defer _ _ _)).keeps

theorem State.still_joinReset (s : State) (payload : List Byte) (t : Port) (op : ResetOp) (final : FinalState)
    (quotas : Option (Nat × Nat)) : s.Still (s.joinReset payload t op final quotas) := by
  unfold State.joinReset
  exact (s.still_modPort t _ (PortBlock.samePins_of_entries rfl)).trans (State.still_defer _ _ _)

end Sys2Proof.Machine

/-! SUPPORT. Each command of the table, as a change that keeps the records and the pins. -/

namespace Sys2Proof.Machine

/-! ### Frames that arrive and are sent (R163 to R175) -/

theorem State.keeps_arrived (s : State) (p : Port) (rest : List Byte) (f : PortBlock → PortBlock)
    (h : ∀ b : PortBlock, (f b).queue.entries = b.queue.entries) : s.Keeps (s.arrived p rest f) :=
  (s.still_modPort p (fun b => f { b with link := b.link.huntAgain rest }) (PortBlock.samePins_of_entries (h _))).keeps

theorem keeps_frameLengthError (s t : State) (p : Port) (bytes : List Byte) (h : execFrameLengthError p bytes s = .next t) :
    s.Keeps t := by
  refine State.keeps_unlessHeld h ?_
  split
  · exact s.keeps_arrived p _ _ fun _ => rfl
  · exact .refl s

theorem keeps_crcError (s t : State) (p : Port) (bytes : List Byte) (h : execCrcError p bytes s = .next t) : s.Keeps t := by
  refine State.keeps_unlessHeld h ?_
  split
  · refine s.keeps_arrived p _ _ fun b => ?_
    unfold PortBlock.badCrc
    split <;> rfl
  · exact .refl s

theorem keeps_unknownClassFrame (s t : State) (p : Port) (bytes : List Byte)
    (h : execUnknownClassFrame p bytes s = .next t) : s.Keeps t := by
  refine State.keeps_unlessHeld h ?_
  split
  · split
    · exact .refl s
    · exact s.keeps_arrived p _ _ fun _ => rfl
  · exact .refl s

theorem keeps_reqDatFrameReceived (s t : State) (p : Port) (bytes : List Byte)
    (h : execReqDatFrameReceived p bytes s = .next t) : s.Keeps t := by
  refine State.keeps_unlessHeld h ?_
  split
  · split
    · split
      · exact .refl s
      · refine s.keeps_arrived p _ _ fun b => ?_
        unfold PortBlock.reqDatArrived
        split <;> simp
    · exact .refl s
  · exact .refl s

theorem keeps_ackFrameReceived (s t : State) (p : Port) (bytes : List Byte)
    (h : execAckFrameReceived p bytes s = .next t) : s.Keeps t := by
  refine State.keeps_unlessHeld h ?_
  split
  · split
    · refine s.keeps_arrived p _ _ fun b => ?_
      unfold PortBlock.ackArrived
      split <;> simp
    · exact .refl s
  · exact .refl s

theorem keeps_helloFrameReceived (s t : State) (p : Port) (bytes : List Byte)
    (h : execHelloFrameReceived p bytes s = .next t) : s.Keeps t := by
  refine State.keeps_unlessHeld h ?_
  split
  · split
    · refine s.keeps_arrived p _ _ fun b => ?_
      unfold PortBlock.helloArrived
      split <;> simp
    · exact .refl s
  · exact .refl s

theorem keeps_frameTransmit (s t : State) (p : Port) (h : execFrameTransmit p s = .next t) : s.Keeps t :=
  State.keeps_unlessHeld h (s.still_modPort p _ (PortBlock.samePins_of_entries (by simp))).keeps

theorem PortBlock.samePins_haltOnLoss (b : PortBlock) : b.SamePins b.haltOnLoss := by
  unfold PortBlock.haltOnLoss
  split
  · split
    · exact PortBlock.samePins_of_entries rfl
    · exact b.samePins_unwait.trans (PortBlock.samePins_of_entries (by simp))
  · exact .refl b

theorem PortBlock.samePins_resendExpired (b : PortBlock) : b.SamePins b.resendExpired := by
  unfold PortBlock.resendExpired
  dsimp only
  split
  · exact PortBlock.samePins_of_entries rfl
  · split
    · exact PortBlock.SamePins.trans (PortBlock.samePins_of_entries rfl) (PortBlock.samePins_haltOnLoss _)
    · exact PortBlock.samePins_of_entries rfl

theorem keeps_resendTimerExpiry (s t : State) (p : Port) (h : execResendTimerExpiry p s = .next t) : s.Keeps t := by
  refine State.keeps_unlessHeld h ?_
  split
  · exact .refl s
  · exact ((s.still_elapse _).trans (State.still_modPort _ p _ (PortBlock.samePins_resendExpired _))).keeps

/-! ### Sessions (R150, R176 to R183) -/

theorem State.keeps_helloUnsynced (s : State) (p : Port) (payload : List Byte) : s.Keeps (s.helloUnsynced p payload) := by
  unfold State.helloUnsynced
  split
  · exact .refl s
  · exact (s.still_modPort p _ (PortBlock.samePins_of_entries rfl)).keeps

theorem keeps_helloFresh (s t : State) (p : Port) (h : execHelloFresh p s = .next t) : s.Keeps t := by
  refine State.keeps_process h fun payload v => ?_
  have hreset : v.Keeps (if ReqKind.hello.lengthOk payload.length && num8 payload 4 == 0x01 then
      (v.beginReset p ⟨.up, [], some (reqId payload), none, false⟩).tryComplete p else v) := by
    split
    · exact v.keeps_resetNow p _
    · exact .refl v
  split
  · exact v.keeps_helloUnsynced p payload
  · exact hreset
  · exact hreset
  · exact .refl v
  · exact .refl v

theorem keeps_helloResume (s t : State) (p : Port) (h : execHelloResume p s = .next t) : s.Keeps t := by
  refine State.keeps_process h fun payload v => ?_
  have hresume (f : PortBlock → PortBlock) (hf : (f (v.port p)).queue = (v.port p).queue) :
      v.Keeps (if ReqKind.hello.lengthOk payload.length then v.modPort p f else v) := by
    split
    · exact (v.still_modPort p f (PortBlock.samePins_of_entries (by rw [hf]))).keeps
    · exact .refl v
  split
  · exact v.keeps_helloUnsynced p payload
  · exact hresume _ rfl
  · exact hresume _ rfl
  · exact .refl v
  · exact .refl v

theorem keeps_unknownKind (s t : State) (p : Port) (h : execUnknownKind p s = .next t) : s.Keeps t := by
  refine State.keeps_process h fun payload v => ?_
  split
  · exact (v.still_modPort p _ (PortBlock.samePins_of_entries rfl)).keeps
  · exact v.keeps_refuse p payload _

/-! ### Supervisor requests (R152 to R160) -/

theorem keeps_portSetEnable (s t : State) (p : Port) (h : execPortSetEnable p s = .next t) : s.Keeps t := by
  refine State.keeps_process h fun payload v => ?_
  split
  · exact v.keeps_refuse p payload _
  · next q _ =>
    dsimp only
    split
    · exact (v.still_joinReset payload q _ _ _).keeps
    · split
      · exact v.keeps_refuse p payload _
      · exact (v.still_modPort q _ (PortBlock.samePins_of_entries (by simp [PortBlock.setQuotas]))).keeps.trans
          (State.keeps_reply _ _ _ _ _)

theorem keeps_portSetDisable (s t : State) (p : Port) (h : execPortSetDisable p s = .next t) : s.Keeps t := by
  refine State.keeps_process h fun payload v => ?_
  split
  · exact v.keeps_refuse p payload _
  · next q _ =>
    dsimp only
    split
    · exact (v.still_joinReset payload q _ _ _).keeps
    · exact v.keeps_beginForRequest payload q _ _

theorem PortBlock.applySettings_queue (b : PortBlock) (xs : List Setting) :
    (xs.foldl PortBlock.applySetting b).queue = b.queue := by
  induction xs generalizing b with
  | nil => rfl
  | cons x t ih => exact (ih _).trans (b.applySetting_queue x)

theorem keeps_config (s t : State) (p : Port) (h : execConfig p s = .next t) : s.Keeps t := by
  refine State.keeps_process h fun payload v => ?_
  split
  · exact v.keeps_refuse p payload _
  · next xs _ =>
    have hq := (v.port p).applySettings_queue xs
    exact (v.still_modPort p _ (PortBlock.samePins_of_entries (by rw [hq]))).keeps.trans (State.keeps_reply _ _ _ _ _)

theorem keeps_resetPort (s t : State) (p : Port) (h : execResetPort p s = .next t) : s.Keeps t := by
  refine State.keeps_process h fun payload v => ?_
  split
  · exact v.keeps_refuse p payload _
  · split
    · exact v.keeps_refuse p payload _
    · split
      · exact v.keeps_refuse p payload _
      · next q _ =>
        split
        · exact v.keeps_refuse p payload _
        · split
          · exact (v.still_joinReset payload q _ _ _).keeps
          · exact v.keeps_beginForRequest payload q _ _

/-- A part with empty queues, a FREE canvas table and an empty clear list has no pin to account for. -/
theorem State.pinsKept_of_fresh (s : State) (hq : ∀ p, (s.port p).queue.entries = []) (hc : ∀ n, s.canvas n = none)
    (hl : s.clear.list = []) : s.PinsKept := by
  refine ⟨⟨fun p e he => ?_, fun n c p h => ?_⟩, ?_, fun n => ?_⟩
  · rw [hq p] at he; cases he
  · rw [hc n] at h; cases h
  · rw [hl]; exact List.nodup_nil
  · rw [hl, hc n]; simp

theorem State.reset_port (p : Port) : State.reset.port p = PortBlock.reset := by cases p <;> rfl

theorem State.reset_slot (n : Nat) (h1 : 1 ≤ n) (h2 : n ≤ 255) : State.reset.slot n = ⟨1, none⟩ := by
  obtain ⟨k, rfl⟩ : ∃ k, n = k + 1 := ⟨n - 1, by omega⟩
  have hk : k < 255 := by omega
  simp [State.slot, State.reset, hk]

theorem State.reset_canvas (n : Nat) : State.reset.canvas n = none := by
  by_cases hn : 1 ≤ n ∧ n ≤ 255
  · rw [State.canvas, State.reset_slot n hn.1 hn.2]
  · rw [State.canvas, State.slot_outside _ n (by omega)]

/-- The power-on values have no pin to account for. -/
theorem State.pinsKept_powerOnValues (s : State) (pin : Bool) : (s.powerOnValues pin).PinsKept :=
  State.pinsKept_of_fresh _ (fun p => congrArg (fun b => b.queue.entries) (State.reset_port p))
    (fun n => State.reset_canvas n) rfl

/-- RESET-DEVICE releases every slot (R20, R160). -/
theorem State.deviceReset_slot (s : State) (n : Nat) : s.deviceReset.slot n = (s.slot n).deviceReset := by
  cases n with
  | zero => rfl
  | succ k => by_cases hk : k < 255 <;> simp [State.slot, State.deviceReset, hk, Slot.deviceReset]

theorem Slot.deviceReset_kept (x : Slot) : x.Kept x.deviceReset ∧ x.deviceReset.canvas = none := by
  unfold Slot.deviceReset
  cases h : x.canvas with
  | none => exact ⟨.free h h rfl, h⟩
  | some c => exact ⟨.freed c h rfl, rfl⟩

theorem State.keeps_deviceReset (s : State) : s.Keeps s.deviceReset := by
  refine ⟨fun n => ?_, fun _ => State.pinsKept_of_fresh _ (fun p => ?_) (fun n => ?_) rfl⟩
  · rw [State.deviceReset_slot]; exact (s.slot n).deviceReset_kept.1
  · exact congrArg (fun b => b.queue.entries) (State.reset_port p)
  · rw [State.canvas, State.deviceReset_slot]; exact (s.slot n).deviceReset_kept.2

theorem keeps_resetDevice (s t : State) (p : Port) (h : execResetDevice p s = .next t) : s.Keeps t := by
  refine State.keeps_process h fun payload v => ?_
  split
  · exact v.keeps_refuse p payload _
  · split
    · exact v.keeps_refuse p payload _
    · exact v.keeps_deviceReset

/-! ### Canvases (R17, R18, R34) and sharing (R39 to R54) -/

theorem keeps_query (s t : State) (p : Port) (h : execQuery p s = .next t) : s.Keeps t := by
  refine State.keeps_process h fun payload v => ?_
  split
  · exact v.keeps_refuse p payload _
  · dsimp only
    split
    · exact v.keeps_refuse p payload _
    · split
      · exact v.keeps_reply p payload _ _
      · exact v.keeps_refuse p payload _

theorem keeps_list (s t : State) (p : Port) (h : execList p s = .next t) : s.Keeps t := by
  refine State.keeps_process h fun payload v => ?_
  split
  · exact v.keeps_refuse p payload _
  · dsimp only
    split
    · exact v.keeps_refuse p payload _
    · exact v.keeps_reply p payload _ _

theorem State.canvasLive_queue (s : State) (n : Nat) (p : Port) : ((s.canvasLive n).port p).queue = (s.port p).queue := by
  unfold State.canvasLive
  split
  · rfl
  · split
    · rw [(State.onlyEnds_answerWaiters _ _ _).2 p, State.setCanvas_port]
    · rfl

theorem State.still_blockReport (s : State) : s.Still s.blockReport := by
  refine ⟨s.tableKept_blockReport, fun p => PortBlock.samePins_of_entries (congrArg JobQueue.entries ?_)⟩
  unfold State.blockReport
  split
  · rfl
  · split
    · exact State.release_queue _ _ p
    · dsimp only
      split
      · rfl
      · exact State.canvasLive_queue _ _ p

theorem keeps_blockCleared (s t : State) (h : execBlockCleared s = .next t) : s.Keeps t := by
  unfold execBlockCleared at h
  split at h
  · next b f fill _ _ =>
    split at h
    · cases h
      exact ((s.still_of_eq { s with store := s.store.clearBlock b f fill, arbiter := { s.arbiter with serving := none } }
        rfl rfl rfl).trans (State.still_blockReport _)).keeps
    · cases h
  · cases h; exact .refl s

/-- The three results of a GRANT leave the pins (R40). -/
theorem Canvas.alike_grantResult (c d : Canvas) (t : Port) (asked : Rights) (result : Nat)
    (h : c.grantResult t asked = .ok (result, d)) : c.Alike d := by
  unfold Canvas.grantResult at h
  split at h
  · next hg => cases h; exact c.alike_addGrant t asked hg
  · split at h
    · cases h
    · split at h
      · cases h; exact .refl _
      · split at h
        · cases h
        · cases h; exact c.alike_modGrant t _ fun _ => ⟨rfl, rfl⟩

theorem keeps_grant (s t : State) (p : Port) (h : execGrant p s = .next t) : s.Keeps t := by
  refine State.keeps_process h fun payload v => ?_
  split
  · exact v.keeps_refuse p payload _
  · split
    · dsimp only
      split
      · exact v.keeps_refuse p payload _
      · next c hl =>
        split
        · exact v.keeps_refuse p payload _
        · split
          · exact v.keeps_refuse p payload _
          · split
            · exact v.keeps_refuse p payload _
            · split
              · exact v.keeps_refuse p payload _
              · next result d hd =>
                exact (v.still_setCanvas _ c d (v.lookup_some _ c hl).1 (c.alike_grantResult d _ _ result hd)).keeps.trans
                  (State.keeps_reply _ _ _ _ _)
    · exact v.keeps_refuse p payload _

theorem Canvas.alike_setRevoke (c : Canvas) (t : Port) (r : RevokeOp) : c.Alike (c.setRevoke t r) :=
  c.alike_modGrant t _ fun _ => ⟨rfl, rfl⟩

theorem State.still_setRevoke (s : State) (n : Nat) (c : Canvas) (t : Port) (r : RevokeOp) (hc : s.canvas n = some c) :
    s.Still (s.setCanvas n (c.setRevoke t r)) := s.still_setCanvas n c _ hc (c.alike_setRevoke t r)

/-- The first grant to a port keeps its pins when its revoke changes. -/
theorem Canvas.grantTo_setRevoke (c : Canvas) (t : Port) (r : RevokeOp) (g : Grant) (hg : c.grantTo t = some g) :
    (c.setRevoke t r).grantTo t = some { g with revoke := some r } := by
  have hp := (c.grantTo_some t g hg).2
  have hf : ((fun g : Grant => g.port == t) ∘ fun g => if g.port = t then { g with revoke := some r } else g) =
      fun g => g.port == t := by
    funext g
    simp only [Function.comp]
    split <;> rfl
  unfold Canvas.grantTo at hg
  simp only [Canvas.grantTo, Canvas.setRevoke, Canvas.modGrant, List.find?_map, hf, hg, Option.map_some, hp, if_true]

theorem State.keeps_beginRevoke (s : State) (payload : List Byte) (h : Handle) (c : Canvas) (t : Port) (g : Grant)
    (mode : WaitMode) (hc : s.canvas (handleSlot h) = some c) (hg : c.grantTo t = some g) :
    s.Keeps (s.beginRevoke payload h c t g.pins mode) := by
  unfold State.beginRevoke
  dsimp only
  split
  · next hp =>
    refine ((s.still_setRevoke _ c t _ hc).trans (State.still_endRevoke _ _ t fun d g' hd hg' => ?_)).keeps.trans
      (State.keeps_reply _ _ _ _ _)
    rw [State.canvas_setCanvas_same _ _ _ c hc] at hd
    cases hd
    rw [c.grantTo_setRevoke t _ g hg] at hg'
    cases hg'
    exact hp
  · have hd := (s.still_setRevoke (handleSlot h) c t ⟨mode, [⟨c.owner, reqId payload⟩], false⟩ hc).trans
      (State.still_defer _ c.owner payload)
    split
    · exact hd.keeps
    · exact hd.keeps.trans (State.keeps_cutPort _ _ t)

theorem State.keeps_joinRevoke (s : State) (payload : List Byte) (h : Handle) (c : Canvas) (t : Port) (r : RevokeOp)
    (mode : WaitMode) (hc : s.canvas (handleSlot h) = some c) : s.Keeps (s.joinRevoke payload h c t r mode) := by
  have hd (r' : RevokeOp) : s.Keeps ((s.setCanvas (handleSlot h) (c.setRevoke t r')).defer c.owner payload) :=
    ((s.still_setRevoke _ c t r' hc).trans (State.still_defer _ _ _)).keeps
  unfold State.joinRevoke
  dsimp only
  split
  · exact (hd _).trans (State.keeps_cutPort _ _ t)
  · exact hd _

theorem keeps_revoke (s t : State) (p : Port) (h : execRevoke p s = .next t) : s.Keeps t := by
  refine State.keeps_process h fun payload v => ?_
  split
  · exact v.keeps_refuse p payload _
  · split
    · dsimp only
      split
      · exact v.keeps_refuse p payload _
      · next c hl =>
        have hc := (v.lookup_some _ c hl).1
        split
        · exact v.keeps_refuse p payload _
        · split
          · exact v.keeps_refuse p payload _
          · split
            · exact v.keeps_refuse p payload _
            · split
              · exact v.keeps_refuse p payload _
              · next g hg =>
                split
                · exact v.keeps_beginRevoke payload _ c _ g _ hc hg
                · exact v.keeps_joinRevoke payload _ c _ _ _ hc
    · exact v.keeps_refuse p payload _

theorem State.keeps_beginClose (s : State) (p : Port) (payload : List Byte) (h : Handle) (c : Canvas) (mode : WaitMode)
    (forced : Bool) (hc : s.canvas (handleSlot h) = some c) (hk : c.phase.known = true) :
    s.Keeps (s.beginClose p payload h c mode forced) := by
  unfold State.beginClose
  dsimp only
  split
  · next hp => exact (s.still_closeAtOnce _ c _ hc hk hp).keeps.trans (State.keeps_reply _ _ _ _ _)
  · have hd := (s.still_setClosing (handleSlot h) c ⟨mode, [⟨p, reqId payload⟩], forced, false⟩ hc hk).trans
      (State.still_defer _ p payload)
    split
    · exact hd.keeps
    · exact hd.keeps.trans (State.keeps_cutCanvas _ _)

theorem State.keeps_joinClose (s : State) (p : Port) (payload : List Byte) (h : Handle) (c : Canvas) (op : CloseOp)
    (mode : WaitMode) (forced : Bool) (hc : s.canvas (handleSlot h) = some c) (hk : c.phase.known = true) :
    s.Keeps (s.joinClose p payload h c op mode forced) := by
  have hd (op' : CloseOp) : s.Keeps ((s.setCanvas (handleSlot h) { c with phase := .closing op' }).defer p payload) :=
    ((s.still_setClosing _ c op' hc hk).trans (State.still_defer _ _ _)).keeps
  unfold State.joinClose
  dsimp only
  split
  · exact (hd _).trans (State.keeps_cutCanvas _ _)
  · exact hd _

theorem keeps_closeCanvas (s t : State) (p : Port) (h : execCloseCanvas p s = .next t) : s.Keeps t := by
  refine State.keeps_process h fun payload v => ?_
  split
  · exact v.keeps_refuse p payload _
  · split
    · exact v.keeps_refuse p payload _
    · dsimp only
      split
      · exact v.keeps_refuse p payload _
      · next c hl =>
        obtain ⟨hc, hk, _, _⟩ := v.lookup_some _ c hl
        split
        · exact v.keeps_refuse p payload _
        · split
          · exact v.keeps_refuse p payload _
          · split
            · exact v.keeps_joinClose p payload _ c _ _ _ hc hk
            · exact v.keeps_beginClose p payload _ c _ _ hc hk

theorem keeps_revokeDeadlineExpiry (s t : State) (slot : Nat) (p : Port)
    (h : execRevokeDeadlineExpiry slot p s = .next t) : s.Keeps t := by
  refine State.keeps_unlessHeld h ?_
  split
  · exact ((s.still_elapse _).trans (State.still_modCanvas _ slot _ fun c _ => c.alike_setRevoke p _)).keeps.trans
      (State.keeps_cutPort _ slot p)
  · exact .refl s

theorem State.closeOp_some (s : State) (n : Nat) (op : CloseOp) (h : s.closeOp n = some op) :
    ∃ c, s.canvas n = some c ∧ c.phase = .closing op := by
  unfold State.closeOp at h
  split at h
  · next op' hp =>
    cases h
    obtain ⟨c, hc, hph⟩ := Option.map_eq_some_iff.1 hp
    exact ⟨c, hc, hph⟩
  · cases h

theorem keeps_closeDeadlineExpiry (s t : State) (slot : Nat) (h : execCloseDeadlineExpiry slot s = .next t) : s.Keeps t := by
  refine State.keeps_unlessHeld h ?_
  split
  · next op ho =>
    obtain ⟨c, hc, hph⟩ := s.closeOp_some slot op ho
    split
    · next left _ =>
      refine ((s.still_elapse left).trans (State.still_modCanvas _ slot _ fun d hd => ?_)).keeps.trans
        (State.keeps_cutCanvas _ slot)
      refine d.alike_setClosing _ ?_
      rw [State.canvas, State.elapse_slot] at hd
      rw [State.canvas] at hc
      rw [Slot.elapse, hc, Option.map_some] at hd
      cases hd
      simp only [hph]
      rfl
    · exact .refl s
  · exact .refl s

theorem keeps_revokeEnd (s t : State) (slot : Nat) (p : Port) (h : execRevokeEnd slot p s = .next t) : s.Keeps t := by
  refine State.keeps_unlessHeld h ?_
  split
  · exact .refl s
  · next c hc =>
    split
    · next hd =>
      rw [Bool.and_eq_true] at hd
      exact ((s.onlyEnds_endRevoke slot p).still (s.tableKept_endRevoke_of_due slot p c hc hd.2)).keeps
    · exact .refl s

theorem keeps_closeEnd (s t : State) (slot : Nat) (h : execCloseEnd slot s = .next t) : s.Keeps t := by
  refine State.keeps_unlessHeld h ?_
  split
  · next op ho =>
    obtain ⟨c, hc, hd⟩ := Option.bind_eq_some_iff.1 ho
    exact (s.still_endClose_of_due slot op c hc hd).keeps
  · exact .refl s

end Sys2Proof.Machine

/-! SUPPORT. Jobs, queues and the resets, every command together, and the two step invariants. -/

namespace Sys2Proof.Machine

/-! ### Admission (R66 to R70) -/

theorem Job.mem_names (j : Job) (a : Handle) (h : a ∈ j.names) : a ∈ j.src.toList ++ j.dst.toList := by
  unfold Job.names at h
  split at h
  · next x y hs hd =>
    rw [hs, hd]
    split at h <;> simp_all
  all_goals simp_all

theorem Canvas.holds_of_allows (c : Canvas) (p : Port) (w : Bool) (h : c.allows p w = true) : c.Holds p := by
  unfold Canvas.allows at h
  rw [Bool.or_eq_true] at h
  refine h.imp (fun ho => by simpa using ho) fun hg => ?_
  cases hc : c.grantTo p with
  | none => simp [hc] at hg
  | some g => rfl

/-- A job that passes its checks names canvases the port may pin (R66). -/
theorem State.mayPin_of_checkJob (s : State) (p : Port) (j : Job) (h : s.checkJob p j = none) :
    ∀ a ∈ j.names, s.MayPin p a := by
  intro a ha
  unfold State.checkJob at h
  split at h
  · cases h
  · split at h
    · cases h
    · next hf =>
      have hc := List.findSome?_eq_none_iff.1 hf a (j.mem_names a ha)
      unfold State.checkCanvas at hc
      split at hc
      · cases hc
      · next c hl =>
        split at hc
        · cases hc
        · split at hc
          · cases hc
          · next hallow =>
            rw [Bool.not_eq_true, Bool.not_eq_false'] at hallow
            exact ⟨c, hl, c.holds_of_allows p _ hallow⟩

theorem State.mayPin_of_checkJobs (s : State) (p : Port) (i : Nat) (jobs : List (Job × Bool))
    (h : s.checkJobs p i jobs = none) : ∀ j ∈ jobs, ∀ a ∈ j.1.names, s.MayPin p a := by
  induction jobs generalizing i with
  | nil => intro j hj; cases hj
  | cons x rest ih =>
    rw [State.checkJobs] at h
    split at h
    · cases h
    · next hx =>
      intro j hj
      rcases List.mem_cons.1 hj with rfl | hj
      · exact s.mayPin_of_checkJob p _ hx
      · exact ih _ h j hj

/-- The entry of an admitted job (R69). -/
def PortBlock.withJob (b : PortBlock) (j : Job × Bool) : PortBlock :=
  { b with queue :=
    { b.queue with
      entries := b.queue.entries ++ [⟨b.queue.nextSeq, j.1, j.2, .queued false, j.1.names, 0⟩]
      nextSeq := nextJobSeq b.queue.nextSeq } }

theorem State.admitJob_eq (s : State) (p : Port) (j : Job × Bool) :
    s.admitJob p j = j.1.names.foldl (fun s a => s.pin p a) (s.modPort p fun b => b.withJob j) := rfl

theorem State.MayPin.modPort {s : State} {p : Port} {a : Handle} (h : s.MayPin p a) (q : Port) (f : PortBlock → PortBlock) :
    (s.modPort q f).MayPin p a := by
  obtain ⟨c, hl, hh⟩ := h
  exact ⟨c, by rw [State.lookup_modPort]; exact hl, hh⟩

theorem State.port_pins (s : State) (p q : Port) (hs : List Handle) :
    (hs.foldl (fun s a => s.pin p a) s).port q = s.port q := by
  induction hs generalizing s with
  | nil => rfl
  | cons a t ih => exact (ih _).trans (s.modCanvas_port _ _ q)

/-- One job is admitted, with its pins (R69). -/
theorem State.PinsKept.admitJob {s : State} (h : s.PinsKept) (p : Port) (j : Job × Bool)
    (hm : ∀ a ∈ j.1.names, s.MayPin p a) : (s.admitJob p j).PinsKept := by
  rw [← State.owes_nil _ p] at h ⊢
  obtain ⟨hs, ht⟩ := h
  rw [withPins_nil] at ht
  rw [State.admitJob_eq]
  have hport (q : Port) := State.port_pins (s.modPort p fun b => b.withJob j) p q j.1.names
  refine ⟨fun q e he => ?_, ?_⟩
  · rw [hport, State.port_modPort] at he
    split at he
    · rcases List.mem_append.1 he with he | he
      · exact hs q e he
      · rw [List.mem_singleton] at he
        subst he
        rfl
    · exact hs q e he
  · have hk : State.pinsHeld (j.1.names.foldl (fun s a => s.pin p a) (s.modPort p fun b => b.withJob j)) =
        withPins s.pinsHeld p j.1.names := by
      funext q a
      unfold State.pinsHeld withPins
      rw [hport, State.port_modPort]
      split
      · simp only [PortBlock.withJob, pinsIn, List.countP_append, List.countP_singleton, j.1.names_nodup.count,
          List.contains_iff_mem]
      · rfl
    rw [withPins_nil, hk]
    exact ((s.tableKept_modPort p _).exact _ ht).pins p _ fun a ha => (hm a ha).modPort p _

theorem State.MayPin.admitJob {s : State} {p : Port} {a : Handle} (h : s.MayPin p a) (j : Job × Bool) :
    (s.admitJob p j).MayPin p a := (h.modPort p _).pins _

theorem State.records_admitJob (s : State) (p : Port) (j : Job × Bool) : s.RecordsKept (s.admitJob p j) :=
  (s.tableKept_modPort p _).records.trans (State.records_pins _ p _)

theorem State.PinsKept.takeJobs {s : State} (h : s.PinsKept) (p : Port) (jobs : List (Job × Bool))
    (hm : ∀ j ∈ jobs, ∀ a ∈ j.1.names, s.MayPin p a) : (jobs.foldl (State.admitJob p) s).PinsKept := by
  induction jobs generalizing s with
  | nil => exact h
  | cons x t ih =>
    exact ih (h.admitJob p x (hm x (List.mem_cons_self ..))) fun j hj a ha =>
      (hm j (List.mem_cons_of_mem _ hj) a ha).admitJob x

theorem State.records_admitJobs (s : State) (p : Port) (jobs : List (Job × Bool)) :
    s.RecordsKept (jobs.foldl (State.admitJob p) s) := by
  induction jobs generalizing s with
  | nil => exact .refl s
  | cons x t ih => exact (s.records_admitJob p x).trans (ih _)

theorem keeps_submit (s t : State) (p : Port) (h : execSubmit p s = .next t) : s.Keeps t := by
  refine State.keeps_process h fun payload v => ?_
  split
  · exact v.keeps_reply p payload _ _
  · split
    · exact v.keeps_reply p payload _ _
    · next jobs _ =>
      split
      · exact v.keeps_reply p payload _ _
      · next hcheck =>
        split
        · exact v.keeps_reply p payload _ _
        · have hm := v.mayPin_of_checkJobs p 1 jobs hcheck
          refine State.Keeps.trans ⟨v.records_admitJobs p jobs, fun hp => hp.takeJobs p jobs hm⟩ ?_
          exact ((State.still_modPort _ p _ (PortBlock.samePins_of_entries (by simp))).trans
            (State.still_reply _ p payload _ _)).keeps

/-! ### The host's controls of its queue (R80 to R85) -/

theorem PortBlock.samePins_takeHalt (payload : List Byte) (b : PortBlock) : b.SamePins (b.takeHalt payload) := by
  unfold PortBlock.takeHalt
  dsimp only
  split
  · split
    · exact PortBlock.samePins_of_entries rfl
    · exact b.samePins_unwait.trans (PortBlock.samePins_of_entries (by simp))
  · exact PortBlock.samePins_of_entries rfl
  · exact PortBlock.samePins_of_entries rfl
  · exact .refl b

theorem keeps_halt (s t : State) (p : Port) (h : execHalt p s = .next t) : s.Keeps t := by
  refine State.keeps_process h fun payload v => ?_
  split
  · exact v.keeps_refuse p payload _
  · exact (v.still_modPort p _ (PortBlock.samePins_takeHalt payload _)).keeps

theorem PortBlock.takeResume_entries (payload : List Byte) (b : PortBlock) :
    (b.takeResume payload).queue.entries = b.queue.entries := by
  unfold PortBlock.takeResume
  dsimp only
  rw [PortBlock.reply_queue]
  split <;> simp

theorem keeps_resume (s t : State) (p : Port) (h : execResume p s = .next t) : s.Keeps t := by
  refine State.keeps_process h fun payload v => ?_
  split
  · exact v.keeps_refuse p payload _
  · exact (v.still_modPort p _ (PortBlock.samePins_of_entries (PortBlock.takeResume_entries payload _))).keeps

/-- The entries a CANCEL leaves: those it does not name, and a named ACTIVE one with the cancel cause (R84, R85). -/
theorem PortBlock.cancelEntries_entries (b : PortBlock) (target : Nat) :
    (b.cancelEntries target).queue.entries =
      (b.queue.entries.filter fun e => !b.queue.cancelNames target e || e.isActive).map fun e =>
        if b.queue.cancelNames target e then e.cancelCause else e := by
  unfold PortBlock.cancelEntries
  dsimp only
  rw [PortBlock.refreshStaging_queue]
  split <;> rfl

/-- A CANCEL lets go of the pins of the entries it removes (R84). -/
theorem PortBlock.letsGo_cancelEntries (b : PortBlock) (target : Nat) : b.LetsGo (b.cancelEntries target)
    (((b.queue.entries.filter (b.queue.cancelNames target)).filter fun e => !e.isActive).flatMap Entry.pins) := by
  have h := PortBlock.letsGo_filter (b := b) (d := b.cancelEntries target)
    (fun e => !b.queue.cancelNames target e || e.isActive) ?_
  · rw [List.filter_filter]
    convert h using 4
    rw [Bool.not_or, Bool.not_not, Bool.and_comm]
  · rw [PortBlock.cancelEntries_entries, List.map_map]
    refine List.map_congr_left fun e _ => ?_
    simp only [Function.comp]
    split
    · exact e.pinView_cancelCause
    · rfl

theorem keeps_cancel (s t : State) (p : Port) (h : execCancel p s = .next t) : s.Keeps t := by
  refine State.keeps_process h fun payload v => ?_
  split
  · exact v.keeps_refuse p payload _
  · dsimp only
    split
    · exact v.keeps_refuse p payload _
    · refine State.Keeps.trans ?_ (State.still_settleAll _ p _).keeps
      have hdrop := v.keeps_letGo_drop p (fun b => b.cancelEntries (num16 payload 4)) id _
        (PortBlock.letsGo_cancelEntries (v.port p) (num16 payload 4)) fun u => .refl u
      split
      · exact hdrop.trans ((State.still_modPort _ p _
          (PortBlock.samePins_of_entries (by simp [PortBlock.addCancelWaiter]))).trans (State.still_defer _ p payload)).keeps
      · exact hdrop.trans (State.keeps_reply _ p payload _ _)

/-! ### Reports (R136 to R145) and write data (R120) -/

theorem keeps_status (s t : State) (p : Port) (h : execStatus p s = .next t) : s.Keeps t := by
  refine State.keeps_process h fun payload v => ?_
  split
  · exact v.keeps_refuse p payload _
  · split
    · exact v.keeps_refuse p payload _
    · split
      · exact v.keeps_refuse p payload _
      · refine State.Keeps.trans ?_ (State.keeps_reply _ p payload _ _)
        split
        · exact (v.still_modPort p _ (PortBlock.samePins_of_entries rfl)).keeps
        · exact .refl v

theorem keeps_faultRead (s t : State) (p : Port) (h : execFaultRead p s = .next t) : s.Keeps t := by
  refine State.keeps_process h fun payload v => ?_
  dsimp only
  split
  · exact v.keeps_refuse p payload _
  · split
    · exact v.keeps_reply p payload _ _
    · split
      · exact v.keeps_refuse p payload _
      · split
        · exact v.keeps_refuse p payload _
        · exact v.keeps_reply p payload _ _

theorem State.still_faultLog (s : State) (l : FaultLog) : s.Still { s with faultLog := l } := s.still_of_eq _ rfl rfl rfl

theorem keeps_faultAck (s t : State) (p : Port) (h : execFaultAck p s = .next t) : s.Keeps t := by
  refine State.keeps_process h fun payload v => ?_
  split
  · exact v.keeps_refuse p payload _
  · exact ((v.still_faultLog _).trans (State.still_reply _ p payload _ _)).keeps

theorem keeps_attnClear (s t : State) (p : Port) (h : execAttnClear p s = .next t) : s.Keeps t := by
  refine State.keeps_process h fun payload v => ?_
  split
  · exact v.keeps_refuse p payload _
  · split
    · exact v.keeps_refuse p payload _
    · exact ((v.still_modPort p _ (PortBlock.samePins_of_entries rfl)).trans (State.still_reply _ p payload _ _)).keeps

theorem keeps_attentionFramePlaced (s t : State) (p : Port) (h : execAttentionFramePlaced p s = .next t) : s.Keeps t :=
  State.keeps_unlessHeld h (s.still_modPort p _ (PortBlock.samePins_of_entries (by simp))).keeps

theorem PortBlock.samePins_appendData (payload : List Byte) (seq : Nat) (b : PortBlock) :
    b.SamePins (b.appendData payload seq) := by
  refine PortBlock.samePins_map
    (fun e => if e.seq = seq then { e with received := e.received + (datData payload).length } else e) (fun e => ?_) rfl
  split <;> rfl

theorem keeps_datFrame (s t : State) (p : Port) (h : execDatFrame p s = .next t) : s.Keeps t := by
  refine State.keeps_process h fun payload v => ?_
  unfold State.takeData
  have hu : v.Still (v.modPort p (PortBlock.unpromise payload)) :=
    v.still_modPort p _ (PortBlock.samePins_of_entries (by simp))
  dsimp only
  split
  · exact (hu.trans (State.still_modPort _ p _ (PortBlock.samePins_appendData payload _ _))).keeps
  · exact (hu.trans (State.still_modPort _ p _ (PortBlock.samePins_of_entries (by simp)))).keeps

/-! ### The engine and the store (R26, R91, R103 to R126) -/

theorem keeps_claimGrant (s t : State) (p : Port) (h : execClaimGrant p s = .next t) : s.Keeps t :=
  State.keeps_unlessHeld h (s.still_tryGrant p).keeps

theorem State.still_chooseSpan (s : State) : s.Still s.chooseSpan := by
  unfold State.chooseSpan
  split
  · exact .refl s
  · next p _ =>
    exact (s.still_of_eq { s with engine := ⟨some ⟨p, (s.port p).spanData⟩, p⟩ } rfl rfl rfl).trans
      (State.still_modPort _ p _ (PortBlock.samePins_of_entries (by simp)))

theorem keeps_spanBegin (s t : State) (h : execSpanBegin s = .next t) : s.Keeps t := by
  refine State.keeps_unlessHeld h ?_
  split
  · exact .refl s
  · exact s.still_chooseSpan.keeps

theorem keeps_storeAccessBegin (s t : State) (h : execStoreAccessBegin s = .next t) : s.Keeps t := by
  refine State.keeps_unlessHeld h ?_
  split
  · exact .refl s
  · split
    · exact .refl s
    · next a r _ => exact (s.still_of_eq { s with arbiter := ⟨some a, r⟩ } rfl rfl rfl).keeps

theorem State.still_endAccess (s : State) (m : Store) : s.Still { s.endAccess with store := m } :=
  s.still_of_eq _ rfl rfl rfl

theorem keeps_spanComplete (s t : State) (corrected : List Nat) (h : execSpanComplete corrected s = .next t) : s.Keeps t := by
  unfold execSpanComplete at h
  split at h
  · next x r _ _ =>
    split at h
    · cases h
    · split at h
      · cases h; exact .refl s
      · cases h
        exact (((s.still_endAccess _).trans (State.still_modPort _ x.port _ (PortBlock.samePins_of_entries rfl))).trans
          (State.still_chooseSpan _)).keeps
  · cases h; exact .refl s

theorem keeps_spanUncorrectable (s t : State) (word : Nat) (h : execSpanUncorrectable word s = .next t) : s.Keeps t := by
  unfold execSpanUncorrectable at h
  split at h
  · next x r _ _ =>
    split at h
    · cases h
    · split at h
      · cases h
        exact (((s.still_endAccess _).trans (State.still_modPort _ x.port _ (PortBlock.samePins_of_entries rfl))).trans
          (State.still_chooseSpan _)).keeps
      · cases h; exact .refl s
  · cases h; exact .refl s

theorem State.keeps_streamExpiry (s : State) (p : Port) (job : JobKind) (kind : FaultKind) :
    s.Keeps (s.streamExpiry p job kind) := by
  unfold State.streamExpiry
  split
  · exact .refl s
  · split
    · exact ((s.still_elapse _).trans (State.still_modPort _ p _ (PortBlock.samePins_of_entries (by simp)))).keeps
    · exact .refl s

/-! ### The completion of a port reset, OPEN, and all commands -/

theorem records_portResetComplete (s t : State) (p : Port) (h : execPortResetComplete p s = .next t) : s.RecordsKept t := by
  unfold execPortResetComplete State.unlessHeld at h
  cases h
  split
  · exact .refl s
  · unfold State.tryComplete
    split
    · exact .refl s
    · split
      · exact s.records_of_slots _ rfl
      · exact .refl s

theorem keeps_portResetComplete (s t : State) (p : Port) (hs : (s.port p).StoppedEmpty)
    (h : execPortResetComplete p s = .next t) : s.Keeps t :=
  State.keeps_unlessHeld h (s.still_tryComplete p hs).keeps

/-- An OPEN keeps records and pins, or opens a canvas in the lowest FREE slot (R11 to R14). -/
theorem execOpenCanvas_cases (s t : State) (p : Port) (h : execOpenCanvas p s = .next t) :
    s.Keeps t ∨ ∃ (rest : List InFrame) (payload : List Byte) (a : OpenAsk) (n f : Nat),
      (s.setPort p ((s.port p).took rest)).freeSlot = some n ∧
      t = ((s.setPort p ((s.port p).took rest)).takeOpen p (reqId payload) a n f).defer p payload := by
  unfold execOpenCanvas State.process State.unlessHeld at h
  cases h
  split
  · exact .inl (.refl s)
  · split
    · exact .inl (.refl s)
    · next payload v hv =>
      obtain ⟨rest, rfl⟩ := State.takeFrame_some hv
      have hr (st : Status) : s.Keeps ((s.setPort p ((s.port p).took rest)).refuse p payload st) :=
        (s.still_took p rest).keeps.trans (State.keeps_refuse _ p payload st)
      dsimp only
      split
      · exact .inl (hr _)
      · next a _ =>
        split
        · exact .inl (hr _)
        · split
          · exact .inl (hr _)
          · split
            · next n f hn _ => exact .inr ⟨rest, payload, a, n, f, hn, rfl⟩
            · exact .inl (hr _)

theorem State.takeOpen_queue (s : State) (p q : Port) (id : ReqId) (a : OpenAsk) (n f : Nat) :
    ((s.takeOpen p id a n f).port q).queue = (s.port q).queue := by
  unfold State.takeOpen
  dsimp only
  rw [State.port_modPort]
  have h : ((s.setCanvas n (a.record p id f)).port q).queue = (s.port q).queue := by rw [State.setCanvas_port]
  split <;> exact h

/-- An OPEN keeps every pin accounted for (R14). -/
theorem State.PinsKept.takeOpen {s : State} (h : s.PinsKept) (p : Port) (id : ReqId) (a : OpenAsk) (n f : Nat)
    (hn : s.freeSlot = some n) : (s.takeOpen p id a n f).PinsKept := by
  rw [← State.owes_nil _ p] at h ⊢
  obtain ⟨⟨h1, h2⟩, hc, _⟩ := (s.freeSlot_eq_some n).1 hn
  refine ⟨fun q e he => h.sound q e (by rwa [State.takeOpen_queue] at he), ?_⟩
  rw [withPins_nil, s.pinsHeld_congr _ fun q => PortBlock.samePins_of_entries (by rw [State.takeOpen_queue])]
  have ht := h.table
  rw [withPins_nil] at ht
  exact ht.takeOpen p id a n f h1 h2 hc

theorem pinsKept_openCanvas (s t : State) (p : Port) (h : execOpenCanvas p s = .next t) (hs : s.PinsKept) : t.PinsKept := by
  obtain hk | ⟨rest, payload, a, n, f, hn, rfl⟩ := execOpenCanvas_cases s t p h
  · exact hk.pins hs
  · exact (State.still_defer _ p payload).keeps.pins
      (((s.still_took p rest).keeps.pins hs).takeOpen p (reqId payload) a n f hn)

/-- The commands that reset the part, that open a canvas, or that keep the pins only of a queue that has stopped. -/
inductive ResetsOrOpens : Instr → Prop
  | powerOn : ResetsOrOpens .powerOn
  | resetPinAssert : ResetsOrOpens .resetPinAssert
  | resetPinRelease : ResetsOrOpens .resetPinRelease
  | portResetComplete (p : Port) : ResetsOrOpens (.portResetComplete p)
  | openCanvas (p : Port) : ResetsOrOpens (.openCanvas p)

/-- Every other command keeps records and pins. -/
theorem exec_resetsOrOpens_or_keeps (c : Instr) (s t : State) (h : exec c s = .next t) : ResetsOrOpens c ∨ s.Keeps t := by
  cases c with
  | powerOn => exact .inl .powerOn
  | resetPinAssert => exact .inl .resetPinAssert
  | resetPinRelease => exact .inl .resetPinRelease
  | frameLengthError p bytes => exact .inr (keeps_frameLengthError s t p bytes h)
  | crcError p bytes => exact .inr (keeps_crcError s t p bytes h)
  | unknownClassFrame p bytes => exact .inr (keeps_unknownClassFrame s t p bytes h)
  | reqDatFrameReceived p bytes => exact .inr (keeps_reqDatFrameReceived s t p bytes h)
  | ackFrameReceived p bytes => exact .inr (keeps_ackFrameReceived s t p bytes h)
  | helloFrameReceived p bytes => exact .inr (keeps_helloFrameReceived s t p bytes h)
  | frameTransmit p => exact .inr (keeps_frameTransmit s t p h)
  | resendTimerExpiry p => exact .inr (keeps_resendTimerExpiry s t p h)
  | helloFresh p => exact .inr (keeps_helloFresh s t p h)
  | helloResume p => exact .inr (keeps_helloResume s t p h)
  | unknownKind p => exact .inr (keeps_unknownKind s t p h)
  | portSetEnable p => exact .inr (keeps_portSetEnable s t p h)
  | portSetDisable p => exact .inr (keeps_portSetDisable s t p h)
  | config p => exact .inr (keeps_config s t p h)
  | resetPort p => exact .inr (keeps_resetPort s t p h)
  | portResetComplete p => exact .inl (.portResetComplete p)
  | resetDevice p => exact .inr (keeps_resetDevice s t p h)
  | openCanvas p => exact .inl (.openCanvas p)
  | closeCanvas p => exact .inr (keeps_closeCanvas s t p h)
  | query p => exact .inr (keeps_query s t p h)
  | list p => exact .inr (keeps_list s t p h)
  | grant p => exact .inr (keeps_grant s t p h)
  | revoke p => exact .inr (keeps_revoke s t p h)
  | submit p => exact .inr (keeps_submit s t p h)
  | cancel p => exact .inr (keeps_cancel s t p h)
  | halt p => exact .inr (keeps_halt s t p h)
  | resume p => exact .inr (keeps_resume s t p h)
  | status p => exact .inr (keeps_status s t p h)
  | faultRead p => exact .inr (keeps_faultRead s t p h)
  | faultAck p => exact .inr (keeps_faultAck s t p h)
  | attnClear p => exact .inr (keeps_attnClear s t p h)
  | datFrame p => exact .inr (keeps_datFrame s t p h)
  | jobDispatch p => exact .inr (keeps_jobDispatch s t p h)
  | claimGrant p => exact .inr (keeps_claimGrant s t p h)
  | waitTimerExpiry p => exact .inr (keeps_waitTimerExpiry s t p h)
  | spanBegin => exact .inr (keeps_spanBegin s t h)
  | storeAccessBegin => exact .inr (keeps_storeAccessBegin s t h)
  | spanComplete corrected => exact .inr (keeps_spanComplete s t corrected h)
  | spanUncorrectable word => exact .inr (keeps_spanUncorrectable s t word h)
  | dataTimeoutExpiry p => exact .inr (State.keeps_unlessHeld h (s.keeps_streamExpiry p _ _))
  | readStallExpiry p => exact .inr (State.keeps_unlessHeld h (s.keeps_streamExpiry p _ _))
  | jobEnd p => exact .inr (keeps_jobEnd s t p h)
  | attentionFramePlaced p => exact .inr (keeps_attentionFramePlaced s t p h)
  | revokeDeadlineExpiry slot p => exact .inr (keeps_revokeDeadlineExpiry s t slot p h)
  | closeDeadlineExpiry slot => exact .inr (keeps_closeDeadlineExpiry s t slot h)
  | revokeEnd slot p => exact .inr (keeps_revokeEnd s t slot p h)
  | closeEnd slot => exact .inr (keeps_closeEnd s t slot h)
  | blockCleared => exact .inr (keeps_blockCleared s t h)

/-! ### What a step does -/

theorem State.still_idle (s : State) : s.Still s.idle := by
  unfold State.idle
  split
  · exact .refl s
  · exact s.still_elapse 1

/-- A step idles, or carries out the front command on the state with the rest of the queue. -/
theorem step_cases (s t : State) (h : step s = .next t) :
    s.pending = [] ∧ t = s.idle ∨ ∃ c rest, s.pending = c :: rest ∧ exec c { s with pending := rest } = .next t := by
  unfold step at h
  split at h
  · next hp => cases h; exact .inl ⟨hp, rfl⟩
  · next c rest hp => exact .inr ⟨c, rest, hp, h⟩

theorem State.still_pending (s : State) (rest : List Instr) : s.Still { s with pending := rest } :=
  s.still_of_eq _ rfl rfl rfl

theorem pinsKept_exec (c : Instr) (s t : State) (hs : s.PinsKept) (hq : ∀ p, (s.port p).StoppedEmpty)
    (h : exec c s = .next t) : t.PinsKept := by
  obtain hc | hk := exec_resetsOrOpens_or_keeps c s t h
  · cases hc with
    | powerOn => cases h; exact s.pinsKept_powerOnValues _
    | resetPinAssert => cases h; exact s.pinsKept_powerOnValues _
    | resetPinRelease =>
      cases h
      split
      · exact s.pinsKept_powerOnValues _
      · exact hs
    | portResetComplete p => exact (keeps_portResetComplete s t p (hq p) h).pins hs
    | openCanvas p => exact pinsKept_openCanvas s t p h hs
  · exact hk.pins hs

theorem PortState.resetOp_some (st : PortState) (op : ResetOp) (h : st.resetOp = some op) : st = .resetting op := by
  cases st with
  | resetting op' => cases h; rfl
  | disabled => cases h
  | unsynced => cases h
  | up => cases h
  | lost => cases h

/-- Settles O57: every command keeps the pins accounted for, and so does the idle step. -/
theorem pinsStayExact : Obligations.PinsStayExact := by
  intro s t hp hl hq h
  have hs : s.PinsKept := ⟨hp, hl⟩
  obtain ⟨_, rfl⟩ | ⟨c, rest, _, he⟩ := step_cases s t h
  · exact s.still_idle.keeps.pins hs
  · refine pinsKept_exec c _ t ((s.still_pending rest).keeps.pins hs) (fun p op ho => ?_) he
    exact (hq p op (PortState.resetOp_some _ op ho)).2

/-- What R7 and R2 say of a slot in one step. -/
def Slot.Fixed (x y : Slot) : Prop :=
  (x.canvas = none → y.generation = x.generation) ∧
  ∀ c, x.canvas = some c →
    (y.canvas = none ∧ y.generation = nextGeneration x.generation) ∨
    ∃ d, y.canvas = some d ∧ y.generation = x.generation ∧ c.SameRecord d

theorem Slot.Kept.fixed {x y : Slot} (h : x.Kept y) : x.Fixed y := by
  cases h with
  | free hx hy hg => exact ⟨fun _ => hg, fun c hc => by rw [hx] at hc; cases hc⟩
  | held c d hx hy hr hg =>
    refine ⟨fun hn => absurd (hx.symm.trans hn) (Option.some_ne_none _), fun c' hc' => .inr ⟨d, hy, hg, ?_⟩⟩
    rw [hx] at hc'; cases hc'
    exact hr
  | freed c hx hy =>
    subst hy
    exact ⟨fun hn => absurd (hx.symm.trans hn) (Option.some_ne_none _), fun _ _ => .inl ⟨rfl, rfl⟩⟩

theorem fixed_openCanvas (s t : State) (p : Port) (n : Nat) (h : execOpenCanvas p s = .next t) :
    (s.slot n).Fixed (t.slot n) := by
  obtain hk | ⟨rest, payload, a, m, f, hm, rfl⟩ := execOpenCanvas_cases s t p h
  · exact (hk.records n).fixed
  · obtain ⟨⟨h1, h2⟩, hc, _⟩ := (State.freeSlot_eq_some _ m).1 hm
    rw [State.defer, State.modPort_slot]
    by_cases hn : n = m
    · subst hn
      rw [State.takeOpen_slot_same _ _ _ _ _ _ h1 h2, State.setPort_slot]
      rw [State.setPort_canvas] at hc
      exact ⟨fun _ => rfl, fun c hs => by rw [← State.canvas, hc] at hs; cases hs⟩
    · rw [State.takeOpen_slot_ne _ _ _ _ _ _ _ hn, State.setPort_slot]
      exact (Slot.Kept.refl _).fixed

/-- Settles O59: a command resets, opens one canvas, or keeps the records of the table. -/
theorem recordsAreFixedUntilRelease : Obligations.RecordsAreFixedUntilRelease := by
  intro s t n h1 h2 h3 h
  suffices hf : (s.slot n).Fixed (t.slot n) from hf
  obtain ⟨_, rfl⟩ | ⟨c, rest, hp, he⟩ := step_cases s t h
  · exact (s.still_idle.table.records n).fixed
  · rw [hp] at h1 h2 h3
    have hs : (s.slot n).Kept (State.slot { s with pending := rest } n) := (s.still_pending rest).table.records n
    have hslot : State.slot { s with pending := rest } n = s.slot n := by cases n <;> rfl
    obtain hc | hk := exec_resetsOrOpens_or_keeps c _ t he
    · cases hc with
      | powerOn => exact absurd rfl h1
      | resetPinAssert => exact absurd rfl h2
      | resetPinRelease => exact absurd rfl h3
      | portResetComplete p => exact (hs.trans (records_portResetComplete _ t p he n)).fixed
      | openCanvas p => exact hslot ▸ fixed_openCanvas _ t p n he
    · exact (hs.trans (hk.records n)).fixed

end Sys2Proof.Machine

/-! SUPPORT. The free block map, and the statements on sizes, releases, OPEN and the state after reset. -/

namespace Sys2Proof.Machine

/-! ### The free block map (R28 to R30) -/

theorem runMask_getLsbD (f n i : Nat) (hi : i < 4096) : (runMask f n).getLsbD i = decide (f ≤ i ∧ i < f + n) := by
  unfold runMask
  rw [BitVec.getLsbD_ofNat, Nat.testBit_mul_two_pow, Nat.testBit_two_pow_sub_one]
  simp only [hi, decide_true, Bool.true_and, ← Bool.decide_and, decide_eq_decide]
  omega

theorem freeRun_getLsbD (a : BitVec 4096) (f n i : Nat) (hi : i < 4096) :
    (freeRun a f n).getLsbD i = (a.getLsbD i && !decide (f ≤ i ∧ i < f + n)) := by
  rw [freeRun, BitVec.getLsbD_and, BitVec.getLsbD_not, runMask_getLsbD f n i hi]
  simp [hi]

theorem allocateRun_getLsbD (a : BitVec 4096) (f n i : Nat) (hi : i < 4096) :
    (allocateRun a f n).getLsbD i = (a.getLsbD i || decide (f ≤ i ∧ i < f + n)) := by
  rw [allocateRun, BitVec.getLsbD_or, runMask_getLsbD f n i hi]

/-- A run is free when its blocks exist and none of them is allocated (R29). -/
theorem runFree_iff (a : BitVec 4096) (f n : Nat) :
    runFree a f n = true ↔ f + n ≤ 4096 ∧ ∀ b, f ≤ b → b < f + n → a.getLsbD b = false := by
  unfold runFree
  rw [Bool.and_eq_true, decide_eq_true_eq, beq_iff_eq]
  refine and_congr_right fun hf => ⟨fun h b h1 h2 => ?_, fun h => BitVec.eq_of_getLsbD_eq fun i hi => ?_⟩
  · have hb : b < 4096 := by have : Config.blocks = 4096 := rfl; omega
    have := congrArg (fun x => x.getLsbD b) h
    simpa [runMask_getLsbD f n b hb, h1, h2] using this
  · change _ = (0#4096).getLsbD i
    rw [BitVec.getLsbD_and, runMask_getLsbD f n i hi, BitVec.getLsbD_zero]
    by_cases hr : f ≤ i ∧ i < f + n
    · simp [h i hr.1 hr.2]
    · simp [hr]

theorem firstFitFrom_eq_some (a : BitVec 4096) (n k f g : Nat) : firstFitFrom a n k f = some g ↔
    (f ≤ g ∧ g < f + k) ∧ runFree a g n = true ∧ ∀ j, f ≤ j → j < g → runFree a j n = false := by
  induction k generalizing f with
  | zero =>
    rw [firstFitFrom]
    refine ⟨nofun, ?_⟩
    rintro ⟨h, _⟩
    omega
  | succ k ih =>
    rw [firstFitFrom]
    split
    · next hf =>
      constructor
      · rintro ⟨rfl⟩
        exact ⟨by omega, hf, fun j h1 h2 => by omega⟩
      · rintro ⟨h1, _, h3⟩
        by_cases hfg : f = g
        · rw [hfg]
        · rw [h3 f (Nat.le_refl f) (by omega)] at hf
          cases hf
    · next hf =>
      rw [ih, Bool.not_eq_true] at *
      constructor
      · rintro ⟨h1, h2, h3⟩
        refine ⟨by omega, h2, fun j h4 h5 => ?_⟩
        by_cases hj : j = f
        · rw [hj]; exact hf
        · exact h3 j (by omega) h5
      · rintro ⟨h1, h2, h3⟩
        have hfg : f ≠ g := by
          rintro rfl
          rw [hf] at h2; cases h2
        exact ⟨by omega, h2, fun j h4 h5 => h3 j (by omega) h5⟩

/-- First fit finds the lowest place where the run is free (R29). -/
theorem firstFit_eq_some (a : BitVec 4096) (n g : Nat) : firstFit a n = some g ↔
    g < 4096 ∧ runFree a g n = true ∧ ∀ j, j < g → runFree a j n = false := by
  unfold firstFit
  rw [firstFitFrom_eq_some]
  simp [Config.blocks]

/-! ### Sizes (R5) -/

theorem ceil_bounds (x k : Nat) (hk : 0 < k) : x ≤ k * ((x + (k - 1)) / k) ∧ k * ((x + (k - 1)) / k) < x + k := by
  have h1 := Nat.div_add_mod (x + (k - 1)) k
  have h2 := Nat.mod_lt (x + (k - 1)) hk
  omega

/-- Settles O21, by the bounds of a division rounded up. -/
theorem canvasSizes : Obligations.CanvasSizes := by
  refine ⟨fun f w h h1 h2 => ?_, fun g y => ⟨?_, ?_⟩, by decide, by decide⟩
  · have hb : 1 ≤ f.bits ∧ f.bits ≤ 32 := by cases f <;> decide
    have hw1 : 1 ≤ w * f.bits := Nat.mul_le_mul h1 hb.1
    have hw2 : w * f.bits ≤ 4096 * 32 := Nat.mul_le_mul h2 hb.2
    have hr := ceil_bounds (w * f.bits) 8 (by decide)
    have hp := ceil_bounds (f.rowBytes w) 64 (by decide)
    have hk := ceil_bounds (f.pitch w * h) 4096 (by decide)
    simp only [Format.rowBytes, Format.pitch, Format.blockCount] at *
    omega
  · simp [Geo.rowBase, Config.blockBytes]
  · simp only [Geo.rowBase, Nat.add_mul]; omega

/-! ### Release (R10) -/

/-- Settles O25, by the one form of a release of a canvas that stands. -/
theorem releaseFreesTheSlot : Obligations.ReleaseFreesTheSlot := by
  intro s n c hc
  have hr := s.release_eq n c hc
  refine ⟨?_, s.slot_release_same n c hc, fun m hm => s.slot_release_ne n m hm, fun x hx => ?_⟩
  · have hp : (s.release n).ports = s.ports.set c.owner { s.port c.owner with
        canvasesHeld := (s.port c.owner).canvasesHeld - 1
        blocksHeld := (s.port c.owner).blocksHeld - c.blockCount } := by
      rw [hr, State.setSlot_ports]; rfl
    rw [← hp]
    exact (s.onlyEnds_release n).1
  · rw [hr, State.setSlot_allocated]
    exact freeRun_getLsbD s.allocated c.firstBlock c.blockCount x hx

/-! ### The state after reset -/

/-- Settles O60: no canvas, grant or pin stands after reset, and every port is at its reset. -/
theorem resetMeetsEveryInvariant : Obligations.ResetMeetsEveryInvariant := by
  have hc (n : Nat) : State.reset.canvas n = none := State.reset_canvas n
  have hcan (n : Nat) (c : Canvas) (P : Prop) (h : State.reset.canvas n = some c) : P := by rw [hc n] at h; cases h
  have hp (p : Port) : State.reset.port p = PortBlock.reset := State.reset_port p
  have hpins := State.pinsKept_of_fresh State.reset (fun p => by rw [hp]; rfl) hc rfl
  have hruns (p : Port) : State.reset.runsOf p = [] := by
    unfold State.runsOf
    rw [List.filterMap_eq_nil_iff]
    intro n _
    rw [hc n]; rfl
  refine ⟨State.reset_store_wf, ?_, fun p => ?_, fun p => ?_, fun p => ?_, fun p => ?_, fun p q _ a ha => ?_,
    fun n c h => hcan n c _ h, fun p => ?_, ⟨fun b => ?_, fun n c h => hcan n c _ h, fun n m c d b h => hcan n c _ h⟩,
    hpins.1, hpins.2, ⟨List.nodup_nil, fun i => ?_⟩, fun p h => ?_, fun n h1 h2 => ?_, fun n c h => hcan n c _ h,
    fun p op h => ?_⟩
  · have h0 : State.reset.store.checks = [] := rfl
    intro c h
    rw [h0] at h; cases h
  · rw [hp]; decide
  · rw [hp]; decide
  · rw [hp]; decide
  · rw [hp]; exact ⟨by decide, fun e he => by cases he⟩
  · rw [hp] at ha; cases ha
  · rw [hruns, hp]; decide
  · constructor
    · intro h
      have h0 : State.reset.allocated = 0 := rfl
      rw [h0] at h
      simp at h
    · rintro ⟨n, c, h, _⟩
      exact hcan n c _ h
  · have h0 : State.reset.faultLog.arrival = [] := rfl
    have h1 : State.reset.faultLog.record i = none := by
      by_cases hi : i < 12 <;> simp [FaultLog.record, State.reset, FaultLog.reset, hi]
    rw [h0, h1]
    simp
  · rw [hp] at h; cases h
  · rw [State.reset_slot n h1 h2]; decide
  · rw [hp] at h; cases h

end Sys2Proof.Machine

/-! SUPPORT. OPEN (R11 to R14): what its checks say of the request and of the part, and what a taken OPEN changes. -/

namespace Sys2Proof.Machine

/-- What an OPEN of an allowed length asks, by its format (R11, R187). -/
def openAsk (payload : List Byte) (f : Format) : OpenAsk :=
  ⟨num16 payload 4, num16 payload 6, f, BitVec.ofNat 32 (num32 payload 10), BitVec.ofNat 32 (num32 payload 14)⟩

theorem parseOpen_of_length (payload : List Byte) (h : payload.length ∈ [10, 14, 18]) :
    parseOpen payload = (Format.ofCode (num8 payload 8)).map (openAsk payload) := by
  have hl : ReqKind.openCanvas.lengthOk payload.length = true := by
    simpa [ReqKind.lengthOk, or_assoc] using h
  unfold parseOpen
  rw [hl]
  rfl

theorem Format.ofCode_eq_none (n : Nat) (h : n ∉ [1, 2, 3, 4]) : Format.ofCode n = none := by
  unfold Format.ofCode
  split <;> simp_all

theorem OpenAsk.inBounds_iff (a : OpenAsk) :
    a.inBounds = true ↔ 1 ≤ a.width ∧ a.width ≤ 4096 ∧ 1 ≤ a.height ∧ a.height ≤ 4096 := by
  simp [OpenAsk.inBounds, and_assoc]

theorem PortBlock.quotaAllows_iff (b : PortBlock) (k : Nat) :
    b.quotaAllows k = true ↔ b.canvasesHeld < b.canvasQuota ∧ b.blocksHeld + k ≤ b.blockQuota ∧ k ≤ 4096 := by
  simp only [PortBlock.quotaAllows, Bool.and_eq_true, decide_eq_true_eq, and_assoc]
  rfl

/-- What an OPEN taken from the inbound buffer makes of the state (R11 to R14). -/
def State.openResponse (v : State) (p : Port) (payload : List Byte) : State :=
  match parseOpen payload with
  | none => v.refuse p payload .malformed
  | some a =>
    if !a.inBounds then v.refuse p payload .bounds
    else if !(v.port p).quotaAllows a.blocks then v.refuse p payload .quota
    else
      match v.freeSlot, firstFit v.allocated a.blocks with
      | some n, some f => (v.takeOpen p (reqId payload) a n f).defer p payload
      | _, _ => v.refuse p payload .noSpace

/-- The OPEN that stands at the front of the inbound buffer is processed (R181). -/
theorem exec_openCanvas (s : State) (p : Port) (payload : List Byte) (rest : List InFrame)
    (ho : s.Oldest p .req payload rest) (hr : IsRequest payload 0x10) :
    exec (.openCanvas p) s = .next ((s.setPort p ((s.port p).took rest)).openResponse p payload) :=
  s.process_of_oldest p .req payload rest _ _ ho (InFrame.row_request payload .openCanvas hr nofun nofun)

section
variable {v : State} {p : Port} {payload : List Byte} {f : Format} (hp : parseOpen payload = some (openAsk payload f))
include hp

theorem State.openResponse_bounds (hb : (openAsk payload f).inBounds ≠ true) :
    v.openResponse p payload = v.refuse p payload .bounds := by
  rw [ne_eq, Bool.not_eq_true] at hb
  simp [State.openResponse, hp, hb]

theorem State.openResponse_quota (hb : (openAsk payload f).inBounds = true)
    (hq : (v.port p).quotaAllows (openAsk payload f).blocks ≠ true) :
    v.openResponse p payload = v.refuse p payload .quota := by
  rw [ne_eq, Bool.not_eq_true] at hq
  simp [State.openResponse, hp, hb, hq]

theorem State.openResponse_noSpace (hb : (openAsk payload f).inBounds = true)
    (hq : (v.port p).quotaAllows (openAsk payload f).blocks = true)
    (hs : ∀ n g, v.freeSlot = some n → firstFit v.allocated (openAsk payload f).blocks ≠ some g) :
    v.openResponse p payload = v.refuse p payload .noSpace := by
  cases hn : v.freeSlot with
  | none => simp [State.openResponse, hp, hb, hq, hn]
  | some n =>
    cases hg : firstFit v.allocated (openAsk payload f).blocks with
    | none => simp [State.openResponse, hp, hb, hq, hn, hg]
    | some g => exact absurd hg (hs n g hn)

theorem State.openResponse_taken (n first : Nat) (hb : (openAsk payload f).inBounds = true)
    (hq : (v.port p).quotaAllows (openAsk payload f).blocks = true) (hn : v.freeSlot = some n)
    (hg : firstFit v.allocated (openAsk payload f).blocks = some first) :
    v.openResponse p payload = (v.takeOpen p (reqId payload) (openAsk payload f) n first).defer p payload := by
  simp only [State.openResponse, hp, hb, hq, hn, hg, Bool.not_true, Bool.false_eq_true, if_false]

end

/-- A request that is refused: its frame has left the buffer and the refusal stands in its slot, with nothing else changed. -/
theorem State.refuse_took (s : State) (p : Port) (rest : List InFrame) (payload : List Byte) (st : Status)
    (h : 0 < (s.port p).link.reserved) : (s.setPort p ((s.port p).took rest)).refuse p payload st =
      s.setPort p (((s.port p).took rest).answered payload st.code []) := by
  rw [State.refuse_eq_answered _ _ _ _ (by simpa using h)]
  simp

/-- What a taken OPEN changes (R14). -/
theorem State.takeOpen_eq (s : State) (p : Port) (id : ReqId) (a : OpenAsk) (n f : Nat) :
    s.takeOpen p id a n f = { s with
      ports := s.ports.set p { s.port p with
        canvasesHeld := (s.port p).canvasesHeld + 1, blocksHeld := (s.port p).blocksHeld + a.blocks }
      slots := (s.takeOpen p id a n f).slots
      allocated := allocateRun s.allocated f a.blocks
      clear := { s.clear with list := s.clear.list ++ [n] } } := by
  cases n <;> rfl

theorem firstFit_fits (a : BitVec 4096) (k g : Nat) (h : firstFit a k = some g) :
    g + k ≤ 4096 ∧ ∀ b, g ≤ b → b < g + k → a.getLsbD b = false :=
  (runFree_iff a g k).1 ((firstFit_eq_some a k g).1 h).2.1

/-- The lowest run is the one first fit finds. -/
theorem firstFit_of_lowest (a : BitVec 4096) (k first : Nat) (h1 : first + k ≤ 4096)
    (h2 : ∀ b, first ≤ b → b < first + k → a.getLsbD b = false)
    (h3 : ∀ g, g < first → ∃ b, g ≤ b ∧ b < g + k ∧ a.getLsbD b = true) : firstFit a k = some first := by
  rw [firstFit_eq_some]
  refine ⟨?_, (runFree_iff a first k).2 ⟨h1, h2⟩, fun j hj => ?_⟩
  · by_contra hlt
    obtain ⟨b, hb1, hb2, _⟩ := h3 0 (by omega)
    omega
  · obtain ⟨b, hb1, hb2, hb3⟩ := h3 j hj
    rw [← Bool.not_eq_true, runFree_iff]
    rintro ⟨_, hall⟩
    rw [hall b hb1 hb2] at hb3
    cases hb3

theorem State.freeSlot_took (s : State) (p : Port) (b : PortBlock) : (s.setPort p b).freeSlot = s.freeSlot := by
  simp only [State.freeSlot, State.setPort_canvas]

/-- Settles O22: the checks passed lead to the lowest slot and run, the first check failed to its refusal. -/
theorem openIsTakenOrRefused : Obligations.OpenIsTakenOrRefused := by
  refine ⟨?_, ?_⟩
  · intro s p payload rest f n first ho hr hlen w h k hf hw1 hw2 hh1 hh2 hq1 hq2 hk hn1 hn2 hn hlow hfit1 hfit2 hfit3 b d
    have hp : parseOpen payload = some (openAsk payload f) := by rw [parseOpen_of_length payload hlen, hf]; rfl
    have hb : (openAsk payload f).inBounds = true := (OpenAsk.inBounds_iff _).2 ⟨hw1, hw2, hh1, hh2⟩
    have hq : ((s.setPort p b).port p).quotaAllows k = true := by
      rw [State.port_setPort_same]
      exact (PortBlock.quotaAllows_iff _ _).2 ⟨hq1, hq2, hk⟩
    have hslot : (s.setPort p b).freeSlot = some n := by
      rw [State.freeSlot_took, State.freeSlot_eq_some]
      exact ⟨⟨hn1, hn2⟩, hn, hlow⟩
    have hfit : firstFit s.allocated k = some first := firstFit_of_lowest s.allocated k first hfit1 hfit2 hfit3
    have hexec := exec_openCanvas s p payload rest ho hr
    rw [State.openResponse_taken hp n first hb hq hslot hfit] at hexec
    set u := (s.setPort p b).takeOpen p (reqId payload) (openAsk payload f) n first with hu
    have hueq := (s.setPort p b).takeOpen_eq p (reqId payload) (openAsk payload f) n first
    have hsl (m : Nat) : (u.defer p payload).slot m = u.slot m := State.modPort_slot _ _ _ _
    refine ⟨_, hexec, ?_, ?_, fun m hm => ?_, fun x hx => ?_⟩
    · rw [← hu] at hueq
      rw [hueq]
      simp only [State.defer, State.modPort, State.setPort, State.port, Quad.get_set_same, Quad.set_set]
      rfl
    · rw [hsl, hu, State.takeOpen_slot_same _ _ _ _ _ _ hn1 hn2, State.setPort_slot]
      rfl
    · rw [hsl, hu, State.takeOpen_slot_ne _ _ _ _ _ _ _ hm, State.setPort_slot]
    · change u.allocated.getLsbD x = _
      rw [hu, hueq]
      exact allocateRun_getLsbD _ _ _ _ hx
  · intro s p payload rest ho hr hlen hres w h refused
    have hex (st : Status) (he : (s.setPort p ((s.port p).took rest)).openResponse p payload =
        (s.setPort p ((s.port p).took rest)).refuse p payload st) : refused st.code := by
      have hexec := exec_openCanvas s p payload rest ho hr
      rwa [he, State.refuse_took s p rest payload st hres] at hexec
    refine ⟨fun hcode => hex .malformed ?_, ?_⟩
    · unfold State.openResponse
      rw [parseOpen_of_length payload hlen, Format.ofCode_eq_none _ hcode]
      rfl
    · intro f hf k bounds quota space
      have hp : parseOpen payload = some (openAsk payload f) := by rw [parseOpen_of_length payload hlen, hf]; rfl
      have hbounds : (openAsk payload f).inBounds = true ↔ bounds := OpenAsk.inBounds_iff _
      have hquota : ((s.setPort p ((s.port p).took rest)).port p).quotaAllows (openAsk payload f).blocks = true ↔ quota := by
        rw [State.port_setPort_same]
        exact PortBlock.quotaAllows_iff _ _
      refine ⟨fun hb => hex .bounds ?_, fun hb hq => hex .quota ?_, fun hb hq hs => hex .noSpace ?_⟩
      · exact State.openResponse_bounds hp (mt hbounds.1 hb)
      · exact State.openResponse_quota hp (hbounds.2 hb) (mt hquota.1 hq)
      · refine State.openResponse_noSpace hp (hbounds.2 hb) (hquota.2 hq) fun n g hn hg => hs ⟨?_, g, ?_⟩
        · rw [State.freeSlot_took, State.freeSlot_eq_some] at hn
          obtain ⟨⟨hn1, hn2⟩, hfree, _⟩ := hn
          exact ⟨n, hn1, hn2, hfree⟩
        · exact firstFit_fits s.allocated k g hg

end Sys2Proof.Machine

/-! SUPPORT. QUERY and LIST (R3, R17, R18): when a handle is stale, and the bytes of the two replies. -/

namespace Sys2Proof.Machine

/-! ### Stale handles (R2, R3) -/

theorem handleGen_toNat (h : Handle) : (handleGen h).toNat = h.toNat / 256 := by
  have := h.isLt
  rw [handleGen, BitVec.toNat_ofNat, Nat.mod_eq_of_lt]
  omega

theorem eq_handleGen_iff (g : BitVec 8) (h : Handle) : g = handleGen h ↔ g.toNat = h.toNat / 256 := by
  rw [← handleGen_toNat, BitVec.toNat_inj]

/-- The handle is stale: its slot number or its generation is 0, its slot is FREE or CLEARING, or its generation is not the
slot's (R3). -/
def State.Stale (s : State) (h : Handle) : Prop :=
  let n := h.toNat % 256
  n = 0 ∨ h.toNat / 256 = 0 ∨ (s.slot n).canvas = none ∨ (∃ c w, (s.slot n).canvas = some c ∧ c.phase = .clearing w) ∨
    (s.slot n).generation.toNat ≠ h.toNat / 256

theorem State.lookup_isSome_iff_not_stale (s : State) (h : Handle) : (s.lookup h).isSome = true ↔ ¬ s.Stale h := by
  have hgen : handleGen h ≠ 0 ↔ h.toNat / 256 ≠ 0 := by
    rw [ne_comm, ne_eq, eq_handleGen_iff]
    exact ne_comm
  rw [State.lookup_isSome, hgen, eq_handleGen_iff]
  unfold State.Stale
  constructor
  · rintro ⟨h0, h1, c, hc, hk⟩ hs
    rcases hs with hn | hn | hn | ⟨d, w, hd, hw⟩ | hn
    · exact absurd (s.canvas_bounds _ c hc).1 (by unfold handleSlot; omega)
    · exact h0 hn
    · rw [State.canvas] at hc
      exact absurd (hn.symm.trans hc) nofun
    · obtain rfl : d = c := Option.some.inj (hd.symm.trans hc)
      rw [hw] at hk; cases hk
    · exact hn h1
  · intro hs
    simp only [not_or, not_not, ne_eq] at hs
    obtain ⟨_, h0, h1, h2, h3⟩ := hs
    refine ⟨h0, h3, ?_⟩
    cases hc : (s.slot (handleSlot h)).canvas with
    | none => exact absurd hc h1
    | some c =>
      refine ⟨c, hc, ?_⟩
      by_contra hk
      obtain ⟨w, hw⟩ := c.phase.known_false (by simpa using hk)
      exact h2 ⟨c, w, hc, hw⟩

/-! ### QUERY (R17) -/

/-- What a QUERY of an allowed length makes of the state (R17). -/
def State.queryResponse (v : State) (p : Port) (payload : List Byte) : State :=
  match v.lookup (handleAt payload 4) with
  | none => v.refuse p payload .badHandle
  | some c =>
    if c.owner = p || (c.grantTo p).isSome || p = .p0 then v.reply p payload .ok (queryContents (handleAt payload 4) c)
    else v.refuse p payload .noRight

theorem exec_query (s : State) (p : Port) (payload : List Byte) (rest : List InFrame) (ho : s.Oldest p .req payload rest)
    (hr : IsRequest payload 0x12) (hlen : payload.length = 6) :
    exec (.query p) s = .next ((s.setPort p ((s.port p).took rest)).queryResponse p payload) := by
  have hl : ReqKind.query.lengthOk payload.length = true := by rw [hlen]; rfl
  have := s.process_of_oldest p .req payload rest _ (fun payload s =>
    if !ReqKind.query.lengthOk payload.length then s.refuse p payload .malformed else s.queryResponse p payload)
    ho (InFrame.row_request payload .query hr nofun nofun)
  rw [hl] at this
  exact this

/-- A request that is answered: its frame has left the buffer and the reply stands in its slot, with nothing else changed. -/
theorem State.reply_took (s : State) (p : Port) (rest : List InFrame) (payload : List Byte) (st : Status) (m : List Byte)
    (h : 0 < (s.port p).link.reserved) : (s.setPort p ((s.port p).took rest)).reply p payload st m =
      s.setPort p (((s.port p).took rest).answered payload st.code m) := by
  rw [State.reply_eq_answered _ _ _ _ _ (by simpa using h)]
  simp

/-- A port has a grant when some grant of the canvas names it. -/
theorem Canvas.grantTo_isSome (c : Canvas) (p : Port) : (c.grantTo p).isSome = true ↔ ∃ g ∈ c.grants, g.port = p := by
  simp [Canvas.grantTo, List.find?_isSome]

/-- The four bytes of a grant in a QUERY reply (10.5). -/
def Grant.queryBytes (g : Grant) : List Byte :=
  [BitVec.ofNat 8 g.port.num, BitVec.ofNat 8 g.rights.code, BitVec.ofNat 8 g.stateCode, BitVec.ofNat 8 g.pins]

/-- The code of the close under way in a QUERY reply: the state's byte and the mode's (R186). -/
def Phase.queryCodes : Phase → Byte × Byte
  | .closing op => (0x03, BitVec.ofNat 8 op.mode.code)
  | _ => (0x02, 0x00)

theorem Phase.queryCodes_fst (ph : Phase) : ph.queryCodes.1 = if ph.isClosing then 0x03 else 0x02 := by
  cases ph <;> rfl

/-- The fields of a canvas record in a QUERY reply up to its grants (10.5). -/
def queryHeader (h : Handle) (c : Canvas) : List Byte :=
  enc16 h.toNat ++ [c.phase.queryCodes.1, BitVec.ofNat 8 c.owner.num, BitVec.ofNat 8 c.format.code,
    BitVec.ofNat 8 c.grants.length] ++ (enc16 c.width ++ enc16 c.height ++ enc16 c.pitch ++ enc16 c.firstBlock ++
    enc16 c.blockCount) ++ (enc32 c.tag.toNat ++ enc32 c.fill.toNat) ++
    [BitVec.ofNat 8 c.ownerPins, BitVec.ofNat 8 c.pinCount, c.phase.queryCodes.2, 0]

/-- The `i`th of pieces of four bytes each. -/
theorem take_drop_flatMap {α : Type} (f : α → List Byte) (hf : ∀ a, (f a).length = 4) (xs : List α) (i : Nat) (a : α)
    (h : xs[i]? = some a) : ((xs.flatMap f).drop (4 * i)).take 4 = f a := by
  induction xs generalizing i with
  | nil => cases h
  | cons x t ih =>
    rw [List.flatMap_cons]
    cases i with
    | zero =>
      cases h
      rw [Nat.mul_zero, List.drop_zero, List.take_left' (hf a)]
    | succ i =>
      rw [Nat.mul_succ, Nat.add_comm, ← List.drop_drop, List.drop_left' (hf x)]
      exact ih i h

theorem length_flatMap_four {α : Type} (f : α → List Byte) (hf : ∀ a, (f a).length = 4) (xs : List α) :
    (xs.flatMap f).length = 4 * xs.length := by
  simp [List.length_flatMap, hf, Nat.mul_comm]

theorem queryContents_eq (h : Handle) (c : Canvas) :
    queryContents h c = queryHeader h c ++ c.grants.flatMap Grant.queryBytes := by
  have hg : Grant.queryBytes = fun g => [BitVec.ofNat 8 g.port.num, BitVec.ofNat 8 g.rights.code,
    BitVec.ofNat 8 g.stateCode, BitVec.ofNat 8 g.pins] := rfl
  cases hph : c.phase <;>
    simp [queryContents, queryHeader, Phase.queryCodes, hph, enc8, enc16, enc32, hg]

theorem queryHeader_length (h : Handle) (c : Canvas) : (queryHeader h c).length = 28 := rfl

/-- The grants follow the fields, four bytes each (10.5). -/
theorem queryContents_grant (h : Handle) (c : Canvas) (i : Nat) (g : Grant) (hg : c.grants[i]? = some g) :
    ((queryContents h c).drop (28 + 4 * i)).take 4 = g.queryBytes := by
  rw [queryContents_eq, ← List.drop_drop, List.drop_left' (queryHeader_length h c)]
  exact take_drop_flatMap Grant.queryBytes (fun _ => rfl) c.grants i g hg

theorem queryContents_length (h : Handle) (c : Canvas) : (queryContents h c).length = 28 + 4 * c.grants.length := by
  rw [queryContents_eq, List.length_append, queryHeader_length, length_flatMap_four Grant.queryBytes fun _ => rfl]

theorem num16_lt (payload : List Byte) (i : Nat) : num16 payload i < 65536 := by
  have h1 := (byteAt payload i).isLt
  have h2 := (byteAt payload (i + 1)).isLt
  unfold num16 num8
  omega

/-! ### LIST (R18) -/

/-- The relation of a port to a canvas keeps apart from NONE as a byte (R186). -/
theorem Canvas.relation_ne_zero (c : Canvas) (p : Port) : BitVec.ofNat 8 (c.relation p) ≠ 0 ↔ c.relation p ≠ 0 := by
  unfold Canvas.relation
  split
  · decide
  · cases c.grantTo p with
    | none => decide
    | some g => dsimp only; split <;> decide

/-- What a LIST of an allowed length and option makes of the state (R18). -/
def State.listResponse (v : State) (p : Port) (payload : List Byte) : State :=
  if num8 payload 4 == 0x01 && p != .p0 then v.refuse p payload .notSupervisor
  else v.reply p payload .ok (v.listContents p (num8 payload 4 == 0x01))

theorem exec_list (s : State) (p : Port) (payload : List Byte) (rest : List InFrame) (ho : s.Oldest p .req payload rest)
    (hr : IsRequest payload 0x13) (hlen : payload.length = 6) (hopt : num8 payload 4 ≤ 1) :
    exec (.list p) s = .next ((s.setPort p ((s.port p).took rest)).listResponse p payload) := by
  have hl : (!ReqKind.list.lengthOk payload.length || decide (0x01 < num8 payload 4)) = false := by
    rw [hlen, decide_eq_false (by omega)]
    rfl
  have := s.process_of_oldest p .req payload rest _ (fun payload s =>
    if !ReqKind.list.lengthOk payload.length || 0x01 < num8 payload 4 then s.refuse p payload .malformed
    else s.listResponse p payload) ho (InFrame.row_request payload .list hr nofun nofun)
  rw [hl] at this
  exact this

theorem enc16_handle (s : State) (n : Nat) (h : n ≤ 255) :
    enc16 (s.handle n).toNat = [BitVec.ofNat 8 n, (s.slot n).generation] := by
  have hg := (s.slot n).generation.isLt
  rw [State.handle, handleOf_toNat n _ h, enc16]
  congr 1
  · apply BitVec.eq_of_toNat_eq
    simp only [BitVec.toNat_ofNat]
    omega
  · congr 1
    apply BitVec.eq_of_toNat_eq
    rw [BitVec.toNat_ofNat]
    omega

/-- The bytes of a LIST reply, entry by entry: `entry` gives the four bytes of a slot that is listed. -/
theorem State.listContents_eq (s : State) (p : Port) (all : Bool) (entry : Nat → Option (List Byte))
    (h : ∀ n, 1 ≤ n → n ≤ 255 → s.listEntry p all n = (entry n).getD [])
    (hlen : ∀ n x, entry n = some x → x.length = 4) :
    s.listContents p all = [BitVec.ofNat 8 ((List.range' 1 255).filterMap entry).length, 0] ++
      ((List.range' 1 255).filterMap entry).flatten := by
  have hflat (l : List Nat) (hl : ∀ n ∈ l, s.listEntry p all n = (entry n).getD []) :
      l.flatMap (s.listEntry p all) = (l.filterMap entry).flatten ∧
        (l.flatMap (s.listEntry p all)).length = 4 * (l.filterMap entry).length := by
    induction l with
    | nil => exact ⟨rfl, rfl⟩
    | cons n t ih =>
      obtain ⟨h1, h2⟩ := ih fun m hm => hl m (List.mem_cons_of_mem _ hm)
      have hn := hl n (List.mem_cons_self ..)
      rw [List.flatMap_cons, hn, List.length_append, h2, h1, List.filterMap_cons]
      cases he : entry n with
      | none => exact ⟨rfl, Nat.zero_add _⟩
      | some x =>
        refine ⟨rfl, ?_⟩
        simp only [Option.getD_some, hlen n x he, List.length_cons]
        omega
  have hs : slotNumbers = List.range' 1 255 := by simp [slotNumbers, List.range'_eq_map_range, Nat.add_comm]
  obtain ⟨h1, h2⟩ := hflat slotNumbers fun n hn => h n ((mem_slotNumbers n).1 hn).1 ((mem_slotNumbers n).1 hn).2
  unfold State.listContents
  dsimp only
  rw [h2, h1, hs, Nat.mul_div_cancel_left _ (by decide)]
  rfl

theorem State.listContents_setPort (s : State) (q : Port) (b : PortBlock) (p : Port) (all : Bool) :
    (s.setPort q b).listContents p all = s.listContents p all := by
  have h : (s.setPort q b).listEntry p all = s.listEntry p all := by
    funext n
    simp only [State.listEntry, State.setPort_canvas, State.handle, State.setPort_slot]
  simp only [State.listContents, h]

/-- Settles O23: the stale handles are those that are not looked up; the bytes of the two replies, field by field. -/
theorem queryAndListReport : Obligations.QueryAndListReport := by
  refine ⟨fun s h => ?_, ?_, ?_⟩
  · have hiff := s.lookup_isSome_iff_not_stale h
    refine ⟨fun hs => ?_, fun hs => ?_⟩
    · rw [← Option.not_isSome_iff_eq_none, hiff, not_not]; exact hs
    · obtain ⟨c, hc⟩ := Option.isSome_iff_exists.1 (hiff.2 hs)
      exact hc.trans (s.lookup_some h c hc).1.symm
  · intro s p payload rest ho hr hlen hres h answer
    have hexec := exec_query s p payload rest ho hr hlen
    have hv : (s.setPort p ((s.port p).took rest)).lookup (handleAt payload 4) = s.lookup h := State.lookup_setPort _ _ _ _
    unfold State.queryResponse at hexec
    rw [hv] at hexec
    refine ⟨fun hl => ?_, fun c hl => ?_⟩
    · rw [hl] at hexec
      exact hexec.trans (congrArg _ (s.reply_took p rest payload .badHandle [] hres))
    · intro allowed
      have hallow : (decide (c.owner = p) || (c.grantTo p).isSome || decide (p = .p0)) = true ↔ allowed := by
        simp only [Bool.or_eq_true, decide_eq_true_eq, Canvas.grantTo_isSome, or_assoc, allowed]
      rw [hl] at hexec
      refine ⟨fun hn => ?_, fun hy => ⟨queryContents h c, ?_, queryContents_length h c, ?_⟩⟩
      · simp only [mt hallow.1 hn] at hexec
        exact hexec.trans (congrArg _ (s.reply_took p rest payload .noRight [] hres))
      · simp only [hallow.2 hy, if_true] at hexec
        exact hexec.trans (congrArg _ (s.reply_took p rest payload .ok _ hres))
      · have hgrant := queryContents_grant h c
        have hnum : h.toNat = num16 payload 4 := Nat.mod_eq_of_lt (num16_lt payload 4)
        rw [queryContents_eq] at hgrant ⊢
        refine ⟨by rw [← hnum]; rfl, ?_, rfl, rfl, rfl, rfl, rfl, rfl, rfl, ?_, rfl, fun i g hg => ?_⟩
        · exact c.phase.queryCodes_fst
        · change c.phase.queryCodes.2 = _
          cases c.phase with
          | closing op =>
            obtain ⟨mode, _, _, _⟩ := op
            cases mode <;> rfl
          | live => rfl
          | clearing _ => rfl
        · rw [hgrant i g hg]
          obtain ⟨port, rights, pins, revoke⟩ := g
          cases revoke with
          | none => rfl
          | some r =>
            obtain ⟨mode, _, _⟩ := r
            cases mode <;> rfl
  · intro s p payload rest ho hr hlen hres answer relation entry listed
    have hrel (c : Canvas) : relation c = BitVec.ofNat 8 (c.relation p) := by
      simp only [relation, Canvas.relation, Canvas.grantTo]
      split
      · rfl
      · cases c.grants.find? fun g => g.port == p with
        | none => rfl
        | some g => dsimp only; split <;> rfl
    have hentry (all : Bool) (n : Nat) (_ : 1 ≤ n) (h2 : n ≤ 255) : s.listEntry p all n = (entry all n).getD [] := by
      simp only [entry, State.listEntry]
      cases s.canvas n with
      | none => rfl
      | some c =>
        have hcond : (c.phase.known && (all || c.relation p != 0x00)) = true ↔
            c.phase.known = true ∧ (all = true ∨ relation c ≠ 0x00) := by
          rw [Bool.and_eq_true, Bool.or_eq_true, bne_iff_ne]
          rw [hrel]
          exact and_congr_right fun _ => or_congr_right (c.relation_ne_zero p).symm
        by_cases hc : c.phase.known = true ∧ (all = true ∨ relation c ≠ 0x00)
        · rw [Option.bind_some, if_pos hc, hrel]
          dsimp only
          rw [if_pos (hcond.2 hc), enc16_handle s n h2]
          rfl
        · rw [Option.bind_some, if_neg hc]
          exact if_neg (mt hcond.1 hc)
    have hcontents (all : Bool) : s.listContents p all = [BitVec.ofNat 8 (listed all).length, 0] ++ (listed all).flatten := by
      refine s.listContents_eq p all (entry all) (hentry all) fun n x hx => ?_
      obtain ⟨c, _, hc⟩ := Option.bind_eq_some_iff.1 hx
      split at hc
      · cases hc; rfl
      · cases hc
    have hexec (hopt : num8 payload 4 ≤ 1) := exec_list s p payload rest ho hr hlen hopt
    have hv (all : Bool) := s.listContents_setPort p ((s.port p).took rest) p all
    unfold State.listResponse at hexec
    refine ⟨fun h0 => ?_, fun h1 hp => ?_, fun h1 hp => ?_⟩
    · have := hexec (by omega)
      rw [h0] at this
      refine this.trans (congrArg _ ?_)
      rw [← hcontents, ← hv]
      exact s.reply_took p rest payload .ok _ hres
    · have := hexec (by omega)
      rw [h1] at this
      rw [if_pos (by simp [hp])] at this
      exact this.trans (congrArg _ (s.refuse_took p rest payload .notSupervisor hres))
    · subst hp
      have := hexec (by omega)
      rw [h1] at this
      refine this.trans (congrArg _ ?_)
      rw [← hcontents, ← hv]
      exact s.reply_took .p0 rest payload .ok _ hres

end Sys2Proof.Machine

/-! SUPPORT. The words of a span's access (R23, R107): which bits of a row a word holds, and which words are read first. -/

namespace Sys2Proof.Machine

/-! ### Words of a row (R21) -/

theorem Format.bits_pos (f : Format) : 0 < f.bits := by cases f <;> decide

/-- Rows begin on word boundaries (R21). -/
theorem Geo.rowBase_mod_eight (g : Geo) (y : Nat) (h : g.pitch % 8 = 0) : g.rowBase y % 8 = 0 := by
  have hy : y * g.pitch % 8 = 0 := by rw [Nat.mul_mod, h, Nat.mul_zero, Nat.zero_mod]
  unfold Geo.rowBase Config.blockBytes
  omega

theorem Geo.words_pairwise (g : Geo) (y lo hi : Nat) : (g.words y lo hi).Pairwise (· < ·) := by
  unfold Geo.words
  split
  · exact List.Pairwise.nil
  · exact List.pairwise_map.2 (List.pairwise_lt_range.imp fun h => Nat.add_lt_add_left h _)

/-- Of a row on a word boundary, the words listed are those that hold one of the bits `lo` to `hi - 1`. -/
theorem Geo.mem_words_iff_holds (g : Geo) (y lo hi w : Nat) (hr : g.rowBase y % 8 = 0) :
    w ∈ g.words y lo hi ↔
      lo < hi ∧ 8 * g.rowBase y + lo < 64 * w + 64 ∧ 64 * w < 8 * g.rowBase y + hi := by
  by_cases h : lo < hi
  · rw [g.mem_words y lo hi w h]
    omega
  · simp only [Geo.words, if_pos (Nat.le_of_not_lt h), h, List.not_mem_nil, false_and]

/-- Of the words listed, those in part are the ones that hold a bit outside `lo` to `hi - 1`. -/
theorem Geo.mem_partialWords_iff (g : Geo) (y lo hi w : Nat) (hr : g.rowBase y % 8 = 0) :
    w ∈ g.partialWords y lo hi ↔
      w ∈ g.words y lo hi ∧ ¬ (8 * g.rowBase y + lo ≤ 64 * w ∧ 64 * w + 64 ≤ 8 * g.rowBase y + hi) := by
  rw [Geo.partialWords, List.mem_filter]
  refine and_congr_right fun hw => ?_
  obtain ⟨_, hlo, _⟩ := (g.mem_words_iff_holds y lo hi w hr).1 hw
  simp only [Bool.not_eq_true', Bool.and_eq_false_iff, decide_eq_false_iff_not]
  omega

/-- The words of `n` pixels at column `x`. -/
theorem Geo.mem_words_bitRange (g : Geo) (x y n w : Nat) (hp : g.pitch % 8 = 0) :
    w ∈ g.words y (bitRange g.format x n).1 (bitRange g.format x n).2 ↔
      0 < n ∧ 8 * g.rowBase y + x * g.format.bits < 64 * w + 64 ∧
        64 * w < 8 * g.rowBase y + (x + n) * g.format.bits := by
  have hn : x * g.format.bits < (x + n) * g.format.bits ↔ 0 < n := by
    rw [Nat.mul_lt_mul_right g.format.bits_pos]
    omega
  rw [g.mem_words_iff_holds _ _ _ _ (g.rowBase_mod_eight y hp), bitRange, hn]

/-! ### Source and destination words (R23) -/

theorem EngineRecord.srcWords_pairwise (r : EngineRecord) : r.srcWords.Pairwise (· < ·) := by
  unfold EngineRecord.srcWords
  split
  · exact List.Pairwise.nil
  · exact Geo.words_pairwise _ _ _ _

theorem EngineRecord.dstWords_pairwise (r : EngineRecord) : r.dstWords.Pairwise (· < ·) := by
  unfold EngineRecord.dstWords
  split
  · exact List.Pairwise.nil
  · exact Geo.words_pairwise _ _ _ _

theorem EngineRecord.srcWords_of_none (r : EngineRecord) (h : r.src = none) : r.srcWords = [] := by
  simp only [EngineRecord.srcWords, h]

theorem EngineRecord.dstWords_of_none (r : EngineRecord) (h : r.dst = none) : r.dstWords = [] := by
  simp only [EngineRecord.dstWords, h]

/-- The destination words read are some of those written, in their order. -/
theorem EngineRecord.dstReads_sublist (r : EngineRecord) : r.dstReads.Sublist r.dstWords := by
  unfold EngineRecord.dstReads
  split
  · exact List.Sublist.refl _
  · split
    · exact List.nil_sublist _
    · next g hd =>
      simp only [EngineRecord.dstWords, hd]
      exact List.filter_sublist

/-- A destination word is read when the job reads the destination, or when it is written only in part. -/
theorem EngineRecord.mem_dstReads_iff (r : EngineRecord) (g : Geo) (w : Nat) (hd : r.dst = some g) (hp : g.pitch % 8 = 0) :
    w ∈ r.dstReads ↔ w ∈ r.dstWords ∧ (r.job.readsDst = true ∨
      ¬ (8 * g.rowBase (r.job.rect.y + r.row) + (r.job.rect.x + r.spanLeft) * g.format.bits ≤ 64 * w ∧
        64 * w + 64 ≤
          8 * g.rowBase (r.job.rect.y + r.row) + (r.job.rect.x + r.spanLeft + r.spanPixels) * g.format.bits)) := by
  unfold EngineRecord.dstReads
  by_cases hj : r.job.readsDst = true
  · rw [if_pos hj]
    exact (and_iff_left (Or.inl hj)).symm
  · rw [Bool.not_eq_true] at hj
    simp only [hj, hd, EngineRecord.dstWords, Bool.false_eq_true, if_false, false_or]
    exact g.mem_partialWords_iff _ _ _ w (g.rowBase_mod_eight _ hp)

theorem rasterReadsDst_iff (code : Nat) : rasterReadsDst code = true ↔ code ∉ [0, 3, 12, 15] := by
  simp [rasterReadsDst, and_assoc]

/-- Settles O53: each group of words is a run of consecutive words, those read of the destination a part of those written. -/
theorem spanAccessWords : Obligations.SpanAccessWords := by
  intro r n holds whole readsOld
  have hold : r.job.readsDst = true ↔ readsOld := by
    simp only [readsOld]
    cases r.job with
    | fill dst rect colour rop => exact rasterReadsDst_iff rop
    | move src sx sy dst rect rop key =>
      exact Bool.or_eq_true_iff.trans (or_congr (rasterReadsDst_iff rop) Option.isSome_iff_ne_none)
    | expand src sx sy dst rect fg bg rop =>
      exact Bool.or_eq_true_iff.trans (or_congr (rasterReadsDst_iff rop) Option.isNone_iff_eq_none)
    | _ => exact Bool.false_eq_true.to_iff
  refine ⟨rfl, r.srcWords_pairwise, r.dstWords_pairwise, r.dstWords_pairwise.sublist r.dstReads_sublist,
    r.srcWords_of_none, fun h => ⟨r.dstWords_of_none h, ?_⟩, fun g w hs hp => ?_, fun g w hd hp => ⟨?_, ?_⟩⟩
  · exact List.sublist_nil.1 (r.dstWords_of_none h ▸ r.dstReads_sublist)
  · simp only [EngineRecord.srcWords, hs]
    exact g.mem_words_bitRange _ _ _ w hp
  · simp only [EngineRecord.dstWords, hd]
    exact g.mem_words_bitRange _ _ _ w hp
  · rw [r.mem_dstReads_iff g w hd hp, hold]

end Sys2Proof.Machine

/-! SUPPORT. SPAN_UNCORRECTABLE (R24, R106): the word that is reported, the canvas it belongs to, and what the end of such a
span leaves. -/

namespace Sys2Proof.Machine

/-! ### The first uncorrectable word (R24) -/

theorem Store.uncorrectable_iff (m : Store) (w : Nat) :
    m.uncorrectable w = true ↔ m.condition w = some .uncorrectable := beq_iff_eq

theorem Store.uncorrectable_setCondition (m : Store) (w x : Nat) :
    (m.setCondition w .uncorrectable).uncorrectable x = true ↔ x = w ∨ m.condition x = some .uncorrectable := by
  rw [Store.uncorrectable_iff, Store.condition_setCondition]
  split
  · next h => simp only [h, true_or]
  · next h => simp only [h, false_or]

theorem Store.firstUncorrectable_append (m : Store) (before after : List Nat) (first : Nat)
    (hb : ∀ x ∈ before, ¬ m.uncorrectable x = true) (hf : m.uncorrectable first = true) :
    m.firstUncorrectable (before ++ first :: after) = some first := by
  rw [Store.firstUncorrectable, List.find?_append, List.find?_eq_none.2 hb, List.find?_cons_of_pos hf]
  rfl

/-! ### The spans of the engine and the store (R103 to R106) -/

theorem exec_spanBegin_of_idle (s : State) (hp : s.resetPin = false) (hs : s.engine.span = none) :
    exec .spanBegin s = .next s.chooseSpan := by
  change execSpanBegin s = _
  rw [execSpanBegin, State.unlessHeld, hp, hs]
  rfl

section
variable {s : State} {x : Span} {r : EngineRecord} (hpin : s.resetPin = false) (hserved : s.spanServed = some (x, r))
include hpin hserved

theorem exec_spanUncorrectable_of_reads (w : Nat) (hin : r.accessInStore = true) (hw : w ∈ r.reads) :
    exec (.spanUncorrectable w) s = .next (s.spanFailed x r w).chooseSpan := by
  have hc : r.reads.contains w = true := List.contains_iff_mem.2 hw
  change execSpanUncorrectable w s = _
  simp only [execSpanUncorrectable, hpin, hserved, hin, hc, Bool.not_true, Bool.false_eq_true, if_false, if_true]

theorem exec_spanUncorrectable_outside (w : Nat) (hout : r.accessInStore = false) :
    exec (.spanUncorrectable w) s = .fault .storeAddressOutside := by
  change execSpanUncorrectable w s = _
  simp only [execSpanUncorrectable, hpin, hserved, hout, Bool.not_false, if_true]

theorem exec_spanComplete_outside (ws : List Nat) (hout : r.accessInStore = false) :
    exec (.spanComplete ws) s = .fault .storeAddressOutside := by
  change execSpanComplete ws s = _
  simp only [execSpanComplete, hpin, hserved, hout, Bool.not_false, if_true]

end

theorem State.spanServed_of (s : State) (x : Span) (r : EngineRecord) (ha : s.arbiter.serving = some .span)
    (he : s.engine.span = some x) (hr : (s.port x.port).record = some r) : s.spanServed = some (x, r) := by
  simp only [State.spanServed, ha, he, hr, Option.map_some]

/-- A span that fails changes one port's block, the conditions of words, and ends the access; the report names the first
uncorrectable word. -/
theorem State.spanFailed_eq (s : State) (x : Span) (r : EngineRecord) (w first : Nat)
    (h : (s.store.setCondition w .uncorrectable).firstUncorrectable r.reads = some first) :
    s.spanFailed x r w = { s with
      ports := s.ports.set x.port ((s.port x.port).spanUncorrectable r (r.eccFault first))
      store := s.store.setCondition w .uncorrectable
      engine := { s.engine with span := none }
      arbiter := { s.arbiter with serving := none } } := by
  simp only [State.spanFailed, h, Option.getD_some]
  rfl

/-- The canvas a faulty word belongs to (R106). -/
theorem EngineRecord.canvasOfBlock_eq (r : EngineRecord) (block : Nat) :
    r.canvasOfBlock block =
      match r.src, r.dst with
      | some a, some g => if a.firstBlock ≤ block ∧ block < a.firstBlock + a.blockCount then a.handle else g.handle
      | some a, none => a.handle
      | none, some g => g.handle
      | none, none => 0 := by
  unfold EngineRecord.canvasOfBlock
  cases r.src with
  | none => cases r.dst <;> rfl
  | some a =>
    cases r.dst with
    | none => rfl
    | some g => simp only [Geo.holdsBlock, Bool.and_eq_true, decide_eq_true_eq]

/-- A READ's slot, if it has one reserved, is released (R106). -/
theorem PortBlock.spanUncorrectable_eq (b : PortBlock) (r : EngineRecord) (d : FaultDetail) :
    b.spanUncorrectable r d = { b with
      link := { b.link with reserved := if r.spanSlot then b.link.reserved - 1 else b.link.reserved }
      record := none
      queue := { b.queue with report := some (if r.stopMark then .stopped (.uncorrectable d) else .uncorrectable d) } } := by
  unfold PortBlock.spanUncorrectable
  cases r.spanSlot <;> rfl

/-- Settles O51: the state in which the span has failed is the one in which SPAN_BEGIN then chooses. -/
theorem uncorrectableSpanWritesNothing : Obligations.UncorrectableSpanWritesNothing := by
  refine ⟨?_, ?_⟩
  · intro s p r data w first before after hpin ha he hr hin hw hreads hbefore hfirst b block handle d
    have hserved := s.spanServed_of ⟨p, data⟩ r ha he hr
    have hfound : (s.store.setCondition w .uncorrectable).firstUncorrectable r.reads = some first := by
      rw [hreads]
      refine Store.firstUncorrectable_append _ _ _ _ (fun x hx => ?_) ((s.store.uncorrectable_setCondition w first).2 hfirst)
      rw [Store.uncorrectable_setCondition, not_or]
      exact hbefore x hx
    have hfault : r.eccFault first = d := by
      simp only [EngineRecord.eccFault, EngineRecord.canvasOfBlock_eq]
      rfl
    have ht := s.spanFailed_eq ⟨p, data⟩ r w first hfound
    rw [hfault] at ht
    have hport : (s.spanFailed ⟨p, data⟩ r w).port p = (s.port p).spanUncorrectable r d := by
      rw [ht]
      exact Quad.get_set_same _ _ _
    refine ⟨s.spanFailed ⟨p, data⟩ r w, _, exec_spanUncorrectable_of_reads hpin hserved w hin hw,
      exec_spanBegin_of_idle _ ?_ ?_, ?_, fun x => ?_, ?_⟩
    · rw [ht]; exact hpin
    · rw [ht]
    · rw [hport, ht]; rfl
    · rw [ht]; exact s.store.condition_setCondition w x .uncorrectable
    · rw [hport]; exact PortBlock.spanUncorrectable_eq b r d
  · intro s p r data w ws hpin ha he hr hout
    have hserved := s.spanServed_of ⟨p, data⟩ r ha he hr
    exact ⟨exec_spanUncorrectable_outside hpin hserved w hout, exec_spanComplete_outside hpin hserved ws hout⟩

end Sys2Proof.Machine

/-! SUPPORT. BLOCK_CLEARED (R25, R33 to R35): the bytes and conditions of a cleared block, the bytes of the fill pattern, and
what the clear unit does with each report. -/

namespace Sys2Proof.Machine

/-! ### A cleared block (R25) -/

/-- Every byte of the block holds the pattern, and every other byte stays (R25). -/
theorem Store.read_clearBlock (m : Store) (b : Nat) (f : Format) (fill : Colour) (a : Nat) :
    (m.clearBlock b f fill).read a =
      if a / Config.blockBytes = b then patternByte f fill (a % Config.blockBytes) else m.read a := by
  have h := m.read_write (b * Config.blockBytes) ((List.range Config.blockBytes).map (patternByte f fill)) a
  rw [List.length_map, List.length_range] at h
  refine h.trans ?_
  unfold Config.blockBytes
  by_cases ha : a / 4096 = b
  · have hlt : a % 4096 < 4096 := Nat.mod_lt a (by decide)
    have hoff : a - b * 4096 = a % 4096 := by omega
    rw [if_pos ha, if_pos (by omega), hoff, List.getD_eq_getElem _ _ (by rwa [List.length_map, List.length_range]),
      List.getElem_map, List.getElem_range]
  · rw [if_neg ha, if_neg (by omega)]

/-- Every word of the block is good, and every other word keeps its condition (R25). -/
theorem Store.condition_clearBlock (m : Store) (b : Nat) (f : Format) (fill : Colour) (x : Nat) :
    (m.clearBlock b f fill).condition x = if x / Config.blockWords = b then none else m.condition x := by
  simp only [Store.condition, Store.clearBlock, Store.write_flips, List.find?_filter]
  split
  · next h =>
    rw [List.find?_eq_none.2, Option.map_none]
    rintro ⟨y, c⟩ _
    simp only [bne_iff_ne, beq_iff_eq, decide_eq_true_eq, not_and]
    rintro hy rfl
    exact hy h
  · next h =>
    congr 2
    funext d
    by_cases hd : d.1 = x
    · simp [hd, h]
    · simp [hd]

/-! ### The fill pattern (R33) -/

/-- Byte `k` of a fill, counted from the least significant. -/
theorem Colour.byte_eq (fill : Colour) (k : Nat) :
    (fill >>> (8 * k)).setWidth 8 = BitVec.ofNat 8 (fill.toNat / 2 ^ (8 * k)) := by
  apply BitVec.eq_of_toNat_eq
  rw [BitVec.toNat_setWidth, BitVec.toNat_ushiftRight, BitVec.toNat_ofNat, Nat.shiftRight_eq_div_pow]

theorem patternByte_c16 (fill : Colour) (i k : Nat) (hk : k < 2) :
    patternByte .c16 fill (2 * i + k) = BitVec.ofNat 8 (fill.toNat / 2 ^ (8 * k)) := by
  rw [patternByte, show (2 * i + k) % 2 = k by omega]
  exact Colour.byte_eq fill k

theorem patternByte_c32 (fill : Colour) (i k : Nat) (hk : k < 4) :
    patternByte .c32 fill (4 * i + k) = BitVec.ofNat 8 (fill.toNat / 2 ^ (8 * k)) := by
  rw [patternByte, show (4 * i + k) % 4 = k by omega]
  exact Colour.byte_eq fill k

/-! ### The clear unit's report (R15, R34, R35) -/

/-- The canvas that is cleared goes LIVE, and its OPEN is answered (R15). -/
theorem State.canvasLive_of_clearing (s : State) (n : Nat) (c : Canvas) (w : Waiter) (hc : s.canvas n = some c)
    (hw : c.phase = .clearing w) :
    s.canvasLive n = (s.setCanvas n { c with phase := .live }).modPort w.port
      fun b => b.answer w.id (openContents (s.handle n) c) := by
  simp only [State.canvasLive, hc, hw]
  rfl

section
variable {s : State} {n : Nat} {others : List Nat} (hl : s.clear.list = n :: others)
include hl

theorem State.blockReport_removal (hr : s.clear.removalPending = true) :
    s.blockReport = ({ s with clear := ⟨others, 0, false⟩ } : State).release n := by
  simp only [State.blockReport, hl, hr, if_true, ClearUnit.popHead, List.tail_cons]

theorem State.blockReport_counted (c : Canvas) (hc : s.canvas n = some c) (hr : s.clear.removalPending = false)
    (hk : s.clear.clearedSoFar + 1 < c.blockCount) :
    s.blockReport = { s with clear := ⟨n :: others, s.clear.clearedSoFar + 1, false⟩ } := by
  simp only [State.blockReport, hl, hr, hc, Option.any_some, decide_eq_true hk, if_true, Bool.false_eq_true, if_false]

theorem State.blockReport_last (c : Canvas) (hc : s.canvas n = some c) (hr : s.clear.removalPending = false)
    (hk : c.blockCount ≤ s.clear.clearedSoFar + 1) :
    s.blockReport = ({ s with clear := ⟨others, 0, false⟩ } : State).canvasLive n := by
  simp only [State.blockReport, hl, hr, hc, Option.any_some, decide_eq_false (Nat.not_lt.2 hk), Bool.false_eq_true,
    if_false, ClearUnit.popHead, List.tail_cons]

end

theorem exec_blockCleared_of_serving (s : State) (b : Nat) (f : Format) (fill : Colour) (hpin : s.resetPin = false)
    (ha : s.arbiter.serving = some (.block b f fill)) (hb : b < Config.blocks) :
    exec .blockCleared s = .next (State.blockReport { s with
      store := s.store.clearBlock b f fill, arbiter := ⟨none, s.arbiter.lastServed⟩ }) := by
  change execBlockCleared s = _
  simp only [execBlockCleared, hpin, ha, if_pos hb]

/-- Settles O24: the write of the pattern, and the three ways the clear unit takes the report. -/
theorem blockClearedFillsAndCounts : Obligations.BlockClearedFillsAndCounts := by
  refine ⟨?_, fun fill i => ⟨rfl, rfl, by simpa using patternByte_c16 fill i 0 (by decide),
    patternByte_c16 fill i 1 (by decide), by simpa using patternByte_c32 fill i 0 (by decide),
    patternByte_c32 fill i 1 (by decide), patternByte_c32 fill i 2 (by decide), patternByte_c32 fill i 3 (by decide)⟩⟩
  intro s b f fill n others c w hpin ha hb hl hc hw u k
  have hexec := exec_blockCleared_of_serving s b f fill hpin ha hb
  have hcanvas (v : State) (hv : v.slots = s.slots) : v.canvas n = some c := (v.canvas_congr s n hv).trans hc
  refine ⟨s.store.read_clearBlock b f fill, s.store.condition_clearBlock b f fill,
    s.store.checkBits_clearBlock b f fill, ?_⟩
  intro popped
  refine ⟨fun hr => ?_, fun hr hk => ?_, fun hr hk => ?_⟩
  · exact hexec.trans (congrArg _ (State.blockReport_removal (s := u) hl hr))
  · exact hexec.trans (congrArg _ (State.blockReport_counted (s := u) hl c (hcanvas u rfl) hr hk))
  · intro v contents
    have hcontents : openContents (popped.handle n) c = contents := by
      rw [openContents, enc16_handle popped n (s.canvas_bounds n c hc).2]
      cases n <;> rfl
    rw [hexec, State.blockReport_last (s := u) hl c (hcanvas u rfl) hr hk,
      State.canvasLive_of_clearing popped n c w (hcanvas popped rfl) hw, hcontents]
    rfl

end Sys2Proof.Machine

/-! SUPPORT. The canvas table against the accounts of the ports and the free block map: which changes keep grants in their
places, holdings exact and the map in step with the records (R8, R28, R37). -/

namespace Sys2Proof.Machine

/-! ### Holdings and quotas (R8) -/

/-- The holdings and quotas of a port. -/
def PortBlock.accounts (b : PortBlock) : (Nat × Nat) × Nat × Nat :=
  ((b.canvasesHeld, b.blocksHeld), b.canvasQuota, b.blockQuota)

/-- The holdings are those of runs of these lengths, and lie within the quotas (R8). -/
def PortBlock.Balances (b : PortBlock) (runs : List Nat) : Prop :=
  b.canvasesHeld = runs.length ∧ b.blocksHeld = runs.sum ∧ b.blocksHeld ≤ b.blockQuota ∧ b.canvasesHeld ≤ b.canvasQuota

theorem PortBlock.balances_congr {b d : PortBlock} (h : d.accounts = b.accounts) (runs : List Nat) :
    d.Balances runs ↔ b.Balances runs := by
  simp only [PortBlock.accounts, Prod.mk.injEq] at h
  obtain ⟨⟨h1, h2⟩, h3, h4⟩ := h
  simp only [PortBlock.Balances, h1, h2, h3, h4]

theorem PortBlock.balances_perm {runs others : List Nat} (h : runs.Perm others) (b : PortBlock) :
    b.Balances runs ↔ b.Balances others := by
  simp only [PortBlock.Balances, h.length_eq, h.sum_eq]

/-- What slot `n` adds to the runs of port `p`. -/
def State.runAt (s : State) (p : Port) (n : Nat) : Option Nat :=
  (s.canvas n).bind fun c => if c.owner = p then some c.blockCount else none

theorem State.runsOf_eq (s : State) (p : Port) : s.runsOf p = slotNumbers.filterMap (s.runAt p) := rfl

theorem State.holdingsExact_iff (s : State) : s.HoldingsExact ↔ ∀ p, (s.port p).Balances (s.runsOf p) := Iff.rfl

theorem State.runsOf_congr {s t : State} {p : Port} (h : ∀ n, t.runAt p n = s.runAt p n) : t.runsOf p = s.runsOf p := by
  rw [State.runsOf_eq, State.runsOf_eq, funext h]

theorem slotNumbers_nodup : slotNumbers.Nodup :=
  List.nodup_range.map fun _ _ h => Nat.succ.inj h

/-- The runs of a port, with that of one slot in front. -/
theorem State.runsOf_perm (s : State) (p : Port) (n : Nat) (h1 : 1 ≤ n) (h2 : n ≤ 255) :
    (s.runsOf p).Perm ((s.runAt p n).toList ++ (slotNumbers.erase n).filterMap (s.runAt p)) := by
  have hp := (List.perm_cons_erase ((mem_slotNumbers n).2 ⟨h1, h2⟩)).filterMap (s.runAt p)
  rw [List.filterMap_cons] at hp
  rw [State.runsOf_eq]
  cases h : s.runAt p n <;> rw [h] at hp <;> exact hp

/-- With a change of slot `n` alone, the holdings stay exact when the run of that slot is accounted for. -/
theorem State.HoldingsExact.of_slot {s t : State} (h : s.HoldingsExact) (n : Nat) (h1 : 1 ≤ n) (h2 : n ≤ 255)
    (hne : ∀ m, m ≠ n → t.canvas m = s.canvas m)
    (hb : ∀ p others, (s.port p).Balances ((s.runAt p n).toList ++ others) →
      (t.port p).Balances ((t.runAt p n).toList ++ others)) : t.HoldingsExact := by
  rw [State.holdingsExact_iff] at h ⊢
  intro p
  have hrest : (slotNumbers.erase n).filterMap (t.runAt p) = (slotNumbers.erase n).filterMap (s.runAt p) :=
    List.filterMap_congr fun m hm => by
      rw [State.runAt, State.runAt, hne m ((slotNumbers_nodup.mem_erase_iff).1 hm).1]
  rw [PortBlock.balances_perm (t.runsOf_perm p n h1 h2), hrest]
  exact hb p _ ((PortBlock.balances_perm (s.runsOf_perm p n h1 h2) _).1 (h p))

/-! ### Changes that keep the records -/

/-- From `c` to `d` the record stays, and grants that were in their places are (R7, R37). -/
structure Canvas.StaysPlaced (c d : Canvas) : Prop where
  record : c.SameRecord d
  placed : c.GrantsPlaced → d.GrantsPlaced

theorem Canvas.StaysPlaced.refl (c : Canvas) : c.StaysPlaced c := ⟨.refl c, id⟩

/-- A change that keeps grants in their places, holdings exact and the free block map in step with the records. -/
structure State.Tidies (s t : State) : Prop where
  placed : s.GrantsPlaced → t.GrantsPlaced
  holdings : s.HoldingsExact → t.HoldingsExact
  blocks : s.BlocksExact → t.BlocksExact

theorem State.Tidies.refl (s : State) : s.Tidies s := ⟨id, id, id⟩

theorem State.Tidies.trans {s t u : State} (h : s.Tidies t) (k : t.Tidies u) : s.Tidies u :=
  ⟨k.placed ∘ h.placed, k.holdings ∘ h.holdings, k.blocks ∘ h.blocks⟩

theorem State.tidies_foldl {α : Type} (f : State → α → State) (h : ∀ (s : State) (a : α), s.Tidies (f s a)) (xs : List α)
    (s : State) : s.Tidies (xs.foldl f s) := by
  induction xs generalizing s with
  | nil => exact .refl s
  | cons a t ih => exact (h s a).trans (ih _)

/-- The accounts and the free block map stay. -/
structure State.SameAccounts (s t : State) : Prop where
  map : t.allocated = s.allocated
  ports : ∀ p, (t.port p).accounts = (s.port p).accounts

/-- With accounts and map as they were, it is enough that every record stays with its grants in their places. -/
theorem State.tidies_of_canvases {s t : State} (ha : s.SameAccounts t)
    (hc : ∀ n, Option.Rel Canvas.StaysPlaced (s.canvas n) (t.canvas n)) : s.Tidies t := by
  have hback (n : Nat) (d : Canvas) (hd : t.canvas n = some d) : ∃ c, s.canvas n = some c ∧ c.StaysPlaced d := by
    have h := hc n
    rw [hd] at h
    generalize s.canvas n = o at h
    cases h with
    | some hcd => exact ⟨_, rfl, hcd⟩
  have hforth (n : Nat) (c : Canvas) (hs : s.canvas n = some c) : ∃ d, t.canvas n = some d ∧ c.StaysPlaced d := by
    have h := hc n
    rw [hs] at h
    generalize t.canvas n = o at h
    cases h with
    | some hcd => exact ⟨_, rfl, hcd⟩
  have hholds (c d : Canvas) (b : Nat) (h : c.StaysPlaced d) : d.HoldsBlock b ↔ c.HoldsBlock b := by
    obtain ⟨_, _, _, _, _, hf, hb, _⟩ := h.record
    rw [Canvas.HoldsBlock, Canvas.HoldsBlock, hf, hb]
  refine ⟨fun hp n d hd => ?_, fun hh p => ?_, fun ⟨h1, h2, h3⟩ => ⟨fun b => ?_, fun n d hd => ?_, ?_⟩⟩
  · obtain ⟨c, hs, hcd⟩ := hback n d hd
    exact hcd.placed (hp n c hs)
  · have hr : t.runsOf p = s.runsOf p := by
      refine State.runsOf_congr fun n => ?_
      cases hs : s.canvas n with
      | none =>
        have ht : t.canvas n = none := by
          by_contra hne
          obtain ⟨d, hd⟩ := Option.ne_none_iff_exists'.1 hne
          obtain ⟨c, hs', _⟩ := hback n d hd
          rw [hs] at hs'; cases hs'
        rw [State.runAt, State.runAt, hs, ht]
      | some c =>
        obtain ⟨d, hd, hcd⟩ := hforth n c hs
        obtain ⟨ho, _, _, _, _, _, hb, _⟩ := hcd.record
        rw [State.runAt, State.runAt, hs, hd, Option.bind_some, Option.bind_some, ho, hb]
    rw [hr]
    exact (PortBlock.balances_congr (ha.ports p) _).2 (hh p)
  · rw [ha.map, h1 b]
    constructor
    · rintro ⟨n, c, hs, hb⟩
      obtain ⟨d, hd, hcd⟩ := hforth n c hs
      exact ⟨n, d, hd, (hholds c d b hcd).2 hb⟩
    · rintro ⟨n, d, hd, hb⟩
      obtain ⟨c, hs, hcd⟩ := hback n d hd
      exact ⟨n, c, hs, (hholds c d b hcd).1 hb⟩
  · obtain ⟨c, hs, hcd⟩ := hback n d hd
    obtain ⟨_, _, _, _, _, hf, hb, _⟩ := hcd.record
    rw [hf, hb]
    exact h2 n c hs
  · intro n m d e b hd he hbd hbe
    obtain ⟨c, hs, hcd⟩ := hback n d hd
    obtain ⟨c', hs', hce⟩ := hback m e he
    exact h3 n m c c' b hs hs' ((hholds c d b hcd).1 hbd) ((hholds c' e b hce).1 hbe)

theorem Canvas.rel_refl {R : Canvas → Canvas → Prop} (h : ∀ c, R c c) (o : Option Canvas) : Option.Rel R o o := by
  cases o with
  | none => exact .none
  | some c => exact .some (h c)

/-! ### Release (R10, R30) and OPEN (R14, R28, R29) -/

/-- What slot `n` holds once a change has taken it, all other slots as they were. -/
theorem State.canvas_of_slot {s t : State} {n : Nat} (h : ∀ m, m ≠ n → t.slot m = s.slot m) (m : Nat) (hm : m ≠ n) :
    t.canvas m = s.canvas m := by
  rw [State.canvas, h m hm]; rfl

theorem State.release_allocated (s : State) (n : Nat) (c : Canvas) (hc : s.canvas n = some c) :
    (s.release n).allocated = freeRun s.allocated c.firstBlock c.blockCount := by
  rw [s.release_eq n c hc, State.setSlot_allocated]; rfl

theorem State.release_port (s : State) (n : Nat) (c : Canvas) (hc : s.canvas n = some c) (p : Port) :
    (s.release n).port p = if p = c.owner then { s.port p with
      canvasesHeld := (s.port p).canvasesHeld - 1, blocksHeld := (s.port p).blocksHeld - c.blockCount } else s.port p := by
  rw [s.release_eq n c hc, State.setSlot_port, State.port_modPort]
  rfl

/-- A release takes the run from the map, its blocks from the owner's holdings, and the canvas from the table. -/
theorem State.tidies_release (s : State) (n : Nat) : s.Tidies (s.release n) := by
  cases hc : s.canvas n with
  | none => rw [s.release_none n hc]; exact .refl s
  | some c =>
    obtain ⟨hb1, hb2⟩ := s.canvas_bounds n c hc
    have hsame : (s.release n).canvas n = none := by rw [State.canvas, s.slot_release_same n c hc]
    have hne (m : Nat) (hm : m ≠ n) : (s.release n).canvas m = s.canvas m :=
      State.canvas_of_slot (fun k hk => s.slot_release_ne n k hk) m hm
    have hback (m : Nat) (d : Canvas) (hd : (s.release n).canvas m = some d) : m ≠ n ∧ s.canvas m = some d := by
      have hm : m ≠ n := by rintro rfl; rw [hsame] at hd; cases hd
      exact ⟨hm, hne m hm ▸ hd⟩
    refine ⟨fun h m d hd => h m d (hback m d hd).2, fun h => ?_, fun ⟨h1, h2, h3⟩ => ⟨fun b => ?_, fun m d hd => ?_, ?_⟩⟩
    · refine h.of_slot n hb1 hb2 hne fun p others hp => ?_
      have hn : (s.release n).runAt p n = none := by rw [State.runAt, hsame]; rfl
      rw [hn, s.release_port n c hc p]
      rw [State.runAt, hc, Option.bind_some] at hp
      by_cases ho : c.owner = p
      · rw [if_pos ho.symm]
        rw [if_pos ho] at hp
        simp only [PortBlock.Balances, Option.toList_some, Option.toList_none, List.length_append, List.sum_append,
          List.length_singleton, List.sum_singleton, List.length_nil, List.sum_nil] at hp ⊢
        omega
      · rw [if_neg fun e => ho e.symm]
        rwa [if_neg ho] at hp
    · by_cases hb : b < 4096
      · rw [s.release_allocated n c hc, freeRun_getLsbD _ _ _ _ hb, Bool.and_eq_true, h1 b, Bool.not_eq_true',
          decide_eq_false_iff_not]
        constructor
        · rintro ⟨⟨m, d, hd, hdb⟩, hcb⟩
          have hm : m ≠ n := by
            rintro rfl
            rw [hc] at hd; cases hd
            exact hcb hdb
          exact ⟨m, d, (hne m hm).trans hd, hdb⟩
        · rintro ⟨m, d, hd, hdb⟩
          obtain ⟨hm, hd'⟩ := hback m d hd
          exact ⟨⟨m, d, hd', hdb⟩, fun hcb => hm (h3 m n d c b hd' hc hdb hcb)⟩
      · rw [BitVec.getLsbD_of_ge _ _ (by omega)]
        refine ⟨nofun, ?_⟩
        rintro ⟨m, d, hd, hdb⟩
        have := h2 m d (hback m d hd).2
        simp only [Canvas.HoldsBlock, Config.blocks] at this hdb
        omega
    · exact h2 m d (hback m d hd).2
    · intro m k d e b hd he
      exact h3 m k d e b (hback m d hd).2 (hback k e he).2

theorem State.takeOpen_port (s : State) (p q : Port) (id : ReqId) (a : OpenAsk) (n f : Nat) :
    (s.takeOpen p id a n f).port q = if q = p then { s.port q with
      canvasesHeld := (s.port q).canvasesHeld + 1, blocksHeld := (s.port q).blocksHeld + a.blocks } else s.port q := by
  rw [s.takeOpen_eq]
  simp only [State.port, Quad.get_set]
  split
  · next h => rw [h]
  · rfl

/-- An OPEN within the quotas takes a FREE slot and a free run (R12 to R14). -/
theorem State.tidies_takeOpen (s : State) (p : Port) (id : ReqId) (a : OpenAsk) (n f : Nat) (hn : s.freeSlot = some n)
    (hf : firstFit s.allocated a.blocks = some f) (hq : (s.port p).quotaAllows a.blocks = true) :
    s.Tidies (s.takeOpen p id a n f) := by
  obtain ⟨⟨hb1, hb2⟩, hfree, _⟩ := (s.freeSlot_eq_some n).1 hn
  obtain ⟨hfit, hclear⟩ := firstFit_fits _ _ _ hf
  have hsame : (s.takeOpen p id a n f).canvas n = some (a.record p id f) := by
    rw [State.canvas, s.takeOpen_slot_same p id a n f hb1 hb2]
  have hne (m : Nat) (hm : m ≠ n) : (s.takeOpen p id a n f).canvas m = s.canvas m :=
    State.canvas_of_slot (fun k hk => s.takeOpen_slot_ne p id a n f k hk) m hm
  have hback (m : Nat) (d : Canvas) (hd : (s.takeOpen p id a n f).canvas m = some d) :
      m = n ∧ d = a.record p id f ∨ m ≠ n ∧ s.canvas m = some d := by
    by_cases hm : m = n
    · subst hm; rw [hsame] at hd; cases hd; exact .inl ⟨rfl, rfl⟩
    · exact .inr ⟨hm, hne m hm ▸ hd⟩
  have hapart (m : Nat) (d : Canvas) (b : Nat) (h1 : ∀ b, s.allocated.getLsbD b = true ↔ ∃ n c, s.canvas n = some c ∧ c.HoldsBlock b)
      (hd : s.canvas m = some d) (hdb : d.HoldsBlock b) : ¬ (f ≤ b ∧ b < f + a.blocks) := by
    rintro ⟨h2, h3⟩
    have := (h1 b).2 ⟨m, d, hd, hdb⟩
    rw [hclear b h2 h3] at this; cases this
  refine ⟨fun h m d hd => ?_, fun h => ?_, fun ⟨h1, h2, h3⟩ => ⟨fun b => ?_, fun m d hd => ?_, ?_⟩⟩
  · obtain ⟨_, rfl⟩ | ⟨_, hd'⟩ := hback m d hd
    · exact ⟨List.nodup_nil, nofun, fun _ => rfl⟩
    · exact h m d hd'
  · refine h.of_slot n hb1 hb2 hne fun q others hp => ?_
    have hs : s.runAt q n = none := by rw [State.runAt, hfree]; rfl
    have ht : (s.takeOpen p id a n f).runAt q n = if p = q then some a.blocks else none := by
      rw [State.runAt, hsame]; rfl
    rw [ht, State.takeOpen_port]
    rw [hs] at hp
    by_cases hpq : p = q
    · subst hpq
      rw [PortBlock.quotaAllows_iff] at hq
      simp only [if_true, PortBlock.Balances, Option.toList_some, Option.toList_none, List.length_append, List.sum_append,
        List.length_singleton, List.sum_singleton, List.length_nil, List.sum_nil] at hp ⊢
      omega
    · rw [if_neg hpq, if_neg fun e => hpq e.symm]
      exact hp
  · have hmap : (s.takeOpen p id a n f).allocated = allocateRun s.allocated f a.blocks := by rw [s.takeOpen_eq]
    by_cases hb : b < 4096
    · rw [hmap, allocateRun_getLsbD _ _ _ _ hb, Bool.or_eq_true, h1 b, decide_eq_true_eq]
      constructor
      · rintro (⟨m, d, hd, hdb⟩ | hrun)
        · have hm : m ≠ n := by rintro rfl; rw [hfree] at hd; cases hd
          exact ⟨m, d, (hne m hm).trans hd, hdb⟩
        · exact ⟨n, _, hsame, hrun⟩
      · rintro ⟨m, d, hd, hdb⟩
        obtain ⟨_, rfl⟩ | ⟨_, hd'⟩ := hback m d hd
        · exact .inr hdb
        · exact .inl ⟨m, d, hd', hdb⟩
    · rw [BitVec.getLsbD_of_ge _ _ (by omega)]
      refine ⟨nofun, ?_⟩
      rintro ⟨m, d, hd, hdb⟩
      have hlt : d.firstBlock + d.blockCount ≤ 4096 := by
        obtain ⟨_, rfl⟩ | ⟨_, hd'⟩ := hback m d hd
        · exact hfit
        · exact h2 m d hd'
      have := hdb.2
      omega
  · obtain ⟨_, rfl⟩ | ⟨_, hd'⟩ := hback m d hd
    · exact hfit
    · exact h2 m d hd'
  · intro m k d e b hd he hdb heb
    obtain ⟨rfl, rfl⟩ | ⟨_, hd'⟩ := hback m d hd <;> obtain ⟨rfl, rfl⟩ | ⟨_, he'⟩ := hback k e he
    · rfl
    · exact absurd hdb (hapart k e b h1 he' heb)
    · exact absurd heb (hapart m d b h1 hd' hdb)
    · exact h3 m k d e b hd' he' hdb heb

/-- A part whose slots are all FREE, with empty map and no holdings, keeps every promise of the table. -/
theorem State.exact_of_fresh (s : State) (hc : ∀ n, s.canvas n = none) (hm : s.allocated = 0)
    (hp : ∀ p, (s.port p).canvasesHeld = 0 ∧ (s.port p).blocksHeld = 0) :
    s.GrantsPlaced ∧ s.HoldingsExact ∧ s.BlocksExact ∧ s.EndsTaken := by
  have hnone (n : Nat) (c : Canvas) (P : Prop) (h : s.canvas n = some c) : P := by rw [hc n] at h; cases h
  have hruns (p : Port) : s.runsOf p = [] := by
    rw [State.runsOf_eq, List.filterMap_eq_nil_iff]
    intro n _
    rw [State.runAt, hc n]; rfl
  refine ⟨fun n c h => hnone n c _ h, fun p => ?_, ⟨fun b => ?_, fun n c h => hnone n c _ h, fun n m c d b h => hnone n c _ h⟩,
    fun n c h => hnone n c _ h⟩
  · obtain ⟨h1, h2⟩ := hp p
    rw [hruns, h1, h2]
    exact ⟨rfl, rfl, Nat.zero_le _, Nat.zero_le _⟩
  · rw [hm]
    constructor
    · intro h
      simp at h
    · rintro ⟨n, c, h, _⟩
      exact hnone n c _ h

end Sys2Proof.Machine

/-! SUPPORT. The ends of revokes and closes as each canvas sees them (R45, R53, R54), and the operations that drop pins: none of
them leaves behind an end that is due. -/

namespace Sys2Proof.Machine

/-! ### Grants in their places (R37) -/

/-- Grants stay in their places when some of them go, the rest keeping their ports, and no known canvas becomes CLEARING. -/
theorem Canvas.placed_of_sublist {c d : Canvas} (ho : d.owner = c.owner)
    (hg : (d.grants.map Grant.port).Sublist (c.grants.map Grant.port))
    (hk : d.phase.known = false → c.phase.known = false) (h : c.GrantsPlaced) : d.GrantsPlaced := by
  obtain ⟨h1, h2, h3⟩ := h
  refine ⟨h1.sublist hg, fun hm => h2 (ho ▸ hg.subset hm), fun hd => ?_⟩
  rw [h3 (hk hd), List.map_nil, List.sublist_nil] at hg
  exact List.map_eq_nil_iff.1 hg

/-- In its place, the grant of a port is the one that is found. -/
theorem Canvas.GrantsPlaced.grantTo {c : Canvas} (h : c.GrantsPlaced) (g : Grant) (hg : g ∈ c.grants) :
    c.grantTo g.port = some g := by
  obtain ⟨g', hf⟩ : ∃ g', c.grantTo g.port = some g' := by
    rw [← Option.isSome_iff_exists, Canvas.grantTo, List.find?_isSome]
    exact ⟨g, hg, by simp⟩
  obtain ⟨hm, hp⟩ := c.grantTo_some _ g' hf
  rw [hf, List.inj_on_of_nodup_map h.1 hm hg hp]

theorem Canvas.modGrant_ports (c : Canvas) (p : Port) (f : Grant → Grant) (hf : ∀ g : Grant, (f g).port = g.port) :
    (c.modGrant p f).grants.map Grant.port = c.grants.map Grant.port := by
  rw [Canvas.modGrant, List.map_map]
  refine List.map_congr_left fun g _ => ?_
  simp only [Function.comp]
  split
  · exact hf g
  · rfl

theorem Canvas.modPins_ports (c : Canvas) (p : Port) (f : Nat → Nat) :
    (c.modPins p f).grants.map Grant.port = c.grants.map Grant.port := by
  obtain ⟨_, _, h, hg⟩ := c.modPins_fixed p f
  rw [h]
  have := congrArg (List.map Prod.fst) hg
  simpa [List.map_map, Function.comp_def] using this

theorem Canvas.staysPlaced_modPins (c : Canvas) (p : Port) (f : Nat → Nat) : c.StaysPlaced (c.modPins p f) := by
  obtain ⟨hr, hph⟩ := c.modPins_record p f
  exact ⟨hr, Canvas.placed_of_sublist hr.1 (by rw [c.modPins_ports]) (by rw [hph]; exact id)⟩

theorem Canvas.staysPlaced_modGrant (c : Canvas) (p : Port) (f : Grant → Grant) (hf : ∀ g : Grant, (f g).port = g.port) :
    c.StaysPlaced (c.modGrant p f) :=
  ⟨.refl c, Canvas.placed_of_sublist rfl (by rw [c.modGrant_ports p f hf]) id⟩

/-- The canvas without the grant of `p` (R45). -/
def Canvas.dropGrant (c : Canvas) (p : Port) : Canvas := { c with grants := c.grants.filter fun g => g.port != p }

theorem Canvas.staysPlaced_dropGrant (c : Canvas) (p : Port) : c.StaysPlaced (c.dropGrant p) :=
  ⟨.refl c, Canvas.placed_of_sublist rfl (List.filter_sublist.map _) id⟩

theorem Canvas.staysPlaced_setClosing (c : Canvas) (op : CloseOp) : c.StaysPlaced { c with phase := .closing op } :=
  ⟨.refl c, Canvas.placed_of_sublist rfl (List.Sublist.refl _) nofun⟩

/-! ### Ends that are due (R45, R53) -/

/-- The REVOKING grants of the ports in `A` have pins (R54). -/
def Canvas.TakenFor (c : Canvas) (A : Port → Prop) : Prop := ∀ g ∈ c.grants, A g.port → g.revoke ≠ none → 0 < g.pins

/-- No revoke and no close of the canvas outlives its last pin (R9, R54). -/
def Canvas.EndsTaken (c : Canvas) : Prop :=
  (∀ g ∈ c.grants, g.revoke ≠ none → 0 < g.pins) ∧ (c.phase.isClosing = true → 0 < c.pinCount)

theorem Canvas.EndsTaken.takenFor {c : Canvas} (h : c.EndsTaken) (A : Port → Prop) : c.TakenFor A :=
  fun g hg _ => h.1 g hg

theorem State.endsTaken_iff (s : State) : s.EndsTaken ↔ ∀ n c, s.canvas n = some c → c.EndsTaken := Iff.rfl

theorem Phase.isClosing_iff (ph : Phase) : ph.isClosing = true ↔ ∃ op, ph = .closing op := by
  cases ph <;> simp [Phase.isClosing]

theorem Canvas.closeDue_eq_none (c : Canvas) : c.closeDue = none ↔ (c.phase.isClosing = true → 0 < c.pinCount) := by
  unfold Canvas.closeDue
  split
  · next op h =>
    rw [h]
    simp [Phase.isClosing, Nat.pos_iff_ne_zero]
  · next h =>
    rw [Phase.isClosing_iff]
    simp only [true_iff]
    rintro ⟨op, hop⟩
    exact absurd hop (h op)

theorem Canvas.revokeDue_iff (c : Canvas) (p : Port) :
    c.revokeDue p = true ↔ ∃ g r, c.grantTo p = some g ∧ g.revoke = some r ∧ g.pins = 0 := by
  simp only [Canvas.revokeDue, Option.any_eq_true, Bool.and_eq_true, beq_iff_eq, Option.isSome_iff_exists]
  constructor
  · rintro ⟨g, hg, ⟨r, hr⟩, h0⟩
    exact ⟨g, r, hg, hr, h0⟩
  · rintro ⟨g, r, hg, hr, h0⟩
    exact ⟨g, hg, ⟨r, hr⟩, h0⟩

/-- The grant of a port whose revoke is not due has pins if it is REVOKING. -/
theorem Canvas.GrantsPlaced.takenFor {c : Canvas} (h : c.GrantsPlaced) (p : Port) (hr : c.revokeDue p = false) :
    c.TakenFor (· = p) := by
  rintro g hg rfl hv
  obtain ⟨r, hr'⟩ := Option.ne_none_iff_exists'.1 hv
  by_contra h0
  have : c.revokeDue g.port = true := (c.revokeDue_iff _).2 ⟨g, r, h.grantTo g hg, hr', by omega⟩
  rw [hr] at this; cases this

/-- Without a grant that has no pins, the pin count stands (R9). -/
theorem Canvas.pinCount_dropGrant {c : Canvas} (h : c.GrantsPlaced) (p : Port) (hp : ∀ g, c.grantTo p = some g → g.pins = 0) :
    (c.dropGrant p).pinCount = c.pinCount := by
  have hz : ∀ g ∈ c.grants, g.port = p → g.pins = 0 := by
    rintro g hg rfl
    exact hp g (h.grantTo g hg)
  have hsum (l : List Grant) (hl : ∀ g ∈ l, g.port = p → g.pins = 0) :
      ((l.filter fun g => g.port != p).map Grant.pins).sum = (l.map Grant.pins).sum := by
    induction l with
    | nil => rfl
    | cons g t ih =>
      have ht := ih fun x hx => hl x (List.mem_cons_of_mem _ hx)
      by_cases hg : g.port = p
      · have h0 := hl g (List.mem_cons_self ..) hg
        simp [hg, h0, ht]
      · simp [hg, ht]
  exact congrArg (c.ownerPins + ·) (hsum c.grants hz)

theorem Canvas.pinCount_dropGrant_of_due {c : Canvas} (h : c.GrantsPlaced) (p : Port) (hd : c.revokeDue p = true) :
    (c.dropGrant p).pinCount = c.pinCount := by
  obtain ⟨g, _, hg, _, h0⟩ := (c.revokeDue_iff p).1 hd
  exact Canvas.pinCount_dropGrant h p fun g' hg' => by rw [hg] at hg'; cases hg'; exact h0

/-- What the canvas becomes when the ends that `p`'s pins have brought are taken: nothing after the end of its close, else
without `p`'s grant after the end of the revoke (R45, R53, R54). -/
def Canvas.settled (c : Canvas) (p : Port) : Option Canvas :=
  if c.closeDue.isSome then none else if c.revokeDue p then some (c.dropGrant p) else some c

theorem Canvas.settled_eq_some {c d : Canvas} {p : Port} (h : c.settled p = some d) :
    c.closeDue = none ∧ (c.revokeDue p = true ∧ d = c.dropGrant p ∨ c.revokeDue p = false ∧ d = c) := by
  unfold Canvas.settled at h
  split at h
  · cases h
  · next hc =>
    refine ⟨by simpa using hc, ?_⟩
    split at h
    · next hr => cases h; exact .inl ⟨hr, rfl⟩
    · next hr => cases h; exact .inr ⟨by simpa using hr, rfl⟩

/-- Once they are taken, no close is due, nor a revoke of that port (R45, R53). -/
theorem Canvas.settled_taken {c d : Canvas} {p : Port} (hp : c.GrantsPlaced) (h : c.settled p = some d) :
    d.TakenFor (· = p) ∧ (d.phase.isClosing = true → 0 < d.pinCount) := by
  obtain ⟨hc, ⟨hr, rfl⟩ | ⟨hr, rfl⟩⟩ := Canvas.settled_eq_some h
  · refine ⟨fun g hg he => ?_, ?_⟩
    · have := (List.mem_filter.1 hg).2
      rw [he] at this
      simp at this
    · rw [Canvas.pinCount_dropGrant_of_due hp p hr]
      exact c.closeDue_eq_none.1 hc
  · exact ⟨hp.takenFor p hr, d.closeDue_eq_none.1 hc⟩

theorem Canvas.TakenFor.settled {c d : Canvas} {p : Port} {A : Port → Prop} (ht : c.TakenFor A) (h : c.settled p = some d) :
    d.TakenFor A := by
  obtain ⟨_, ⟨_, rfl⟩ | ⟨_, rfl⟩⟩ := Canvas.settled_eq_some h
  · exact fun g hg => ht g (List.mem_filter.1 hg).1
  · exact ht

/-- With the ends of `p` taken, it is enough that those of the other ports were. -/
theorem Canvas.TakenFor.endsTaken_settled {c d : Canvas} {p : Port} (ht : c.TakenFor (· ≠ p)) (hp : c.GrantsPlaced)
    (h : c.settled p = some d) : d.EndsTaken := by
  obtain ⟨h1, h2⟩ := Canvas.settled_taken hp h
  refine ⟨fun g hg => ?_, h2⟩
  by_cases hgp : g.port = p
  · exact h1 g hg hgp
  · exact ht.settled h g hg hgp

theorem Canvas.staysPlaced_settled {c d : Canvas} {p : Port} (h : c.settled p = some d) : c.StaysPlaced d := by
  obtain ⟨_, ⟨_, rfl⟩ | ⟨_, rfl⟩⟩ := Canvas.settled_eq_some h
  · exact c.staysPlaced_dropGrant p
  · exact .refl _

/-! ### Pins of one port (R9, R70) -/

/-- A change of `p`'s pins leaves the grants of other ports. -/
theorem Canvas.mem_modPins {c : Canvas} {p : Port} {f : Nat → Nat} {g : Grant} (h : g ∈ (c.modPins p f).grants)
    (hg : g.port ≠ p) : g ∈ c.grants := by
  unfold Canvas.modPins at h
  split at h
  · exact h
  · obtain ⟨x, hx, rfl⟩ := List.mem_map.1 h
    split at hg
    · next hp => exact absurd hp hg
    · next hp => simpa [hp] using hx

theorem Canvas.TakenFor.modPins {c : Canvas} {p : Port} {A : Port → Prop} (h : c.TakenFor A) (f : Nat → Nat) :
    (c.modPins p f).TakenFor fun q => A q ∧ q ≠ p :=
  fun g hg ⟨hA, hp⟩ => h g (Canvas.mem_modPins hg hp) hA

/-- A port that may hold no pins on a canvas changes none. -/
theorem Canvas.modPins_of_not_holds (c : Canvas) (p : Port) (f : Nat → Nat) (h : ¬ c.Holds p) : c.modPins p f = c := by
  simp only [Canvas.Holds, not_or, Bool.not_eq_true, Option.isSome_eq_false_iff, Option.isNone_iff_eq_none] at h
  obtain ⟨ho, hg⟩ := h
  have hid : c.grants.map (fun g : Grant => if g.port = p then { g with pins := f g.pins } else g) = c.grants := by
    conv_rhs => rw [← List.map_id c.grants]
    refine List.map_congr_left fun g hm => ?_
    have : g.port ≠ p := by simpa using List.find?_eq_none.1 hg g hm
    simp [this]
  rw [Canvas.modPins, if_neg ho, Canvas.modGrant, hid]

/-- An unpin of `q` takes the ends it brings: what was taken before is taken after (R9, R45, R53). -/
theorem Canvas.TakenFor.unpin {c d : Canvas} {q : Port} {A : Port → Prop} (ht : c.TakenFor A) (hp : c.GrantsPlaced)
    (h : (c.modPins q (· - 1)).settled q = some d) : d.TakenFor A ∧ (d.phase.isClosing = true → 0 < d.pinCount) := by
  obtain ⟨h1, h2⟩ := Canvas.settled_taken ((c.staysPlaced_modPins q _).placed hp) h
  refine ⟨fun g hg hA => ?_, h2⟩
  by_cases hgq : g.port = q
  · exact h1 g hg hgq
  · exact (ht.modPins (· - 1)).settled h g hg ⟨hA, hgq⟩

theorem Canvas.EndsTaken.unpin {c d : Canvas} {q : Port} (ht : c.EndsTaken) (hp : c.GrantsPlaced)
    (h : (c.modPins q (· - 1)).settled q = some d) : d.EndsTaken := by
  obtain ⟨h1, h2⟩ := (ht.takenFor fun _ => True).unpin hp h
  exact ⟨fun g hg => h1 g hg trivial, h2⟩

/-! ### The ends in the canvas table (R45, R53) -/

theorem State.canvas_setCanvas (s : State) (n m : Nat) (c d : Canvas) (h : s.canvas n = some c) :
    (s.setCanvas n d).canvas m = if m = n then some d else s.canvas m := by
  split
  · next hm => subst hm; exact s.canvas_setCanvas_same m d c h
  · next hm => exact s.canvas_setCanvas_ne n m d hm

theorem State.canvas_release (s : State) (n m : Nat) : (s.release n).canvas m = if m = n then none else s.canvas m := by
  split
  · next hm =>
    subst hm
    cases hc : s.canvas m with
    | none => rw [s.release_none m hc, hc]
    | some c => rw [State.canvas, s.slot_release_same m c hc]
  · next hm => exact State.canvas_of_slot (fun k hk => s.slot_release_ne n k hk) m hm

/-- The end of a revoke under way (R45): the grant goes, the waiters are answered, GRANT-LOST is set. -/
theorem State.endRevoke_eq (s : State) (n : Nat) (p : Port) (c : Canvas) (g : Grant) (r : RevokeOp)
    (hc : s.canvas n = some c) (hg : c.grantTo p = some g) (hr : g.revoke = some r) :
    s.endRevoke n p = ((s.setCanvas n (c.dropGrant p)).answerWaiters r.waiters
      (revokeContents (s.handle n) p r.outcome)).modPort p fun b => b.raise .grantLost := by
  simp only [State.endRevoke, hc, hg, hr]
  rfl

theorem State.canvas_endRevoke (s : State) (n m : Nat) (p : Port) (c : Canvas) (g : Grant) (r : RevokeOp)
    (hc : s.canvas n = some c) (hg : c.grantTo p = some g) (hr : g.revoke = some r) :
    (s.endRevoke n p).canvas m = if m = n then some (c.dropGrant p) else s.canvas m := by
  rw [s.endRevoke_eq n p c g r hc hg hr, State.modPort_canvas, State.answerWaiters_canvas, s.canvas_setCanvas n m c _ hc]

/-- The waiters, flags and grants of a close that ends, up to the release (R53). -/
def State.closeAnswers (s : State) (n : Nat) (c : Canvas) (op : CloseOp) : State :=
  let h := s.handle n
  let s1 := c.grants.foldl (State.answerRevoke h) s
  let s2 := c.grants.foldl (fun s g => s.modPort g.port fun b => b.raise .grantLost) (s1.setCanvas n { c with grants := [] })
  let s3 := s2.answerWaiters op.waiters (closeContents h op.mode.outcome)
  if op.forced then s3.modPort c.owner fun b => b.raise .canvasLost else s3

theorem State.endClose_eq (s : State) (n : Nat) (op : CloseOp) (c : Canvas) (hc : s.canvas n = some c) :
    s.endClose n op = (s.closeAnswers n c op).release n := by
  simp only [State.endClose, hc]
  rfl

theorem State.canvas_closeAnswers (s : State) (n m : Nat) (c : Canvas) (op : CloseOp) (hc : s.canvas n = some c) :
    (s.closeAnswers n c op).canvas m = if m = n then some { c with grants := [] } else s.canvas m := by
  unfold State.closeAnswers
  dsimp only
  set s1 := c.grants.foldl (State.answerRevoke (s.handle n)) s with hs1
  have h1 (k : Nat) : s1.canvas k = s.canvas k := State.canvas_foldl _ k (fun s g => s.answerRevoke_canvas _ g k) c.grants s
  set s2 := c.grants.foldl (fun s g => s.modPort g.port fun b => b.raise .grantLost) (s1.setCanvas n { c with grants := [] })
  have h2 : s2.canvas m = (s1.setCanvas n { c with grants := [] }).canvas m :=
    State.canvas_foldl _ m (fun s g => s.modPort_canvas g.port _ m) c.grants _
  rw [← h1 m, ← s1.canvas_setCanvas n m c _ ((h1 n).trans hc), ← h2]
  split
  · rw [State.modPort_canvas, State.answerWaiters_canvas]
  · rw [State.answerWaiters_canvas]

theorem State.canvas_endClose (s : State) (n m : Nat) (op : CloseOp) (c : Canvas) (hc : s.canvas n = some c) :
    (s.endClose n op).canvas m = if m = n then none else s.canvas m := by
  rw [s.endClose_eq n op c hc, State.canvas_release]
  split
  · rfl
  · next hm => rw [s.canvas_closeAnswers n m c op hc, if_neg hm]

/-- The ends on one slot, as the canvas table shows them. -/
theorem State.canvas_settle (s : State) (n m : Nat) (p : Port) :
    (s.settle n p).canvas m = if m = n then (s.canvas n).bind fun c => c.settled p else s.canvas m := by
  cases hc : s.canvas n with
  | none =>
    have hs : s.settle n p = s := by simp only [State.settle, hc]
    rw [hs, Option.bind_none]
    split
    · next hm => rw [hm, hc]
    · rfl
  | some c =>
    rw [Option.bind_some]
    obtain ⟨c', op, hc', hd, h⟩ | ⟨c', hc', hn, hd, h⟩ | ⟨h, hno⟩ := s.settle_cases n p
    · rw [hc] at hc'; cases hc'
      rw [h, s.canvas_endClose n m op c hc, Canvas.settled, hd]
      rfl
    · rw [hc] at hc'; cases hc'
      obtain ⟨g, r, hg, hr, _⟩ := (c.revokeDue_iff p).1 hd
      rw [h, s.canvas_endRevoke n m p c g r hc hg hr, Canvas.settled, hn, hd]
      rfl
    · obtain ⟨h1, h2⟩ := hno c hc
      rw [h, Canvas.settled, h1, h2]
      split
      · next hm => rw [hm, hc]; rfl
      · rfl

theorem State.canvas_unpin (s : State) (p : Port) (h : Handle) (m : Nat) : (s.unpin p h).canvas m =
    if m = handleSlot h then (s.canvas m).bind fun c => (c.modPins p (· - 1)).settled p else s.canvas m := by
  rw [State.unpin, State.canvas_settle]
  split
  · next hm =>
    subst hm
    rw [State.canvas_modCanvas, if_pos rfl, Option.bind_map]
    rfl
  · next hm => rw [State.canvas_modCanvas, if_neg hm]

/-! ### Tidiness of the ends -/

/-- Nothing changes but what is not of the table, its map or its accounts. -/
structure State.TableStays (s t : State) : Prop extends s.SameAccounts t where
  slots : t.slots = s.slots

theorem State.TableStays.refl (s : State) : s.TableStays s := ⟨⟨rfl, fun _ => rfl⟩, rfl⟩

theorem State.TableStays.trans {s t u : State} (h : s.TableStays t) (k : t.TableStays u) : s.TableStays u :=
  ⟨⟨k.map.trans h.map, fun p => (k.ports p).trans (h.ports p)⟩, k.slots.trans h.slots⟩

theorem State.TableStays.canvas {s t : State} (h : s.TableStays t) (n : Nat) : t.canvas n = s.canvas n :=
  t.canvas_congr s n h.slots

theorem State.TableStays.tidies {s t : State} (h : s.TableStays t) : s.Tidies t :=
  State.tidies_of_canvases h.toSameAccounts fun n => by rw [h.canvas n]; exact Canvas.rel_refl .refl _

theorem State.tableStays_foldl {α : Type} (f : State → α → State) (h : ∀ (s : State) (a : α), s.TableStays (f s a))
    (xs : List α) (s : State) : s.TableStays (xs.foldl f s) := by
  induction xs generalizing s with
  | nil => exact .refl s
  | cons a t ih => exact (h s a).trans (ih _)

theorem State.tableStays_setPort (s : State) (p : Port) (b : PortBlock)
    (h : b.accounts = (s.port p).accounts) : s.TableStays (s.setPort p b) := by
  refine ⟨⟨rfl, fun q => ?_⟩, rfl⟩
  rw [State.port_setPort]
  split
  · next hq => rw [hq]; exact h
  · rfl

theorem State.tableStays_modPort (s : State) (p : Port) (f : PortBlock → PortBlock)
    (h : (f (s.port p)).accounts = (s.port p).accounts) : s.TableStays (s.modPort p f) := s.tableStays_setPort p _ h

@[simp] theorem PortBlock.raise_accounts (b : PortBlock) (k : Flag) : (b.raise k).accounts = b.accounts := by
  rw [PortBlock.raise_eq]; rfl

@[simp] theorem PortBlock.answer_accounts (b : PortBlock) (id : ReqId) (m : List Byte) :
    (b.answer id m).accounts = b.accounts := by
  rw [PortBlock.answer_eq]; rfl

theorem State.tableStays_raise (s : State) (p : Port) (k : Flag) : s.TableStays (s.modPort p fun b => b.raise k) :=
  s.tableStays_modPort p _ (PortBlock.raise_accounts _ k)

theorem State.tableStays_answerWaiters (s : State) (ws : List Waiter) (m : List Byte) :
    s.TableStays (s.answerWaiters ws m) :=
  State.tableStays_foldl _ (fun s (w : Waiter) => s.tableStays_modPort w.port _ (PortBlock.answer_accounts _ w.id m)) ws s

theorem State.tableStays_answerRevoke (a : Handle) (s : State) (g : Grant) : s.TableStays (s.answerRevoke a g) := by
  unfold State.answerRevoke
  split
  · exact .refl s
  · exact s.tableStays_answerWaiters _ _

/-- A canvas gives way to one with the same record and its grants in their places. -/
theorem State.tidies_setCanvas (s : State) (n : Nat) (c d : Canvas) (hc : s.canvas n = some c) (h : c.StaysPlaced d) :
    s.Tidies (s.setCanvas n d) := by
  refine State.tidies_of_canvases ⟨s.setCanvas_allocated n d, fun p => by rw [State.setCanvas_port]⟩ fun m => ?_
  rw [s.canvas_setCanvas n m c d hc]
  split
  · next hm => subst hm; rw [hc]; exact .some h
  · exact Canvas.rel_refl .refl _

theorem State.tidies_modCanvas (s : State) (n : Nat) (f : Canvas → Canvas) (h : ∀ c, s.canvas n = some c → c.StaysPlaced (f c)) :
    s.Tidies (s.modCanvas n f) := by
  unfold State.modCanvas
  split
  · exact .refl s
  · next c hc => exact s.tidies_setCanvas n c _ hc (h c hc)

theorem State.tidies_endRevoke (s : State) (n : Nat) (p : Port) : s.Tidies (s.endRevoke n p) := by
  unfold State.endRevoke
  split
  · exact .refl s
  · next c hc =>
    split
    · exact .refl s
    · split
      · exact .refl s
      · exact ((s.tidies_setCanvas n c _ hc (c.staysPlaced_dropGrant p)).trans
          (State.tableStays_answerWaiters _ _ _).tidies).trans (State.tableStays_raise _ _ _).tidies

theorem State.tidies_closeAnswers (s : State) (n : Nat) (c : Canvas) (op : CloseOp) (hc : s.canvas n = some c) :
    s.Tidies (s.closeAnswers n c op) := by
  unfold State.closeAnswers
  dsimp only
  set s1 := c.grants.foldl (State.answerRevoke (s.handle n)) s with hs1
  have h1 : s.TableStays s1 := State.tableStays_foldl _ (State.tableStays_answerRevoke _) _ _
  have h2 : s1.Tidies (s1.setCanvas n { c with grants := [] }) :=
    s1.tidies_setCanvas n c _ ((h1.canvas n).trans hc)
      ⟨.refl c, Canvas.placed_of_sublist rfl (List.nil_sublist _) id⟩
  set s2 := c.grants.foldl (fun s g => s.modPort g.port fun b => b.raise .grantLost) (s1.setCanvas n { c with grants := [] })
  have h3 : State.TableStays (s1.setCanvas n { c with grants := [] }) s2 :=
    State.tableStays_foldl _ (fun s (g : Grant) => s.tableStays_raise g.port .grantLost) _ _
  have h4 := s2.tableStays_answerWaiters op.waiters (closeContents (s.handle n) op.mode.outcome)
  have h5 := ((h1.tidies.trans h2).trans h3.tidies).trans h4.tidies
  split
  · exact h5.trans (State.tableStays_raise _ _ _).tidies
  · exact h5

theorem State.tidies_endClose (s : State) (n : Nat) (op : CloseOp) : s.Tidies (s.endClose n op) := by
  cases hc : s.canvas n with
  | none => simp only [State.endClose, hc]; exact .refl s
  | some c =>
    rw [s.endClose_eq n op c hc]
    exact (s.tidies_closeAnswers n c op hc).trans (State.tidies_release _ n)

theorem State.tidies_settle (s : State) (n : Nat) (p : Port) : s.Tidies (s.settle n p) := by
  obtain ⟨_, op, _, _, h⟩ | ⟨_, _, _, _, h⟩ | ⟨h, _⟩ := s.settle_cases n p <;> rw [h]
  · exact s.tidies_endClose n op
  · exact s.tidies_endRevoke n p
  · exact .refl s

theorem State.tidies_modPins (s : State) (n : Nat) (p : Port) (f : Nat → Nat) :
    s.Tidies (s.modCanvas n fun c => c.modPins p f) := s.tidies_modCanvas n _ fun c _ => c.staysPlaced_modPins p f

theorem State.tidies_dropPins (s : State) (p : Port) (hs : List Handle) : s.Tidies (s.dropPins p hs) :=
  State.tidies_foldl _ (fun s h => s.tidies_modPins (handleSlot h) p _) hs s

theorem State.tidies_settleAll (s : State) (p : Port) (hs : List Handle) : s.Tidies (s.settleAll p hs) := by
  induction hs generalizing s with
  | nil => exact .refl s
  | cons h t ih =>
    rw [State.settleAll]
    refine State.Tidies.trans ?_ (ih _)
    split
    · exact .refl s
    · exact s.tidies_settle _ _

theorem State.tidies_unpin (s : State) (p : Port) (h : Handle) : s.Tidies (s.unpin p h) :=
  (s.tidies_modPins _ p _).trans (State.tidies_settle _ _ _)

/-! ### Changes that keep every promise of the table -/

/-- From `c` to `d` record, places of grants, and ends taken are kept. -/
structure Canvas.Upholds (c d : Canvas) : Prop extends c.StaysPlaced d where
  ends : c.GrantsPlaced → c.EndsTaken → d.EndsTaken

theorem Canvas.Upholds.refl (c : Canvas) : c.Upholds c := ⟨.refl c, fun _ h => h⟩

/-- A change that keeps the table tidy and, with grants in their places, every end taken. -/
structure State.Upholds (s t : State) : Prop extends s.Tidies t where
  ends : s.GrantsPlaced → s.EndsTaken → t.EndsTaken

theorem State.Upholds.refl (s : State) : s.Upholds s := ⟨.refl s, fun _ h => h⟩

theorem State.Upholds.trans {s t u : State} (h : s.Upholds t) (k : t.Upholds u) : s.Upholds u :=
  ⟨h.toTidies.trans k.toTidies, fun hp he => k.ends (h.placed hp) (h.ends hp he)⟩

theorem State.upholds_foldl {α : Type} (f : State → α → State) (h : ∀ (s : State) (a : α), s.Upholds (f s a)) (xs : List α)
    (s : State) : s.Upholds (xs.foldl f s) := by
  induction xs generalizing s with
  | nil => exact .refl s
  | cons a t ih => exact (h s a).trans (ih _)

theorem State.TableStays.upholds {s t : State} (h : s.TableStays t) : s.Upholds t :=
  ⟨h.tidies, fun _ he n c hc => he n c (h.canvas n ▸ hc)⟩

theorem State.upholds_of_canvases {s t : State} (ha : s.SameAccounts t)
    (hc : ∀ n, Option.Rel Canvas.Upholds (s.canvas n) (t.canvas n)) : s.Upholds t := by
  refine ⟨State.tidies_of_canvases ha fun n => ?_, fun hp he n d hd => ?_⟩
  · have h := hc n
    generalize s.canvas n = o, t.canvas n = o' at h
    cases h with
    | none => exact .none
    | some h => exact .some h.toStaysPlaced
  · have h := hc n
    rw [hd] at h
    cases hs : s.canvas n with
    | none => rw [hs] at h; cases h
    | some c =>
      rw [hs] at h
      cases h with
      | some h => exact h.ends (hp n c hs) (he n c hs)

theorem State.upholds_setCanvas (s : State) (n : Nat) (c d : Canvas) (hc : s.canvas n = some c) (h : c.Upholds d) :
    s.Upholds (s.setCanvas n d) := by
  refine State.upholds_of_canvases ⟨s.setCanvas_allocated n d, fun p => by rw [State.setCanvas_port]⟩ fun m => ?_
  rw [s.canvas_setCanvas n m c d hc]
  split
  · next hm => subst hm; rw [hc]; exact .some h
  · exact Canvas.rel_refl .refl _

theorem State.upholds_modCanvas (s : State) (n : Nat) (f : Canvas → Canvas) (h : ∀ c, s.canvas n = some c → c.Upholds (f c)) :
    s.Upholds (s.modCanvas n f) := by
  unfold State.modCanvas
  split
  · exact .refl s
  · next c hc => exact s.upholds_setCanvas n c _ hc (h c hc)

/-- The same change of every slot. -/
theorem State.upholds_map (s : State) (f : Canvas → Canvas) (h : ∀ c : Canvas, c.Upholds (f c)) :
    s.Upholds { s with slots := s.slots.map fun x : Slot => { x with canvas := x.canvas.map f } } := by
  refine State.upholds_of_canvases ⟨rfl, fun _ => rfl⟩ fun n => ?_
  have hs : State.canvas { s with slots := s.slots.map fun x : Slot => { x with canvas := x.canvas.map f } } n =
      (s.canvas n).map f := by
    cases n with
    | zero => rfl
    | succ k => by_cases hk : k < 255 <;> simp [State.canvas, State.slot, hk]
  rw [hs]
  cases s.canvas n with
  | none => exact .none
  | some c => exact .some (h c)

/-- With a slot that goes to FREE and the others as they were, every end stays taken. -/
theorem State.endsTaken_of_freed {s t : State} (n : Nat) (h : ∀ m, t.canvas m = if m = n then none else s.canvas m)
    (he : s.EndsTaken) : t.EndsTaken := by
  intro m c hc
  rw [h] at hc
  split at hc
  · cases hc
  · exact he m c hc

theorem State.upholds_release (s : State) (n : Nat) : s.Upholds (s.release n) :=
  ⟨s.tidies_release n, fun _ => State.endsTaken_of_freed n (s.canvas_release n)⟩

theorem State.upholds_endClose (s : State) (n : Nat) (op : CloseOp) : s.Upholds (s.endClose n op) := by
  refine ⟨s.tidies_endClose n op, fun _ he => ?_⟩
  cases hc : s.canvas n with
  | none => simpa only [State.endClose, hc] using he
  | some c => exact State.endsTaken_of_freed n (fun m => s.canvas_endClose n m op c hc) he

/-! ### Pins dropped, with ends still to come (R77, R156) -/

/-- Every end is taken but those of `p`'s pins on the canvases that `D` picks. -/
def State.EndsTakenBut (s : State) (p : Port) (D : Nat → Canvas → Prop) : Prop :=
  ∀ n c, s.canvas n = some c → c.TakenFor (· ≠ p) ∧ (c.EndsTaken ∨ D n c)

theorem State.EndsTaken.but {s : State} (h : s.EndsTaken) (p : Port) (D : Nat → Canvas → Prop) : s.EndsTakenBut p D :=
  fun n c hc => ⟨Canvas.EndsTaken.takenFor (h n c hc) _, .inl (h n c hc)⟩

theorem State.EndsTakenBut.endsTaken {s : State} {p : Port} {D : Nat → Canvas → Prop} (h : s.EndsTakenBut p D)
    (hD : ∀ n c, ¬ D n c) : s.EndsTaken := fun n c hc => (h n c hc).2.resolve_right (hD n c)

theorem State.EndsTakenBut.mono {s : State} {p : Port} {D E : Nat → Canvas → Prop} (h : s.EndsTakenBut p D)
    (hDE : ∀ n c, s.canvas n = some c → D n c → E n c) : s.EndsTakenBut p E :=
  fun n c hc => ⟨(h n c hc).1, (h n c hc).2.imp_right (hDE n c hc)⟩

theorem State.EndsTakenBut.tableStays {s t : State} {p : Port} {D : Nat → Canvas → Prop} (h : s.EndsTakenBut p D)
    (k : s.TableStays t) : t.EndsTakenBut p D := fun n c hc => h n c (k.canvas n ▸ hc)

/-- The ends of `p`'s pins on slot `a` are taken (R45, R53). -/
theorem State.EndsTakenBut.settle {s : State} {p : Port} {a : Nat} {D : Nat → Canvas → Prop}
    (h : s.EndsTakenBut p fun n c => n = a ∨ D n c) (hp : s.GrantsPlaced) : (s.settle a p).EndsTakenBut p D := by
  intro n c hc
  rw [State.canvas_settle] at hc
  split at hc
  · obtain ⟨b, hb, hd⟩ := Option.bind_eq_some_iff.1 hc
    have := (h a b hb).1.endsTaken_settled (hp a b hb) hd
    exact ⟨this.takenFor _, .inl this⟩
  · next hn =>
    obtain ⟨h1, h2⟩ := h n c hc
    exact ⟨h1, h2.imp_right fun h => h.resolve_left hn⟩

/-- The ends of the slots listed are taken one by one. -/
theorem State.EndsTakenBut.settles {s : State} {p : Port} {ns : List Nat} (h : s.EndsTakenBut p fun n _ => n ∈ ns)
    (hp : s.GrantsPlaced) : (ns.foldl (fun s n => s.settle n p) s).EndsTaken := by
  induction ns generalizing s with
  | nil => exact h.endsTaken fun _ _ => List.not_mem_nil
  | cons a t ih =>
    exact ih ((h.mono fun _ _ _ hn => List.mem_cons.1 hn).settle hp) ((s.tidies_settle a p).placed hp)

/-- The canvas manager takes every end that the pins dropped have brought (R45, R53). -/
theorem State.EndsTakenBut.settleAll {s : State} {p : Port} {hs : List Handle}
    (h : s.EndsTakenBut p fun n _ => n ∈ hs.map handleSlot) (hp : s.GrantsPlaced) : (s.settleAll p hs).EndsTaken := by
  induction hs generalizing s with
  | nil => exact h.endsTaken fun _ _ => List.not_mem_nil
  | cons a t ih =>
    rw [State.settleAll]
    split
    · next ha =>
      refine ih (h.mono fun n _ _ hn => ?_) hp
      rcases List.mem_cons.1 hn with rfl | hn
      · exact List.mem_map_of_mem ha
      · exact hn
    · exact ih ((h.mono fun _ _ _ hn => List.mem_cons.1 hn).settle hp) ((s.tidies_settle _ p).placed hp)

/-- What pins dropped by `p` leave to be taken: ends on the slots of those pins, and of a close only where `p` may hold pins. -/
def PinsDropped (p : Port) (ns : List Nat) (n : Nat) (c : Canvas) : Prop :=
  n ∈ ns ∧ (c.phase.isClosing = true → 0 < c.pinCount ∨ c.Holds p)

theorem State.EndsTakenBut.dropPins {s : State} {p : Port} {ns : List Nat} (h : s.EndsTakenBut p (PinsDropped p ns))
    (hs : List Handle) (hn : ∀ a ∈ hs, handleSlot a ∈ ns) : (s.dropPins p hs).EndsTakenBut p (PinsDropped p ns) := by
  induction hs generalizing s with
  | nil => exact h
  | cons a t ih =>
    refine ih (fun n c hc => ?_) fun b hb => hn b (List.mem_cons_of_mem _ hb)
    rw [State.canvas_modCanvas] at hc
    split at hc
    · next hna =>
      obtain ⟨b, hb, rfl⟩ := Option.map_eq_some_iff.1 hc
      obtain ⟨h1, h2⟩ := h n b hb
      refine ⟨fun g hg hgp => h1.modPins (p := p) (· - 1) g hg ⟨hgp, hgp⟩, ?_⟩
      by_cases hh : b.Holds p
      · exact .inr ⟨hna ▸ hn a (List.mem_cons_self ..), fun _ => .inr (b.holds_modPins p p _ hh)⟩
      · rw [b.modPins_of_not_holds p _ hh]
        exact h2
    · exact h n c hc

/-- Pins are dropped, ports and other parts change, and then the ends are taken (R77, R84, R87). -/
theorem State.upholds_drop_settle (s t : State) (p : Port) (hs : List Handle) (hg : (s.dropPins p hs).TableStays t) :
    s.Upholds (t.settleAll p hs) := by
  have ht : s.Tidies t := (s.tidies_dropPins p hs).trans hg.tidies
  refine ⟨ht.trans (State.tidies_settleAll _ p hs), fun hp he => ?_⟩
  have hd := (he.but p (PinsDropped p (hs.map handleSlot))).dropPins hs fun a ha => List.mem_map_of_mem ha
  exact ((hd.mono fun _ _ _ h => h.1).tableStays hg).settleAll (ht.placed hp)

/-! ### Pins dropped one by one (R9, R46) -/

theorem State.upholds_unpin (s : State) (p : Port) (h : Handle) : s.Upholds (s.unpin p h) := by
  refine ⟨s.tidies_unpin p h, fun hp he n d hd => ?_⟩
  rw [State.canvas_unpin] at hd
  split at hd
  · obtain ⟨c, hc, hcd⟩ := Option.bind_eq_some_iff.1 hd
    exact Canvas.EndsTaken.unpin (he n c hc) (hp n c hc) hcd
  · exact he n d hd

theorem State.upholds_unpinAll (s : State) (p : Port) (hs : List Handle) : s.Upholds (s.unpinAll p hs) :=
  State.upholds_foldl _ (fun s h => s.upholds_unpin p h) hs s

@[simp] theorem PortBlock.stopRequest_accounts (b : PortBlock) (busy : Bool) :
    (b.stopRequest busy).accounts = b.accounts := by
  rw [PortBlock.stopRequest_eq]; rfl

@[simp] theorem PortBlock.refreshStaging_accounts (b : PortBlock) : b.refreshStaging.accounts = b.accounts := by
  rw [PortBlock.refreshStaging_eq]; rfl

@[simp] theorem PortBlock.cut_accounts (b : PortBlock) (h : Handle) (busy : Bool) :
    (b.cut h busy).accounts = b.accounts := by
  unfold PortBlock.cut
  dsimp only
  rw [PortBlock.refreshStaging_accounts]
  split
  · rw [PortBlock.stopRequest_accounts]
    split <;> rfl
  · split <;> rfl

/-- A cut order is a change of its port's queue and a row of unpins (R46). -/
theorem State.cutPort_cases (s : State) (n : Nat) (p : Port) : s.cutPort n p = s ∨
    ∃ h busy hs, s.cutPort n p = (s.modPort p fun b => b.cut h busy).unpinAll p hs := by
  unfold State.cutPort
  split
  · exact .inl rfl
  · split
    · exact .inl rfl
    · exact .inr ⟨_, _, _, rfl⟩

theorem State.tableStays_cut (s : State) (p : Port) (h : Handle) (busy : Bool) :
    s.TableStays (s.modPort p fun b => b.cut h busy) := s.tableStays_modPort p _ (PortBlock.cut_accounts _ h busy)

theorem State.upholds_cutPort (s : State) (n : Nat) (p : Port) : s.Upholds (s.cutPort n p) := by
  obtain h | ⟨a, busy, hs, h⟩ := s.cutPort_cases n p <;> rw [h]
  · exact .refl s
  · exact (s.tableStays_cut p a busy).upholds.trans (State.upholds_unpinAll _ p hs)

theorem State.upholds_cutCanvas (s : State) (n : Nat) : s.Upholds (s.cutCanvas n) := by
  unfold State.cutCanvas
  split
  · exact .refl s
  · exact State.upholds_foldl _ (fun s p => s.upholds_cutPort n p) _ s

end Sys2Proof.Machine

/-! SUPPORT. The beginning of a port reset (R156) and the canvas table: the ends its queue's part leaves to be taken are taken
in the canvas manager's part, so that none outlives its last pin. -/

namespace Sys2Proof.Machine

/-! ### Deadlines, waiters and marks on a canvas -/

theorem Canvas.pinCount_congr {c d : Canvas} (ho : d.ownerPins = c.ownerPins)
    (hg : d.grants.map Grant.pins = c.grants.map Grant.pins) : d.pinCount = c.pinCount := by
  rw [Canvas.pinCount, Canvas.pinCount, ho, hg]

/-- Revokes and closes under way change their terms, and none begins or ends. -/
theorem Canvas.upholds_of_terms {c d : Canvas} (f : Grant → Grant) (hr : c.SameRecord d)
    (ho : d.ownerPins = c.ownerPins) (hg : d.grants = c.grants.map f)
    (hk : d.phase.known = c.phase.known) (hcl : d.phase.isClosing = c.phase.isClosing)
    (hf : ∀ g : Grant, (f g).port = g.port ∧ (f g).pins = g.pins ∧ ((f g).revoke = none ↔ g.revoke = none)) : c.Upholds d := by
  have hp : d.grants.map Grant.port = c.grants.map Grant.port := by
    rw [hg, List.map_map]
    exact List.map_congr_left fun g _ => (hf g).1
  have hn : d.grants.map Grant.pins = c.grants.map Grant.pins := by
    rw [hg, List.map_map]
    exact List.map_congr_left fun g _ => (hf g).2.1
  refine ⟨⟨hr, Canvas.placed_of_sublist hr.1 (by rw [hp]) (by rw [hk]; exact id)⟩, fun _ he => ⟨fun x hx hv => ?_, fun h => ?_⟩⟩
  · rw [hg] at hx
    obtain ⟨g, hgm, rfl⟩ := List.mem_map.1 hx
    obtain ⟨_, h2, h3⟩ := hf g
    rw [h2]
    exact he.1 g hgm (mt h3.2 hv)
  · rw [Canvas.pinCount_congr ho hn]
    exact he.2 (hcl ▸ h)

theorem Canvas.upholds_elapse (ms : Nat) (c : Canvas) : c.Upholds
    { c with
      grants := c.grants.map fun g => { g with revoke := g.revoke.map fun r => { r with mode := r.mode.elapse ms } }
      phase := match c.phase with
        | .closing op => .closing { op with mode := op.mode.elapse ms }
        | ph => ph } := by
  refine Canvas.upholds_of_terms (fun g => { g with revoke := g.revoke.map fun r => { r with mode := r.mode.elapse ms } })
    (.refl c) rfl rfl ?_ ?_ fun g => ⟨rfl, rfl, Option.map_eq_none_iff⟩
  · cases c.phase <;> rfl
  · cases c.phase <;> rfl

/-- Time moves deadlines and timers alone (R61). -/
theorem State.upholds_elapse (s : State) (ms : Nat) : s.Upholds (s.elapse ms) := by
  have h := s.upholds_map _ (Canvas.upholds_elapse ms)
  have h' : State.TableStays { s with slots := s.slots.map (Slot.elapse ms) } (s.elapse ms) :=
    ⟨⟨rfl, fun p => by rw [State.elapse_port]; rfl⟩, rfl⟩
  exact h.trans h'.upholds

/-- The waiters of a port leave the revokes and the close of a canvas (R56). -/
theorem Canvas.upholds_dropWaiters (c : Canvas) (p : Port) : c.Upholds (c.dropWaiters p) := by
  refine Canvas.upholds_of_terms
    (fun g => { g with revoke := g.revoke.map fun r => { r with waiters := r.waiters.filter fun w => w.port != p } })
    (.refl c) rfl rfl ?_ ?_ fun g => ⟨rfl, rfl, Option.map_eq_none_iff⟩
  · unfold Canvas.dropWaiters; cases c.phase <;> rfl
  · unfold Canvas.dropWaiters; cases c.phase <;> rfl

theorem Canvas.grantTo_modGrant (c : Canvas) (p q : Port) (f : Grant → Grant) (hf : ∀ g : Grant, (f g).port = g.port) :
    (c.modGrant p f).grantTo q = (c.grantTo q).map fun g => if g.port = p then f g else g := by
  have hcomp : ((fun g : Grant => g.port == q) ∘ fun g => if g.port = p then f g else g) = fun g => g.port == q := by
    funext g
    simp only [Function.comp]
    split
    · rw [hf]
    · rfl
  rw [Canvas.grantTo, Canvas.modGrant, List.find?_map, hcomp]
  rfl

theorem Canvas.modGrant_pins (c : Canvas) (p : Port) (f : Grant → Grant) (hf : ∀ g : Grant, (f g).pins = g.pins) :
    (c.modGrant p f).grants.map Grant.pins = c.grants.map Grant.pins := by
  rw [Canvas.modGrant, List.map_map]
  refine List.map_congr_left fun g _ => ?_
  simp only [Function.comp]
  split
  · exact hf g
  · rfl

theorem Canvas.dropGrant_grantTo (c : Canvas) (p q : Port) (h : q ≠ p) : (c.dropGrant p).grantTo q = c.grantTo q := by
  rw [Canvas.grantTo, Canvas.dropGrant, List.find?_filter, Canvas.grantTo]
  congr 1
  funext g
  by_cases hg : g.port = q <;> simp [hg, h]

/-- A change of `p`'s grant alone leaves what was taken for other ports. -/
theorem Canvas.TakenFor.modGrant {c : Canvas} {p : Port} (h : c.TakenFor (· ≠ p)) (f : Grant → Grant)
    (hf : ∀ g : Grant, (f g).port = g.port) : (c.modGrant p f).TakenFor (· ≠ p) := by
  intro g hg hgp
  obtain ⟨x, hx, rfl⟩ := List.mem_map.1 hg
  split at hgp
  · next hxp => exact absurd ((hf x).trans hxp) hgp
  · next hxp => rw [if_neg hxp]; exact h x hx hxp

/-- A pin count is at least the pins of one grant. -/
theorem Canvas.pinCount_pos {c : Canvas} {g : Grant} (hg : g ∈ c.grants) (h : 0 < g.pins) : 0 < c.pinCount := by
  have h1 := List.le_sum_of_mem (List.mem_map_of_mem (f := Grant.pins) hg)
  rw [Canvas.pinCount]
  omega

/-! ### What a port reset has still to take -/

/-- What the beginning of `p`'s reset has still to take: the ends on `p`'s own canvases listed, and those of `p`'s grants on
other canvases that are due (R57, R58). -/
def ResetDue (p : Port) (ns : List Nat) (n : Nat) (c : Canvas) : Prop :=
  c.owner = p ∧ n ∈ ns ∨ c.owner ≠ p ∧ c.revokeDue p = true

/-- The beginning of `p`'s reset has taken every end but those. -/
structure State.MidReset (s : State) (p : Port) (ns : List Nat) : Prop where
  placed : s.GrantsPlaced
  taken : s.EndsTakenBut p (ResetDue p ns)

theorem Canvas.revokeDue_unpin (c : Canvas) (p q : Port) (h : c.revokeDue p = true) :
    (c.modPins q (· - 1)).revokeDue p = true := by
  unfold Canvas.modPins
  split
  · exact h
  · obtain ⟨g, r, hg, hr, h0⟩ := (c.revokeDue_iff p).1 h
    rw [Canvas.revokeDue_iff, c.grantTo_modGrant q p (fun g => { g with pins := g.pins - 1 }) fun _ => rfl, hg]
    refine ⟨_, r, rfl, ?_, ?_⟩
    · by_cases hq : g.port = q <;> simp [hq, hr]
    · by_cases hq : g.port = q <;> simp [hq, h0]

/-- An unpin of any port takes what a reset has still to take, or leaves it so. -/
theorem ResetDue.unpin {p q : Port} {ns : List Nat} {n : Nat} {c d : Canvas} (h : ResetDue p ns n c) (hp : c.GrantsPlaced)
    (ht : c.TakenFor (· ≠ p)) (hd : (c.modPins q (· - 1)).settled q = some d) : d.EndsTaken ∨ ResetDue p ns n d := by
  have hplaced := (c.staysPlaced_modPins q (· - 1)).placed hp
  have howner : d.owner = c.owner :=
    (Canvas.staysPlaced_settled hd).record.1.trans (c.staysPlaced_modPins q (· - 1)).record.1
  obtain ⟨ho, hn⟩ | ⟨ho, hr⟩ := h
  · exact .inr (.inl ⟨howner.trans ho, hn⟩)
  · by_cases hq : q = p
    · subst hq
      exact .inl (Canvas.TakenFor.endsTaken_settled (fun g hg hgq => ht.modPins (· - 1) g hg ⟨hgq, hgq⟩) hplaced hd)
    · refine .inr (.inr ⟨by rwa [howner], ?_⟩)
      have hr' := c.revokeDue_unpin p q hr
      obtain ⟨_, ⟨_, rfl⟩ | ⟨_, rfl⟩⟩ := Canvas.settled_eq_some hd
      · rwa [Canvas.revokeDue, Canvas.dropGrant_grantTo _ q p fun e => hq e.symm, ← Canvas.revokeDue]
      · exact hr'

theorem State.MidReset.unpin {s : State} {p : Port} {ns : List Nat} (h : s.MidReset p ns) (q : Port) (a : Handle) :
    (s.unpin q a).MidReset p ns := by
  refine ⟨(s.tidies_unpin q a).placed h.placed, fun n d hd => ?_⟩
  rw [State.canvas_unpin] at hd
  split at hd
  · obtain ⟨c, hc, hcd⟩ := Option.bind_eq_some_iff.1 hd
    have hplaced := h.placed n c hc
    obtain ⟨h1, h2⟩ := h.taken n c hc
    refine ⟨(h1.unpin hplaced hcd).1, ?_⟩
    obtain he | hdue := h2
    · exact .inl (he.unpin hplaced hcd)
    · exact hdue.unpin hplaced h1 hcd
  · exact h.taken n d hd

theorem State.MidReset.foldl {α : Type} {p : Port} {ns : List Nat} {f : State → α → State}
    (hf : ∀ (s : State) (a : α), s.MidReset p ns → (f s a).MidReset p ns) (xs : List α) {s : State}
    (h : s.MidReset p ns) : (xs.foldl f s).MidReset p ns := by
  induction xs generalizing s with
  | nil => exact h
  | cons a t ih => exact ih (hf s a h)

theorem State.MidReset.tableStays {s t : State} {p : Port} {ns : List Nat} (h : s.MidReset p ns) (k : s.TableStays t) :
    t.MidReset p ns := ⟨k.tidies.placed h.placed, h.taken.tableStays k⟩

theorem State.MidReset.cutPort {s : State} {p : Port} {ns : List Nat} (h : s.MidReset p ns) (n : Nat) (q : Port) :
    (s.cutPort n q).MidReset p ns := by
  obtain hs | ⟨a, busy, hs, hcut⟩ := s.cutPort_cases n q
  · rwa [hs]
  · rw [hcut]
    exact State.MidReset.foldl (fun s a hs => hs.unpin q a) hs (h.tableStays (s.tableStays_cut q a busy))

theorem State.MidReset.cutCanvas {s : State} {p : Port} {ns : List Nat} (h : s.MidReset p ns) (n : Nat) :
    (s.cutCanvas n).MidReset p ns := by
  unfold State.cutCanvas
  split
  · exact h
  · exact State.MidReset.foldl (fun s q hs => hs.cutPort n q) _ h

/-- A slot that goes to FREE needs nothing taken. -/
theorem State.MidReset.freed {s t : State} {p : Port} {n : Nat} {ns : List Nat} (h : s.MidReset p (n :: ns)) (k : s.Tidies t)
    (hc : ∀ m, t.canvas m = if m = n then none else s.canvas m) : t.MidReset p ns := by
  refine ⟨k.placed h.placed, fun m c hm => ?_⟩
  rw [hc] at hm
  split at hm
  · cases hm
  · next hmn =>
    obtain ⟨h1, h2⟩ := h.taken m c hm
    exact ⟨h1, h2.imp_right fun hd => hd.imp_left fun ⟨ho, hn⟩ => ⟨ho, (List.mem_cons.1 hn).resolve_left hmn⟩⟩

/-- The canvas on the slot changes to one with every end taken, if `p` owns it. -/
theorem State.MidReset.changed {s t : State} {p : Port} {n : Nat} {ns : List Nat} (h : s.MidReset p (n :: ns)) (k : s.Tidies t)
    (d : Canvas) (hm : ∀ m, t.canvas m = if m = n then some d else s.canvas m)
    (hd : d.TakenFor (· ≠ p) ∧ (d.EndsTaken ∨ ResetDue p ns n d)) : t.MidReset p ns := by
  refine ⟨k.placed h.placed, fun m e he => ?_⟩
  rw [hm] at he
  split at he
  · next hmn => cases he; rw [hmn]; exact hd
  · next hmn =>
    obtain ⟨h1, h2⟩ := h.taken m e he
    exact ⟨h1, h2.imp_right fun hd => hd.imp_left fun ⟨ho, hn⟩ => ⟨ho, (List.mem_cons.1 hn).resolve_left hmn⟩⟩

/-- The grant list of an owner names other ports, so with those taken every one is (R37). -/
theorem Canvas.GrantsPlaced.taken_of_owner {c : Canvas} (h : c.GrantsPlaced) (ht : c.TakenFor (· ≠ c.owner)) :
    ∀ g ∈ c.grants, g.revoke ≠ none → 0 < g.pins :=
  fun g hg => ht g hg fun e => h.2.1 (e ▸ List.mem_map_of_mem hg)

/-- The canvas manager closes a canvas of the port being reset that has pins (R57). -/
theorem State.MidReset.setClosing {s : State} {p : Port} {n : Nat} {ns : List Nat} (h : s.MidReset p (n :: ns)) (c : Canvas)
    (op : CloseOp) (hc : s.canvas n = some c) (hpin : c.pinCount ≠ 0) :
    (s.setCanvas n { c with phase := .closing op }).MidReset p ns := by
  obtain ⟨h1, h2⟩ := h.taken n c hc
  refine h.changed (s.tidies_setCanvas n c _ hc (c.staysPlaced_setClosing op)) _
    (fun m => s.canvas_setCanvas n m c _ hc) ⟨h1, ?_⟩
  have hpos : 0 < ({ c with phase := .closing op } : Canvas).pinCount := Nat.pos_of_ne_zero hpin
  obtain he | ⟨ho, _⟩ | hdue := h2
  · exact .inl ⟨he.1, fun _ => hpos⟩
  · exact .inl ⟨(h.placed n c hc).taken_of_owner (by rw [ho]; exact h1), fun _ => hpos⟩
  · exact .inr (.inr hdue)

theorem State.tableStays_clear (s : State) (u : ClearUnit) :
    s.TableStays { s with clear := u } := ⟨⟨rfl, fun _ => rfl⟩, rfl⟩

theorem State.abandonClearing_cases (s : State) (n : Nat) :
    (∃ u : ClearUnit, s.abandonClearing n = { s with clear := u }) ∨
      ∃ u : ClearUnit, s.abandonClearing n = ({ s with clear := u } : State).release n := by
  unfold State.abandonClearing
  split
  · split
    · exact .inl ⟨_, rfl⟩
    · exact .inr ⟨_, rfl⟩
  · exact .inr ⟨_, rfl⟩

theorem State.upholds_abandonClearing (s : State) (n : Nat) : s.Upholds (s.abandonClearing n) := by
  obtain ⟨u, h⟩ | ⟨u, h⟩ := s.abandonClearing_cases n <;> rw [h]
  · exact (s.tableStays_clear u).upholds
  · exact (s.tableStays_clear u).upholds.trans (State.upholds_release _ n)

/-- A CLEARING canvas has no end to come: it has no grants (R37). -/
theorem Canvas.GrantsPlaced.endsTaken_of_clearing {c : Canvas} (h : c.GrantsPlaced) (w : Waiter) (hw : c.phase = .clearing w) :
    c.EndsTaken := by
  rw [Canvas.GrantsPlaced, hw] at h
  obtain ⟨_, _, h3⟩ := h
  refine ⟨fun g hg => ?_, fun hcl => ?_⟩
  · rw [h3 rfl] at hg; cases hg
  · rw [hw] at hcl; cases hcl

/-- The canvas of one slot listed is closed or abandoned (R16, R57). -/
theorem State.MidReset.closeForReset {s : State} {p : Port} {n : Nat} {ns : List Nat} (h : s.MidReset p (n :: ns)) :
    (s.closeForReset n).MidReset p ns := by
  unfold State.closeForReset
  split
  · next hc =>
    refine h.freed (.refl s) fun m => ?_
    split
    · next hm => rw [hm, hc]
    · rfl
  · next c hc =>
    have hclose (op : CloseOp) (cut : Bool) : State.MidReset
        (if c.pinCount = 0 then (s.setCanvas n { c with phase := .closing op }).endClose n op
          else if cut then (s.setCanvas n { c with phase := .closing op }).cutCanvas n
          else s.setCanvas n { c with phase := .closing op }) p ns := by
      have hset := s.tidies_setCanvas n c _ hc (c.staysPlaced_setClosing op)
      split
      · refine h.freed (hset.trans (State.tidies_endClose _ n op)) fun m => ?_
        rw [State.canvas_endClose _ n m op _ (State.canvas_setCanvas_same _ _ _ c hc), s.canvas_setCanvas n m c _ hc]
        split <;> rfl
      · next hpin =>
        have hmid := h.setClosing c op hc hpin
        split
        · exact hmid.cutCanvas n
        · exact hmid
    dsimp only
    split
    · next w hw =>
      have he := (h.placed n c hc).endsTaken_of_clearing w hw
      obtain ⟨u, ha⟩ | ⟨u, ha⟩ := s.abandonClearing_cases n <;> rw [ha]
      · refine h.changed (s.tableStays_clear u).tidies c (fun m => ?_) ⟨he.takenFor _, .inl he⟩
        rw [(s.tableStays_clear u).canvas m]
        split
        · next hm => rw [hm, hc]
        · rfl
      · refine h.freed ((s.tableStays_clear u).tidies.trans (State.tidies_release _ n)) fun m => ?_
        rw [State.canvas_release, (s.tableStays_clear u).canvas m]
    · exact hclose _ true
    · next op _ => exact hclose { op with mode := .cut, reset := true } (op.mode != .cut)

/-! ### The beginning of a port reset (R156) -/

theorem State.mem_slotsWith (s : State) (f : Canvas → Bool) (n : Nat) (c : Canvas) (hc : s.canvas n = some c)
    (hf : f c = true) : n ∈ s.slotsWith f := by
  rw [State.slotsWith, List.mem_filter, mem_slotNumbers, hc]
  exact ⟨s.canvas_bounds n c hc, hf⟩

/-- The marks of a reset on another port's canvas: the end of the port's grant is due, or every end is taken (R58). -/
theorem Canvas.resetMarks_taken {c : Canvas} {p : Port} (hp : c.GrantsPlaced) (ho : c.owner ≠ p) (ht : c.TakenFor (· ≠ p))
    (hcl : c.phase.isClosing = true → 0 < c.pinCount ∨ c.Holds p) :
    (c.resetMarks p).TakenFor (· ≠ p) ∧ ((c.resetMarks p).EndsTaken ∨ (c.resetMarks p).revokeDue p = true) := by
  have hw := c.upholds_dropWaiters p
  have hwt : (c.dropWaiters p).TakenFor (· ≠ p) := by
    intro g hg hgp hv
    obtain ⟨x, hx, rfl⟩ := List.mem_map.1 hg
    exact ht x hx hgp fun e => hv (by simp [e])
  have hpins : (c.resetMarks p).pinCount = c.pinCount := by
    refine Canvas.pinCount_congr ?_ ?_
    · rw [Canvas.resetMarks]; split <;> rfl
    · have hd : (c.dropWaiters p).grants.map Grant.pins = c.grants.map Grant.pins := by
        simp only [Canvas.dropWaiters, List.map_map]
        rfl
      have ho' : (c.dropWaiters p).owner ≠ p := ho
      rw [Canvas.resetMarks, if_neg ho', Canvas.modGrant_pins _ p Grant.resetRevoke fun _ => rfl, hd]
  have heq : c.resetMarks p = (c.dropWaiters p).modGrant p Grant.resetRevoke := by
    rw [Canvas.resetMarks]
    exact if_neg ho
  have hplaced : (c.resetMarks p).GrantsPlaced := by
    rw [heq]
    exact (Canvas.staysPlaced_modGrant _ p Grant.resetRevoke fun _ => rfl).placed (hw.placed hp)
  have htaken : (c.resetMarks p).TakenFor (· ≠ p) := by rw [heq]; exact hwt.modGrant Grant.resetRevoke fun _ => rfl
  refine ⟨htaken, ?_⟩
  cases hr : (c.resetMarks p).revokeDue p with
  | true => exact .inr rfl
  | false =>
    have hown := hplaced.takenFor p hr
    refine .inl ⟨fun g hg => ?_, fun h => ?_⟩
    · by_cases hgp : g.port = p
      · exact hown g hg hgp
      · exact htaken g hg hgp
    · have hc : c.phase.isClosing = true := by
        have hph : (c.resetMarks p).phase = (c.dropWaiters p).phase := by rw [heq]; rfl
        rw [hph, Canvas.dropWaiters] at h
        revert h
        cases c.phase <;> exact id
      obtain h0 | h0 := hcl hc
      · rw [hpins]; exact h0
      · obtain ⟨g, hg⟩ := Option.isSome_iff_exists.1 (h0.resolve_left ho)
        obtain ⟨hgm, hgp⟩ := c.grantTo_some p g hg
        set g' : Grant := { g with revoke := g.revoke.map fun r => { r with waiters := r.waiters.filter fun w => w.port != p } }
          with hg'
        have hm' : g' ∈ (c.dropWaiters p).grants := List.mem_map_of_mem hgm
        have hm : g'.resetRevoke ∈ (c.resetMarks p).grants := by
          rw [heq]
          refine List.mem_map.2 ⟨g', hm', ?_⟩
          exact if_pos hgp
        exact Canvas.pinCount_pos hm (hown _ hm hgp nofun)

theorem Canvas.staysPlaced_resetMarks (c : Canvas) (p : Port) : c.StaysPlaced (c.resetMarks p) := by
  have hw := (c.upholds_dropWaiters p).toStaysPlaced
  rw [Canvas.resetMarks]
  split
  · exact hw
  · have hm := (c.dropWaiters p).staysPlaced_modGrant p Grant.resetRevoke fun _ => rfl
    exact ⟨hw.record.trans hm.record, hm.placed ∘ hw.placed⟩

theorem State.canvas_resetTables (s : State) (p : Port) (n : Nat) :
    (s.resetTables p).canvas n = (s.canvas n).map (Canvas.resetMarks p) := by
  cases n with
  | zero => rfl
  | succ k => by_cases hk : k < 255 <;> simp [State.canvas, State.slot, State.resetTables, Slot.resetMarks, hk]

theorem State.tidies_resetTables (s : State) (p : Port) : s.Tidies (s.resetTables p) := by
  refine State.tidies_of_canvases ⟨rfl, fun _ => rfl⟩ fun n => ?_
  rw [State.canvas_resetTables]
  cases s.canvas n with
  | none => exact .none
  | some c => exact .some (c.staysPlaced_resetMarks p)

/-- The marks come between the pins the queue has dropped and the ends the canvas manager takes (R156, log 32). -/
theorem State.midReset_resetTables {s : State} {p : Port} {ns : List Nat} (hp : s.GrantsPlaced)
    (h : s.EndsTakenBut p (PinsDropped p ns)) :
    (s.resetTables p).MidReset p ((s.resetTables p).slotsWith fun c => c.owner == p) := by
  refine ⟨(s.tidies_resetTables p).placed hp, fun n d hd => ?_⟩
  have hd' := hd
  rw [State.canvas_resetTables] at hd'
  obtain ⟨c, hc, rfl⟩ := Option.map_eq_some_iff.1 hd'
  have howner : (c.resetMarks p).owner = c.owner := (c.staysPlaced_resetMarks p).record.1
  obtain ⟨h1, h2⟩ := h n c hc
  by_cases ho : c.owner = p
  · refine ⟨?_, .inr (.inl ⟨howner.trans ho, State.mem_slotsWith _ _ n _ hd (by rw [howner, ho]; exact beq_self_eq_true p)⟩)⟩
    have : c.resetMarks p = c.dropWaiters p := by rw [Canvas.resetMarks]; exact if_pos ho
    rw [this]
    intro g hg hgp hv
    obtain ⟨x, hx, rfl⟩ := List.mem_map.1 hg
    exact h1 x hx hgp fun e => hv (by simp [e])
  · have hcl : c.phase.isClosing = true → 0 < c.pinCount ∨ c.Holds p := by
      obtain he | ⟨_, hcl⟩ := h2
      · exact fun h => .inl (he.2 h)
      · exact hcl
    obtain ⟨h3, h4⟩ := Canvas.resetMarks_taken (hp n c hc) ho h1 hcl
    exact ⟨h3, h4.imp_right fun hr => .inr ⟨by rwa [howner], hr⟩⟩

theorem State.MidReset.closes {p : Port} {ns : List Nat} {s : State} (h : s.MidReset p ns) :
    (ns.foldl State.closeForReset s).MidReset p [] := by
  induction ns generalizing s with
  | nil => exact h
  | cons a t ih => exact ih h.closeForReset

/-- The canvas manager's part of a reset takes every end (R57, R58). -/
theorem State.MidReset.resetCanvases {s : State} {p : Port} (h : s.MidReset p (s.slotsWith fun c => c.owner == p)) :
    (s.resetCanvases p).EndsTaken := by
  have hmid := h.closes
  refine State.EndsTakenBut.settles (hmid.taken.mono fun n c hc hd => ?_) hmid.placed
  obtain ⟨_, hn⟩ | ⟨ho, hr⟩ := hd
  · cases hn
  · refine State.mem_slotsWith _ _ n c hc ?_
    rw [hr, Bool.and_true, bne_iff_ne]
    exact ho

theorem State.tidies_closeForReset (s : State) (n : Nat) : s.Tidies (s.closeForReset n) := by
  unfold State.closeForReset
  split
  · exact .refl s
  · next c hc =>
    have hclose (op : CloseOp) (cut : Bool) :
        s.Tidies (if c.pinCount = 0 then (s.setCanvas n { c with phase := .closing op }).endClose n op
          else if cut then (s.setCanvas n { c with phase := .closing op }).cutCanvas n
          else s.setCanvas n { c with phase := .closing op }) := by
      have h := s.tidies_setCanvas n c _ hc (c.staysPlaced_setClosing op)
      split
      · exact h.trans (State.tidies_endClose _ n op)
      · split
        · exact h.trans (State.upholds_cutCanvas _ n).toTidies
        · exact h
    dsimp only
    split
    · exact (s.upholds_abandonClearing n).toTidies
    · exact hclose _ true
    · next op _ => exact hclose { op with mode := .cut, reset := true } (op.mode != .cut)

theorem State.tidies_resetCanvases (s : State) (p : Port) : s.Tidies (s.resetCanvases p) :=
  (State.tidies_foldl _ State.tidies_closeForReset _ s).trans
    (State.tidies_foldl _ (fun s n => s.tidies_settle n p) _ _)

@[simp] theorem PortBlock.beginReset_accounts (op : ResetOp) (busy : Bool) (b : PortBlock) :
    (b.beginReset op busy).accounts = b.accounts := by
  unfold PortBlock.beginReset
  dsimp only
  rw [PortBlock.refreshStaging_accounts]
  split
  · rfl
  · rw [PortBlock.stopRequest_accounts]; rfl

@[simp] theorem PortBlock.dropRequesters_accounts (b : PortBlock) : b.dropRequesters.accounts = b.accounts := by
  unfold PortBlock.dropRequesters
  split <;> rfl

theorem State.tableStays_dropSupervisor (s : State) (p : Port) : s.TableStays (s.dropSupervisor p) := by
  refine ⟨⟨?_, fun q => ?_⟩, ?_⟩
  · unfold State.dropSupervisor; split <;> rfl
  · rw [State.dropSupervisor_port]
    split
    · exact PortBlock.dropRequesters_accounts _
    · rfl
  · unfold State.dropSupervisor; split <;> rfl

/-- The beginning of a port reset keeps every promise of the table (R156). -/
theorem State.upholds_beginReset (s : State) (p : Port) (op : ResetOp) : s.Upholds (s.beginReset p op) := by
  rw [State.beginReset_eq]
  have hblock : s.TableStays (s.modPort p (PortBlock.beginReset op (s.spanBusy p))) :=
    s.tableStays_modPort p _ (PortBlock.beginReset_accounts op _ _)
  have hqueue : s.Tidies (s.resetQueue p op) := hblock.tidies.trans (State.tidies_dropPins _ p _)
  have hsup := hqueue.trans (State.tableStays_dropSupervisor _ p).tidies
  refine ⟨(hsup.trans (State.tidies_resetTables _ p)).trans (State.tidies_resetCanvases _ p), fun hp he => ?_⟩
  have hdrop : (s.resetQueue p op).EndsTakenBut p (PinsDropped p ((s.port p).queue.resetDrops.map handleSlot)) :=
    ((he.but p _).tableStays hblock).dropPins _ fun a ha => List.mem_map_of_mem ha
  exact (State.midReset_resetTables (hsup.placed hp)
    (hdrop.tableStays (State.tableStays_dropSupervisor _ p))).resetCanvases

end Sys2Proof.Machine

/-! SUPPORT. Each command of the table, as a change that keeps the promises of the canvas table. -/

namespace Sys2Proof.Machine

/-! ### What the operations of a port leave of its accounts -/

@[simp] theorem PortBlock.reply_accounts (b : PortBlock) (kind : Byte) (st : Status) (id : ReqId) (m : List Byte) :
    (b.reply kind st id m).accounts = b.accounts := rfl

@[simp] theorem PortBlock.defer_accounts (b : PortBlock) (kind : Byte) (id : ReqId) :
    (b.defer kind id).accounts = b.accounts := rfl

@[simp] theorem PortBlock.answerAll_accounts (b : PortBlock) (ids : List ReqId) (m : List Byte) :
    (b.answerAll ids m).accounts = b.accounts := by rw [PortBlock.answerAll_eq]; rfl

@[simp] theorem PortBlock.withdraw_accounts (b : PortBlock) : b.withdraw.accounts = b.accounts := rfl

@[simp] theorem PortBlock.nak_accounts (b : PortBlock) (r : NakReason) (q : BitVec 8) :
    (b.nak r q).accounts = b.accounts := rfl

@[simp] theorem PortBlock.placeNotice_accounts (b : PortBlock) (e : Entry) (st : JobStatus) (i : Option Nat) :
    (b.placeNotice e st i).accounts = b.accounts := by
  unfold PortBlock.placeNotice
  split <;> rfl

@[simp] theorem PortBlock.answerCancels_accounts (b : PortBlock) (q : Nat) (st : JobStatus) :
    (b.answerCancels q st).accounts = b.accounts := by
  have h (ws : List CancelWaiter) (f : CancelWaiter → List Byte) (d : PortBlock) :
      (ws.foldl (fun d w => d.answer w.id (f w)) d).accounts = d.accounts := by
    induction ws generalizing d with
    | nil => rfl
    | cons w t ih => exact (ih _).trans (d.answer_accounts _ _)
  unfold PortBlock.answerCancels
  dsimp only
  rw [h]
  rfl

@[simp] theorem PortBlock.becomeHalted_accounts (b : PortBlock) : b.becomeHalted.accounts = b.accounts := by
  unfold PortBlock.becomeHalted
  dsimp only
  rw [PortBlock.raise_accounts, PortBlock.answerAll_accounts]
  rfl

theorem PortBlock.halts_accounts (b : PortBlock) (halts : Bool) :
    (if halts then b.becomeHalted else b).accounts = b.accounts := by
  split <;> simp

@[simp] theorem PortBlock.raiseFault_accounts (b : PortBlock) (k : FaultKind) :
    (b.raiseFault k).accounts = b.accounts := by
  unfold PortBlock.raiseFault
  split
  · rfl
  · simp

@[simp] theorem PortBlock.placeDueAtn_accounts (b : PortBlock) : b.placeDueAtn.accounts = b.accounts := by
  unfold PortBlock.placeDueAtn
  split <;> rfl

@[simp] theorem PortBlock.reserveSpanSlot_accounts (b : PortBlock) : b.reserveSpanSlot.accounts = b.accounts := by
  unfold PortBlock.reserveSpanSlot
  split
  · rfl
  · split <;> rfl

@[simp] theorem PortBlock.timedOut_accounts (b : PortBlock) (k : FaultKind) : (b.timedOut k).accounts = b.accounts := by
  unfold PortBlock.timedOut
  split <;> rfl

@[simp] theorem PortBlock.reportStopped_accounts (b : PortBlock) : b.reportStopped.accounts = b.accounts := by
  unfold PortBlock.reportStopped
  split <;> rfl

@[simp] theorem PortBlock.badCrc_accounts (b : PortBlock) : b.badCrc.accounts = b.accounts := by
  unfold PortBlock.badCrc
  split <;> rfl

@[simp] theorem PortBlock.refuseForState_accounts (b : PortBlock) : b.refuseForState.accounts = b.accounts := by
  unfold PortBlock.refuseForState
  split <;> rfl

@[simp] theorem PortBlock.applyAck_accounts (b : PortBlock) (a : BitVec 8) : (b.applyAck a).accounts = b.accounts := rfl

@[simp] theorem PortBlock.takeInSequence_accounts (b : PortBlock) (c : InClass) (m : List Byte) :
    (b.takeInSequence c m).accounts = b.accounts := by
  unfold PortBlock.takeInSequence
  split
  · rfl
  · cases c
    · dsimp only; split <;> rfl
    · dsimp only; split <;> rfl

@[simp] theorem PortBlock.sequenceTest_accounts (b : PortBlock) (c : InClass) (f : WireFrame) :
    (b.sequenceTest c f).accounts = b.accounts := by
  unfold PortBlock.sequenceTest
  dsimp only
  split
  · simp
  · split <;> rfl

@[simp] theorem PortBlock.takeHello_accounts (b : PortBlock) (m : List Byte) (q : BitVec 8) :
    (b.takeHello m q).accounts = b.accounts := by
  unfold PortBlock.takeHello
  split <;> rfl

@[simp] theorem PortBlock.reqDatArrived_accounts (b : PortBlock) (c : InClass) (f : WireFrame) :
    (b.reqDatArrived c f).accounts = b.accounts := by
  unfold PortBlock.reqDatArrived
  split <;> simp

@[simp] theorem PortBlock.ackArrived_accounts (b : PortBlock) (f : WireFrame) :
    (b.ackArrived f).accounts = b.accounts := by
  unfold PortBlock.ackArrived
  split <;> simp

@[simp] theorem PortBlock.helloArrived_accounts (b : PortBlock) (f : WireFrame) :
    (b.helloArrived f).accounts = b.accounts := by
  unfold PortBlock.helloArrived
  split <;> simp

@[simp] theorem PortBlock.transmit_accounts (b : PortBlock) : b.transmit.accounts = b.accounts := by
  unfold PortBlock.transmit
  dsimp only
  repeat' split
  all_goals rfl

@[simp] theorem PortBlock.unwait_accounts (b : PortBlock) : b.unwait.accounts = b.accounts := by
  unfold PortBlock.unwait
  split
  · split <;> rfl
  · rfl

@[simp] theorem PortBlock.haltOnLoss_accounts (b : PortBlock) : b.haltOnLoss.accounts = b.accounts := by
  unfold PortBlock.haltOnLoss
  split
  · split
    · rfl
    · simp
  · rfl

@[simp] theorem PortBlock.resendExpired_accounts (b : PortBlock) : b.resendExpired.accounts = b.accounts := by
  unfold PortBlock.resendExpired
  dsimp only
  split
  · rfl
  · split
    · exact PortBlock.haltOnLoss_accounts _
    · rfl

@[simp] theorem PortBlock.enable_accounts (b : PortBlock) : b.enable.accounts = b.accounts := by
  unfold PortBlock.enable
  split <;> rfl

@[simp] theorem PortBlock.applySetting_accounts (b : PortBlock) (x : Setting) :
    (b.applySetting x).accounts = b.accounts := by
  unfold PortBlock.applySetting
  dsimp only
  repeat' split
  all_goals rfl

@[simp] theorem PortBlock.applySettings_accounts (b : PortBlock) (xs : List Setting) :
    (xs.foldl PortBlock.applySetting b).accounts = b.accounts := by
  induction xs generalizing b with
  | nil => rfl
  | cons x t ih => exact (ih _).trans (b.applySetting_accounts x)

@[simp] theorem PortBlock.unpromise_accounts (b : PortBlock) (m : List Byte) :
    (b.unpromise m).accounts = b.accounts := by
  unfold PortBlock.unpromise
  split <;> rfl

@[simp] theorem PortBlock.rejectData_accounts (b : PortBlock) (m : List Byte) :
    (b.rejectData m).accounts = b.accounts := by
  unfold PortBlock.rejectData
  rw [PortBlock.raise_accounts]
  rfl

@[simp] theorem PortBlock.takeHalt_accounts (b : PortBlock) (m : List Byte) : (b.takeHalt m).accounts = b.accounts := by
  unfold PortBlock.takeHalt
  dsimp only
  split
  · split
    · rfl
    · rw [PortBlock.raise_accounts, PortBlock.reply_accounts]
      exact b.unwait_accounts
  · rfl
  · rfl
  · rfl

@[simp] theorem PortBlock.takeResume_accounts (b : PortBlock) (m : List Byte) :
    (b.takeResume m).accounts = b.accounts := by
  unfold PortBlock.takeResume
  dsimp only
  rw [PortBlock.reply_accounts]
  split
  · rfl
  · rw [PortBlock.answerAll_accounts]; rfl
  · rfl

@[simp] theorem PortBlock.cancelEntries_accounts (b : PortBlock) (n : Nat) :
    (b.cancelEntries n).accounts = b.accounts := by
  unfold PortBlock.cancelEntries
  dsimp only
  rw [PortBlock.refreshStaging_accounts]
  split <;> rfl

/-! ### Commands and their frames -/

theorem State.upholds_modPort (s : State) (p : Port) (f : PortBlock → PortBlock)
    (h : (f (s.port p)).accounts = (s.port p).accounts) : s.Upholds (s.modPort p f) := (s.tableStays_modPort p f h).upholds

/-- A change outside the ports, the table and the map. -/
theorem State.tableStays_of_eq (s t : State) (h : (t.ports, t.slots, t.allocated) = (s.ports, s.slots, s.allocated)) :
    s.TableStays t := by
  obtain ⟨hp, hs, ha⟩ := by simpa only [Prod.mk.injEq] using h
  exact ⟨⟨ha, fun p => by rw [State.port, hp]; rfl⟩, hs⟩

theorem State.upholds_unlessHeld {s t u : State} (h : s.unlessHeld t = .next u) (k : s.Upholds t) : s.Upholds u := by
  unfold State.unlessHeld at h
  cases h
  split
  · exact .refl s
  · exact k

theorem State.upholds_process {s u : State} {p : Port} {row : StreamRow} {f : List Byte → State → State}
    (h : s.process p row f = .next u) (k : ∀ (payload : List Byte) (v : State), v.Upholds (f payload v)) : s.Upholds u := by
  refine State.upholds_unlessHeld h ?_
  split
  · exact .refl s
  · next payload v hv =>
    obtain ⟨rest, rfl⟩ := State.takeFrame_some hv
    exact (s.tableStays_setPort p _ (by rfl)).upholds.trans (k payload _)

theorem State.tableStays_reply (s : State) (p : Port) (payload : List Byte) (st : Status) (m : List Byte) :
    s.TableStays (s.reply p payload st m) := s.tableStays_modPort p _ (by rfl)

theorem State.tableStays_defer (s : State) (p : Port) (payload : List Byte) : s.TableStays (s.defer p payload) :=
  s.tableStays_modPort p _ (by rfl)

theorem State.upholds_reply (s : State) (p : Port) (payload : List Byte) (st : Status) (m : List Byte) :
    s.Upholds (s.reply p payload st m) := (s.tableStays_reply p payload st m).upholds

theorem State.upholds_refuse (s : State) (p : Port) (payload : List Byte) (st : Status) :
    s.Upholds (s.refuse p payload st) := s.upholds_reply p payload st []

theorem State.upholds_defer (s : State) (p : Port) (payload : List Byte) : s.Upholds (s.defer p payload) :=
  (s.tableStays_defer p payload).upholds

/-! ### Frames that arrive and are sent (R163 to R175) -/

theorem State.upholds_arrived (s : State) (p : Port) (rest : List Byte) (f : PortBlock → PortBlock)
    (h : ∀ b : PortBlock, (f b).accounts = b.accounts) : s.Upholds (s.arrived p rest f) :=
  s.upholds_modPort p _ (h _)

theorem upholds_frameLengthError (s t : State) (p : Port) (bytes : List Byte)
    (h : execFrameLengthError p bytes s = .next t) : s.Upholds t := by
  refine State.upholds_unlessHeld h ?_
  split
  · exact s.upholds_arrived p _ _ fun _ => rfl
  · exact .refl s

theorem upholds_crcError (s t : State) (p : Port) (bytes : List Byte) (h : execCrcError p bytes s = .next t) :
    s.Upholds t := by
  refine State.upholds_unlessHeld h ?_
  split
  · exact s.upholds_arrived p _ _ PortBlock.badCrc_accounts
  · exact .refl s

theorem upholds_unknownClassFrame (s t : State) (p : Port) (bytes : List Byte)
    (h : execUnknownClassFrame p bytes s = .next t) : s.Upholds t := by
  refine State.upholds_unlessHeld h ?_
  split
  · split
    · exact .refl s
    · exact s.upholds_arrived p _ _ fun _ => rfl
  · exact .refl s

theorem upholds_reqDatFrameReceived (s t : State) (p : Port) (bytes : List Byte)
    (h : execReqDatFrameReceived p bytes s = .next t) : s.Upholds t := by
  refine State.upholds_unlessHeld h ?_
  split
  · split
    · split
      · exact .refl s
      · exact s.upholds_arrived p _ _ fun b => b.reqDatArrived_accounts _ _
    · exact .refl s
  · exact .refl s

theorem upholds_ackFrameReceived (s t : State) (p : Port) (bytes : List Byte)
    (h : execAckFrameReceived p bytes s = .next t) : s.Upholds t := by
  refine State.upholds_unlessHeld h ?_
  split
  · split
    · exact s.upholds_arrived p _ _ fun b => b.ackArrived_accounts _
    · exact .refl s
  · exact .refl s

theorem upholds_helloFrameReceived (s t : State) (p : Port) (bytes : List Byte)
    (h : execHelloFrameReceived p bytes s = .next t) : s.Upholds t := by
  refine State.upholds_unlessHeld h ?_
  split
  · split
    · exact s.upholds_arrived p _ _ fun b => b.helloArrived_accounts _
    · exact .refl s
  · exact .refl s

theorem upholds_frameTransmit (s t : State) (p : Port) (h : execFrameTransmit p s = .next t) : s.Upholds t :=
  State.upholds_unlessHeld h (s.upholds_modPort p _ (PortBlock.transmit_accounts _))

theorem upholds_resendTimerExpiry (s t : State) (p : Port) (h : execResendTimerExpiry p s = .next t) : s.Upholds t := by
  refine State.upholds_unlessHeld h ?_
  split
  · exact .refl s
  · exact (s.upholds_elapse _).trans (State.upholds_modPort _ p _ (PortBlock.resendExpired_accounts _))

/-! ### The completion of a port reset (R157, R158) -/

/-- The quotas of a port change to others that its holdings meet (R152, R158). -/
theorem State.upholds_quotas (s : State) (p : Port) (f : PortBlock → PortBlock)
    (hh : (f (s.port p)).accounts.1 = (s.port p).accounts.1)
    (hq : (s.port p).blocksHeld ≤ (f (s.port p)).blockQuota ∧ (s.port p).canvasesHeld ≤ (f (s.port p)).canvasQuota) :
    s.Upholds (s.modPort p f) := by
  have hc (n : Nat) : (s.modPort p f).canvas n = s.canvas n := s.modPort_canvas p f n
  refine ⟨⟨fun h n c hs => h n c (hc n ▸ hs), fun h q => ?_, fun ⟨h1, h2, h3⟩ => ⟨fun b => ?_, fun n c hs => h2 n c (hc n ▸ hs), ?_⟩⟩,
    fun _ he n c hs => he n c (hc n ▸ hs)⟩
  · have hr : (s.modPort p f).runsOf q = s.runsOf q :=
      State.runsOf_congr fun n => by rw [State.runAt, State.runAt, hc]
    rw [hr, State.port_modPort]
    obtain ⟨h1, h2, h3, h4⟩ := h q
    split
    · next hqp =>
      subst hqp
      have hheld := hh
      simp only [PortBlock.accounts, Prod.mk.injEq] at hheld
      rw [hheld.1, hheld.2]
      exact ⟨h1, h2, hq⟩
    · exact ⟨h1, h2, h3, h4⟩
  · rw [State.modPort_allocated, h1 b]
    simp only [hc]
  · intro n m c d b hs hd
    exact h3 n m c d b (hc n ▸ hs) (hc m ▸ hd)

theorem State.upholds_completeReset (s : State) (p : Port) (op : ResetOp) (hd : s.resetDone p op = true) :
    s.Upholds (s.completeReset p op) := by
  simp only [State.resetDone, Bool.and_eq_true, beq_iff_eq] at hd
  obtain ⟨⟨⟨_, hc⟩, hb⟩, _⟩ := hd
  unfold State.completeReset
  refine (s.upholds_quotas p _ (by rfl) ?_).trans (State.upholds_modPort _ .p0 _ (by exact PortBlock.answerAll_accounts _ _ _))
  rw [hb, hc]
  exact ⟨Nat.zero_le _, Nat.zero_le _⟩

theorem State.upholds_tryComplete (s : State) (p : Port) : s.Upholds (s.tryComplete p) := by
  unfold State.tryComplete
  split
  · exact .refl s
  · split
    · next hd => exact s.upholds_completeReset p _ hd
    · exact .refl s

theorem State.upholds_resetNow (s : State) (p : Port) (op : ResetOp) : s.Upholds ((s.beginReset p op).tryComplete p) :=
  (s.upholds_beginReset p op).trans (State.upholds_tryComplete _ p)

theorem State.upholds_beginForRequest (s : State) (payload : List Byte) (t : Port) (final : FinalState)
    (quotas : Option (Nat × Nat)) : s.Upholds (s.beginForRequest payload t final quotas) := by
  unfold State.beginForRequest
  refine (s.upholds_resetNow t ⟨final, [], none, quotas, false⟩).trans ?_
  dsimp only
  split
  · exact State.upholds_reply _ _ _ _ _
  · exact (State.upholds_modPort _ t _ (by rfl)).trans (State.upholds_defer _ _ _)

theorem State.upholds_joinReset (s : State) (payload : List Byte) (t : Port) (op : ResetOp) (final : FinalState)
    (quotas : Option (Nat × Nat)) : s.Upholds (s.joinReset payload t op final quotas) := by
  unfold State.joinReset
  exact (s.upholds_modPort t _ (by rfl)).trans (State.upholds_defer _ _ _)

/-! ### Sessions (R150, R176 to R183) and supervisor requests (R152 to R160) -/

theorem State.upholds_helloUnsynced (s : State) (p : Port) (payload : List Byte) :
    s.Upholds (s.helloUnsynced p payload) := by
  unfold State.helloUnsynced
  split
  · exact .refl s
  · exact s.upholds_modPort p _ (by rfl)

theorem upholds_helloFresh (s t : State) (p : Port) (h : execHelloFresh p s = .next t) : s.Upholds t := by
  refine State.upholds_process h fun payload v => ?_
  have hreset : v.Upholds (if ReqKind.hello.lengthOk payload.length && num8 payload 4 == 0x01 then
      (v.beginReset p ⟨.up, [], some (reqId payload), none, false⟩).tryComplete p else v) := by
    split
    · exact v.upholds_resetNow p _
    · exact .refl v
  split
  · exact v.upholds_helloUnsynced p payload
  · exact hreset
  · exact hreset
  · exact .refl v
  · exact .refl v

theorem upholds_helloResume (s t : State) (p : Port) (h : execHelloResume p s = .next t) : s.Upholds t := by
  refine State.upholds_process h fun payload v => ?_
  have hresume (f : PortBlock → PortBlock) (hf : ∀ b : PortBlock, (f b).accounts = b.accounts) :
      v.Upholds (if ReqKind.hello.lengthOk payload.length then v.modPort p f else v) := by
    split
    · exact v.upholds_modPort p f (hf _)
    · exact .refl v
  split
  · exact v.upholds_helloUnsynced p payload
  · exact hresume _ fun _ => rfl
  · exact hresume _ fun _ => rfl
  · exact .refl v
  · exact .refl v

theorem upholds_unknownKind (s t : State) (p : Port) (h : execUnknownKind p s = .next t) : s.Upholds t := by
  refine State.upholds_process h fun payload v => ?_
  split
  · exact v.upholds_modPort p _ (by rfl)
  · exact v.upholds_refuse p payload _

theorem upholds_portSetEnable (s t : State) (p : Port) (h : execPortSetEnable p s = .next t) : s.Upholds t := by
  refine State.upholds_process h fun payload v => ?_
  split
  · exact v.upholds_refuse p payload _
  · next q _ =>
    dsimp only
    split
    · exact v.upholds_joinReset payload q _ _ _
    · split
      · exact v.upholds_refuse p payload _
      · next hq =>
        simp only [Bool.or_eq_true, decide_eq_true_eq, not_or, Nat.not_lt] at hq
        refine State.Upholds.trans (v.upholds_quotas q _ ?_ ?_) (State.upholds_reply _ _ _ _ _)
        · rw [PortBlock.enable_accounts]; rfl
        · have he := (PortBlock.setQuotas (portSetQuotas payload) (v.port q)).enable_accounts
          simp only [PortBlock.accounts, Prod.mk.injEq] at he
          obtain ⟨_, hc, hb⟩ := he
          rw [hc, hb]
          exact hq

theorem upholds_portSetDisable (s t : State) (p : Port) (h : execPortSetDisable p s = .next t) : s.Upholds t := by
  refine State.upholds_process h fun payload v => ?_
  split
  · exact v.upholds_refuse p payload _
  · next q _ =>
    dsimp only
    split
    · exact v.upholds_joinReset payload q _ _ _
    · exact v.upholds_beginForRequest payload q _ _

theorem upholds_config (s t : State) (p : Port) (h : execConfig p s = .next t) : s.Upholds t := by
  refine State.upholds_process h fun payload v => ?_
  split
  · exact v.upholds_refuse p payload _
  · exact (v.upholds_modPort p _ (PortBlock.applySettings_accounts _ _)).trans (State.upholds_reply _ _ _ _ _)

theorem upholds_resetPort (s t : State) (p : Port) (h : execResetPort p s = .next t) : s.Upholds t := by
  refine State.upholds_process h fun payload v => ?_
  split
  · exact v.upholds_refuse p payload _
  · split
    · exact v.upholds_refuse p payload _
    · split
      · exact v.upholds_refuse p payload _
      · next q _ =>
        split
        · exact v.upholds_refuse p payload _
        · split
          · exact v.upholds_joinReset payload q _ _ _
          · exact v.upholds_beginForRequest payload q _ _

theorem State.upholds_of_fresh (s t : State) (hc : ∀ n, t.canvas n = none) (hm : t.allocated = 0)
    (hp : ∀ p, (t.port p).canvasesHeld = 0 ∧ (t.port p).blocksHeld = 0) : s.Upholds t := by
  obtain ⟨h1, h2, h3, h4⟩ := t.exact_of_fresh hc hm hp
  exact ⟨⟨fun _ => h1, fun _ => h2, fun _ => h3⟩, fun _ _ => h4⟩

theorem State.upholds_powerOnValues (s : State) (pin : Bool) : s.Upholds (s.powerOnValues pin) :=
  s.upholds_of_fresh _ State.reset_canvas rfl fun p => by
    have h : (s.powerOnValues pin).port p = PortBlock.reset := State.reset_port p
    rw [h]
    exact ⟨rfl, rfl⟩

theorem State.upholds_deviceReset (s : State) : s.Upholds s.deviceReset := by
  refine s.upholds_of_fresh _ (fun n => ?_) rfl fun p => ?_
  · rw [State.canvas, State.deviceReset_slot]; exact (s.slot n).deviceReset_kept.2
  · have h : s.deviceReset.port p = PortBlock.reset := State.reset_port p
    rw [h]
    exact ⟨rfl, rfl⟩

theorem upholds_resetDevice (s t : State) (p : Port) (h : execResetDevice p s = .next t) : s.Upholds t := by
  refine State.upholds_process h fun payload v => ?_
  split
  · exact v.upholds_refuse p payload _
  · split
    · exact v.upholds_refuse p payload _
    · exact v.upholds_deviceReset

/-! ### Canvases (R11 to R18, R34) -/

theorem upholds_openCanvas (s t : State) (p : Port) (h : execOpenCanvas p s = .next t) : s.Upholds t := by
  refine State.upholds_process h fun payload v => ?_
  split
  · exact v.upholds_refuse p payload _
  · next a _ =>
    split
    · exact v.upholds_refuse p payload _
    · split
      · exact v.upholds_refuse p payload _
      · next hq =>
        split
        · next n f hn hf =>
          rw [Bool.not_eq_true, Bool.not_eq_false'] at hq
          refine State.Upholds.trans ⟨v.tidies_takeOpen p _ a n f hn hf hq, fun _ he m c hc => ?_⟩
            (State.upholds_defer _ p payload)
          obtain ⟨⟨hb1, hb2⟩, _⟩ := (v.freeSlot_eq_some n).1 hn
          by_cases hm : m = n
          · rw [hm, State.canvas, v.takeOpen_slot_same p _ a n f hb1 hb2] at hc
            cases hc
            exact ⟨nofun, nofun⟩
          · rw [State.canvas, v.takeOpen_slot_ne p _ a n f m hm] at hc
            exact he m c hc
        · exact v.upholds_refuse p payload _

theorem upholds_query (s t : State) (p : Port) (h : execQuery p s = .next t) : s.Upholds t := by
  refine State.upholds_process h fun payload v => ?_
  split
  · exact v.upholds_refuse p payload _
  · dsimp only
    split
    · exact v.upholds_refuse p payload _
    · split
      · exact v.upholds_reply p payload _ _
      · exact v.upholds_refuse p payload _

theorem upholds_list (s t : State) (p : Port) (h : execList p s = .next t) : s.Upholds t := by
  refine State.upholds_process h fun payload v => ?_
  split
  · exact v.upholds_refuse p payload _
  · dsimp only
    split
    · exact v.upholds_refuse p payload _
    · exact v.upholds_reply p payload _ _

/-- A canvas goes LIVE with its grants as they were (R15). -/
theorem Canvas.upholds_setLive (c : Canvas) : c.Upholds { c with phase := .live } :=
  ⟨⟨.refl c, Canvas.placed_of_sublist rfl (List.Sublist.refl _) nofun⟩, fun _ he => ⟨he.1, nofun⟩⟩

theorem State.upholds_canvasLive (s : State) (n : Nat) : s.Upholds (s.canvasLive n) := by
  unfold State.canvasLive
  split
  · exact .refl s
  · next c hc =>
    split
    · exact (s.upholds_setCanvas n c _ hc c.upholds_setLive).trans (State.tableStays_answerWaiters _ _ _).upholds
    · exact .refl s

theorem State.upholds_blockReport (s : State) : s.Upholds s.blockReport := by
  unfold State.blockReport
  split
  · exact .refl s
  · next n _ _ =>
    have hpop := (s.tableStays_clear s.clear.popHead).upholds
    split
    · exact hpop.trans (State.upholds_release _ n)
    · dsimp only
      split
      · exact (s.tableStays_clear _).upholds
      · exact hpop.trans (State.upholds_canvasLive _ n)

theorem upholds_blockCleared (s t : State) (h : execBlockCleared s = .next t) : s.Upholds t := by
  unfold execBlockCleared at h
  split at h
  · split at h
    · cases h
      exact (s.tableStays_of_eq _ (by rfl)).upholds.trans (State.upholds_blockReport _)
    · cases h
  · cases h; exact .refl s

/-! ### Sharing (R39 to R54) -/

/-- A grant is added for a port that has none and is not the owner, on a canvas known to hosts (R37, R40). -/
theorem Canvas.upholds_addGrant (c : Canvas) (t : Port) (asked : Rights) (hg : c.grantTo t = none) (ho : t ≠ c.owner)
    (hk : c.phase.known = true) : c.Upholds { c with grants := c.grants ++ [⟨t, asked, 0, none⟩] } := by
  refine ⟨⟨.refl c, fun ⟨h1, h2, _⟩ => ⟨?_, ?_, fun h => ?_⟩⟩, fun _ ⟨h1, h2⟩ => ⟨fun g hm hv => ?_, fun h => ?_⟩⟩
  · rw [List.map_append]
    refine List.nodup_append.2 ⟨h1, List.nodup_singleton _, fun x hx y hy hxy => ?_⟩
    obtain ⟨g, hgm, rfl⟩ := List.mem_map.1 hx
    have hyt : y = t := List.mem_singleton.1 hy
    have := List.find?_eq_none.1 hg g hgm
    simp only [beq_iff_eq] at this
    exact this (hxy.trans hyt)
  · rw [List.map_append, List.mem_append]
    rintro (hm | hm)
    · exact h2 hm
    · exact ho (List.mem_singleton.1 hm).symm
  · change c.phase.known = false at h
    rw [hk] at h; cases h
  · rcases List.mem_append.1 hm with hm | hm
    · exact h1 g hm hv
    · rw [List.mem_singleton] at hm
      subst hm
      exact absurd rfl hv
  · have := h2 h
    simp only [Canvas.pinCount, List.map_append, List.sum_append] at this ⊢
    omega

/-- A change of a grant that leaves its pins and its revoke. -/
theorem Canvas.upholds_modGrant (c : Canvas) (t : Port) (f : Grant → Grant)
    (hf : ∀ g : Grant, (f g).port = g.port ∧ (f g).pins = g.pins ∧ (f g).revoke = g.revoke) : c.Upholds (c.modGrant t f) := by
  refine Canvas.upholds_of_terms (fun g => if g.port = t then f g else g) (.refl c) rfl rfl rfl rfl fun g => ?_
  obtain ⟨h1, h2, h3⟩ := hf g
  split
  · exact ⟨h1, h2, by rw [h3]⟩
  · exact ⟨rfl, rfl, Iff.rfl⟩

theorem Canvas.upholds_grantResult (c d : Canvas) (t : Port) (asked : Rights) (result : Nat) (ho : t ≠ c.owner)
    (hk : c.phase.known = true) (h : c.grantResult t asked = .ok (result, d)) : c.Upholds d := by
  unfold Canvas.grantResult at h
  split at h
  · next hg => cases h; exact c.upholds_addGrant t asked hg ho hk
  · split at h
    · cases h
    · split at h
      · cases h; exact .refl _
      · split at h
        · cases h
        · cases h; exact c.upholds_modGrant t _ fun _ => ⟨rfl, rfl, rfl⟩

theorem upholds_grant (s t : State) (p : Port) (h : execGrant p s = .next t) : s.Upholds t := by
  refine State.upholds_process h fun payload v => ?_
  split
  · exact v.upholds_refuse p payload _
  · split
    · dsimp only
      split
      · exact v.upholds_refuse p payload _
      · next c hl =>
        obtain ⟨hc, hk, _, _⟩ := v.lookup_some _ c hl
        split
        · exact v.upholds_refuse p payload _
        · split
          · exact v.upholds_refuse p payload _
          · split
            · exact v.upholds_refuse p payload _
            · next ho =>
              split
              · exact v.upholds_refuse p payload _
              · next result d hd =>
                exact (v.upholds_setCanvas _ c d hc (c.upholds_grantResult d _ _ result ho hk hd)).trans
                  (State.upholds_reply _ _ _ _ _)
    · exact v.upholds_refuse p payload _

theorem Canvas.staysPlaced_setRevoke (c : Canvas) (t : Port) (r : RevokeOp) : c.StaysPlaced (c.setRevoke t r) :=
  c.staysPlaced_modGrant t (fun g => { g with revoke := some r }) fun _ => rfl

/-- A revoke may begin or change on a grant that has pins (R42, R43). -/
theorem Canvas.upholds_setRevoke (c : Canvas) (t : Port) (r : RevokeOp)
    (h : c.GrantsPlaced → c.EndsTaken → ∀ g, c.grantTo t = some g → 0 < g.pins) : c.Upholds (c.setRevoke t r) := by
  refine ⟨c.staysPlaced_setRevoke t r, fun hp he => ⟨fun x hx hv => ?_, fun hcl => ?_⟩⟩
  · obtain ⟨g, hg, rfl⟩ := List.mem_map.1 hx
    by_cases hgt : g.port = t
    · rw [if_pos hgt]
      exact h hp he g (hgt ▸ hp.grantTo g hg)
    · rw [if_neg hgt] at hv ⊢
      exact he.1 g hg hv
  · have hpins : (c.setRevoke t r).pinCount = c.pinCount :=
      Canvas.pinCount_congr rfl (c.modGrant_pins t (fun g => { g with revoke := some r }) fun _ => rfl)
    rw [hpins]
    exact he.2 hcl

/-- A revoke of a grant without pins ends in the step it begins (R42). -/
theorem State.upholds_revokeAtOnce (s : State) (n : Nat) (c : Canvas) (t : Port) (g : Grant) (r : RevokeOp)
    (hc : s.canvas n = some c) (hg : c.grantTo t = some g) (h0 : g.pins = 0) :
    s.Upholds ((s.setCanvas n (c.setRevoke t r)).endRevoke n t) := by
  have hg' := c.grantTo_setRevoke t r g hg
  have hset : s.Tidies (s.setCanvas n (c.setRevoke t r)) :=
    s.tidies_setCanvas n c _ hc (c.staysPlaced_setRevoke t r)
  refine ⟨hset.trans (State.tidies_endRevoke _ n t), fun hp he m d hd => ?_⟩
  rw [State.canvas_endRevoke _ n m t _ _ r (State.canvas_setCanvas_same _ _ _ c hc) hg' rfl, s.canvas_setCanvas n m c _ hc] at hd
  split at hd
  · cases hd
    have hplaced := hp n c hc
    have hpins : ((c.setRevoke t r).dropGrant t).pinCount = c.pinCount := by
      rw [Canvas.pinCount_dropGrant ((c.staysPlaced_setRevoke t r).placed hplaced) t fun x hx => ?_]
      · exact Canvas.pinCount_congr rfl (c.modGrant_pins t (fun g => { g with revoke := some r }) fun _ => rfl)
      · rw [hg'] at hx; cases hx; exact h0
    refine ⟨fun x hx hv => ?_, fun hcl => ?_⟩
    · obtain ⟨hx1, hx2⟩ := List.mem_filter.1 hx
      obtain ⟨y, hy, rfl⟩ := List.mem_map.1 hx1
      by_cases hyt : y.port = t
      · rw [if_pos hyt] at hx2
        simp [hyt] at hx2
      · rw [if_neg hyt] at hv ⊢
        exact (he n c hc).1 y hy hv
    · rw [hpins]
      exact (he n c hc).2 hcl
  · exact he m d hd

theorem State.upholds_beginRevoke (s : State) (payload : List Byte) (h : Handle) (c : Canvas) (t : Port) (g : Grant)
    (mode : WaitMode) (hc : s.canvas (handleSlot h) = some c) (hg : c.grantTo t = some g) :
    s.Upholds (s.beginRevoke payload h c t g.pins mode) := by
  unfold State.beginRevoke
  dsimp only
  split
  · next h0 => exact (s.upholds_revokeAtOnce _ c t g _ hc hg h0).trans (State.upholds_reply _ _ _ _ _)
  · next h0 =>
    have hr := s.upholds_setCanvas _ c _ hc (c.upholds_setRevoke t ⟨mode, [⟨c.owner, reqId payload⟩], false⟩ fun _ _ g' hg' => by
      rw [hg] at hg'; cases hg'; exact Nat.pos_of_ne_zero h0)
    have hd := hr.trans (State.upholds_defer _ c.owner payload)
    split
    · exact hd
    · exact hd.trans (State.upholds_cutPort _ _ t)

/-- A REVOKING grant has pins, so its revoke may change (R43, R44). -/
theorem Canvas.upholds_changeRevoke (c : Canvas) (t : Port) (g : Grant) (r : RevokeOp) (hg : c.grantTo t = some g)
    (hv : g.revoke ≠ none) : c.Upholds (c.setRevoke t r) :=
  c.upholds_setRevoke t r fun _ he g' hg' => by
    rw [hg] at hg'; cases hg'
    exact he.1 g (c.grantTo_some t g hg).1 hv

theorem State.upholds_joinRevoke (s : State) (payload : List Byte) (h : Handle) (c : Canvas) (t : Port) (g : Grant)
    (r : RevokeOp) (mode : WaitMode) (hc : s.canvas (handleSlot h) = some c) (hg : c.grantTo t = some g)
    (hv : g.revoke = some r) : s.Upholds (s.joinRevoke payload h c t r mode) := by
  have hd (r' : RevokeOp) : s.Upholds ((s.setCanvas (handleSlot h) (c.setRevoke t r')).defer c.owner payload) :=
    (s.upholds_setCanvas _ c _ hc (c.upholds_changeRevoke t g r' hg (by rw [hv]; nofun))).trans (State.upholds_defer _ _ _)
  unfold State.joinRevoke
  dsimp only
  split
  · exact (hd _).trans (State.upholds_cutPort _ _ t)
  · exact hd _

theorem upholds_revoke (s t : State) (p : Port) (h : execRevoke p s = .next t) : s.Upholds t := by
  refine State.upholds_process h fun payload v => ?_
  split
  · exact v.upholds_refuse p payload _
  · split
    · dsimp only
      split
      · exact v.upholds_refuse p payload _
      · next c hl =>
        have hc := (v.lookup_some _ c hl).1
        split
        · exact v.upholds_refuse p payload _
        · split
          · exact v.upholds_refuse p payload _
          · split
            · exact v.upholds_refuse p payload _
            · split
              · exact v.upholds_refuse p payload _
              · next g hg =>
                split
                · exact v.upholds_beginRevoke payload _ c _ g _ hc hg
                · next r hr => exact v.upholds_joinRevoke payload _ c _ g r _ hc hg hr
    · exact v.upholds_refuse p payload _

/-- A close may begin or change on a canvas that has pins (R50, R51). -/
theorem Canvas.upholds_setClosing (c : Canvas) (op : CloseOp) (h : c.EndsTaken → 0 < c.pinCount) :
    c.Upholds { c with phase := .closing op } := ⟨c.staysPlaced_setClosing op, fun _ he => ⟨he.1, fun _ => h he⟩⟩

/-- A close of a canvas without pins ends in the step it begins (R50). -/
theorem State.upholds_closeAtOnce (s : State) (n : Nat) (c : Canvas) (op : CloseOp) (hc : s.canvas n = some c) :
    s.Upholds ((s.setCanvas n { c with phase := .closing op }).endClose n op) := by
  refine ⟨(s.tidies_setCanvas n c _ hc (c.staysPlaced_setClosing op)).trans (State.tidies_endClose _ n op), fun _ he => ?_⟩
  refine State.endsTaken_of_freed n (fun m => ?_) he
  rw [State.canvas_endClose _ n m op _ (State.canvas_setCanvas_same _ _ _ c hc), s.canvas_setCanvas n m c _ hc]
  split <;> rfl

theorem State.upholds_beginClose (s : State) (p : Port) (payload : List Byte) (h : Handle) (c : Canvas) (mode : WaitMode)
    (forced : Bool) (hc : s.canvas (handleSlot h) = some c) : s.Upholds (s.beginClose p payload h c mode forced) := by
  unfold State.beginClose
  dsimp only
  split
  · exact (s.upholds_closeAtOnce _ c _ hc).trans (State.upholds_reply _ _ _ _ _)
  · next h0 =>
    have hd := (s.upholds_setCanvas _ c _ hc
      (c.upholds_setClosing ⟨mode, [⟨p, reqId payload⟩], forced, false⟩ fun _ => Nat.pos_of_ne_zero h0)).trans
      (State.upholds_defer _ p payload)
    split
    · exact hd
    · exact hd.trans (State.upholds_cutCanvas _ _)

/-- A CLOSING canvas has pins, so its close may change (R51, R52). -/
theorem Canvas.upholds_changeClose (c : Canvas) (op op' : CloseOp) (h : c.phase = .closing op) :
    c.Upholds { c with phase := .closing op' } := c.upholds_setClosing op' fun he => he.2 (by rw [h]; rfl)

theorem State.upholds_joinClose (s : State) (p : Port) (payload : List Byte) (h : Handle) (c : Canvas) (op : CloseOp)
    (mode : WaitMode) (forced : Bool) (hc : s.canvas (handleSlot h) = some c) (hph : c.phase = .closing op) :
    s.Upholds (s.joinClose p payload h c op mode forced) := by
  have hd (op' : CloseOp) : s.Upholds ((s.setCanvas (handleSlot h) { c with phase := .closing op' }).defer p payload) :=
    (s.upholds_setCanvas _ c _ hc (c.upholds_changeClose op op' hph)).trans (State.upholds_defer _ _ _)
  unfold State.joinClose
  dsimp only
  split
  · exact (hd _).trans (State.upholds_cutCanvas _ _)
  · exact hd _

theorem upholds_closeCanvas (s t : State) (p : Port) (h : execCloseCanvas p s = .next t) : s.Upholds t := by
  refine State.upholds_process h fun payload v => ?_
  split
  · exact v.upholds_refuse p payload _
  · split
    · exact v.upholds_refuse p payload _
    · dsimp only
      split
      · exact v.upholds_refuse p payload _
      · next c hl =>
        have hc := (v.lookup_some _ c hl).1
        split
        · exact v.upholds_refuse p payload _
        · split
          · exact v.upholds_refuse p payload _
          · split
            · next op hph => exact v.upholds_joinClose p payload _ c op _ _ hc hph
            · exact v.upholds_beginClose p payload _ c _ _ hc

theorem State.canvas_elapse (s : State) (ms n : Nat) : (s.elapse ms).canvas n = (Slot.elapse ms (s.slot n)).canvas := by
  rw [State.canvas, State.elapse_slot]

theorem upholds_revokeDeadlineExpiry (s t : State) (slot : Nat) (p : Port)
    (h : execRevokeDeadlineExpiry slot p s = .next t) : s.Upholds t := by
  refine State.upholds_unlessHeld h ?_
  split
  · next left ws mark hr =>
    obtain ⟨c, hc, hb⟩ := Option.bind_eq_some_iff.1 hr
    obtain ⟨g, hg, hv⟩ := Option.bind_eq_some_iff.1 hb
    refine ((s.upholds_elapse left).trans (State.upholds_modCanvas _ slot _ fun d hd => ?_)).trans
      (State.upholds_cutPort _ slot p)
    rw [State.canvas_elapse, Slot.elapse, ← State.canvas, hc, Option.map_some] at hd
    cases hd
    refine Canvas.upholds_changeRevoke _ p { g with revoke := g.revoke.map fun r => { r with mode := r.mode.elapse left } } _ ?_ ?_
    · rw [Canvas.grantTo] at hg ⊢
      rw [List.find?_map]
      exact congrArg (Option.map _) hg
    · simp [hv]
  · exact .refl s

theorem upholds_closeDeadlineExpiry (s t : State) (slot : Nat) (h : execCloseDeadlineExpiry slot s = .next t) :
    s.Upholds t := by
  refine State.upholds_unlessHeld h ?_
  split
  · next op ho =>
    obtain ⟨c, hc, hph⟩ := s.closeOp_some slot op ho
    split
    · next left _ =>
      refine ((s.upholds_elapse left).trans (State.upholds_modCanvas _ slot _ fun d hd => ?_)).trans
        (State.upholds_cutCanvas _ slot)
      rw [State.canvas_elapse, Slot.elapse, ← State.canvas, hc, Option.map_some] at hd
      cases hd
      exact Canvas.upholds_changeClose _ { op with mode := op.mode.elapse left } _ (by simp only [hph])
    · exact .refl s
  · exact .refl s

theorem upholds_revokeEnd (s t : State) (slot : Nat) (p : Port) (h : execRevokeEnd slot p s = .next t) :
    s.Upholds t := by
  refine State.upholds_unlessHeld h ?_
  split
  · exact .refl s
  · next c hc =>
    split
    · next hd =>
      rw [Bool.and_eq_true] at hd
      obtain ⟨g, r, hg, hr, h0⟩ := (c.revokeDue_iff p).1 hd.2
      refine ⟨s.tidies_endRevoke slot p, fun _ he => ?_⟩
      have := (he slot c hc).1 g (c.grantTo_some p g hg).1 (by rw [hr]; nofun)
      omega
    · exact .refl s

theorem upholds_closeEnd (s t : State) (slot : Nat) (h : execCloseEnd slot s = .next t) : s.Upholds t := by
  refine State.upholds_unlessHeld h ?_
  split
  · exact s.upholds_endClose slot _
  · exact .refl s

/-! ### Queues and their heads (R66 to R87) -/

theorem State.tableStays_tryGrant (s : State) (p : Port) : s.TableStays (s.tryGrant p) := by
  obtain h | ⟨cs, e, rest, _, _, _, _, h⟩ := s.tryGrant_cases p <;> rw [h]
  · exact .refl s
  · exact s.tableStays_setPort p _ (by rfl)

theorem State.tableStays_releaseClaims (s : State) (p : Port) : s.TableStays (s.releaseClaims p) :=
  (s.tableStays_modPort p _ (by rfl)).trans (State.tableStays_foldl _ (fun s q => s.tableStays_tryGrant q) _ _)

theorem State.upholds_endHead (s : State) (p : Port) (e : Entry) (status : JobStatus) (index : Option Nat) (halts : Bool) :
    s.Upholds (s.endHead p e status index halts) := by
  unfold State.endHead
  dsimp only
  refine State.Upholds.trans (t := if e.isActive then _ else _) ?_
    (State.upholds_drop_settle _ _ p e.pins (State.tableStays_modPort _ p _ ?_))
  · have h := s.upholds_modPort p (fun b => { b with
      record := none, request := none, queue := { b.queue with entries := b.queue.entries.tail, report := none } }) rfl
    split
    · exact h.trans (State.tableStays_releaseClaims _ p).upholds
    · exact h
  · exact (PortBlock.halts_accounts _ _).trans (by simp)

theorem State.upholds_endForReset (s : State) (p : Port) (e : Entry) : s.Upholds (s.endForReset p e) := by
  unfold State.endForReset
  dsimp only
  exact ((s.upholds_modPort p _ (by rfl)).trans (State.tableStays_releaseClaims _ p).upholds).trans
    (State.upholds_drop_settle _ _ p e.pins (State.tableStays_modPort _ p _ (by simp)))

theorem State.tableStays_logFault (s : State) (p : Port) (seq : Nat) (kind : JobKind) (d : FaultDetail) :
    s.TableStays (s.logFault p seq kind d).1 := by
  unfold State.logFault
  split
  · next i _ =>
    exact State.TableStays.trans (s.tableStays_of_eq { s with faultLog := s.faultLog.log i p seq kind d } (by rfl))
      (State.tableStays_modPort _ p (fun b => b.raiseFault d.kind) (PortBlock.raiseFault_accounts _ _))
  · exact s.tableStays_modPort p (fun b => (b.raise .logFull).raiseFault d.kind) (by simp)

theorem State.upholds_endFaulted (s : State) (p : Port) (e : Entry) (d : FaultDetail) :
    s.Upholds (s.endFaulted p e d) :=
  (s.tableStays_logFault p e.seq e.job.kind d).upholds.trans (State.upholds_endHead _ p e _ _ _)

theorem upholds_waitTimerExpiry (s t : State) (p : Port) (h : execWaitTimerExpiry p s = .next t) : s.Upholds t := by
  refine State.upholds_unlessHeld h ?_
  split
  · split
    · exact (s.upholds_elapse _).trans (State.upholds_endFaulted _ p _ _)
    · exact .refl s
  · exact .refl s

theorem upholds_jobEnd (s t : State) (p : Port) (h : execJobEnd p s = .next t) : s.Upholds t := by
  refine State.upholds_unlessHeld h ?_
  split
  · split
    · unfold State.endJob
      split
      · exact s.upholds_endForReset p _
      · split
        · exact s.upholds_endFaulted p _ _
        · exact s.upholds_endHead p _ _ _ _
    · exact .refl s
  · exact .refl s

theorem State.upholds_dispatch (s : State) (p : Port) (e : Entry) : s.Upholds (s.dispatch p e) := by
  have hr : s.Upholds (s.modPort p fun b => { b with link := b.link.reserve }) := s.upholds_modPort p _ (by rfl)
  unfold State.dispatch
  split
  · exact hr.trans (State.upholds_endHead _ p e _ _ _)
  · split
    · exact hr.trans (State.upholds_endHead _ p e _ _ _)
    · exact s.upholds_modPort p _ (by rfl)
  · exact .refl s

theorem upholds_jobDispatch (s t : State) (p : Port) (h : execJobDispatch p s = .next t) : s.Upholds t := by
  refine State.upholds_unlessHeld h ?_
  split
  · exact .refl s
  · split
    · exact s.upholds_dispatch p _
    · exact .refl s

/-- A pin more ends nothing (R70). -/
theorem Canvas.upholds_pin (c : Canvas) (p : Port) : c.Upholds (c.modPins p (· + 1)) := by
  refine ⟨c.staysPlaced_modPins p _, fun _ ⟨h1, h2⟩ => ?_⟩
  unfold Canvas.modPins
  split
  · refine ⟨h1, fun h => ?_⟩
    have := h2 h
    simp only [Canvas.pinCount] at this ⊢
    omega
  · refine ⟨fun x hx hv => ?_, fun h => ?_⟩
    · obtain ⟨g, hg, rfl⟩ := List.mem_map.1 hx
      split at hv
      · next hp => rw [if_pos hp]; exact Nat.succ_pos _
      · next hp => rw [if_neg hp]; exact h1 g hg hv
    · have hle : (c.grants.map Grant.pins).sum ≤
          ((c.modGrant p fun g => { g with pins := g.pins + 1 }).grants.map Grant.pins).sum := by
        rw [Canvas.modGrant, List.map_map]
        refine List.sum_le_sum fun g _ => ?_
        simp only [Function.comp]
        split
        · exact Nat.le_succ _
        · exact Nat.le_refl _
      have := h2 h
      simp only [Canvas.pinCount] at this ⊢
      exact Nat.lt_of_lt_of_le this (Nat.add_le_add_left hle _)

theorem State.upholds_pin (s : State) (p : Port) (a : Handle) : s.Upholds (s.pin p a) :=
  s.upholds_modCanvas _ _ fun c _ => c.upholds_pin p

theorem State.upholds_admitJob (s : State) (p : Port) (j : Job × Bool) : s.Upholds (s.admitJob p j) := by
  rw [State.admitJob_eq]
  exact (s.upholds_modPort p _ (by rfl)).trans (State.upholds_foldl _ (fun s a => s.upholds_pin p a) _ _)

theorem upholds_submit (s t : State) (p : Port) (h : execSubmit p s = .next t) : s.Upholds t := by
  refine State.upholds_process h fun payload v => ?_
  split
  · exact v.upholds_reply p payload _ _
  · split
    · exact v.upholds_reply p payload _ _
    · split
      · exact v.upholds_reply p payload _ _
      · split
        · exact v.upholds_reply p payload _ _
        · next jobs _ _ _ _ =>
          have hj := State.upholds_foldl (State.admitJob p) (fun s j => s.upholds_admitJob p j) jobs v
          exact (hj.trans (State.upholds_modPort _ p _ (PortBlock.refreshStaging_accounts _))).trans (State.upholds_reply _ _ _ _ _)

theorem upholds_cancel (s t : State) (p : Port) (h : execCancel p s = .next t) : s.Upholds t := by
  refine State.upholds_process h fun payload v => ?_
  split
  · exact v.upholds_refuse p payload _
  · dsimp only
    split
    · exact v.upholds_refuse p payload _
    · refine (v.upholds_modPort p (fun b => b.cancelEntries (num16 payload 4)) (by simp)).trans
        (State.upholds_drop_settle _ _ p _ ?_)
      split
      · exact (State.tableStays_modPort _ p _ (PortBlock.stopRequest_accounts _ _)).trans
          (State.tableStays_defer _ p payload)
      · exact State.tableStays_reply _ p payload _ _

theorem upholds_halt (s t : State) (p : Port) (h : execHalt p s = .next t) : s.Upholds t := by
  refine State.upholds_process h fun payload v => ?_
  split
  · exact v.upholds_refuse p payload _
  · exact v.upholds_modPort p _ (PortBlock.takeHalt_accounts _ _)

theorem upholds_resume (s t : State) (p : Port) (h : execResume p s = .next t) : s.Upholds t := by
  refine State.upholds_process h fun payload v => ?_
  split
  · exact v.upholds_refuse p payload _
  · exact v.upholds_modPort p _ (PortBlock.takeResume_accounts _ _)

/-! ### Reports (R136 to R145) and write data (R120) -/

theorem upholds_status (s t : State) (p : Port) (h : execStatus p s = .next t) : s.Upholds t := by
  refine State.upholds_process h fun payload v => ?_
  split
  · exact v.upholds_refuse p payload _
  · split
    · exact v.upholds_refuse p payload _
    · split
      · exact v.upholds_refuse p payload _
      · refine State.Upholds.trans ?_ (State.upholds_reply _ p payload _ _)
        split
        · exact v.upholds_modPort p _ (by rfl)
        · exact .refl v

theorem upholds_faultRead (s t : State) (p : Port) (h : execFaultRead p s = .next t) : s.Upholds t := by
  refine State.upholds_process h fun payload v => ?_
  dsimp only
  split
  · exact v.upholds_refuse p payload _
  · split
    · exact v.upholds_reply p payload _ _
    · split
      · exact v.upholds_refuse p payload _
      · split
        · exact v.upholds_refuse p payload _
        · exact v.upholds_reply p payload _ _

theorem upholds_faultAck (s t : State) (p : Port) (h : execFaultAck p s = .next t) : s.Upholds t := by
  refine State.upholds_process h fun payload v => ?_
  split
  · exact v.upholds_refuse p payload _
  · exact (v.tableStays_of_eq _ (by rfl)).upholds.trans (State.upholds_reply _ p payload _ _)

theorem upholds_attnClear (s t : State) (p : Port) (h : execAttnClear p s = .next t) : s.Upholds t := by
  refine State.upholds_process h fun payload v => ?_
  split
  · exact v.upholds_refuse p payload _
  · split
    · exact v.upholds_refuse p payload _
    · exact (v.upholds_modPort p _ (by rfl)).trans (State.upholds_reply _ p payload _ _)

theorem upholds_datFrame (s t : State) (p : Port) (h : execDatFrame p s = .next t) : s.Upholds t := by
  refine State.upholds_process h fun payload v => ?_
  have hu : v.Upholds (v.modPort p (PortBlock.unpromise payload)) :=
    v.upholds_modPort p _ (PortBlock.unpromise_accounts _ _)
  unfold State.takeData
  dsimp only
  split
  · exact hu.trans (State.upholds_modPort _ p _ (by rfl))
  · exact hu.trans (State.upholds_modPort _ p _ (PortBlock.rejectData_accounts _ _))

/-! ### The engine and the store (R26, R103 to R126) -/

theorem State.upholds_chooseSpan (s : State) : s.Upholds s.chooseSpan := by
  unfold State.chooseSpan
  split
  · exact .refl s
  · next p _ =>
    exact (s.tableStays_of_eq { s with engine := ⟨some ⟨p, (s.port p).spanData⟩, p⟩ } rfl).upholds.trans
      (State.upholds_modPort _ p _ (PortBlock.reserveSpanSlot_accounts _))

theorem upholds_spanBegin (s t : State) (h : execSpanBegin s = .next t) : s.Upholds t := by
  refine State.upholds_unlessHeld h ?_
  split
  · exact .refl s
  · exact s.upholds_chooseSpan

theorem upholds_storeAccessBegin (s t : State) (h : execStoreAccessBegin s = .next t) : s.Upholds t := by
  refine State.upholds_unlessHeld h ?_
  split
  · exact .refl s
  · split
    · exact .refl s
    · exact (s.tableStays_of_eq _ (by rfl)).upholds

theorem State.upholds_endAccess (s : State) (m : Store) : s.Upholds { s.endAccess with store := m } :=
  (s.tableStays_of_eq _ (by rfl)).upholds

theorem upholds_spanComplete (s t : State) (corrected : List Nat) (h : execSpanComplete corrected s = .next t) :
    s.Upholds t := by
  unfold execSpanComplete at h
  split at h
  · next x r _ _ =>
    split at h
    · cases h
    · split at h
      · cases h; exact .refl s
      · cases h
        exact ((s.upholds_endAccess _).trans (State.upholds_modPort _ x.port _ (by rfl))).trans
          (State.upholds_chooseSpan _)
  · cases h; exact .refl s

theorem upholds_spanUncorrectable (s t : State) (word : Nat) (h : execSpanUncorrectable word s = .next t) :
    s.Upholds t := by
  unfold execSpanUncorrectable at h
  split at h
  · next x r _ _ =>
    split at h
    · cases h
    · split at h
      · cases h
        exact ((s.upholds_endAccess _).trans (State.upholds_modPort _ x.port _ (by rfl))).trans
          (State.upholds_chooseSpan _)
      · cases h; exact .refl s
  · cases h; exact .refl s

theorem State.upholds_streamExpiry (s : State) (p : Port) (job : JobKind) (kind : FaultKind) :
    s.Upholds (s.streamExpiry p job kind) := by
  unfold State.streamExpiry
  split
  · exact .refl s
  · split
    · exact (s.upholds_elapse _).trans (State.upholds_modPort _ p _ (PortBlock.timedOut_accounts _ _))
    · exact .refl s

/-! ### Every command, and the step -/

theorem upholds_exec (c : Instr) (s t : State) (h : exec c s = .next t) : s.Upholds t := by
  cases c with
  | powerOn => cases h; exact s.upholds_powerOnValues _
  | resetPinAssert => cases h; exact s.upholds_powerOnValues _
  | resetPinRelease =>
    cases h
    split
    · exact s.upholds_powerOnValues _
    · exact .refl s
  | frameLengthError p bytes => exact upholds_frameLengthError s t p bytes h
  | crcError p bytes => exact upholds_crcError s t p bytes h
  | unknownClassFrame p bytes => exact upholds_unknownClassFrame s t p bytes h
  | reqDatFrameReceived p bytes => exact upholds_reqDatFrameReceived s t p bytes h
  | ackFrameReceived p bytes => exact upholds_ackFrameReceived s t p bytes h
  | helloFrameReceived p bytes => exact upholds_helloFrameReceived s t p bytes h
  | frameTransmit p => exact upholds_frameTransmit s t p h
  | resendTimerExpiry p => exact upholds_resendTimerExpiry s t p h
  | helloFresh p => exact upholds_helloFresh s t p h
  | helloResume p => exact upholds_helloResume s t p h
  | unknownKind p => exact upholds_unknownKind s t p h
  | portSetEnable p => exact upholds_portSetEnable s t p h
  | portSetDisable p => exact upholds_portSetDisable s t p h
  | config p => exact upholds_config s t p h
  | resetPort p => exact upholds_resetPort s t p h
  | portResetComplete p => exact State.upholds_unlessHeld h (s.upholds_tryComplete p)
  | resetDevice p => exact upholds_resetDevice s t p h
  | openCanvas p => exact upholds_openCanvas s t p h
  | closeCanvas p => exact upholds_closeCanvas s t p h
  | query p => exact upholds_query s t p h
  | list p => exact upholds_list s t p h
  | grant p => exact upholds_grant s t p h
  | revoke p => exact upholds_revoke s t p h
  | submit p => exact upholds_submit s t p h
  | cancel p => exact upholds_cancel s t p h
  | halt p => exact upholds_halt s t p h
  | resume p => exact upholds_resume s t p h
  | status p => exact upholds_status s t p h
  | faultRead p => exact upholds_faultRead s t p h
  | faultAck p => exact upholds_faultAck s t p h
  | attnClear p => exact upholds_attnClear s t p h
  | datFrame p => exact upholds_datFrame s t p h
  | jobDispatch p => exact upholds_jobDispatch s t p h
  | claimGrant p => exact State.upholds_unlessHeld h (s.tableStays_tryGrant p).upholds
  | waitTimerExpiry p => exact upholds_waitTimerExpiry s t p h
  | spanBegin => exact upholds_spanBegin s t h
  | storeAccessBegin => exact upholds_storeAccessBegin s t h
  | spanComplete corrected => exact upholds_spanComplete s t corrected h
  | spanUncorrectable word => exact upholds_spanUncorrectable s t word h
  | dataTimeoutExpiry p => exact State.upholds_unlessHeld h (s.upholds_streamExpiry p _ _)
  | readStallExpiry p => exact State.upholds_unlessHeld h (s.upholds_streamExpiry p _ _)
  | jobEnd p => exact upholds_jobEnd s t p h
  | attentionFramePlaced p =>
    exact State.upholds_unlessHeld h (s.upholds_modPort p _ (PortBlock.placeDueAtn_accounts _))
  | revokeDeadlineExpiry slot p => exact upholds_revokeDeadlineExpiry s t slot p h
  | closeDeadlineExpiry slot => exact upholds_closeDeadlineExpiry s t slot h
  | revokeEnd slot p => exact upholds_revokeEnd s t slot p h
  | closeEnd slot => exact upholds_closeEnd s t slot h
  | blockCleared => exact upholds_blockCleared s t h

theorem State.upholds_idle (s : State) : s.Upholds s.idle := by
  unfold State.idle
  split
  · exact .refl s
  · exact s.upholds_elapse 1

theorem upholds_step (s t : State) (h : step s = .next t) : s.Upholds t := by
  obtain ⟨_, rfl⟩ | ⟨c, rest, _, he⟩ := step_cases s t h
  · exact s.upholds_idle
  · exact (s.tableStays_of_eq { s with pending := rest } rfl).upholds.trans (upholds_exec c _ t he)

/-- Settles O56: every command, and the passing of time, keeps the promises of the table. -/
theorem canvasTableStaysExact : Obligations.CanvasTableStaysExact := by
  intro s t h
  obtain ⟨⟨h1, h2, h3⟩, h4⟩ := upholds_step s t h
  exact ⟨h1, h2, h3, h4⟩

end Sys2Proof.Machine

/-! SUPPORT. GRANT (R39, R40): the response to a request whose fields name a port and rights, check by check, and the three
results on the grant list. -/

namespace Sys2Proof.Machine

/-! ### Codes and slots -/

theorem Port.ofNum_num (t : Port) : Port.ofNum t.num = some t := by cases t <;> rfl

theorem Port.ofNum_eq_none (n : Nat) (h : 3 < n) : Port.ofNum n = none :=
  match n, h with
  | _ + 4, _ => rfl

theorem Rights.ofCode_code (x : Rights) : Rights.ofCode x.code = some x := by cases x <;> rfl

theorem Rights.ofCode_eq_none (n : Nat) (h : n ∉ [1, 2]) : Rights.ofCode n = none := by
  unfold Rights.ofCode
  split <;> simp_all

theorem State.setCanvas_modPort (s : State) (n : Nat) (c : Canvas) (p : Port) (f : PortBlock → PortBlock) :
    (s.modPort p f).setCanvas n c = (s.setCanvas n c).modPort p f := by cases n <;> rfl

theorem State.setCanvas_setPort (s : State) (n : Nat) (c : Canvas) (p : Port) (b : PortBlock) :
    (s.setPort p b).setCanvas n c = (s.setCanvas n c).setPort p b := by cases n <;> rfl

theorem State.setCanvas_reply (s : State) (n : Nat) (c : Canvas) (p : Port) (payload : List Byte) (st : Status) (m : List Byte) :
    (s.reply p payload st m).setCanvas n c = (s.setCanvas n c).reply p payload st m := s.setCanvas_modPort n c p _

theorem State.setSlot_self (s : State) (n : Nat) : s.setSlot n (s.slot n) = s := by
  cases n with
  | zero => rfl
  | succ k =>
    have hk : s.slots.setIfInBounds k (s.slot (k + 1)) = s.slots := by
      apply Vector.ext
      intro i hi
      rw [Vector.getElem_setIfInBounds hi]
      split
      · next h => simp [State.slot, ← h, h ▸ hi]
      · rfl
    simp only [State.setSlot, hk]

theorem State.setCanvas_self (s : State) (n : Nat) (c : Canvas) (h : s.canvas n = some c) : s.setCanvas n c = s := by
  rw [State.setCanvas, ← h]
  exact s.setSlot_self n

/-! ### The result on the list (R39, checks 6 and 7, R40) -/

theorem Canvas.grantTo_eq_none (c : Canvas) (t : Port) (h : ∀ g ∈ c.grants, g.port ≠ t) : c.grantTo t = none :=
  List.find?_eq_none.2 fun g hg => by simpa using h g hg

/-- The grant that stands between others is the one found, and the one changed. -/
theorem Canvas.grantTo_of_split (c : Canvas) (t : Port) (before after : List Grant) (g : Grant)
    (hs : c.grants = before ++ g :: after) (hg : g.port = t) (h : ∀ x ∈ before ++ after, x.port ≠ t) :
    c.grantTo t = some g := by
  have hb : before.find? (fun x => x.port == t) = none :=
    List.find?_eq_none.2 fun x hx => by simpa using h x (List.mem_append_left _ hx)
  rw [Canvas.grantTo, hs, List.find?_append, hb, Option.none_or, List.find?_cons_of_pos (by simpa using hg)]

theorem Canvas.modGrant_of_split (c : Canvas) (t : Port) (f : Grant → Grant) (before after : List Grant) (g : Grant)
    (hs : c.grants = before ++ g :: after) (hg : g.port = t) (h : ∀ x ∈ before ++ after, x.port ≠ t) :
    c.modGrant t f = { c with grants := before ++ f g :: after } := by
  have hmap (l : List Grant) (hl : ∀ x ∈ l, x.port ≠ t) : l.map (fun x => if x.port = t then f x else x) = l :=
    (List.map_congr_left fun x hx => if_neg (hl x hx)).trans l.map_id'
  rw [Canvas.modGrant, hs, List.map_append, List.map_cons, if_pos hg, hmap _ fun x hx => h x (List.mem_append_left _ hx),
    hmap _ fun x hx => h x (List.mem_append_right _ hx)]

theorem Canvas.grantResult_added (c : Canvas) (t : Port) (asked : Rights) (hg : c.grantTo t = none) :
    c.grantResult t asked = .ok (1, { c with grants := c.grants ++ [⟨t, asked, 0, none⟩] }) := by
  rw [Canvas.grantResult, hg]

section
variable {c : Canvas} {t : Port} {asked : Rights} {g : Grant} (hg : c.grantTo t = some g)
include hg

/-- The result for a port that has a grant. -/
theorem Canvas.grantResult_found : c.grantResult t asked =
    if g.revoke.isSome then .error .busy
    else if g.rights = asked then .ok (3, c)
    else if asked = .r then .error .inUse
    else .ok (2, c.modGrant t fun g => { g with rights := .rw }) := by
  rw [Canvas.grantResult, hg]

theorem Canvas.grantResult_busy (h : g.revoke ≠ none) : c.grantResult t asked = .error .busy := by
  rw [Canvas.grantResult_found hg, if_pos (Option.isSome_iff_ne_none.2 h)]

variable (h : g.revoke = none)
include h

theorem Canvas.grantResult_unchanged (ha : g.rights = asked) : c.grantResult t asked = .ok (3, c) := by
  rw [Canvas.grantResult_found hg, h, if_neg nofun, if_pos ha]

theorem Canvas.grantResult_inUse (hrw : g.rights = .rw) (ha : asked = .r) : c.grantResult t asked = .error .inUse := by
  rw [Canvas.grantResult_found hg, h, if_neg nofun, hrw, ha, if_neg nofun, if_pos rfl]

theorem Canvas.grantResult_upgraded (hr : g.rights = .r) (ha : asked = .rw) :
    c.grantResult t asked = .ok (2, c.modGrant t fun g => { g with rights := .rw }) := by
  rw [Canvas.grantResult_found hg, h, if_neg nofun, hr, ha, if_neg nofun, if_neg nofun]

end

/-! ### The response (R39) -/

/-- What a GRANT to port `t` makes of a canvas of this result (R40). -/
def State.granted (v : State) (p : Port) (payload : List Byte) (t : Port) (asked : Rights) :
    Except Status (Nat × Canvas) → State
  | .error e => v.refuse p payload e
  | .ok (result, c') =>
    (v.setCanvas (handleSlot (handleAt payload 4)) c').reply p payload .ok
      (grantContents (handleAt payload 4) t result asked)

/-- What a GRANT to port `t` of rights `asked` makes of the state (R39, R40). -/
def State.grantResponse (v : State) (p : Port) (payload : List Byte) (t : Port) (asked : Rights) : State :=
  match v.lookup (handleAt payload 4) with
  | none => v.refuse p payload .badHandle
  | some c =>
    if c.owner != p then v.refuse p payload .notOwner
    else if c.phase.isClosing then v.refuse p payload .closing
    else if t = c.owner then v.refuse p payload .bounds
    else v.granted p payload t asked (c.grantResult t asked)

section
variable (s : State) (p : Port) (payload : List Byte) (rest : List InFrame) (ho : s.Oldest p .req payload rest)
  (hr : IsRequest payload 0x14) (hlen : payload.length = 8)
include ho hr hlen

theorem exec_grant (t : Port) (asked : Rights) (ht : Port.ofNum (num8 payload 6) = some t)
    (ha : Rights.ofCode (num8 payload 7) = some asked) :
    exec (.grant p) s = .next ((s.setPort p ((s.port p).took rest)).grantResponse p payload t asked) := by
  have h : exec (.grant p) s = _ :=
    s.process_of_oldest p .req payload rest _ _ ho (InFrame.row_request payload .grant hr nofun nofun)
  refine h.trans (congrArg _ ?_)
  rw [hlen, ht, ha]
  rfl

theorem exec_grant_malformed (h : Port.ofNum (num8 payload 6) = none ∨ Rights.ofCode (num8 payload 7) = none) :
    exec (.grant p) s = .next ((s.setPort p ((s.port p).took rest)).refuse p payload .malformed) := by
  have he : exec (.grant p) s = _ :=
    s.process_of_oldest p .req payload rest _ _ ho (InFrame.row_request payload .grant hr nofun nofun)
  refine he.trans (congrArg _ ?_)
  rw [hlen]
  obtain h | h := h
  · rw [h]; rfl
  · rw [h]; cases Port.ofNum (num8 payload 6) <;> rfl

end

section
variable {v : State} {p t : Port} {payload : List Byte} {asked : Rights}

theorem State.grantResponse_badHandle (hl : v.lookup (handleAt payload 4) = none) :
    v.grantResponse p payload t asked = v.refuse p payload .badHandle := by
  rw [State.grantResponse, hl]

variable {c : Canvas} (hl : v.lookup (handleAt payload 4) = some c)
include hl

/-- The checks of a GRANT on a canvas that is found, in order. -/
theorem State.grantResponse_found : v.grantResponse p payload t asked =
    if c.owner ≠ p then v.refuse p payload .notOwner
    else if c.phase.isClosing then v.refuse p payload .closing
    else if t = c.owner then v.refuse p payload .bounds
    else v.granted p payload t asked (c.grantResult t asked) := by
  simp only [State.grantResponse, hl, bne_iff_ne]

theorem State.grantResponse_notOwner (h : c.owner ≠ p) :
    v.grantResponse p payload t asked = v.refuse p payload .notOwner := by
  rw [State.grantResponse_found hl, if_pos h]

variable (ho : c.owner = p)
include ho

theorem State.grantResponse_closing (h : c.phase.isClosing = true) :
    v.grantResponse p payload t asked = v.refuse p payload .closing := by
  rw [State.grantResponse_found hl, if_neg (not_not_intro ho), if_pos h]

variable (hk : c.phase = .live)
include hk

/-- On a LIVE canvas of its own a port may not grant to itself. -/
theorem State.grantResponse_live : v.grantResponse p payload t asked =
    if t = p then v.refuse p payload .bounds else v.granted p payload t asked (c.grantResult t asked) := by
  rw [State.grantResponse_found hl, if_neg (not_not_intro ho), hk, if_neg nofun, ho]

theorem State.grantResponse_error (h : t ≠ p) (e : Status) (he : c.grantResult t asked = .error e) :
    v.grantResponse p payload t asked = v.refuse p payload e := by
  rw [State.grantResponse_live hl ho hk, if_neg h, he, State.granted]

theorem State.grantResponse_ok (h : t ≠ p) (result : Nat) (d : Canvas) (hd : c.grantResult t asked = .ok (result, d)) :
    v.grantResponse p payload t asked = (v.reply p payload .ok (grantContents (handleAt payload 4) t result asked)).setCanvas
      (handleSlot (handleAt payload 4)) d := by
  rw [State.grantResponse_live hl ho hk, if_neg h, hd, State.granted, State.setCanvas_reply]

end

theorem enc16_handleAt (payload : List Byte) (i : Nat) : enc16 (handleAt payload i).toNat = enc16 (num16 payload i) := by
  have h1 := (byteAt payload i).isLt
  have h2 := (byteAt payload (i + 1)).isLt
  have : num16 payload i < 2 ^ 16 := by simp only [num16, num8]; omega
  rw [handleAt, BitVec.toNat_ofNat, Nat.mod_eq_of_lt this]

/-- Settles O26: the checks in order, and the three results on the grant list. -/
theorem grantChecksAndResults : Obligations.GrantChecksAndResults := by
  intro s p payload rest ho hr hlen hres h answered refused
  set u := s.setPort p ((s.port p).took rest) with hu
  have hrefused (st : Status) (he : exec (.grant p) s = .next (u.refuse p payload st)) : refused st.code := by
    rwa [hu, State.refuse_took s p rest payload st hres] at he
  refine ⟨fun hbad => hrefused .malformed (exec_grant_malformed s p payload rest ho hr hlen ?_), ?_⟩
  · exact hbad.imp (Port.ofNum_eq_none _) (Rights.ofCode_eq_none _)
  · intro t asked ht ha granted
    have hexec := exec_grant s p payload rest ho hr hlen t asked (by rw [ht]; exact Port.ofNum_num t) (by rw [ha]; exact asked.ofCode_code)
    have hex (st : Status) (he : u.grantResponse p payload t asked = u.refuse p payload st) : refused st.code :=
      hrefused st (hexec.trans (congrArg _ he))
    have hlook : u.lookup h = s.lookup h := s.lookup_setPort _ _ _
    refine ⟨fun hl => hex .badHandle (State.grantResponse_badHandle (hlook.trans hl)), fun c hl => ?_⟩
    replace hl : u.lookup h = some c := hlook.trans hl
    refine ⟨fun h1 => hex .notOwner (State.grantResponse_notOwner hl h1),
      fun h1 h2 => hex .closing (State.grantResponse_closing hl h1 h2), fun h1 hk => ?_⟩
    have hgranted (result : Nat) (d : Canvas) (htp : t ≠ p) (hd : c.grantResult t asked = .ok (result, d)) :
        exec (.grant p) s = .next ((granted result).setCanvas (handleSlot h) d) := by
      rw [hexec, State.grantResponse_ok hl h1 hk htp result d hd, hu, State.reply_took _ _ _ _ _ _ hres, grantContents,
        enc16_handleAt]
      rfl
    refine ⟨fun h3 => hex .bounds ((State.grantResponse_live hl h1 hk).trans (if_pos h3)),
      fun htp hnone => hgranted 1 _ htp (c.grantResult_added t asked (c.grantTo_eq_none t hnone)),
      fun before g after htp hs hg hothers => ?_⟩
    have hto := c.grantTo_of_split t before after g hs hg hothers
    refine ⟨fun hv => hex .busy (State.grantResponse_error hl h1 hk htp _ (Canvas.grantResult_busy hto hv)),
      fun hv hsame => ?_,
      fun hv hrw har => hex .inUse (State.grantResponse_error hl h1 hk htp _ (Canvas.grantResult_inUse hto hv hrw har)),
      fun hv hr' harw => ?_⟩
    · rw [hgranted 3 c htp (Canvas.grantResult_unchanged hto hv hsame), State.setCanvas_self]
      exact (State.setPort_canvas _ _ _ _).trans ((s.setPort_canvas _ _ _).symm.trans (u.lookup_some h c hl).1)
    · rw [hgranted 2 _ htp (Canvas.grantResult_upgraded hto hv hr' harw), c.modGrant_of_split t _ before after g hs hg hothers]

end Sys2Proof.Machine

/-! SUPPORT. REVOKE (R41 to R43, R61): the response to a request whose fields name a port and a mode, its beginning and its
joining. -/

namespace Sys2Proof.Machine

/-! ### The canvas written twice -/

theorem State.setSlot_setSlot (s : State) (n : Nat) (x y : Slot) : (s.setSlot n x).setSlot n y = s.setSlot n y := by
  cases n with
  | zero => rfl
  | succ k =>
    have hk : (s.slots.setIfInBounds k x).setIfInBounds k y = s.slots.setIfInBounds k y := by
      apply Vector.ext
      intro i hi
      simp only [Vector.getElem_setIfInBounds hi]
      split <;> rfl
    simp only [State.setSlot, hk]

theorem State.setCanvas_setCanvas (s : State) (n : Nat) (c d : Canvas) : (s.setCanvas n c).setCanvas n d = s.setCanvas n d := by
  have hslot : (s.setCanvas n c).setCanvas n d = (s.setCanvas n c).setSlot n { s.slot n with canvas := some d } := by
    rw [State.setCanvas]
    exact congrArg (fun g => (s.setCanvas n c).setSlot n ⟨g, some d⟩) (s.setCanvas_generation n n c)
  rw [hslot, State.setCanvas, State.setSlot_setSlot]
  rfl

theorem State.setCanvas_defer (s : State) (n : Nat) (c : Canvas) (p : Port) (payload : List Byte) :
    (s.defer p payload).setCanvas n c = (s.setCanvas n c).defer p payload := s.setCanvas_modPort n c p _

/-- A flag that is set keeps the slots reserved (R140, R172). -/
@[simp] theorem PortBlock.raise_reserved (b : PortBlock) (k : Flag) : (b.raise k).link.reserved = b.link.reserved := by
  unfold PortBlock.raise Link.placeFree
  dsimp only
  split
  · rfl
  · split
    · rfl
    · split
      · split <;> rfl
      · rfl

theorem Canvas.dropGrant_setRevoke (c : Canvas) (t : Port) (r : RevokeOp) : (c.setRevoke t r).dropGrant t = c.dropGrant t := by
  have hport : (fun g : Grant => g.port != t) ∘ (fun g => if g.port = t then { g with revoke := some r } else g) =
      fun g => g.port != t := by
    funext g
    simp only [Function.comp]
    split <;> rfl
  simp only [Canvas.dropGrant, Canvas.setRevoke, Canvas.modGrant, List.filter_map, hport]
  congr 1
  refine (List.map_congr_left fun g hg => if_neg ?_).trans (List.map_id' _)
  simpa using (List.mem_filter.1 hg).2

/-! ### The beginning (R42) and the joining (R43) -/

/-- The waiter a request makes of its port. -/
def waiterOf (p : Port) (payload : List Byte) : Waiter := ⟨p, reqId payload⟩

/-- The mode that a request's code and deadline name (R186). -/
theorem WaitMode.ofCode_eq (code deadline : Nat) (mode : WaitMode)
    (h : code = 1 ∧ mode = .drain deadline ∨ code = 2 ∧ mode = .cut) : WaitMode.ofCode code deadline = some mode := by
  obtain ⟨rfl, rfl⟩ | ⟨rfl, rfl⟩ := h <;> rfl

section
variable {u : State} {payload : List Byte} {h : Handle} {c : Canvas} {t : Port} {mode : WaitMode}

/-- A revoke of a grant without pins is over as it begins: the grant is gone, GRANT-LOST set, and the request answered. -/
theorem State.beginRevoke_atOnce (g : Grant) (hc : u.canvas (handleSlot h) = some c) (hg : c.grantTo t = some g)
    (h0 : g.pins = 0) :
    u.beginRevoke payload h c t g.pins mode =
      ((u.setCanvas (handleSlot h) (c.dropGrant t)).modPort t fun b => b.raise .grantLost).reply c.owner payload .ok
        (revokeContents h t mode.outcome) := by
  have he := (u.setCanvas (handleSlot h) (c.setRevoke t ⟨mode, [], false⟩)).endRevoke_eq (handleSlot h) t _ _ _
    (State.canvas_setCanvas_same _ _ _ c hc) (c.grantTo_setRevoke t ⟨mode, [], false⟩ g hg) rfl
  simp only [State.beginRevoke, h0, if_true, he, State.setCanvas_setCanvas, Canvas.dropGrant_setRevoke]
  rfl

/-- A revoke of a grant with pins defers the request, and in CUT mode the grantee is cut. -/
theorem State.beginRevoke_pinned (pins : Nat) (h0 : 0 < pins) :
    u.beginRevoke payload h c t pins mode =
      let v := (u.defer c.owner payload).setCanvas (handleSlot h) (c.setRevoke t ⟨mode, [waiterOf c.owner payload], false⟩)
      if mode = .cut then v.cutPort (handleSlot h) t else v := by
  rw [State.beginRevoke, if_neg (by omega), State.setCanvas_defer]
  cases mode with
  | drain left => rfl
  | cut => rfl

/-- A request that joins is deferred; a CUT that joins a DRAIN makes it a CUT, and the grantee is cut. -/
theorem State.joinRevoke_eq (r : RevokeOp) :
    u.joinRevoke payload h c t r mode =
      let escalates := r.mode ≠ .cut ∧ mode = .cut
      let v := (u.defer c.owner payload).setCanvas (handleSlot h) (c.setRevoke t { r with
        mode := if escalates then .cut else r.mode, waiters := r.waiters ++ [waiterOf c.owner payload] })
      if escalates then v.cutPort (handleSlot h) t else v := by
  obtain ⟨rmode, ws, mark⟩ := r
  simp only [State.setCanvas_defer]
  cases rmode with
  | cut => rfl
  | drain left => cases mode <;> rfl

end

/-! ### The response (R41) -/

/-- A REVOKE that passes the checks meets no grant, an ACTIVE one, or one that is REVOKING (R41 to R43). -/
def State.revokeOn (v : State) (p : Port) (payload : List Byte) (c : Canvas) (t : Port) (mode : WaitMode) : State :=
  match c.grantTo t with
  | none => v.refuse p payload .noGrant
  | some g =>
    match g.revoke with
    | none => v.beginRevoke payload (handleAt payload 4) c t g.pins mode
    | some r => v.joinRevoke payload (handleAt payload 4) c t r mode

/-- What a REVOKE of `t`'s grant in this mode makes of the state (R41). -/
def State.revokeResponse (v : State) (p : Port) (payload : List Byte) (t : Port) (mode : WaitMode) : State :=
  match v.lookup (handleAt payload 4) with
  | none => v.refuse p payload .badHandle
  | some c =>
    if c.owner != p then v.refuse p payload .notOwner
    else if c.phase.isClosing then v.refuse p payload .closing
    else if !mode.deadlineOk then v.refuse p payload .bounds
    else v.revokeOn p payload c t mode

theorem exec_revoke (s : State) (p : Port) (payload : List Byte) (rest : List InFrame) (ho : s.Oldest p .req payload rest)
    (hr : IsRequest payload 0x15) (hlen : payload.length = 10) (t : Port) (mode : WaitMode)
    (ht : Port.ofNum (num8 payload 6) = some t) (hm : WaitMode.ofCode (num8 payload 7) (num16 payload 8) = some mode) :
    exec (.revoke p) s = .next ((s.setPort p ((s.port p).took rest)).revokeResponse p payload t mode) := by
  have h : exec (.revoke p) s = _ :=
    s.process_of_oldest p .req payload rest _ _ ho (InFrame.row_request payload .revoke hr nofun nofun)
  refine h.trans (congrArg _ ?_)
  rw [hlen, ht, hm]
  rfl

section
variable {v : State} {p t : Port} {payload : List Byte} {mode : WaitMode}

theorem State.revokeResponse_badHandle (hl : v.lookup (handleAt payload 4) = none) :
    v.revokeResponse p payload t mode = v.refuse p payload .badHandle := by
  rw [State.revokeResponse, hl]

variable {c : Canvas} (hl : v.lookup (handleAt payload 4) = some c)
include hl

/-- The checks of a REVOKE on a canvas that is found, in order. -/
theorem State.revokeResponse_found : v.revokeResponse p payload t mode =
    if c.owner ≠ p then v.refuse p payload .notOwner
    else if c.phase.isClosing then v.refuse p payload .closing
    else if mode.deadlineOk = false then v.refuse p payload .bounds
    else v.revokeOn p payload c t mode := by
  simp only [State.revokeResponse, hl, bne_iff_ne, Bool.not_eq_true']

theorem State.revokeResponse_notOwner (h : c.owner ≠ p) :
    v.revokeResponse p payload t mode = v.refuse p payload .notOwner := by
  rw [State.revokeResponse_found hl, if_pos h]

variable (ho : c.owner = p)
include ho

theorem State.revokeResponse_closing (h : c.phase.isClosing = true) :
    v.revokeResponse p payload t mode = v.refuse p payload .closing := by
  rw [State.revokeResponse_found hl, if_neg (not_not_intro ho), if_pos h]

/-- On a LIVE canvas of its own a port's request is refused for its deadline alone, before the grant is looked for. -/
theorem State.revokeResponse_live (hk : c.phase = .live) : v.revokeResponse p payload t mode =
    if mode.deadlineOk = false then v.refuse p payload .bounds else v.revokeOn p payload c t mode := by
  rw [State.revokeResponse_found hl, if_neg (not_not_intro ho), hk, if_neg nofun]

end

section
variable {v : State} {p t : Port} {payload : List Byte} {mode : WaitMode} {c : Canvas}

theorem State.revokeOn_none (h : c.grantTo t = none) : v.revokeOn p payload c t mode = v.refuse p payload .noGrant := by
  rw [State.revokeOn, h]

theorem State.revokeOn_active {g : Grant} (hg : c.grantTo t = some g) (hv : g.revoke = none) :
    v.revokeOn p payload c t mode = v.beginRevoke payload (handleAt payload 4) c t g.pins mode := by
  simp only [State.revokeOn, hg, hv]

theorem State.revokeOn_revoking {g : Grant} (hg : c.grantTo t = some g) {r : RevokeOp} (hv : g.revoke = some r) :
    v.revokeOn p payload c t mode = v.joinRevoke payload (handleAt payload 4) c t r mode := by
  simp only [State.revokeOn, hg, hv]

end

/-- The deadline a request asks is allowed for a CUT, and for a DRAIN within its bounds (R41, R49). -/
theorem WaitMode.deadlineOk_iff (code deadline : Nat) (mode : WaitMode)
    (h : code = 1 ∧ mode = .drain deadline ∨ code = 2 ∧ mode = .cut) :
    mode.deadlineOk = true ↔ mode = .cut ∨ 1 ≤ deadline ∧ deadline ≤ 250 := by
  obtain ⟨rfl, rfl⟩ | ⟨rfl, rfl⟩ := h
  · simp [WaitMode.deadlineOk]
  · simp [WaitMode.deadlineOk]

theorem WaitMode.ne_cut_of_drain (code deadline : Nat) (mode : WaitMode)
    (h : code = 1 ∧ mode = .drain deadline ∨ code = 2 ∧ mode = .cut) (hc : code = 1) : mode ≠ .cut := by
  obtain ⟨_, rfl⟩ | ⟨h2, _⟩ := h
  · nofun
  · omega

/-- Settles O27: the checks in order, and what the revoke begins with or is joined by. -/
theorem revokeBeginsOrJoins : Obligations.RevokeBeginsOrJoins := by
  intro s p payload rest t mode ho hr hlen hres ht hm h n u put me refused outcome
  have hexec := exec_revoke s p payload rest ho hr hlen t mode (by rw [ht]; exact Port.ofNum_num t)
    (WaitMode.ofCode_eq _ _ _ hm)
  have hures : 0 < (u.port p).link.reserved := by simpa [u] using hres
  have hex (st : Status) (he : u.revokeResponse p payload t mode = u.refuse p payload st) : refused st.code := by
    rw [u.refuse_eq_answered p payload st hures] at he
    exact hexec.trans (congrArg _ he)
  have hlook : u.lookup h = s.lookup h := s.lookup_setPort _ _ _
  refine ⟨fun hl => hex .badHandle (State.revokeResponse_badHandle (hlook.trans hl)), fun c hl => ?_⟩
  replace hl : u.lookup h = some c := hlook.trans hl
  refine ⟨fun h1 => hex .notOwner (State.revokeResponse_notOwner hl h1),
    fun h1 h2 => hex .closing (State.revokeResponse_closing hl h1 h2), fun h1 hk => ⟨fun hcode hbad => ?_, fun hgood => ?_⟩⟩
  · refine hex .bounds ((State.revokeResponse_live hl h1 hk).trans (if_pos (Bool.eq_false_iff.2 fun hd => ?_)))
    exact hbad (((WaitMode.deadlineOk_iff _ _ _ hm).1 hd).resolve_left (WaitMode.ne_cut_of_drain _ _ _ hm hcode))
  · have hd : mode.deadlineOk = true := (WaitMode.deadlineOk_iff _ _ _ hm).2 hgood
    have hon : u.revokeResponse p payload t mode = u.revokeOn p payload c t mode :=
      (State.revokeResponse_live hl h1 hk).trans (if_neg (Bool.not_eq_false _ ▸ hd))
    refine ⟨fun hg => hex .noGrant (hon.trans (State.revokeOn_none hg)), fun g hg => ?_⟩
    intro revoking
    refine ⟨fun hv h0 => ?_, fun hv h0 => ?_, fun r hv => ?_⟩
    · intro w
      have hwres : 0 < (w.port p).link.reserved := by
        rw [State.port_modPort, State.setCanvas_port]
        split
        · rw [PortBlock.raise_reserved]; exact hures
        · exact hures
      have hbegin := State.beginRevoke_atOnce (payload := payload) (h := handleAt payload 4) (mode := mode) g (u.lookup_some h c hl).1 hg h0
      rw [h1, revokeContents, enc16_handleAt] at hbegin
      rw [hexec, hon, State.revokeOn_active hg hv, hbegin]
      refine congrArg _ ((w.reply_eq_answered p payload .ok _ hwres).trans ?_)
      cases mode <;> rfl
    · intro w
      rw [hexec, hon, State.revokeOn_active hg hv, State.beginRevoke_pinned g.pins h0, h1]
      rfl
    · rw [hexec, hon, State.revokeOn_revoking hg hv, State.joinRevoke_eq, h1]
      rfl

end Sys2Proof.Machine

/-! SUPPORT. CLOSE (R49 to R51, R55): the response to a request whose fields name a mode, its beginning and its joining. -/

namespace Sys2Proof.Machine

/-! ### The beginning (R50) and the joining (R51) -/

section
variable {u : State} {p : Port} {payload : List Byte} {h : Handle} {c : Canvas} {mode : WaitMode} {forced : Bool}

/-- A close of a canvas without pins is over as it begins, and the request answered. -/
theorem State.beginClose_atOnce (h0 : c.pinCount = 0) :
    u.beginClose p payload h c mode forced =
      ((u.setCanvas (handleSlot h) { c with phase := .closing ⟨mode, [], forced, false⟩ }).endClose (handleSlot h)
        ⟨mode, [], forced, false⟩).reply p payload .ok (closeContents h mode.outcome) := by
  rw [State.beginClose, if_pos h0]

/-- A close of a canvas with pins defers the request, and in CUT mode the owner and every grantee are cut. -/
theorem State.beginClose_pinned (h0 : 0 < c.pinCount) :
    u.beginClose p payload h c mode forced =
      let v := (u.defer p payload).setCanvas (handleSlot h)
        { c with phase := .closing ⟨mode, [waiterOf p payload], forced, false⟩ }
      if mode = .cut then v.cutCanvas (handleSlot h) else v := by
  rw [State.beginClose, if_neg (by omega), State.setCanvas_defer]
  cases mode with
  | drain left => rfl
  | cut => rfl

/-- A request that joins is deferred; a CUT that joins a DRAIN makes it a CUT, and all are cut. -/
theorem State.joinClose_eq (op : CloseOp) :
    u.joinClose p payload h c op mode forced =
      let escalates := op.mode ≠ .cut ∧ mode = .cut
      let v := (u.defer p payload).setCanvas (handleSlot h) { c with phase := .closing { op with
        mode := if escalates then .cut else op.mode
        waiters := op.waiters ++ [waiterOf p payload]
        forced := op.forced || forced } }
      if escalates then v.cutCanvas (handleSlot h) else v := by
  obtain ⟨omode, ws, f, mark⟩ := op
  simp only [State.setCanvas_defer]
  cases omode with
  | cut => rfl
  | drain left => cases mode <;> rfl

end

/-! ### The response (R49) -/

/-- What a CLOSE in the mode asked makes of the state (R49). -/
def State.closeResponse (v : State) (p : Port) (payload : List Byte) (asked : WaitMode) : State :=
  match v.lookup (handleAt payload 4) with
  | none => v.refuse p payload .badHandle
  | some c =>
    if c.owner != p && p != .p0 then v.refuse p payload .notOwner
    else if !(c.owner != p) && !asked.deadlineOk then v.refuse p payload .bounds
    else
      match c.phase with
      | .closing op =>
        v.joinClose p payload (handleAt payload 4) c op (if c.owner != p then .cut else asked) (c.owner != p)
      | _ => v.beginClose p payload (handleAt payload 4) c (if c.owner != p then .cut else asked) (c.owner != p)

theorem exec_closeCanvas (s : State) (p : Port) (payload : List Byte) (rest : List InFrame)
    (ho : s.Oldest p .req payload rest) (hr : IsRequest payload 0x11) (hlen : payload.length = 10) (asked : WaitMode)
    (hm : WaitMode.ofCode (num8 payload 6) (num16 payload 8) = some asked) :
    exec (.closeCanvas p) s = .next ((s.setPort p ((s.port p).took rest)).closeResponse p payload asked) := by
  have h : exec (.closeCanvas p) s = _ :=
    s.process_of_oldest p .req payload rest _ _ ho (InFrame.row_request payload .closeCanvas hr nofun nofun)
  refine h.trans (congrArg _ ?_)
  rw [hlen, hm]
  rfl

/-- The mode of a close (R49, R55): CUT when it is forced, else as asked. -/
def closeMode (p : Port) (c : Canvas) (asked : WaitMode) : WaitMode := if decide (c.owner ≠ p) then .cut else asked

section
variable {v : State} {p : Port} {payload : List Byte} {asked : WaitMode}

theorem State.closeResponse_badHandle (hl : v.lookup (handleAt payload 4) = none) :
    v.closeResponse p payload asked = v.refuse p payload .badHandle := by
  rw [State.closeResponse, hl]

variable {c : Canvas} (hl : v.lookup (handleAt payload 4) = some c)
include hl

theorem State.closeResponse_notOwner (h : c.owner ≠ p) (hp : p ≠ .p0) :
    v.closeResponse p payload asked = v.refuse p payload .notOwner := by
  simp [State.closeResponse, hl, h, hp]

theorem State.closeResponse_bounds (h : c.owner = p) (hd : asked.deadlineOk = false) :
    v.closeResponse p payload asked = v.refuse p payload .bounds := by
  simp [State.closeResponse, hl, h, hd]

variable (hgood : c.owner = p ∧ asked.deadlineOk = true ∨ c.owner ≠ p ∧ p = .p0)
include hgood

/-- The checks passed, a canvas that is LIVE begins its close, and one that is CLOSING is joined. -/
theorem State.closeResponse_allowed : v.closeResponse p payload asked =
    match c.phase with
    | .closing op => v.joinClose p payload (handleAt payload 4) c op (closeMode p c asked) (decide (c.owner ≠ p))
    | _ => v.beginClose p payload (handleAt payload 4) c (closeMode p c asked) (decide (c.owner ≠ p)) := by
  have hb : (c.owner != p) = decide (c.owner ≠ p) := by by_cases h : c.owner = p <;> simp [h]
  have h1 : ¬ (decide (c.owner ≠ p) && p != .p0) = true := by
    obtain ⟨h, _⟩ | ⟨_, h⟩ := hgood <;> simp [h]
  have h2 : ¬ (!decide (c.owner ≠ p) && !asked.deadlineOk) = true := by
    obtain ⟨_, h⟩ | ⟨h, _⟩ := hgood <;> simp [h]
  simp only [State.closeResponse, hl, hb, if_neg h1, if_neg h2]
  rfl

theorem State.closeResponse_begins (hk : c.phase = .live) : v.closeResponse p payload asked =
    v.beginClose p payload (handleAt payload 4) c (closeMode p c asked) (decide (c.owner ≠ p)) := by
  rw [State.closeResponse_allowed hl hgood, hk]

theorem State.closeResponse_joins (op : CloseOp) (hk : c.phase = .closing op) : v.closeResponse p payload asked =
    v.joinClose p payload (handleAt payload 4) c op (closeMode p c asked) (decide (c.owner ≠ p)) := by
  rw [State.closeResponse_allowed hl hgood, hk]

end

/-- Settles O28: the checks in order, and what the close begins with or is joined by. -/
theorem closeBeginsOrJoins : Obligations.CloseBeginsOrJoins := by
  intro s p payload rest asked ho hr hlen hres hm h n u put me refused
  have hexec := exec_closeCanvas s p payload rest ho hr hlen asked (WaitMode.ofCode_eq _ _ _ hm)
  have hures : 0 < (u.port p).link.reserved := by simpa [u] using hres
  have hex (st : Status) (he : u.closeResponse p payload asked = u.refuse p payload st) : refused st.code := by
    rw [u.refuse_eq_answered p payload st hures] at he
    exact hexec.trans (congrArg _ he)
  have hlook : u.lookup h = s.lookup h := s.lookup_setPort _ _ _
  refine ⟨fun hl => hex .badHandle (State.closeResponse_badHandle (hlook.trans hl)), fun c hl => ?_⟩
  replace hl : u.lookup h = some c := hlook.trans hl
  intro forced mode outcome
  refine ⟨fun h1 hp => hex .notOwner (State.closeResponse_notOwner hl h1 hp), fun h1 hcode hbad => ?_, fun hgood => ?_⟩
  · refine hex .bounds (State.closeResponse_bounds hl h1 (Bool.eq_false_iff.2 fun hd => ?_))
    exact hbad (((WaitMode.deadlineOk_iff _ _ _ hm).1 hd).resolve_left (WaitMode.ne_cut_of_drain _ _ _ hm hcode))
  · have hallowed : c.owner = p ∧ asked.deadlineOk = true ∨ c.owner ≠ p ∧ p = .p0 :=
      hgood.imp_left fun ⟨h1, hd⟩ => ⟨h1, (WaitMode.deadlineOk_iff _ _ _ hm).2 hd⟩
    refine ⟨fun hk h0 => ?_, fun hk h0 => ?_, fun op hk => ?_⟩
    · intro op v hvres
      have hbegin := (State.closeResponse_begins hl hallowed hk).trans (State.beginClose_atOnce h0)
      rw [closeContents, enc16_handleAt] at hbegin
      rw [hexec, hbegin]
      refine congrArg _ ((v.reply_eq_answered p payload .ok _ hvres).trans ?_)
      have hout : enc8 mode.outcome.code ++ enc8 0 = [outcome, 0] := by
        clear_value mode
        cases mode <;> rfl
      rw [List.append_assoc]
      exact congrArg (fun x => v.setPort p ((v.port p).answered payload 0 (enc16 (num16 payload 4) ++ x))) hout
    · exact hexec.trans (congrArg _ ((State.closeResponse_begins hl hallowed hk).trans (State.beginClose_pinned h0)))
    · exact hexec.trans (congrArg _ ((State.closeResponse_joins hl hallowed op hk).trans (State.joinClose_eq op)))

end Sys2Proof.Machine

/-! SUPPORT. The deadlines of revokes and closes (R44, R52), whom a canvas is cut for (R46), and their ends (R45, R53, R54) with
the unpin that brings an end about (R9, R70). -/

namespace Sys2Proof.Machine

theorem State.unlessHeld_of_running (s t : State) (h : s.resetPin = false) : s.unlessHeld t = .next t := by
  rw [State.unlessHeld, h, if_neg nofun]

/-! ### Deadlines (R44, R52) -/

/-- The revoke under way of the grant of `p` on slot `n`. -/
def State.revokeOp (s : State) (n : Nat) (p : Port) : Option RevokeOp :=
  (s.canvas n).bind fun c => (c.grantTo p).bind Grant.revoke

theorem State.revokeOp_eq_some (s : State) (n : Nat) (p : Port) (r : RevokeOp) :
    s.revokeOp n p = some r ↔ ∃ c g, s.canvas n = some c ∧ c.grantTo p = some g ∧ g.revoke = some r := by
  simp only [State.revokeOp, Option.bind_eq_some_iff]
  constructor
  · rintro ⟨c, hc, g, hg, hr⟩
    exact ⟨c, g, hc, hg, hr⟩
  · rintro ⟨c, g, hc, hg, hr⟩
    exact ⟨c, hc, g, hg, hr⟩

theorem State.closeOp_eq_some (s : State) (n : Nat) (op : CloseOp) :
    s.closeOp n = some op ↔ ∃ c, s.canvas n = some c ∧ c.phase = .closing op := by
  refine ⟨s.closeOp_some n op, fun ⟨c, hc, hph⟩ => ?_⟩
  simp only [State.closeOp, hc, Option.map_some, hph]

theorem exec_revokeDeadlineExpiry_drain (s : State) (n : Nat) (p : Port) (hp : s.resetPin = false) (left : Nat)
    (ws : List Waiter) (mark : Bool) (h : s.revokeOp n p = some ⟨.drain left, ws, mark⟩) :
    exec (.revokeDeadlineExpiry n p) s =
      .next (((s.elapse left).modCanvas n fun c => c.setRevoke p ⟨.cut, ws, mark⟩).cutPort n p) := by
  rw [State.revokeOp] at h
  change execRevokeDeadlineExpiry n p s = _
  rw [execRevokeDeadlineExpiry, s.unlessHeld_of_running _ hp, h]

theorem exec_revokeDeadlineExpiry_other (s : State) (n : Nat) (p : Port) (hp : s.resetPin = false)
    (h : ∀ left ws mark, s.revokeOp n p ≠ some ⟨.drain left, ws, mark⟩) :
    exec (.revokeDeadlineExpiry n p) s = .next s := by
  change execRevokeDeadlineExpiry n p s = _
  rw [execRevokeDeadlineExpiry, s.unlessHeld_of_running _ hp]
  refine congrArg _ ?_
  split
  · next left ws mark hr => exact absurd hr (h left ws mark)
  · rfl

theorem exec_closeDeadlineExpiry_drain (s : State) (n : Nat) (hp : s.resetPin = false) (left : Nat) (ws : List Waiter)
    (forced mark : Bool) (h : s.closeOp n = some ⟨.drain left, ws, forced, mark⟩) :
    exec (.closeDeadlineExpiry n) s =
      .next (((s.elapse left).modCanvas n fun c => { c with phase := .closing ⟨.cut, ws, forced, mark⟩ }).cutCanvas n) := by
  change execCloseDeadlineExpiry n s = _
  rw [execCloseDeadlineExpiry, s.unlessHeld_of_running _ hp, h]

theorem exec_closeDeadlineExpiry_other (s : State) (n : Nat) (hp : s.resetPin = false)
    (h : ∀ left ws forced mark, s.closeOp n ≠ some ⟨.drain left, ws, forced, mark⟩) :
    exec (.closeDeadlineExpiry n) s = .next s := by
  change execCloseDeadlineExpiry n s = _
  rw [execCloseDeadlineExpiry, s.unlessHeld_of_running _ hp]
  refine congrArg _ ?_
  split
  · next op hop =>
    obtain ⟨mode, ws, forced, mark⟩ := op
    cases mode with
    | drain left => exact absurd hop (h left ws forced mark)
    | cut => rfl
  · rfl

/-- The owner takes its cut order first, then the grantees as they stand in the list (R46, log 19). -/
theorem State.cutCanvas_eq (s : State) (n : Nat) (c : Canvas) (hc : s.canvas n = some c) :
    s.cutCanvas n = (c.grants.map Grant.port).foldl (fun t q => t.cutPort n q) (s.cutPort n c.owner) := by
  rw [State.cutCanvas, hc]
  rfl

/-- Settles O30: a DRAIN under way is the one wait with an expiry. -/
theorem deadlinesBecomeCuts : Obligations.DeadlinesBecomeCuts := by
  refine ⟨fun s n p hp => ⟨fun c g left ws mark hc hg hr => ?_, fun h => ?_⟩,
    fun s n hp => ⟨fun c left ws forced mark hc hph => ?_, fun h => ?_⟩, State.cutCanvas_eq⟩
  · exact exec_revokeDeadlineExpiry_drain s n p hp left ws mark ((s.revokeOp_eq_some n p _).2 ⟨c, g, hc, hg, hr⟩)
  · refine exec_revokeDeadlineExpiry_other s n p hp fun left ws mark ho => ?_
    obtain ⟨c, g, hc, hg, hr⟩ := (s.revokeOp_eq_some n p _).1 ho
    exact h c g left ws mark hc hg hr
  · exact exec_closeDeadlineExpiry_drain s n hp left ws forced mark ((s.closeOp_eq_some n _).2 ⟨c, hc, hph⟩)
  · refine exec_closeDeadlineExpiry_other s n hp fun left ws forced mark ho => ?_
    obtain ⟨c, hc, hph⟩ := (s.closeOp_eq_some n _).1 ho
    exact h c left ws forced mark hc hph

/-! ### The contents of the answers (10.5) -/

theorem State.handle_bytes (s : State) (n : Nat) (c : Canvas) (hc : s.canvas n = some c) :
    enc16 (s.handle n).toNat = [BitVec.ofNat 8 n, (s.slot n).generation] := enc16_handle s n (s.canvas_bounds n c hc).2

theorem revokeContents_outcome (h : Handle) (p : Port) (r : RevokeOp) :
    revokeContents h p r.outcome =
      enc16 h.toNat ++ [BitVec.ofNat 8 p.num, if r.granteeReset then 4 else if r.mode = .cut then 2 else 1] := by
  obtain ⟨mode, ws, mark⟩ := r
  rw [revokeContents, List.append_assoc]
  refine congrArg _ ?_
  cases mark with
  | true => rfl
  | false => cases mode <;> rfl

theorem revokeContents_closeOutcome (h : Handle) (p : Port) (r : RevokeOp) :
    revokeContents h p r.closeOutcome = enc16 h.toNat ++ [BitVec.ofNat 8 p.num, if r.granteeReset then 4 else 3] := by
  rw [revokeContents, List.append_assoc, RevokeOp.closeOutcome]
  refine congrArg _ ?_
  cases r.granteeReset <;> rfl

theorem closeContents_outcome (h : Handle) (mode : WaitMode) :
    closeContents h mode.outcome = enc16 h.toNat ++ [if mode = .cut then 2 else 1, 0] := by
  rw [closeContents, List.append_assoc]
  refine congrArg _ ?_
  cases mode <;> rfl

/-! ### Ends (R45, R53) -/

theorem exec_revokeEnd_due (s : State) (n : Nat) (p : Port) (c : Canvas) (hp : s.resetPin = false)
    (hc : s.canvas n = some c) (h1 : c.closeDue = none) (h2 : c.revokeDue p = true) :
    exec (.revokeEnd n p) s = .next (s.endRevoke n p) := by
  change execRevokeEnd n p s = _
  rw [execRevokeEnd, s.unlessHeld_of_running _ hp, hc]
  simp only [h1, h2, Option.isNone_none, Bool.and_self, if_true]

theorem exec_closeEnd_due (s : State) (n : Nat) (c : Canvas) (op : CloseOp) (hp : s.resetPin = false)
    (hc : s.canvas n = some c) (h : c.closeDue = some op) : exec (.closeEnd n) s = .next (s.endClose n op) := by
  change execCloseEnd n s = _
  rw [execCloseEnd, s.unlessHeld_of_running _ hp, hc, Option.bind_some, h]

theorem Canvas.closeDue_of_closing (c : Canvas) (op : CloseOp) (hph : c.phase = .closing op) (h0 : c.pinCount = 0) :
    c.closeDue = some op := by
  simp only [Canvas.closeDue, hph, h0, if_true]

/-- The waiters of the revokes under way are answered grant by grant. -/
theorem State.foldl_answerRevoke (h : Handle) (gs : List Grant) (s : State) :
    gs.foldl (State.answerRevoke h) s = (gs.filterMap fun g : Grant => g.revoke.map fun r => (g.port, r)).foldl
      (fun x pr => x.answerWaiters pr.2.waiters
        (enc16 h.toNat ++ [BitVec.ofNat 8 pr.1.num, if pr.2.granteeReset then 4 else 3])) s := by
  induction gs generalizing s with
  | nil => rfl
  | cons g t ih =>
    rw [List.foldl_cons, ih, List.filterMap_cons, State.answerRevoke]
    cases hr : g.revoke with
    | none => rfl
    | some r => simp only [revokeContents_closeOutcome, Option.map_some, List.foldl_cons]

/-! ### The end an unpin brings (R9, R70) -/

section
variable {s : State} {n : Nat} {p : Port} {c : Canvas} (hc : s.canvas n = some c)
include hc

theorem State.settle_of_closeDue {op : CloseOp} (h : c.closeDue = some op) : s.settle n p = s.endClose n op := by
  simp only [State.settle, hc, h]

theorem State.settle_of_revokeDue (h1 : c.closeDue = none) (h2 : c.revokeDue p = true) :
    s.settle n p = s.endRevoke n p := by
  simp only [State.settle, hc, h1, h2, if_true]

theorem State.settle_of_nothing_due (h1 : c.closeDue = none) (h2 : ¬ c.revokeDue p = true) : s.settle n p = s := by
  simp only [State.settle, hc, h1, if_neg h2]

end

theorem State.unpin_eq (s : State) (p : Port) (h : Handle) (c : Canvas) (hc : s.canvas (handleSlot h) = some c) :
    s.unpin p h = (s.setCanvas (handleSlot h) (c.modPins p (· - 1))).settle (handleSlot h) p := by
  rw [State.unpin, State.modCanvas, hc]

/-- Settles O31: the ends are those of the two rows, and the unpin takes the one that its count has made due. -/
theorem revokesAndClosesEnd : Obligations.RevokesAndClosesEnd := by
  intro s n c hpin hc handle
  have hhandle : enc16 (s.handle n).toNat = handle := s.handle_bytes n c hc
  refine ⟨fun p g r hg hr h0 hclosing => ?_, fun op hph h0 => ?_, ?_⟩
  · intro outcome u
    rw [exec_revokeEnd_due s n p c hpin hc (c.closeDue_eq_none.2 fun h => Nat.pos_of_ne_zero (hclosing h))
      ((c.revokeDue_iff p).2 ⟨g, r, hg, hr, h0⟩), s.endRevoke_eq n p c g r hc hg hr, revokeContents_outcome, hhandle]
    rfl
  · intro revokes s1 s2 s3 s4
    rw [exec_closeEnd_due s n c op hpin hc (c.closeDue_of_closing op hph h0), s.endClose_eq n op c hc]
    refine congrArg (fun x : State => Host.Outcome.next (x.release n)) ?_
    simp only [State.closeAnswers, State.foldl_answerRevoke, closeContents_outcome, hhandle]
    simp only [s4, s3, s2, s1, revokes, List.foldl_map]
  · rintro p h rfl d u closes revokes
    have hd : c.modPins p (· - 1) = d := rfl
    have hunpin : s.unpin p h = u.settle (handleSlot h) p := s.unpin_eq p h c hc
    have hu : u.canvas (handleSlot h) = some d := s.canvas_setCanvas_same _ d c hc
    have hupin : u.resetPin = false := (s.setCanvas_resetPin _ _).trans hpin
    have hdue : ¬ closes → d.closeDue = none := fun hn =>
      d.closeDue_eq_none.2 fun hk => Nat.pos_of_ne_zero fun h0 => hn ⟨hk, h0⟩
    refine ⟨fun ⟨hk, h0⟩ => ?_, fun hn hr => ?_, fun hn hr => ?_⟩
    · obtain ⟨op, hop⟩ := (Phase.isClosing_iff _).1 hk
      have hco := d.closeDue_of_closing op hop h0
      rw [exec_closeEnd_due u _ d op hupin hu hco, hunpin, State.settle_of_closeDue hu hco]
    · have hrd := (d.revokeDue_iff p).2 hr
      rw [exec_revokeEnd_due u _ p d hupin hu (hdue hn) hrd, hunpin, State.settle_of_revokeDue hu (hdue hn) hrd]
    · rw [hunpin, State.settle_of_nothing_due hu (hdue hn) (mt (d.revokeDue_iff p).1 hr)]

end Sys2Proof.Machine

/-! SUPPORT. A cut order at the queue of a port (R46, R112): what it makes of each entry, and of each other field of the block. -/

namespace Sys2Proof.Machine

/-! ### One entry (R46) -/

/-- The entry that a cut order leaves of this one. -/
theorem Entry.cutBy_fst (e : Entry) (h : Handle) : (e.cutBy h).1 =
    if e.job.names.contains h then
      match e.state with
      | .active causes => { e with state := .active { causes with cut := true } }
      | .queued true => e
      | _ => { e with state := .queued true, pins := [] }
    else e := by
  unfold Entry.cutBy
  split
  · cases e.state with
    | queued cut => cases cut <;> rfl
    | waiting left => rfl
    | active causes => rfl
  · rfl

/-- The pins that a cut order makes this entry drop: all of one that is struck and was not cut before. -/
theorem Entry.cutBy_snd (e : Entry) (h : Handle) : (e.cutBy h).2 =
    if e.state != .queued true && (e.job.names.contains h && !e.isActive) then e.pins else [] := by
  unfold Entry.cutBy Entry.isActive
  cases e.job.names.contains h with
  | false => simp
  | true =>
    cases hs : e.state with
    | queued cut => cases cut <;> simp
    | waiting left => simp
    | active causes => simp

theorem flatMap_ite_nil {α β : Type} (l : List α) (f : α → Bool) (g : α → List β) :
    (l.flatMap fun x => if f x then g x else []) = (l.filter f).flatMap g := by
  induction l with
  | nil => rfl
  | cons x t ih =>
    rw [List.flatMap_cons, ih, List.filter_cons]
    split
    · rfl
    · rfl

/-- The pins dropped by all entries, in queue order (R46, log 28). -/
theorem flatMap_cutBy (es : List Entry) (h : Handle) : (es.flatMap fun e => (e.cutBy h).2) =
    ((es.filter fun e => e.job.names.contains h && !e.isActive).filter fun e => e.state != .queued true).flatMap Entry.pins := by
  simp only [Entry.cutBy_snd, flatMap_ite_nil, List.filter_filter]

/-! ### The block (R46, R112, R93, R123) -/

theorem PortBlock.stopRequest_record (b : PortBlock) (busy : Bool) : (b.stopRequest busy).record =
    b.record.bind fun r => if busy then some { r with stopMark := true } else none := by
  unfold PortBlock.stopRequest
  split
  · next h => rw [h]; rfl
  · next h => rw [h]; cases busy <;> rfl

theorem PortBlock.stopRequest_report (b : PortBlock) (busy : Bool) : (b.stopRequest busy).queue.report =
    if b.record.isSome && !busy then some (.stopped .noSpan) else b.queue.report := by
  unfold PortBlock.stopRequest
  split
  · next h => rw [h]; rfl
  · next h => rw [h]; cases busy <;> rfl

/-- The served WRITE depends on the entries and the buffer alone (R118). -/
theorem PortBlock.refreshStaging_congr (b d : PortBlock) (hs : d.staging = b.staging)
    (he : d.queue.entries = b.queue.entries) : d.refreshStaging.staging = b.refreshStaging.staging := by
  unfold PortBlock.refreshStaging
  rw [hs, he]
  split
  · split
    · exact hs
    · rfl
  · rfl

/-- A WAITING entry names the canvas of the handle. -/
def PortBlock.waitsOn (b : PortBlock) (h : Handle) : Bool :=
  b.queue.entries.any fun e => e.job.names.contains h && e.isWaiting

/-- An ACTIVE entry names the canvas of the handle. -/
def PortBlock.activeOn (b : PortBlock) (h : Handle) : Bool :=
  b.queue.entries.any fun e => e.job.names.contains h && e.isActive

/-- The block with the entries cut, and the claim request withdrawn with a WAITING one. -/
def PortBlock.cutEntries (b : PortBlock) (h : Handle) : PortBlock :=
  let d := { b with queue := { b.queue with entries := b.queue.entries.map fun e : Entry => (e.cutBy h).1 } }
  if b.waitsOn h then d.withdraw else d

theorem PortBlock.cutEntries_eq (b : PortBlock) (h : Handle) : b.cutEntries h = { b with
    queue := { b.queue with entries := b.queue.entries.map fun e : Entry => (e.cutBy h).1 }
    request := if b.waitsOn h then none else b.request
    link := if b.waitsOn h then b.link.release else b.link } := by
  unfold PortBlock.cutEntries
  cases b.waitsOn h <;> rfl

/-- A cut order changes the entries, then withdraws, then asks an ACTIVE job to stop, and last looks for the served WRITE. -/
theorem PortBlock.cut_eq (b : PortBlock) (h : Handle) (busy : Bool) : b.cut h busy =
    (if b.activeOn h then (b.cutEntries h).stopRequest busy else b.cutEntries h).refreshStaging := rfl

/-- What a cut order makes of the fields of the block. -/
theorem PortBlock.cut_fields (b : PortBlock) (h : Handle) (busy : Bool) :
    let d := b.cut h busy
    d = { b with
      queue := { b.queue with
        entries := b.queue.entries.map fun e : Entry => (e.cutBy h).1
        report := if b.activeOn h then (b.stopRequest busy).queue.report else b.queue.report }
      request := if b.waitsOn h then none else b.request
      link := if b.waitsOn h then b.link.release else b.link
      record := if b.activeOn h then (b.stopRequest busy).record else b.record
      staging := ({ b with queue := d.queue } : PortBlock).refreshStaging.staging } := by
  intro d
  have hd : d = _ := b.cut_eq h busy
  set c := if b.activeOn h then (b.cutEntries h).stopRequest busy else b.cutEntries h with hcdef
  have hq : d.queue = c.queue := by rw [hd, PortBlock.refreshStaging_queue]
  have hc : c = { b.cutEntries h with
      record := if b.activeOn h then (b.stopRequest busy).record else b.record
      queue := { (b.cutEntries h).queue with
        report := if b.activeOn h then (b.stopRequest busy).queue.report else b.queue.report } } := by
    rw [hcdef]
    cases b.activeOn h with
    | true =>
      rw [if_pos rfl, PortBlock.stopRequest_eq, PortBlock.stopRequest_record, PortBlock.stopRequest_report,
        PortBlock.stopRequest_record, PortBlock.stopRequest_report, b.cutEntries_eq]
      rfl
    | false => rw [b.cutEntries_eq]; rfl
  have hst : d.staging = ({ b with queue := d.queue } : PortBlock).refreshStaging.staging := by
    rw [hq, hd]
    refine PortBlock.refreshStaging_congr _ c ?_ rfl
    rw [hc, b.cutEntries_eq]
  rw [← hst, hd, PortBlock.refreshStaging_eq, hc, b.cutEntries_eq]

theorem PortBlock.waitsOn_iff (b : PortBlock) (h : Handle) :
    b.waitsOn h = true ↔ ∃ e ∈ b.queue.entries, h ∈ e.job.names ∧ e.isWaiting = true := by
  simp only [PortBlock.waitsOn, List.any_eq_true, Bool.and_eq_true, List.contains_iff_mem]

theorem PortBlock.activeOn_iff (b : PortBlock) (h : Handle) :
    b.activeOn h = true ↔ ∃ e ∈ b.queue.entries, h ∈ e.job.names ∧ e.isActive = true := by
  simp only [PortBlock.activeOn, List.any_eq_true, Bool.and_eq_true, List.contains_iff_mem]

theorem State.spanBusy_iff (s : State) (p : Port) : s.spanBusy p = true ↔ ∃ x, s.engine.span = some x ∧ x.port = p := by
  simp only [State.spanBusy, Option.any_eq_true, beq_iff_eq]

/-! ### The order (R46) -/

theorem State.cutPort_of_no_pins (s : State) (n : Nat) (p : Port) (c : Canvas) (hc : s.canvas n = some c)
    (h0 : c.pinsOf p = 0) : s.cutPort n p = s := by
  rw [State.cutPort, hc]
  exact if_pos h0

theorem State.cutPort_of_pins (s : State) (n : Nat) (p : Port) (c : Canvas) (hc : s.canvas n = some c)
    (h0 : c.pinsOf p ≠ 0) : s.cutPort n p =
      (s.setPort p ((s.port p).cut (s.handle n) (s.spanBusy p))).unpinAll p
        ((s.port p).queue.entries.flatMap fun e : Entry => (e.cutBy (s.handle n)).2) := by
  rw [State.cutPort, hc]
  exact if_neg h0

/-- A queue with new entries and a new report is the old one but for the two. -/
theorem JobQueue.only_of_eq {b d : JobQueue} {es : List Entry} {r : Option Report}
    (h : d = { b with entries := es, report := r }) : d = { b with entries := d.entries, report := d.report } := by
  subst h; rfl

/-- A block with five fields new is the old one but for the five. -/
theorem PortBlock.only_of_eq {b d : PortBlock} {q : JobQueue} {r : Option (List Claim)} {l : Link}
    {x : Option EngineRecord} {st : Staging}
    (h : d = { b with queue := q, request := r, link := l, record := x, staging := st }) :
    d = { b with queue := d.queue, request := d.request, link := d.link, record := d.record, staging := d.staging } := by
  subst h; rfl

/-- Settles O29: the order reaches a port with pins, whose block it changes field by field and whose dropped pins follow. -/
theorem cutOrderActsOnEachEntry : Obligations.CutOrderActsOnEachEntry := by
  intro s n p c hc h b
  refine ⟨s.cutPort_of_no_pins n p c hc, fun h0 => ?_⟩
  intro hit struck dropped waiting active
  have hwaiting : b.waitsOn h = true ↔ waiting := b.waitsOn_iff h
  have hactive : b.activeOn h = true ↔ active := b.activeOn_iff h
  have hcut := b.cut_fields h (s.spanBusy p)
  set d := b.cut h (s.spanBusy p) with hd
  have hentries : d.queue.entries = b.queue.entries.map fun e : Entry => (e.cutBy h).1 :=
    congrArg (fun x => x.queue.entries) hcut
  have hreport : d.queue.report = if b.activeOn h then (b.stopRequest (s.spanBusy p)).queue.report else b.queue.report :=
    congrArg (fun x => x.queue.report) hcut
  have hrequest : d.request = if b.waitsOn h then none else b.request := congrArg PortBlock.request hcut
  have hlink : d.link = if b.waitsOn h then b.link.release else b.link := congrArg PortBlock.link hcut
  have hrecord : d.record = if b.activeOn h then (b.stopRequest (s.spanBusy p)).record else b.record :=
    congrArg PortBlock.record hcut
  have hstaging : d.staging = ({ b with queue := d.queue } : PortBlock).refreshStaging.staging :=
    (congrArg PortBlock.staging hcut :)
  have hqueue := congrArg PortBlock.queue hcut
  refine ⟨d, ?_, ?_, fun hw => ?_, fun hw => ?_, fun ha r hr => ⟨fun hb => ?_, fun hb => ?_⟩, fun ha => ?_, hstaging,
    JobQueue.only_of_eq hqueue, PortBlock.only_of_eq hcut⟩
  · rw [s.cutPort_of_pins n p c hc h0, flatMap_cutBy]
    rfl
  · rw [hentries]
    exact List.map_congr_left fun e _ => e.cutBy_fst h
  · rw [hrequest, hlink, if_pos (hwaiting.2 hw), if_pos (hwaiting.2 hw)]
    exact ⟨rfl, rfl⟩
  · rw [hrequest, hlink, if_neg (mt hwaiting.1 hw), if_neg (mt hwaiting.1 hw)]
    exact ⟨rfl, rfl⟩
  · have hbusy : s.spanBusy p = true := (s.spanBusy_iff p).2 hb
    rw [hrecord, hreport, if_pos (hactive.2 ha), if_pos (hactive.2 ha), b.stopRequest_record, b.stopRequest_report, hr, hbusy]
    exact ⟨rfl, rfl⟩
  · have hbusy : s.spanBusy p = false :=
      Bool.eq_false_iff.2 fun ht => ((s.spanBusy_iff p).1 ht).elim fun x ⟨hx, hxp⟩ => hb x hx hxp
    rw [hrecord, hreport, if_pos (hactive.2 ha), if_pos (hactive.2 ha), b.stopRequest_record, b.stopRequest_report, hr, hbusy]
    exact ⟨rfl, rfl⟩
  · obtain ha | hr := ha
    · rw [hrecord, hreport, if_neg (mt hactive.1 ha), if_neg (mt hactive.1 ha)]
      exact ⟨rfl, rfl⟩
    · rw [hrecord, hreport, b.stopRequest_record, b.stopRequest_report, hr]
      exact ⟨ite_self _, ite_self _⟩

end Sys2Proof.Machine

/-! SUPPORT. The order of the job queues (R71) and the claims of different ports (R91): which changes of a port's block keep the
order of its queue and add no claim, and which operations are such changes. -/

namespace Sys2Proof.Machine

/-! ### Ordered queues (R71) -/

/-- Entries may leave, and those that stay may change while a QUEUED one stays QUEUED. -/
theorem JobQueue.Ordered.of_sublist {q r : JobQueue} (h : q.Ordered) {es : List Entry} (hs : es.Sublist q.entries)
    (f : Entry → Entry) (hf : ∀ e, e.isQueued = true → (f e).isQueued = true) (hr : r.entries = es.map f) : r.Ordered := by
  obtain ⟨hlen, htail⟩ := h
  rw [JobQueue.Ordered, hr, List.length_map, ← List.map_tail]
  refine ⟨hs.length_le.trans hlen, fun e he => ?_⟩
  obtain ⟨d, hd, rfl⟩ := List.mem_map.1 he
  exact hf d (htail d (hs.tail.subset hd))

/-- The head may change in any way. -/
theorem JobQueue.Ordered.of_head {q r : JobQueue} (h : q.Ordered) {e d : Entry} {rest : List Entry}
    (hq : q.entries = e :: rest) (hr : r.entries = d :: rest) : r.Ordered := by
  rw [JobQueue.Ordered, hq] at h
  rw [JobQueue.Ordered, hr]
  exact h

/-- QUEUED entries may join at the tail while there is room. -/
theorem JobQueue.Ordered.of_append {q r : JobQueue} (h : q.Ordered) {added : List Entry}
    (hr : r.entries = q.entries ++ added) (hlen : q.entries.length + added.length ≤ Config.queueEntries)
    (ha : ∀ e ∈ added, e.isQueued = true) : r.Ordered := by
  rw [JobQueue.Ordered, hr, List.length_append]
  refine ⟨hlen, fun e he => ?_⟩
  cases hq : q.entries with
  | nil =>
    rw [hq, List.nil_append] at he
    exact ha e (List.mem_of_mem_tail he)
  | cons d rest =>
    rw [hq, List.cons_append, List.tail_cons] at he
    obtain he | he := List.mem_append.1 he
    · exact h.2 e (by rw [hq]; exact he)
    · exact ha e he

theorem JobQueue.ordered_nil {q : JobQueue} (h : q.entries = []) : q.Ordered := by
  rw [JobQueue.Ordered, h]
  exact ⟨Nat.zero_le _, nofun⟩

/-! ### Blocks and states -/

/-- What R71 and R91 see of a port's block: which of its entries are QUEUED, and its claims. -/
def PortBlock.jobView (b : PortBlock) : List Bool × List Claim := (b.queue.entries.map Entry.isQueued, b.claims)

/-- The block keeps the order of its queue and gets no new claim. -/
def PortBlock.StaysOrdered (b d : PortBlock) : Prop := (b.queue.Ordered → d.queue.Ordered) ∧ d.claims ⊆ b.claims

theorem PortBlock.StaysOrdered.refl (b : PortBlock) : b.StaysOrdered b := ⟨id, List.Subset.refl _⟩

theorem PortBlock.StaysOrdered.trans {b c d : PortBlock} (h : b.StaysOrdered c) (k : c.StaysOrdered d) :
    b.StaysOrdered d := ⟨k.1 ∘ h.1, List.Subset.trans k.2 h.2⟩

theorem PortBlock.staysOrdered_of_view {b d : PortBlock} (h : d.jobView = b.jobView) : b.StaysOrdered d := by
  obtain ⟨hq, hc⟩ := Prod.mk.inj h
  refine ⟨fun ⟨h1, h2⟩ => ⟨?_, fun e he => ?_⟩, hc ▸ List.Subset.refl _⟩
  · have := congrArg List.length hq
    rw [List.length_map, List.length_map] at this
    exact this ▸ h1
  · have hm : e.isQueued ∈ (d.queue.entries.map Entry.isQueued).tail := by
      rw [← List.map_tail]; exact List.mem_map_of_mem he
    rw [hq, ← List.map_tail] at hm
    obtain ⟨x, hx, hxe⟩ := List.mem_map.1 hm
    exact hxe ▸ h2 x hx

theorem PortBlock.staysOrdered_of_sublist {b d : PortBlock} {es : List Entry} (hs : es.Sublist b.queue.entries)
    (f : Entry → Entry) (hf : ∀ e, e.isQueued = true → (f e).isQueued = true) (hd : d.queue.entries = es.map f)
    (hc : d.claims = b.claims) : b.StaysOrdered d :=
  ⟨fun h => h.of_sublist hs f hf hd, hc ▸ List.Subset.refl _⟩

theorem PortBlock.staysOrdered_of_head {b d : PortBlock} {e x : Entry} {rest : List Entry}
    (hb : b.queue.entries = e :: rest) (hd : d.queue.entries = x :: rest) (hc : d.claims = b.claims) : b.StaysOrdered d :=
  ⟨fun h => h.of_head hb hd, hc ▸ List.Subset.refl _⟩

/-- The part keeps what R71 and R91 say of it. -/
def State.StaysOrdered (s t : State) : Prop := (s.QueuesOrdered → t.QueuesOrdered) ∧ (s.ClaimsApart → t.ClaimsApart)

theorem State.StaysOrdered.refl (s : State) : s.StaysOrdered s := ⟨id, id⟩

theorem State.StaysOrdered.trans {s t u : State} (h : s.StaysOrdered t) (k : t.StaysOrdered u) : s.StaysOrdered u :=
  ⟨k.1 ∘ h.1, k.2 ∘ h.2⟩

theorem State.staysOrdered_foldl {α : Type} (f : State → α → State) (h : ∀ (s : State) (a : α), s.StaysOrdered (f s a))
    (xs : List α) (s : State) : s.StaysOrdered (xs.foldl f s) := by
  induction xs generalizing s with
  | nil => exact .refl s
  | cons a t ih => exact (h s a).trans (ih _)

theorem State.staysOrdered_of_ports {s t : State} (h : ∀ p, (s.port p).StaysOrdered (t.port p)) : s.StaysOrdered t :=
  ⟨fun hs p => (h p).1 (hs p), fun hs p q hpq a ha b hb => hs p q hpq a ((h p).2 ha) b ((h q).2 hb)⟩

/-- A change outside the ports. -/
theorem State.staysOrdered_of_eq {s t : State} (h : t.ports = s.ports) : s.StaysOrdered t :=
  State.staysOrdered_of_ports fun p => by rw [State.port, State.port, h]; exact .refl _

theorem State.OnlyEnds.staysOrdered {s t : State} (h : s.OnlyEnds t) : s.StaysOrdered t :=
  State.staysOrdered_of_ports fun p => by rw [h.2 p]; exact PortBlock.staysOrdered_of_view rfl

theorem State.staysOrdered_modPort (s : State) (p : Port) (f : PortBlock → PortBlock)
    (h : (s.port p).StaysOrdered (f (s.port p))) : s.StaysOrdered (s.modPort p f) := by
  refine State.staysOrdered_of_ports fun q => ?_
  rw [State.port_modPort]
  split
  · next hq => rw [hq]; exact h
  · exact .refl _

/-- A change of a port's block that R71 and R91 do not see. -/
theorem State.staysOrdered_sameView (s : State) (p : Port) (f : PortBlock → PortBlock)
    (h : (f (s.port p)).jobView = (s.port p).jobView) : s.StaysOrdered (s.modPort p f) :=
  s.staysOrdered_modPort p f (PortBlock.staysOrdered_of_view h)

theorem State.staysOrdered_setCanvas (s : State) (n : Nat) (c : Canvas) : s.StaysOrdered (s.setCanvas n c) :=
  State.staysOrdered_of_eq (s.setCanvas_ports n c)

/-! ### What the operations of a port leave of the view -/

@[simp] theorem PortBlock.raise_jobView (b : PortBlock) (k : Flag) : (b.raise k).jobView = b.jobView := by
  rw [PortBlock.raise_eq]; rfl

@[simp] theorem PortBlock.reply_jobView (b : PortBlock) (kind : Byte) (st : Status) (id : ReqId) (m : List Byte) :
    (b.reply kind st id m).jobView = b.jobView := rfl

@[simp] theorem PortBlock.answer_jobView (b : PortBlock) (id : ReqId) (m : List Byte) :
    (b.answer id m).jobView = b.jobView := by
  rw [PortBlock.answer_eq]; rfl

@[simp] theorem PortBlock.answerAll_jobView (b : PortBlock) (ids : List ReqId) (m : List Byte) :
    (b.answerAll ids m).jobView = b.jobView := by
  rw [PortBlock.answerAll_eq]; rfl

@[simp] theorem PortBlock.refreshStaging_jobView (b : PortBlock) : b.refreshStaging.jobView = b.jobView := by
  rw [PortBlock.refreshStaging_eq]; rfl

@[simp] theorem PortBlock.withdraw_jobView (b : PortBlock) : b.withdraw.jobView = b.jobView := rfl

@[simp] theorem PortBlock.stopRequest_jobView (b : PortBlock) (busy : Bool) : (b.stopRequest busy).jobView = b.jobView := by
  rw [PortBlock.stopRequest_eq]; rfl

@[simp] theorem PortBlock.placeNotice_jobView (b : PortBlock) (e : Entry) (st : JobStatus) (i : Option Nat) :
    (b.placeNotice e st i).jobView = b.jobView := by
  unfold PortBlock.placeNotice
  split <;> rfl

@[simp] theorem PortBlock.answerCancels_jobView (b : PortBlock) (q : Nat) (st : JobStatus) :
    (b.answerCancels q st).jobView = b.jobView := by
  have h (ws : List CancelWaiter) (f : CancelWaiter → List Byte) (d : PortBlock) :
      (ws.foldl (fun d w => d.answer w.id (f w)) d).jobView = d.jobView := by
    induction ws generalizing d with
    | nil => rfl
    | cons w t ih => exact (ih _).trans (d.answer_jobView _ _)
  exact h _ _ _

@[simp] theorem PortBlock.becomeHalted_jobView (b : PortBlock) : b.becomeHalted.jobView = b.jobView := by
  unfold PortBlock.becomeHalted
  dsimp only
  rw [PortBlock.raise_jobView, PortBlock.answerAll_jobView]
  rfl

theorem PortBlock.becomeHalted_ite_jobView (b : PortBlock) (c : Prop) [Decidable c] :
    (if c then b.becomeHalted else b).jobView = b.jobView := by
  split
  · exact b.becomeHalted_jobView
  · rfl

@[simp] theorem PortBlock.raiseFault_jobView (b : PortBlock) (k : FaultKind) : (b.raiseFault k).jobView = b.jobView := by
  unfold PortBlock.raiseFault
  split
  · rfl
  · simp

theorem PortBlock.placeDueAtn_jobView (b : PortBlock) : b.placeDueAtn.jobView = b.jobView := by
  unfold PortBlock.placeDueAtn
  split <;> rfl

theorem PortBlock.reserveSpanSlot_jobView (b : PortBlock) : b.reserveSpanSlot.jobView = b.jobView := by
  unfold PortBlock.reserveSpanSlot
  split
  · rfl
  · split <;> rfl

theorem PortBlock.timedOut_jobView (b : PortBlock) (k : FaultKind) : (b.timedOut k).jobView = b.jobView := by
  unfold PortBlock.timedOut
  split <;> rfl

theorem PortBlock.reportStopped_jobView (b : PortBlock) : b.reportStopped.jobView = b.jobView := by
  unfold PortBlock.reportStopped
  split <;> rfl

theorem PortBlock.dropRequesters_jobView (b : PortBlock) : b.dropRequesters.jobView = b.jobView := by
  unfold PortBlock.dropRequesters
  split <;> rfl

theorem PortBlock.enable_jobView (b : PortBlock) : b.enable.jobView = b.jobView := by
  unfold PortBlock.enable
  split <;> rfl

theorem PortBlock.applySettings_jobView (b : PortBlock) (xs : List Setting) :
    (xs.foldl PortBlock.applySetting b).jobView = b.jobView := by
  have hone (b : PortBlock) (x : Setting) : (b.applySetting x).jobView = b.jobView := by
    unfold PortBlock.applySetting
    dsimp only
    repeat' split
    all_goals rfl
  induction xs generalizing b with
  | nil => rfl
  | cons x t ih => exact (ih _).trans (hone b x)

theorem PortBlock.unpromise_jobView (b : PortBlock) (m : List Byte) : (b.unpromise m).jobView = b.jobView := by
  unfold PortBlock.unpromise
  split <;> rfl

theorem PortBlock.rejectData_jobView (b : PortBlock) (m : List Byte) : (b.rejectData m).jobView = b.jobView :=
  PortBlock.raise_jobView _ _

theorem PortBlock.takeResume_jobView (b : PortBlock) (m : List Byte) : (b.takeResume m).jobView = b.jobView := by
  unfold PortBlock.takeResume
  dsimp only
  rw [PortBlock.reply_jobView]
  split
  · rfl
  · rw [PortBlock.answerAll_jobView]; rfl
  · rfl

/-! ### Frames of a lane (R163 to R173) -/

theorem PortBlock.badCrc_jobView (b : PortBlock) : b.badCrc.jobView = b.jobView := by
  unfold PortBlock.badCrc
  split <;> rfl

theorem PortBlock.refuseForState_jobView (b : PortBlock) : b.refuseForState.jobView = b.jobView := by
  unfold PortBlock.refuseForState
  split <;> rfl

theorem PortBlock.takeInSequence_jobView (b : PortBlock) (c : InClass) (m : List Byte) :
    (b.takeInSequence c m).jobView = b.jobView := by
  unfold PortBlock.takeInSequence
  split
  · rfl
  · cases c
    · dsimp only; split <;> rfl
    · dsimp only; split <;> rfl

theorem PortBlock.sequenceTest_jobView (b : PortBlock) (c : InClass) (f : WireFrame) :
    (b.sequenceTest c f).jobView = b.jobView := by
  unfold PortBlock.sequenceTest
  dsimp only
  split
  · exact b.takeInSequence_jobView c _
  · split <;> rfl

theorem PortBlock.reqDatArrived_jobView (b : PortBlock) (c : InClass) (f : WireFrame) :
    (b.reqDatArrived c f).jobView = b.jobView := by
  unfold PortBlock.reqDatArrived
  split
  · exact PortBlock.sequenceTest_jobView _ c f
  · exact b.refuseForState_jobView

theorem PortBlock.ackArrived_jobView (b : PortBlock) (f : WireFrame) : (b.ackArrived f).jobView = b.jobView := by
  unfold PortBlock.ackArrived
  split
  · rfl
  · exact b.refuseForState_jobView

theorem PortBlock.takeHello_jobView (b : PortBlock) (m : List Byte) (q : BitVec 8) :
    (b.takeHello m q).jobView = b.jobView := by
  unfold PortBlock.takeHello
  split <;> rfl

theorem PortBlock.helloArrived_jobView (b : PortBlock) (f : WireFrame) : (b.helloArrived f).jobView = b.jobView := by
  unfold PortBlock.helloArrived
  split
  · exact b.takeHello_jobView _ _
  · exact b.takeHello_jobView _ _
  · exact b.takeHello_jobView _ _
  · rfl
  · rfl

theorem PortBlock.transmit_jobView (b : PortBlock) : b.transmit.jobView = b.jobView := by
  unfold PortBlock.transmit
  dsimp only
  repeat' split
  all_goals rfl

/-! ### Entries that change (R46, R75, R80, R87) -/

/-- A change of every entry that leaves each QUEUED or not. -/
theorem PortBlock.jobView_of_map {b d : PortBlock} (f : Entry → Entry) (hf : ∀ e, (f e).isQueued = e.isQueued)
    (hd : d.queue.entries = b.queue.entries.map f) (hc : d.claims = b.claims) : d.jobView = b.jobView := by
  rw [PortBlock.jobView, PortBlock.jobView, hd, hc, List.map_map]
  exact congrArg (·, b.claims) (List.map_congr_left fun e _ => hf e)

theorem Entry.isQueued_elapse (e : Entry) (ms : Nat) : (e.elapse ms).isQueued = e.isQueued := by
  unfold Entry.elapse
  split
  · next h => rw [Entry.isQueued, Entry.isQueued, h]
  · rfl

theorem Entry.isQueued_resetCause (e : Entry) : e.resetCause.isQueued = e.isQueued := by
  unfold Entry.resetCause
  split
  · next h => rw [Entry.isQueued, Entry.isQueued, h]
  · rfl

theorem Entry.isQueued_cancelCause (e : Entry) : e.cancelCause.isQueued = e.isQueued := by
  unfold Entry.cancelCause
  split
  · next h => rw [Entry.isQueued, Entry.isQueued, h]
  · rfl

theorem State.staysOrdered_elapse (s : State) (ms : Nat) : s.StaysOrdered (s.elapse ms) :=
  State.staysOrdered_of_ports fun p => by
    rw [s.elapse_port ms p]
    exact PortBlock.staysOrdered_of_view
      (PortBlock.jobView_of_map (Entry.elapse ms) (fun e => e.isQueued_elapse ms) rfl rfl)

theorem PortBlock.appendData_jobView (payload : List Byte) (seq : Nat) (b : PortBlock) :
    (b.appendData payload seq).jobView = b.jobView := by
  refine PortBlock.jobView_of_map
    (fun e => if e.seq = seq then { e with received := e.received + (datData payload).length } else e) (fun e => ?_) rfl rfl
  split <;> rfl

theorem PortBlock.staysOrdered_unwait (b : PortBlock) : b.StaysOrdered b.unwait := by
  unfold PortBlock.unwait
  split
  · next hb =>
    split
    · exact PortBlock.staysOrdered_of_head hb rfl rfl
    · exact .refl b
  · exact .refl b

theorem PortBlock.staysOrdered_takeHalt (payload : List Byte) (b : PortBlock) : b.StaysOrdered (b.takeHalt payload) := by
  unfold PortBlock.takeHalt
  dsimp only
  split
  · split
    · exact PortBlock.staysOrdered_of_view rfl
    · exact b.staysOrdered_unwait.trans (PortBlock.staysOrdered_of_view (by rw [PortBlock.raise_jobView]; rfl))
  · exact PortBlock.staysOrdered_of_view rfl
  · exact PortBlock.staysOrdered_of_view rfl
  · exact .refl b

theorem PortBlock.staysOrdered_haltOnLoss (b : PortBlock) : b.StaysOrdered b.haltOnLoss := by
  unfold PortBlock.haltOnLoss
  split
  · split
    · exact PortBlock.staysOrdered_of_view rfl
    · exact b.staysOrdered_unwait.trans (PortBlock.staysOrdered_of_view (PortBlock.becomeHalted_jobView _))
  · exact .refl b

theorem PortBlock.staysOrdered_resendExpired (b : PortBlock) : b.StaysOrdered b.resendExpired := by
  unfold PortBlock.resendExpired
  dsimp only
  split
  · exact PortBlock.staysOrdered_of_view rfl
  · split
    · refine PortBlock.StaysOrdered.trans ?_ (PortBlock.staysOrdered_haltOnLoss _)
      exact PortBlock.staysOrdered_of_view rfl
    · exact PortBlock.staysOrdered_of_view rfl

theorem PortBlock.cut_claims (b : PortBlock) (h : Handle) (busy : Bool) : (b.cut h busy).claims = b.claims := by
  rw [PortBlock.cut_fields]

theorem PortBlock.staysOrdered_cut (b : PortBlock) (h : Handle) (busy : Bool) : b.StaysOrdered (b.cut h busy) :=
  PortBlock.staysOrdered_of_sublist (List.Sublist.refl _) (fun e => (e.cutBy h).1)
    (fun e => (e.cutBy_fixed h).2.2.2.2) (b.cut_entries h busy) (b.cut_claims h busy)

theorem PortBlock.cancelEntries_claims (b : PortBlock) (target : Nat) : (b.cancelEntries target).claims = b.claims := by
  unfold PortBlock.cancelEntries
  dsimp only
  rw [PortBlock.refreshStaging_eq]
  split <;> rfl

theorem PortBlock.staysOrdered_cancelEntries (b : PortBlock) (target : Nat) : b.StaysOrdered (b.cancelEntries target) := by
  refine PortBlock.staysOrdered_of_sublist List.filter_sublist _ (fun e he => ?_) (b.cancelEntries_entries target)
    (b.cancelEntries_claims target)
  split
  · rw [Entry.isQueued_cancelCause, he]
  · exact he

theorem PortBlock.beginReset_claims (op : ResetOp) (busy : Bool) (b : PortBlock) :
    (b.beginReset op busy).claims = b.claims := by
  unfold PortBlock.beginReset
  dsimp only
  rw [PortBlock.refreshStaging_eq]
  split
  · rfl
  · rw [PortBlock.stopRequest_eq]

theorem PortBlock.staysOrdered_beginReset (op : ResetOp) (busy : Bool) (b : PortBlock) :
    b.StaysOrdered (b.beginReset op busy) :=
  PortBlock.staysOrdered_of_sublist List.filter_sublist Entry.resetCause
    (fun e he => by rw [Entry.isQueued_resetCause, he]) (PortBlock.beginReset_entries op busy b)
    (PortBlock.beginReset_claims op busy b)

/-! ### Claims (R90 to R92) -/

theorem Rect.intersects_comm (a b : Rect) : a.intersects b = b.intersects a := by
  simp only [Rect.intersects, Nat.max_comm a.x, Nat.max_comm a.y, Nat.min_comm (a.x + a.w), Nat.min_comm (a.y + a.h)]

/-- Either of two claims conflicts with the other (R90). -/
theorem Claim.conflicts_comm (a b : Claim) : a.conflicts b = b.conflicts a := by
  rw [Claim.conflicts, Claim.conflicts, Rect.intersects_comm, BEq.comm, Bool.or_comm]

/-- Claims that conflict with none of another port may be given to a port (R91). -/
theorem State.ClaimsApart.setPort {s : State} (h : s.ClaimsApart) (p : Port) (b : PortBlock)
    (hb : ∀ c ∈ b.claims, ∀ q, q ≠ p → ∀ d ∈ (s.port q).claims, c.conflicts d = false) : (s.setPort p b).ClaimsApart := by
  intro q r hqr x hx y hy
  rw [State.port_setPort] at hx hy
  split at hx
  · next hq =>
    rw [if_neg fun hr => hqr (hq.trans hr.symm)] at hy
    exact hb x hx r (fun hr => hqr (hq.trans hr.symm)) y hy
  · next hq =>
    split at hy
    · rw [Claim.conflicts_comm]
      exact hb y hy q hq x hx
    · exact h q r hqr x hx y hy

/-- A grant adds claims that conflict with none present, and makes the head ACTIVE (R75, R91). -/
theorem State.staysOrdered_tryGrant (s : State) (p : Port) : s.StaysOrdered (s.tryGrant p) := by
  obtain h | ⟨cs, e, rest, _, he, _, hc, h⟩ := s.tryGrant_cases p <;> rw [h]
  · exact .refl s
  · refine ⟨fun hs q => ?_, fun hs => hs.setPort p _ fun c hcs q hq d hd => ?_⟩
    · rw [State.port_setPort]
      split
      · exact (hs p).of_head he rfl
      · exact hs q
    · exact s.firstConflict_none p cs hc c hcs d ((s.mem_othersClaims p d).2 ⟨q, hq, hd⟩)

theorem State.staysOrdered_releaseClaims (s : State) (p : Port) : s.StaysOrdered (s.releaseClaims p) :=
  (s.staysOrdered_modPort p _ ⟨id, List.nil_subset _⟩).trans
    (State.staysOrdered_foldl _ (fun s q => s.staysOrdered_tryGrant q) _ _)

/-! ### Commands and their frames -/

theorem State.staysOrdered_unlessHeld {s t u : State} (h : s.unlessHeld t = .next u) (k : s.StaysOrdered t) :
    s.StaysOrdered u := by
  unfold State.unlessHeld at h
  cases h
  split
  · exact .refl s
  · exact k

theorem State.staysOrdered_process {s u : State} {p : Port} {row : StreamRow} {f : List Byte → State → State}
    (h : s.process p row f = .next u) (k : ∀ (payload : List Byte) (v : State), v.StaysOrdered (f payload v)) :
    s.StaysOrdered u := by
  refine State.staysOrdered_unlessHeld h ?_
  split
  · exact .refl s
  · next payload v hv =>
    obtain ⟨rest, rfl⟩ := State.takeFrame_some hv
    exact (s.staysOrdered_sameView p (fun b => b.took rest) rfl).trans (k payload _)

theorem State.staysOrdered_reply (s : State) (p : Port) (payload : List Byte) (st : Status) (m : List Byte) :
    s.StaysOrdered (s.reply p payload st m) := s.staysOrdered_sameView p _ rfl

theorem State.staysOrdered_refuse (s : State) (p : Port) (payload : List Byte) (st : Status) :
    s.StaysOrdered (s.refuse p payload st) := s.staysOrdered_reply p payload st []

theorem State.staysOrdered_defer (s : State) (p : Port) (payload : List Byte) : s.StaysOrdered (s.defer p payload) :=
  s.staysOrdered_sameView p _ rfl

/-! ### Cuts (R46) -/

theorem State.staysOrdered_cutPort (s : State) (n : Nat) (p : Port) : s.StaysOrdered (s.cutPort n p) := by
  unfold State.cutPort
  split
  · exact .refl s
  · split
    · exact .refl s
    · exact (s.staysOrdered_modPort p _ (PortBlock.staysOrdered_cut _ _ _)).trans
        (State.onlyEnds_unpinAll _ p _).staysOrdered

theorem State.staysOrdered_cutCanvas (s : State) (n : Nat) : s.StaysOrdered (s.cutCanvas n) := by
  unfold State.cutCanvas
  split
  · exact .refl s
  · exact State.staysOrdered_foldl _ (fun s p => s.staysOrdered_cutPort n p) _ s

/-! ### The end of a job (R77, R79, R87) -/

/-- The head leaves the queue. -/
theorem PortBlock.staysOrdered_tail {b d : PortBlock} (hd : d.queue.entries = b.queue.entries.tail)
    (hc : d.claims = b.claims) : b.StaysOrdered d :=
  PortBlock.staysOrdered_of_sublist (List.tail_sublist _) id (fun _ => id) (by rw [List.map_id, hd]) hc

theorem State.staysOrdered_endHead (s : State) (p : Port) (e : Entry) (status : JobStatus) (index : Option Nat)
    (halts : Bool) : s.StaysOrdered (s.endHead p e status index halts) := by
  unfold State.endHead
  dsimp only
  refine State.StaysOrdered.trans ?_ (State.onlyEnds_settleAll _ p e.pins).staysOrdered
  refine State.StaysOrdered.trans ?_ (State.staysOrdered_sameView _ p _ ?_)
  · refine State.StaysOrdered.trans ?_ (State.onlyEnds_dropPins _ p e.pins).staysOrdered
    have htail := s.staysOrdered_modPort p (fun b => { b with
      record := none, request := none, queue := { b.queue with entries := b.queue.entries.tail, report := none } })
      (PortBlock.staysOrdered_tail rfl rfl)
    split
    · exact htail.trans (State.staysOrdered_releaseClaims _ p)
    · exact htail
  · exact (PortBlock.becomeHalted_ite_jobView _ _).trans (by simp)

theorem State.staysOrdered_endForReset (s : State) (p : Port) (e : Entry) : s.StaysOrdered (s.endForReset p e) := by
  unfold State.endForReset
  dsimp only
  refine State.StaysOrdered.trans ?_ (State.onlyEnds_settleAll _ p e.pins).staysOrdered
  refine State.StaysOrdered.trans ?_ (State.staysOrdered_sameView _ p _
    ((PortBlock.reportStopped_jobView _).trans (PortBlock.refreshStaging_jobView _)))
  refine State.StaysOrdered.trans ?_ (State.onlyEnds_dropPins _ p e.pins).staysOrdered
  exact (s.staysOrdered_modPort p _ (PortBlock.staysOrdered_tail rfl rfl)).trans (State.staysOrdered_releaseClaims _ p)

theorem State.staysOrdered_logFault (s : State) (p : Port) (seq : Nat) (kind : JobKind) (d : FaultDetail) :
    s.StaysOrdered (s.logFault p seq kind d).1 := by
  unfold State.logFault
  split
  · next i _ =>
    exact State.StaysOrdered.trans (t := { s with faultLog := s.faultLog.log i p seq kind d }) (State.staysOrdered_of_eq rfl)
      (State.staysOrdered_sameView _ p _ (PortBlock.raiseFault_jobView _ _))
  · exact s.staysOrdered_sameView p (fun b => (b.raise .logFull).raiseFault d.kind) (by simp)

theorem State.staysOrdered_endFaulted (s : State) (p : Port) (e : Entry) (d : FaultDetail) :
    s.StaysOrdered (s.endFaulted p e d) :=
  (s.staysOrdered_logFault p e.seq e.job.kind d).trans (State.staysOrdered_endHead _ p e _ _ _)

theorem State.staysOrdered_endJob (s : State) (p : Port) (e : Entry) (causes : StopCauses) (rep : Report) :
    s.StaysOrdered (s.endJob p e causes rep) := by
  unfold State.endJob
  split
  · exact s.staysOrdered_endForReset p e
  · split
    · exact s.staysOrdered_endFaulted p e _
    · exact s.staysOrdered_endHead p e _ none false

theorem State.staysOrdered_dispatch (s : State) (p : Port) (e : Entry) (rest : List Entry)
    (h : (s.port p).queue.entries = e :: rest) : s.StaysOrdered (s.dispatch p e) := by
  have hr : s.StaysOrdered (s.modPort p fun b => { b with link := b.link.reserve }) := s.staysOrdered_sameView p _ rfl
  unfold State.dispatch
  split
  · exact hr.trans (State.staysOrdered_endHead _ p e _ _ _)
  · split
    · exact hr.trans (State.staysOrdered_endHead _ p e _ _ _)
    · refine s.staysOrdered_modPort p _ (PortBlock.staysOrdered_of_head
        (x := { e with state := .waiting (s.port p).config.waitTimeout }) h ?_ rfl)
      exact congrArg ({ e with state := .waiting (s.port p).config.waitTimeout } :: List.tail ·) h
  · exact .refl s

/-! ### Port resets (R156 to R158) -/

theorem State.abandonClearing_port (s : State) (n : Nat) (p : Port) :
    ((s.abandonClearing n).port p).jobView = (s.port p).jobView := by
  have hrelease (t : State) : ((t.release n).port p).jobView = (t.port p).jobView := by
    rw [(t.onlyEnds_release n).2 p]; rfl
  unfold State.abandonClearing
  split
  · split
    · rfl
    · exact hrelease _
  · exact hrelease _

theorem State.staysOrdered_closeForReset (s : State) (n : Nat) : s.StaysOrdered (s.closeForReset n) := by
  unfold State.closeForReset
  split
  · exact .refl s
  · next c _ =>
    have hclose (op : CloseOp) (cut : Bool) :
        s.StaysOrdered (if c.pinCount = 0 then (s.setCanvas n { c with phase := .closing op }).endClose n op
          else if cut then (s.setCanvas n { c with phase := .closing op }).cutCanvas n
          else s.setCanvas n { c with phase := .closing op }) := by
      have h := s.staysOrdered_setCanvas n { c with phase := .closing op }
      split
      · exact h.trans (State.onlyEnds_endClose _ n op).staysOrdered
      · split
        · exact h.trans (State.staysOrdered_cutCanvas _ n)
        · exact h
    dsimp only
    split
    · exact State.staysOrdered_of_ports fun p => PortBlock.staysOrdered_of_view (s.abandonClearing_port n p)
    · exact hclose _ true
    · next op _ => exact hclose { op with mode := .cut, reset := true } (op.mode != .cut)

theorem State.staysOrdered_beginReset (s : State) (p : Port) (op : ResetOp) : s.StaysOrdered (s.beginReset p op) := by
  rw [State.beginReset_eq]
  have hqueue : s.StaysOrdered (s.resetQueue p op) :=
    (s.staysOrdered_modPort p _ (PortBlock.staysOrdered_beginReset op _ _)).trans (State.onlyEnds_dropPins _ p _).staysOrdered
  have hsupervisor (t : State) : t.StaysOrdered (t.dropSupervisor p) :=
    State.staysOrdered_of_ports fun q => by
      rw [State.dropSupervisor_port]
      split
      · exact PortBlock.staysOrdered_of_view (PortBlock.dropRequesters_jobView _)
      · exact .refl _
  have htables (t : State) : t.StaysOrdered (t.resetTables p) := State.staysOrdered_of_eq rfl
  have hcanvases (t : State) : t.StaysOrdered (t.resetCanvases p) :=
    (State.staysOrdered_foldl _ State.staysOrdered_closeForReset _ t).trans
      (State.staysOrdered_foldl _ (fun s n => (s.onlyEnds_settle n p).staysOrdered) _ _)
  exact ((hqueue.trans (hsupervisor _)).trans (htables _)).trans (hcanvases _)

/-- At its completion a port's queue is empty (R88, R158). -/
theorem PortBlock.staysOrdered_completeReset (p : Port) (op : ResetOp) (b : PortBlock) :
    b.StaysOrdered (b.completeReset p op) := ⟨fun _ => JobQueue.ordered_nil rfl, List.Subset.refl _⟩

theorem State.staysOrdered_tryComplete (s : State) (p : Port) : s.StaysOrdered (s.tryComplete p) := by
  unfold State.tryComplete
  split
  · exact .refl s
  · split
    · exact (s.staysOrdered_modPort p _ (PortBlock.staysOrdered_completeReset p _ _)).trans
        (State.staysOrdered_sameView _ .p0 _ (PortBlock.answerAll_jobView _ _ _))
    · exact .refl s

theorem State.staysOrdered_resetNow (s : State) (p : Port) (op : ResetOp) :
    s.StaysOrdered ((s.beginReset p op).tryComplete p) :=
  (s.staysOrdered_beginReset p op).trans (State.staysOrdered_tryComplete _ p)

theorem State.staysOrdered_beginForRequest (s : State) (payload : List Byte) (t : Port) (final : FinalState)
    (quotas : Option (Nat × Nat)) : s.StaysOrdered (s.beginForRequest payload t final quotas) := by
  unfold State.beginForRequest
  refine (s.staysOrdered_resetNow t ⟨final, [], none, quotas, false⟩).trans ?_
  dsimp only
  split
  · exact State.staysOrdered_reply _ _ _ _ _
  · exact (State.staysOrdered_sameView _ t _ rfl).trans (State.staysOrdered_defer _ _ _)

theorem State.staysOrdered_joinReset (s : State) (payload : List Byte) (t : Port) (op : ResetOp) (final : FinalState)
    (quotas : Option (Nat × Nat)) : s.StaysOrdered (s.joinReset payload t op final quotas) :=
  (s.staysOrdered_sameView t _ rfl).trans (State.staysOrdered_defer _ _ _)

end Sys2Proof.Machine

/-! SUPPORT. Admission (R69): what a SUBMIT's jobs make of the queue. -/

namespace Sys2Proof.Machine

/-! ### Entries that join (R65, R69) -/

/-- The entries of admitted jobs, in order, with consecutive sequences from `first` on (R65, R69). -/
def admittedEntries (first : Nat) (jobs : List (Job × Bool)) : List Entry :=
  jobs.zipIdx.map fun x => ⟨nextJobSeq^[x.2] first, x.1.1, x.1.2, .queued false, x.1.1.names, 0⟩

theorem admittedEntries_concat (first : Nat) (jobs : List (Job × Bool)) (j : Job × Bool) :
    admittedEntries first (jobs ++ [j]) =
      admittedEntries first jobs ++ [⟨nextJobSeq^[jobs.length] first, j.1, j.2, .queued false, j.1.names, 0⟩] := by
  simp [admittedEntries, List.zipIdx_append]

theorem length_admittedEntries (first : Nat) (jobs : List (Job × Bool)) :
    (admittedEntries first jobs).length = jobs.length := by
  rw [admittedEntries, List.length_map, List.length_zipIdx]

theorem isQueued_of_mem_admittedEntries {first : Nat} {jobs : List (Job × Bool)} {e : Entry}
    (h : e ∈ admittedEntries first jobs) : e.isQueued = true := by
  obtain ⟨x, _, rfl⟩ := List.mem_map.1 h
  rfl

/-- The block with the entries of admitted jobs at the tail of its queue. -/
def PortBlock.withJobs (b : PortBlock) (jobs : List (Job × Bool)) : PortBlock :=
  { b with queue :=
    { b.queue with
      entries := b.queue.entries ++ admittedEntries b.queue.nextSeq jobs
      nextSeq := nextJobSeq^[jobs.length] b.queue.nextSeq } }

theorem PortBlock.withJobs_concat (b : PortBlock) (jobs : List (Job × Bool)) (j : Job × Bool) :
    b.withJobs (jobs ++ [j]) = (b.withJobs jobs).withJob j := by
  simp only [PortBlock.withJobs, PortBlock.withJob, admittedEntries_concat, List.append_assoc, List.length_append,
    List.length_singleton, Function.iterate_succ_apply']

/-- The jobs of a SUBMIT join the queue of its port, and no other queue changes (R69). -/
theorem State.port_admitJobs (s : State) (p q : Port) (jobs : List (Job × Bool)) :
    (jobs.foldl (State.admitJob p) s).port q = if q = p then (s.port p).withJobs jobs else s.port q := by
  induction jobs using List.reverseRecOn with
  | nil =>
    split
    · next h => subst h; simp [PortBlock.withJobs, admittedEntries]
    · rfl
  | append_singleton jobs j ih =>
    rw [List.foldl_concat, State.admitJob_eq, State.port_pins, State.port_modPort, ih]
    split
    · rw [PortBlock.withJobs_concat]
    · rfl

theorem State.staysOrdered_admitJobs (s : State) (p : Port) (jobs : List (Job × Bool))
    (h : (s.port p).queue.entries.length + jobs.length ≤ Config.queueEntries) :
    s.StaysOrdered (jobs.foldl (State.admitJob p) s) := by
  refine State.staysOrdered_of_ports fun q => ?_
  rw [State.port_admitJobs]
  split
  · next hq =>
    subst hq
    exact ⟨fun ho => ho.of_append rfl (by rwa [length_admittedEntries]) fun e he => isQueued_of_mem_admittedEntries he,
      List.Subset.refl _⟩
  · exact .refl _

end Sys2Proof.Machine

/-! SUPPORT. Each command of the table, as a change that keeps queues ordered and claims apart, and the step invariant. -/

namespace Sys2Proof.Machine

/-! ### Frames that arrive and are sent (R163 to R175) -/

theorem State.staysOrdered_arrived (s : State) (p : Port) (rest : List Byte) (f : PortBlock → PortBlock)
    (h : ∀ b : PortBlock, (f b).jobView = b.jobView) : s.StaysOrdered (s.arrived p rest f) :=
  s.staysOrdered_sameView p _ (h _)

theorem staysOrdered_frameLengthError (s t : State) (p : Port) (bytes : List Byte)
    (h : execFrameLengthError p bytes s = .next t) : s.StaysOrdered t := by
  refine State.staysOrdered_unlessHeld h ?_
  split
  · exact s.staysOrdered_arrived p _ _ fun _ => rfl
  · exact .refl s

theorem staysOrdered_crcError (s t : State) (p : Port) (bytes : List Byte) (h : execCrcError p bytes s = .next t) :
    s.StaysOrdered t := by
  refine State.staysOrdered_unlessHeld h ?_
  split
  · exact s.staysOrdered_arrived p _ _ PortBlock.badCrc_jobView
  · exact .refl s

theorem staysOrdered_unknownClassFrame (s t : State) (p : Port) (bytes : List Byte)
    (h : execUnknownClassFrame p bytes s = .next t) : s.StaysOrdered t := by
  refine State.staysOrdered_unlessHeld h ?_
  split
  · split
    · exact .refl s
    · exact s.staysOrdered_arrived p _ _ fun _ => rfl
  · exact .refl s

theorem staysOrdered_reqDatFrameReceived (s t : State) (p : Port) (bytes : List Byte)
    (h : execReqDatFrameReceived p bytes s = .next t) : s.StaysOrdered t := by
  refine State.staysOrdered_unlessHeld h ?_
  split
  · split
    · split
      · exact .refl s
      · exact s.staysOrdered_arrived p _ _ fun b => b.reqDatArrived_jobView _ _
    · exact .refl s
  · exact .refl s

theorem staysOrdered_ackFrameReceived (s t : State) (p : Port) (bytes : List Byte)
    (h : execAckFrameReceived p bytes s = .next t) : s.StaysOrdered t := by
  refine State.staysOrdered_unlessHeld h ?_
  split
  · split
    · exact s.staysOrdered_arrived p _ _ fun b => b.ackArrived_jobView _
    · exact .refl s
  · exact .refl s

theorem staysOrdered_helloFrameReceived (s t : State) (p : Port) (bytes : List Byte)
    (h : execHelloFrameReceived p bytes s = .next t) : s.StaysOrdered t := by
  refine State.staysOrdered_unlessHeld h ?_
  split
  · split
    · exact s.staysOrdered_arrived p _ _ fun b => b.helloArrived_jobView _
    · exact .refl s
  · exact .refl s

theorem staysOrdered_frameTransmit (s t : State) (p : Port) (h : execFrameTransmit p s = .next t) : s.StaysOrdered t :=
  State.staysOrdered_unlessHeld h (s.staysOrdered_sameView p _ (PortBlock.transmit_jobView _))

theorem staysOrdered_resendTimerExpiry (s t : State) (p : Port) (h : execResendTimerExpiry p s = .next t) :
    s.StaysOrdered t := by
  refine State.staysOrdered_unlessHeld h ?_
  split
  · exact .refl s
  · exact (s.staysOrdered_elapse _).trans (State.staysOrdered_modPort _ p _ (PortBlock.staysOrdered_resendExpired _))

/-! ### Sessions (R150, R176 to R183) and supervisor requests (R152 to R161) -/

theorem State.staysOrdered_helloUnsynced (s : State) (p : Port) (payload : List Byte) :
    s.StaysOrdered (s.helloUnsynced p payload) := by
  unfold State.helloUnsynced
  split
  · exact .refl s
  · exact s.staysOrdered_sameView p _ rfl

theorem staysOrdered_helloFresh (s t : State) (p : Port) (h : execHelloFresh p s = .next t) : s.StaysOrdered t := by
  refine State.staysOrdered_process h fun payload v => ?_
  have hreset : v.StaysOrdered (if ReqKind.hello.lengthOk payload.length && num8 payload 4 == 0x01 then
      (v.beginReset p ⟨.up, [], some (reqId payload), none, false⟩).tryComplete p else v) := by
    split
    · exact v.staysOrdered_resetNow p _
    · exact .refl v
  split
  · exact v.staysOrdered_helloUnsynced p payload
  · exact hreset
  · exact hreset
  · exact .refl v
  · exact .refl v

theorem staysOrdered_helloResume (s t : State) (p : Port) (h : execHelloResume p s = .next t) : s.StaysOrdered t := by
  refine State.staysOrdered_process h fun payload v => ?_
  have hresume (f : PortBlock → PortBlock) (hf : ∀ b : PortBlock, (f b).jobView = b.jobView) :
      v.StaysOrdered (if ReqKind.hello.lengthOk payload.length then v.modPort p f else v) := by
    split
    · exact v.staysOrdered_sameView p f (hf _)
    · exact .refl v
  split
  · exact v.staysOrdered_helloUnsynced p payload
  · exact hresume _ fun _ => rfl
  · exact hresume _ fun _ => rfl
  · exact .refl v
  · exact .refl v

theorem staysOrdered_unknownKind (s t : State) (p : Port) (h : execUnknownKind p s = .next t) : s.StaysOrdered t := by
  refine State.staysOrdered_process h fun payload v => ?_
  split
  · exact v.staysOrdered_sameView p _ rfl
  · exact v.staysOrdered_refuse p payload _

theorem staysOrdered_portSetEnable (s t : State) (p : Port) (h : execPortSetEnable p s = .next t) : s.StaysOrdered t := by
  refine State.staysOrdered_process h fun payload v => ?_
  split
  · exact v.staysOrdered_refuse p payload _
  · next q _ =>
    dsimp only
    split
    · exact v.staysOrdered_joinReset payload q _ _ _
    · split
      · exact v.staysOrdered_refuse p payload _
      · exact (v.staysOrdered_sameView q _ (PortBlock.enable_jobView ((v.port q).setQuotas (portSetQuotas payload)))).trans
          (State.staysOrdered_reply _ _ _ _ _)

theorem staysOrdered_portSetDisable (s t : State) (p : Port) (h : execPortSetDisable p s = .next t) :
    s.StaysOrdered t := by
  refine State.staysOrdered_process h fun payload v => ?_
  split
  · exact v.staysOrdered_refuse p payload _
  · next q _ =>
    dsimp only
    split
    · exact v.staysOrdered_joinReset payload q _ _ _
    · exact v.staysOrdered_beginForRequest payload q _ _

theorem staysOrdered_config (s t : State) (p : Port) (h : execConfig p s = .next t) : s.StaysOrdered t := by
  refine State.staysOrdered_process h fun payload v => ?_
  split
  · exact v.staysOrdered_refuse p payload _
  · exact (v.staysOrdered_sameView p _ (PortBlock.applySettings_jobView _ _)).trans (State.staysOrdered_reply _ _ _ _ _)

theorem staysOrdered_resetPort (s t : State) (p : Port) (h : execResetPort p s = .next t) : s.StaysOrdered t := by
  refine State.staysOrdered_process h fun payload v => ?_
  split
  · exact v.staysOrdered_refuse p payload _
  · split
    · exact v.staysOrdered_refuse p payload _
    · split
      · exact v.staysOrdered_refuse p payload _
      · next q _ =>
        split
        · exact v.staysOrdered_refuse p payload _
        · split
          · exact v.staysOrdered_joinReset payload q _ _ _
          · exact v.staysOrdered_beginForRequest payload q _ _

/-- A part whose ports are all at their reset values has empty queues and no claims. -/
theorem State.staysOrdered_of_reset (s t : State) (h : ∀ p, t.port p = PortBlock.reset) : s.StaysOrdered t := by
  refine State.staysOrdered_of_ports fun p => ?_
  rw [h p]
  exact ⟨fun _ => JobQueue.ordered_nil rfl, List.nil_subset _⟩

theorem State.staysOrdered_powerOnValues (s : State) (pin : Bool) : s.StaysOrdered (s.powerOnValues pin) :=
  s.staysOrdered_of_reset _ State.reset_port

theorem staysOrdered_resetDevice (s t : State) (p : Port) (h : execResetDevice p s = .next t) : s.StaysOrdered t := by
  refine State.staysOrdered_process h fun payload v => ?_
  split
  · exact v.staysOrdered_refuse p payload _
  · split
    · exact v.staysOrdered_refuse p payload _
    · exact v.staysOrdered_of_reset v.deviceReset State.reset_port

/-! ### Canvases (R11 to R18, R34) -/

theorem staysOrdered_openCanvas (s t : State) (p : Port) (h : execOpenCanvas p s = .next t) : s.StaysOrdered t := by
  refine State.staysOrdered_process h fun payload v => ?_
  have htake (a : OpenAsk) (n f : Nat) : v.StaysOrdered (v.takeOpen p (reqId payload) a n f) := by
    refine (v.staysOrdered_setCanvas n (a.record p (reqId payload) f)).trans ?_
    refine State.StaysOrdered.trans ?_ (State.staysOrdered_sameView _ p _ rfl)
    exact State.staysOrdered_of_eq rfl
  split
  · exact v.staysOrdered_refuse p payload _
  · next a _ =>
    split
    · exact v.staysOrdered_refuse p payload _
    · split
      · exact v.staysOrdered_refuse p payload _
      · split
        · next n f _ _ => exact (htake a n f).trans (State.staysOrdered_defer _ p payload)
        · exact v.staysOrdered_refuse p payload _

theorem staysOrdered_query (s t : State) (p : Port) (h : execQuery p s = .next t) : s.StaysOrdered t := by
  refine State.staysOrdered_process h fun payload v => ?_
  split
  · exact v.staysOrdered_refuse p payload _
  · dsimp only
    split
    · exact v.staysOrdered_refuse p payload _
    · split
      · exact v.staysOrdered_reply p payload _ _
      · exact v.staysOrdered_refuse p payload _

theorem staysOrdered_list (s t : State) (p : Port) (h : execList p s = .next t) : s.StaysOrdered t := by
  refine State.staysOrdered_process h fun payload v => ?_
  split
  · exact v.staysOrdered_refuse p payload _
  · dsimp only
    split
    · exact v.staysOrdered_refuse p payload _
    · exact v.staysOrdered_reply p payload _ _

theorem State.staysOrdered_canvasLive (s : State) (n : Nat) : s.StaysOrdered (s.canvasLive n) := by
  unfold State.canvasLive
  split
  · exact .refl s
  · split
    · exact (s.staysOrdered_setCanvas n _).trans (State.onlyEnds_answerWaiters _ _ _).staysOrdered
    · exact .refl s

theorem State.staysOrdered_blockReport (s : State) : s.StaysOrdered s.blockReport := by
  have hpop : s.StaysOrdered { s with clear := s.clear.popHead } := State.staysOrdered_of_eq rfl
  unfold State.blockReport
  split
  · exact .refl s
  · split
    · exact hpop.trans (State.onlyEnds_release _ _).staysOrdered
    · dsimp only
      split
      · exact State.staysOrdered_of_eq rfl
      · exact hpop.trans (State.staysOrdered_canvasLive _ _)

theorem staysOrdered_blockCleared (s t : State) (h : execBlockCleared s = .next t) : s.StaysOrdered t := by
  unfold execBlockCleared at h
  split at h
  · split at h
    · cases h
      refine State.StaysOrdered.trans ?_ (State.staysOrdered_blockReport _)
      exact State.staysOrdered_of_eq rfl
    · cases h
  · cases h; exact .refl s

/-! ### Sharing (R39 to R54) -/

theorem staysOrdered_grant (s t : State) (p : Port) (h : execGrant p s = .next t) : s.StaysOrdered t := by
  refine State.staysOrdered_process h fun payload v => ?_
  split
  · exact v.staysOrdered_refuse p payload _
  · split
    · dsimp only
      split
      · exact v.staysOrdered_refuse p payload _
      · split
        · exact v.staysOrdered_refuse p payload _
        · split
          · exact v.staysOrdered_refuse p payload _
          · split
            · exact v.staysOrdered_refuse p payload _
            · split
              · exact v.staysOrdered_refuse p payload _
              · exact (v.staysOrdered_setCanvas _ _).trans (State.staysOrdered_reply _ _ _ _ _)
    · exact v.staysOrdered_refuse p payload _

theorem State.staysOrdered_beginRevoke (s : State) (payload : List Byte) (h : Handle) (c : Canvas) (t : Port) (pins : Nat)
    (mode : WaitMode) : s.StaysOrdered (s.beginRevoke payload h c t pins mode) := by
  unfold State.beginRevoke
  dsimp only
  split
  · exact ((s.staysOrdered_setCanvas _ _).trans (State.onlyEnds_endRevoke _ _ t).staysOrdered).trans
      (State.staysOrdered_reply _ _ _ _ _)
  · have hdefer := (s.staysOrdered_setCanvas (handleSlot h)
      (c.setRevoke t ⟨mode, [⟨c.owner, reqId payload⟩], false⟩)).trans (State.staysOrdered_defer _ c.owner payload)
    split
    · exact hdefer
    · exact hdefer.trans (State.staysOrdered_cutPort _ _ t)

theorem State.staysOrdered_joinRevoke (s : State) (payload : List Byte) (h : Handle) (c : Canvas) (t : Port) (r : RevokeOp)
    (mode : WaitMode) : s.StaysOrdered (s.joinRevoke payload h c t r mode) := by
  have hdefer (r' : RevokeOp) :
      s.StaysOrdered ((s.setCanvas (handleSlot h) (c.setRevoke t r')).defer c.owner payload) :=
    (s.staysOrdered_setCanvas _ _).trans (State.staysOrdered_defer _ _ _)
  unfold State.joinRevoke
  dsimp only
  split
  · exact (hdefer _).trans (State.staysOrdered_cutPort _ _ t)
  · exact hdefer _

theorem staysOrdered_revoke (s t : State) (p : Port) (h : execRevoke p s = .next t) : s.StaysOrdered t := by
  refine State.staysOrdered_process h fun payload v => ?_
  split
  · exact v.staysOrdered_refuse p payload _
  · split
    · dsimp only
      split
      · exact v.staysOrdered_refuse p payload _
      · split
        · exact v.staysOrdered_refuse p payload _
        · split
          · exact v.staysOrdered_refuse p payload _
          · split
            · exact v.staysOrdered_refuse p payload _
            · split
              · exact v.staysOrdered_refuse p payload _
              · split
                · exact v.staysOrdered_beginRevoke payload _ _ _ _ _
                · exact v.staysOrdered_joinRevoke payload _ _ _ _ _
    · exact v.staysOrdered_refuse p payload _

theorem State.staysOrdered_beginClose (s : State) (p : Port) (payload : List Byte) (h : Handle) (c : Canvas)
    (mode : WaitMode) (forced : Bool) : s.StaysOrdered (s.beginClose p payload h c mode forced) := by
  unfold State.beginClose
  dsimp only
  split
  · exact ((s.staysOrdered_setCanvas _ _).trans (State.onlyEnds_endClose _ _ _).staysOrdered).trans
      (State.staysOrdered_reply _ _ _ _ _)
  · have hdefer := (s.staysOrdered_setCanvas (handleSlot h)
      { c with phase := .closing ⟨mode, [⟨p, reqId payload⟩], forced, false⟩ }).trans (State.staysOrdered_defer _ p payload)
    split
    · exact hdefer
    · exact hdefer.trans (State.staysOrdered_cutCanvas _ _)

theorem State.staysOrdered_joinClose (s : State) (p : Port) (payload : List Byte) (h : Handle) (c : Canvas) (op : CloseOp)
    (mode : WaitMode) (forced : Bool) : s.StaysOrdered (s.joinClose p payload h c op mode forced) := by
  have hdefer (op' : CloseOp) :
      s.StaysOrdered ((s.setCanvas (handleSlot h) { c with phase := .closing op' }).defer p payload) :=
    (s.staysOrdered_setCanvas _ _).trans (State.staysOrdered_defer _ _ _)
  unfold State.joinClose
  dsimp only
  split
  · exact (hdefer _).trans (State.staysOrdered_cutCanvas _ _)
  · exact hdefer _

theorem staysOrdered_closeCanvas (s t : State) (p : Port) (h : execCloseCanvas p s = .next t) : s.StaysOrdered t := by
  refine State.staysOrdered_process h fun payload v => ?_
  split
  · exact v.staysOrdered_refuse p payload _
  · split
    · exact v.staysOrdered_refuse p payload _
    · dsimp only
      split
      · exact v.staysOrdered_refuse p payload _
      · split
        · exact v.staysOrdered_refuse p payload _
        · split
          · exact v.staysOrdered_refuse p payload _
          · split
            · exact v.staysOrdered_joinClose p payload _ _ _ _ _
            · exact v.staysOrdered_beginClose p payload _ _ _ _

theorem State.staysOrdered_modCanvas (s : State) (n : Nat) (f : Canvas → Canvas) : s.StaysOrdered (s.modCanvas n f) :=
  State.staysOrdered_of_eq (s.modCanvas_ports n f)

theorem staysOrdered_revokeDeadlineExpiry (s t : State) (slot : Nat) (p : Port)
    (h : execRevokeDeadlineExpiry slot p s = .next t) : s.StaysOrdered t := by
  refine State.staysOrdered_unlessHeld h ?_
  split
  · exact ((s.staysOrdered_elapse _).trans (State.staysOrdered_modCanvas _ slot _)).trans
      (State.staysOrdered_cutPort _ slot p)
  · exact .refl s

theorem staysOrdered_closeDeadlineExpiry (s t : State) (slot : Nat) (h : execCloseDeadlineExpiry slot s = .next t) :
    s.StaysOrdered t := by
  refine State.staysOrdered_unlessHeld h ?_
  split
  · split
    · exact ((s.staysOrdered_elapse _).trans (State.staysOrdered_modCanvas _ slot _)).trans
        (State.staysOrdered_cutCanvas _ slot)
    · exact .refl s
  · exact .refl s

theorem staysOrdered_revokeEnd (s t : State) (slot : Nat) (p : Port) (h : execRevokeEnd slot p s = .next t) :
    s.StaysOrdered t := by
  refine State.staysOrdered_unlessHeld h ?_
  split
  · exact .refl s
  · split
    · exact (s.onlyEnds_endRevoke slot p).staysOrdered
    · exact .refl s

theorem staysOrdered_closeEnd (s t : State) (slot : Nat) (h : execCloseEnd slot s = .next t) : s.StaysOrdered t := by
  refine State.staysOrdered_unlessHeld h ?_
  split
  · exact (s.onlyEnds_endClose slot _).staysOrdered
  · exact .refl s

/-! ### Queues and their heads (R66 to R87) -/

theorem staysOrdered_submit (s t : State) (p : Port) (h : execSubmit p s = .next t) : s.StaysOrdered t := by
  refine State.staysOrdered_process h fun payload v => ?_
  split
  · exact v.staysOrdered_reply p payload _ _
  · split
    · exact v.staysOrdered_reply p payload _ _
    · next jobs _ =>
      split
      · exact v.staysOrdered_reply p payload _ _
      · split
        · exact v.staysOrdered_reply p payload _ _
        · next hroom =>
          exact ((v.staysOrdered_admitJobs p jobs (Nat.not_lt.1 hroom)).trans
            (State.staysOrdered_sameView _ p _ (PortBlock.refreshStaging_jobView _))).trans (State.staysOrdered_reply _ _ _ _ _)

theorem staysOrdered_cancel (s t : State) (p : Port) (h : execCancel p s = .next t) : s.StaysOrdered t := by
  refine State.staysOrdered_process h fun payload v => ?_
  split
  · exact v.staysOrdered_refuse p payload _
  · dsimp only
    split
    · exact v.staysOrdered_refuse p payload _
    · refine State.StaysOrdered.trans ?_ (State.onlyEnds_settleAll _ p _).staysOrdered
      have hdrop (hs : List Handle) :=
        (v.staysOrdered_modPort p (fun b => b.cancelEntries (num16 payload 4))
          (PortBlock.staysOrdered_cancelEntries _ _)).trans (State.onlyEnds_dropPins _ p hs).staysOrdered
      split
      · exact ((hdrop _).trans (State.staysOrdered_sameView _ p _ (PortBlock.stopRequest_jobView _ _))).trans
          (State.staysOrdered_defer _ p payload)
      · exact (hdrop _).trans (State.staysOrdered_reply _ p payload _ _)

theorem staysOrdered_halt (s t : State) (p : Port) (h : execHalt p s = .next t) : s.StaysOrdered t := by
  refine State.staysOrdered_process h fun payload v => ?_
  split
  · exact v.staysOrdered_refuse p payload _
  · exact v.staysOrdered_modPort p _ (PortBlock.staysOrdered_takeHalt payload _)

theorem staysOrdered_resume (s t : State) (p : Port) (h : execResume p s = .next t) : s.StaysOrdered t := by
  refine State.staysOrdered_process h fun payload v => ?_
  split
  · exact v.staysOrdered_refuse p payload _
  · exact v.staysOrdered_sameView p _ (PortBlock.takeResume_jobView _ payload)

theorem staysOrdered_jobDispatch (s t : State) (p : Port) (h : execJobDispatch p s = .next t) : s.StaysOrdered t := by
  refine State.staysOrdered_unlessHeld h ?_
  split
  · exact .refl s
  · next e rest he =>
    split
    · exact s.staysOrdered_dispatch p e rest he
    · exact .refl s

theorem staysOrdered_waitTimerExpiry (s t : State) (p : Port) (h : execWaitTimerExpiry p s = .next t) :
    s.StaysOrdered t := by
  refine State.staysOrdered_unlessHeld h ?_
  split
  · split
    · exact (s.staysOrdered_elapse _).trans (State.staysOrdered_endFaulted _ p _ _)
    · exact .refl s
  · exact .refl s

theorem staysOrdered_jobEnd (s t : State) (p : Port) (h : execJobEnd p s = .next t) : s.StaysOrdered t := by
  refine State.staysOrdered_unlessHeld h ?_
  split
  · split
    · exact s.staysOrdered_endJob p _ _ _
    · exact .refl s
  · exact .refl s

/-! ### Reports (R136 to R145) and write data (R120) -/

theorem staysOrdered_status (s t : State) (p : Port) (h : execStatus p s = .next t) : s.StaysOrdered t := by
  refine State.staysOrdered_process h fun payload v => ?_
  split
  · exact v.staysOrdered_refuse p payload _
  · split
    · exact v.staysOrdered_refuse p payload _
    · split
      · exact v.staysOrdered_refuse p payload _
      · refine State.StaysOrdered.trans ?_ (State.staysOrdered_reply _ p payload _ _)
        split
        · exact v.staysOrdered_sameView p _ rfl
        · exact .refl v

theorem staysOrdered_faultRead (s t : State) (p : Port) (h : execFaultRead p s = .next t) : s.StaysOrdered t := by
  refine State.staysOrdered_process h fun payload v => ?_
  dsimp only
  split
  · exact v.staysOrdered_refuse p payload _
  · split
    · exact v.staysOrdered_reply p payload _ _
    · split
      · exact v.staysOrdered_refuse p payload _
      · split
        · exact v.staysOrdered_refuse p payload _
        · exact v.staysOrdered_reply p payload _ _

theorem staysOrdered_faultAck (s t : State) (p : Port) (h : execFaultAck p s = .next t) : s.StaysOrdered t := by
  refine State.staysOrdered_process h fun payload v => ?_
  split
  · exact v.staysOrdered_refuse p payload _
  · refine State.StaysOrdered.trans ?_ (State.staysOrdered_reply _ p payload _ _)
    exact State.staysOrdered_of_eq rfl

theorem staysOrdered_attnClear (s t : State) (p : Port) (h : execAttnClear p s = .next t) : s.StaysOrdered t := by
  refine State.staysOrdered_process h fun payload v => ?_
  split
  · exact v.staysOrdered_refuse p payload _
  · split
    · exact v.staysOrdered_refuse p payload _
    · exact (v.staysOrdered_sameView p _ rfl).trans (State.staysOrdered_reply _ p payload _ _)

theorem staysOrdered_datFrame (s t : State) (p : Port) (h : execDatFrame p s = .next t) : s.StaysOrdered t := by
  refine State.staysOrdered_process h fun payload v => ?_
  have hu := v.staysOrdered_sameView p (PortBlock.unpromise payload) (PortBlock.unpromise_jobView _ _)
  unfold State.takeData
  dsimp only
  split
  · exact hu.trans (State.staysOrdered_sameView _ p _ (PortBlock.appendData_jobView payload _ _))
  · exact hu.trans (State.staysOrdered_sameView _ p _ (PortBlock.rejectData_jobView _ payload))

/-! ### The engine and the store (R26, R103 to R126) -/

theorem State.staysOrdered_chooseSpan (s : State) : s.StaysOrdered s.chooseSpan := by
  unfold State.chooseSpan
  split
  · exact .refl s
  · refine State.StaysOrdered.trans ?_ (State.staysOrdered_sameView _ _ _ (PortBlock.reserveSpanSlot_jobView _))
    exact State.staysOrdered_of_eq rfl

theorem staysOrdered_spanBegin (s t : State) (h : execSpanBegin s = .next t) : s.StaysOrdered t := by
  refine State.staysOrdered_unlessHeld h ?_
  split
  · exact .refl s
  · exact s.staysOrdered_chooseSpan

theorem staysOrdered_storeAccessBegin (s t : State) (h : execStoreAccessBegin s = .next t) : s.StaysOrdered t := by
  refine State.staysOrdered_unlessHeld h ?_
  split
  · exact .refl s
  · split
    · exact .refl s
    · exact State.staysOrdered_of_eq rfl

/-- The end of a span changes the store, the engine and its port's block, not the entries or the claims. -/
theorem State.staysOrdered_spanEnd (s : State) (m : Store) (p : Port) (f : PortBlock → PortBlock)
    (hf : ∀ b : PortBlock, (f b).jobView = b.jobView) :
    s.StaysOrdered (State.modPort { s.endAccess with store := m } p f).chooseSpan := by
  refine State.StaysOrdered.trans ?_ (State.staysOrdered_chooseSpan _)
  refine State.StaysOrdered.trans ?_ (State.staysOrdered_sameView _ p f (hf _))
  exact State.staysOrdered_of_eq rfl

theorem staysOrdered_spanComplete (s t : State) (corrected : List Nat) (h : execSpanComplete corrected s = .next t) :
    s.StaysOrdered t := by
  unfold execSpanComplete at h
  split at h
  · split at h
    · cases h
    · split at h
      · cases h; exact .refl s
      · cases h
        exact s.staysOrdered_spanEnd _ _ _ fun _ => rfl
  · cases h; exact .refl s

theorem staysOrdered_spanUncorrectable (s t : State) (word : Nat) (h : execSpanUncorrectable word s = .next t) :
    s.StaysOrdered t := by
  unfold execSpanUncorrectable at h
  split at h
  · split at h
    · cases h
    · split at h
      · cases h
        exact s.staysOrdered_spanEnd _ _ _ fun _ => rfl
      · cases h; exact .refl s
  · cases h; exact .refl s

theorem State.staysOrdered_streamExpiry (s : State) (p : Port) (job : JobKind) (kind : FaultKind) :
    s.StaysOrdered (s.streamExpiry p job kind) := by
  unfold State.streamExpiry
  split
  · exact .refl s
  · split
    · exact (s.staysOrdered_elapse _).trans (State.staysOrdered_sameView _ p _ (PortBlock.timedOut_jobView _ _))
    · exact .refl s

/-! ### Every command, and the step -/

theorem staysOrdered_exec (c : Instr) (s t : State) (h : exec c s = .next t) : s.StaysOrdered t := by
  cases c with
  | powerOn => cases h; exact s.staysOrdered_powerOnValues _
  | resetPinAssert => cases h; exact s.staysOrdered_powerOnValues _
  | resetPinRelease =>
    cases h
    split
    · exact s.staysOrdered_powerOnValues _
    · exact .refl s
  | frameLengthError p bytes => exact staysOrdered_frameLengthError s t p bytes h
  | crcError p bytes => exact staysOrdered_crcError s t p bytes h
  | unknownClassFrame p bytes => exact staysOrdered_unknownClassFrame s t p bytes h
  | reqDatFrameReceived p bytes => exact staysOrdered_reqDatFrameReceived s t p bytes h
  | ackFrameReceived p bytes => exact staysOrdered_ackFrameReceived s t p bytes h
  | helloFrameReceived p bytes => exact staysOrdered_helloFrameReceived s t p bytes h
  | frameTransmit p => exact staysOrdered_frameTransmit s t p h
  | resendTimerExpiry p => exact staysOrdered_resendTimerExpiry s t p h
  | helloFresh p => exact staysOrdered_helloFresh s t p h
  | helloResume p => exact staysOrdered_helloResume s t p h
  | unknownKind p => exact staysOrdered_unknownKind s t p h
  | portSetEnable p => exact staysOrdered_portSetEnable s t p h
  | portSetDisable p => exact staysOrdered_portSetDisable s t p h
  | config p => exact staysOrdered_config s t p h
  | resetPort p => exact staysOrdered_resetPort s t p h
  | portResetComplete p => exact State.staysOrdered_unlessHeld h (s.staysOrdered_tryComplete p)
  | resetDevice p => exact staysOrdered_resetDevice s t p h
  | openCanvas p => exact staysOrdered_openCanvas s t p h
  | closeCanvas p => exact staysOrdered_closeCanvas s t p h
  | query p => exact staysOrdered_query s t p h
  | list p => exact staysOrdered_list s t p h
  | grant p => exact staysOrdered_grant s t p h
  | revoke p => exact staysOrdered_revoke s t p h
  | submit p => exact staysOrdered_submit s t p h
  | cancel p => exact staysOrdered_cancel s t p h
  | halt p => exact staysOrdered_halt s t p h
  | resume p => exact staysOrdered_resume s t p h
  | status p => exact staysOrdered_status s t p h
  | faultRead p => exact staysOrdered_faultRead s t p h
  | faultAck p => exact staysOrdered_faultAck s t p h
  | attnClear p => exact staysOrdered_attnClear s t p h
  | datFrame p => exact staysOrdered_datFrame s t p h
  | jobDispatch p => exact staysOrdered_jobDispatch s t p h
  | claimGrant p => exact State.staysOrdered_unlessHeld h (s.staysOrdered_tryGrant p)
  | waitTimerExpiry p => exact staysOrdered_waitTimerExpiry s t p h
  | spanBegin => exact staysOrdered_spanBegin s t h
  | storeAccessBegin => exact staysOrdered_storeAccessBegin s t h
  | spanComplete corrected => exact staysOrdered_spanComplete s t corrected h
  | spanUncorrectable word => exact staysOrdered_spanUncorrectable s t word h
  | dataTimeoutExpiry p => exact State.staysOrdered_unlessHeld h (s.staysOrdered_streamExpiry p _ _)
  | readStallExpiry p => exact State.staysOrdered_unlessHeld h (s.staysOrdered_streamExpiry p _ _)
  | jobEnd p => exact staysOrdered_jobEnd s t p h
  | attentionFramePlaced p =>
    exact State.staysOrdered_unlessHeld h (s.staysOrdered_sameView p _ (PortBlock.placeDueAtn_jobView _))
  | revokeDeadlineExpiry slot p => exact staysOrdered_revokeDeadlineExpiry s t slot p h
  | closeDeadlineExpiry slot => exact staysOrdered_closeDeadlineExpiry s t slot h
  | revokeEnd slot p => exact staysOrdered_revokeEnd s t slot p h
  | closeEnd slot => exact staysOrdered_closeEnd s t slot h
  | blockCleared => exact staysOrdered_blockCleared s t h

/-- Settles O55: every command, and the passing of time, keeps the queues ordered and the claims apart. -/
theorem queuesAndClaimsStayOrdered : Obligations.QueuesAndClaimsStayOrdered := by
  intro s t h
  change s.StaysOrdered t
  obtain ⟨_, rfl⟩ | ⟨c, rest, _, he⟩ := step_cases s t h
  · unfold State.idle
    split
    · exact .refl s
    · exact s.staysOrdered_elapse 1
  · have hrest : s.StaysOrdered { s with pending := rest } := State.staysOrdered_of_eq rfl
    exact hrest.trans (staysOrdered_exec c _ t he)

end Sys2Proof.Machine

/-! SUPPORT. The head of a queue from its dispatch to its end (R72 to R87): the six steps of R77, the report that ends a job, and
the expiry of its wait timer. -/

namespace Sys2Proof.Machine

/-! ### Notices and answers (R78, R85) -/

theorem noticePlaced_iff (notify : Bool) (status : JobStatus) : noticePlaced notify status = true ↔
    (status = .done ∧ notify = true) ∨ status = .faulted ∨ status = .gone := by
  cases status <;> simp [noticePlaced]

/-- The payload of the notice, field by field (10.7). -/
theorem noticePayload_eq (e : Entry) (status : JobStatus) (index : Option Nat) :
    noticePayload e status index = e.noticeBytes status.code (index.getD 0xFF) := by
  have htag : e.job.tag.toNat = match e.job with
      | .mark tag => tag.toNat
      | _ => 0 := by cases e.job <;> rfl
  rw [noticePayload, htag]
  rfl

/-- With a slot reserved for it the notice is placed there, or the slot is released (R78). -/
theorem PortBlock.placeNotice_of_reserved (b : PortBlock) (e : Entry) (status : JobStatus) (index : Option Nat)
    (h : 0 < b.link.reserved) : b.placeNotice e status index = { b with
      link := if (status = .done ∧ e.notify = true) ∨ status = .faulted ∨ status = .gone then
        b.link.placedReserved .ntc (e.noticeBytes status.code (index.getD 0xFF))
      else { b.link with reserved := b.link.reserved - 1 } } := by
  unfold PortBlock.placeNotice
  rw [Link.fill_of_reserved _ _ _ h, noticePayload_eq]
  simp only [noticePlaced_iff]
  split <;> rfl

/-- The contents of the reply to a CANCEL that waited: the ACTIVE job's outcome, then the entries it removed (R85). -/
theorem cancelContents_waiter (seq : Nat) (status : JobStatus) (removed : List Nat) :
    cancelContents ((seq, status) :: removed.map fun q => (q, .cancelled)) =
      [BitVec.ofNat 8 (removed.length + 1), 0] ++ enc16 seq ++ [BitVec.ofNat 8 status.code] ++
        removed.flatMap fun n => enc16 n ++ [0x03] := by
  simp only [cancelContents, List.length_cons, List.length_map, List.flatMap_cons, List.flatMap_map, ← List.append_assoc]
  rfl

theorem PortBlock.answers_queue (ws : List CancelWaiter) (contents : CancelWaiter → List Byte) (b : PortBlock) :
    (ws.foldl (fun b w => b.answer w.id (contents w)) b).queue = b.queue := by
  induction ws generalizing b with
  | nil => rfl
  | cons w t ih => exact (ih _).trans (b.answer_queue _ _)

theorem PortBlock.answerCancels_eq (b : PortBlock) (seq : Nat) (status : JobStatus) : b.answerCancels seq status =
    b.queue.cancelWaiters.foldl (fun (y : PortBlock) (w : CancelWaiter) => y.answer w.id
        ([BitVec.ofNat 8 (w.removed.length + 1), 0] ++ enc16 seq ++ [BitVec.ofNat 8 status.code] ++
          w.removed.flatMap fun n => enc16 n ++ [0x03]))
      { b with queue := { b.queue with cancelWaiters := [] } } := by
  simp only [PortBlock.answerCancels, cancelContents_waiter]

theorem PortBlock.answerCancels_run (b : PortBlock) (seq : Nat) (status : JobStatus) :
    (b.answerCancels seq status).queue.run = b.queue.run := by
  rw [PortBlock.answerCancels_eq, PortBlock.answers_queue]

/-- A queue that goes to HALTED answers its HALT waiters HALTED, then sets the flag (R80, R81, log 15). -/
theorem PortBlock.becomeHalted_eq (b : PortBlock) : b.becomeHalted =
    (({ b with queue := { b.queue with run := .halted, haltWaiters := [] } } : PortBlock).answerAll
      b.queue.haltWaiters [0x01, 0]).raise .halted := rfl

/-! ### Claims released (R92) -/

/-- A grant changes the head of a queue alone. -/
theorem State.tryGrant_queue (s : State) (p q : Port) : ((s.tryGrant p).port q).queue.run = (s.port q).queue.run ∧
    ((s.tryGrant p).port q).queue.entries.isEmpty = (s.port q).queue.entries.isEmpty := by
  obtain h | ⟨cs, e, rest, _, he, _, _, h⟩ := s.tryGrant_cases p <;> rw [h]
  · exact ⟨rfl, rfl⟩
  · rw [State.port_setPort]
    split
    · next hq => subst hq; exact ⟨rfl, by rw [he]; rfl⟩
    · exact ⟨rfl, rfl⟩

theorem State.releaseClaims_queue (s : State) (p q : Port) :
    ((s.releaseClaims p).port q).queue.run = (s.port q).queue.run ∧
      ((s.releaseClaims p).port q).queue.entries.isEmpty = (s.port q).queue.entries.isEmpty := by
  have hfold (ps : List Port) (t : State) : ((ps.foldl (fun s r => s.tryGrant r) t).port q).queue.run = (t.port q).queue.run ∧
      ((ps.foldl (fun s r => s.tryGrant r) t).port q).queue.entries.isEmpty = (t.port q).queue.entries.isEmpty := by
    induction ps generalizing t with
    | nil => exact ⟨rfl, rfl⟩
    | cons r rs ih => exact ⟨(ih _).1.trans (t.tryGrant_queue r q).1, (ih _).2.trans (t.tryGrant_queue r q).2⟩
  have hmod : ((s.modPort p fun b => { b with claims := [] }).port q).queue = (s.port q).queue := by
    rw [State.port_modPort]
    split <;> rfl
  obtain ⟨hrun, hempty⟩ := hfold p.roundAfter (s.modPort p fun b => { b with claims := [] })
  rw [hmod] at hrun hempty
  exact ⟨hrun, hempty⟩

/-! ### The end of a job (R77, R79, R87) -/

/-- The state after the first two steps of R77: the head has left, an ACTIVE job's claims are released. -/
def State.headLeft (s : State) (p : Port) (e : Entry) (later : List Entry) : State :=
  let u := s.setPort p { s.port p with
    record := none, request := none, queue := { (s.port p).queue with entries := later, report := none } }
  if e.isActive then u.releaseClaims p else u

theorem State.headLeft_run (s : State) (p : Port) (e : Entry) (later : List Entry) :
    ((s.headLeft p e later).port p).queue.run = (s.port p).queue.run := by
  unfold State.headLeft
  dsimp only
  split
  · rw [(State.releaseClaims_queue _ p p).1, State.port_setPort_same]
  · rw [State.port_setPort_same]

/-- Steps 4 to 6 of R77 at the port's block: the notice, the staging buffer, the answers, and the halt. -/
def PortBlock.jobEnded (b : PortBlock) (e : Entry) (status : JobStatus) (index : Option Nat) (halts : Bool) : PortBlock :=
  let d := (b.placeNotice e status index).refreshStaging.answerCancels e.seq status
  if d.queue.run = .halting ∨ halts = true ∧ d.queue.run = .run then d.becomeHalted else d

theorem State.endHead_eq (s : State) (p : Port) (e : Entry) (later : List Entry) (status : JobStatus) (index : Option Nat)
    (halts : Bool) (h : (s.port p).queue.entries = e :: later) : s.endHead p e status index halts =
      (((s.headLeft p e later).dropPins p e.pins).setPort p
        (((s.headLeft p e later).port p).jobEnded e status index halts)).settleAll p e.pins := by
  simp only [State.endHead, State.headLeft, PortBlock.jobEnded, State.modPort, State.dropPins_port, h, List.tail_cons,
    Bool.and_eq_true, decide_eq_true_eq, Bool.or_eq_true]

/-- Settles O44: the first two steps are `headLeft`, the block's part is `jobEnded`, read off function by function. -/
theorem headLeavesTheQueue : Obligations.HeadLeavesTheQueue := by
  intro s p e later status index halts he b u v d hr link noticed x told halted
  have hv : v = s.headLeft p e later := rfl
  have hnotice : d.placeNotice e status index = noticed := d.placeNotice_of_reserved e status index hr
  have htold : (d.placeNotice e status index).refreshStaging.answerCancels e.seq status = told := by
    have hwaiters : noticed.refreshStaging.queue.cancelWaiters = d.queue.cancelWaiters := by rw [PortBlock.refreshStaging_queue]
    rw [hnotice, PortBlock.answerCancels_eq, hwaiters]
  have hrun : told.queue.run = b.queue.run := by
    rw [← htold, PortBlock.answerCancels_run, PortBlock.refreshStaging_queue, PortBlock.placeNotice_queue]
    exact s.headLeft_run p e later
  have hended : d.jobEnded e status index halts =
      if b.queue.run = .halting ∨ halts = true ∧ b.queue.run = .run then halted else told := by
    simp only [PortBlock.jobEnded, htold, hrun, PortBlock.becomeHalted_eq]
    rfl
  rw [s.endHead_eq p e later status index halts he, ← hv, ← hended]

/-! ### JOB_END (R76, R86, R87) -/

theorem exec_jobEnd_of_report (s : State) (p : Port) (e : Entry) (later : List Entry) (causes : StopCauses) (rep : Report)
    (hp : s.resetPin = false) (he : (s.port p).queue.entries = e :: later) (hs : e.state = .active causes)
    (hr : (s.port p).queue.report = some rep) : exec (.jobEnd p) s = .next (s.endJob p e causes rep) := by
  change execJobEnd p s = _
  rw [execJobEnd, s.unlessHeld_of_running _ hp, hr, he]
  simp only [hs]

theorem State.endJob_of_status (s : State) (p : Port) (e : Entry) (causes : StopCauses) (rep : Report) (status : JobStatus)
    (hr : (s.port p).queue.run ≠ .resetting) (h : rep.ending causes = .inr status) :
    s.endJob p e causes rep = s.endHead p e status none false := by
  simp only [State.endJob, if_neg hr, h]

theorem State.endJob_of_fault (s : State) (p : Port) (e : Entry) (causes : StopCauses) (rep : Report) (d : FaultDetail)
    (hr : (s.port p).queue.run ≠ .resetting) (h : rep.ending causes = .inl d) :
    s.endJob p e causes rep = s.endFaulted p e d := by
  simp only [State.endJob, if_neg hr, h]

/-- A job that stopped before its end is GONE with a cut among its causes, else CANCELLED (R86). -/
theorem Report.ending_stopped (rep : Report) (causes : StopCauses)
    (h : rep = .stopped .noSpan ∨ rep = .stopped .notLast) :
    rep.ending causes = .inr (if causes.cut then .gone else .cancelled) := by
  obtain rfl | rfl := h
  all_goals
    simp only [Report.ending]
    split <;> rfl

theorem State.endForReset_eq (s : State) (p : Port) (e : Entry) (later : List Entry)
    (h : (s.port p).queue.entries = e :: later) :
    let u := s.setPort p { s.port p with
      record := none, queue := { (s.port p).queue with entries := later, report := none } }
    let v := u.releaseClaims p
    s.endForReset p e =
      ((v.dropPins p e.pins).setPort p (v.port p).refreshStaging.reportStopped).settleAll p e.pins := by
  intro u v
  simp only [u, v, State.endForReset, State.modPort, State.dropPins_port, h, List.tail_cons]

/-! ### WAIT_TIMER_EXPIRY (R75, R94) -/

/-- The test of one requested claim against the claims present (R91). -/
theorem State.any_conflicts_iff (s : State) (p : Port) (a : Claim) :
    ((s.othersClaims p).any fun d => a.conflicts d) = true ↔ s.Conflicting p a := by
  simp only [List.any_eq_true, State.mem_othersClaims, State.Conflicting]
  constructor
  · rintro ⟨d, ⟨q, hq, hd⟩, hc⟩
    exact ⟨q, hq, d, hd, hc⟩
  · rintro ⟨q, hq, d, hd, hc⟩
    exact ⟨d, ⟨q, hq, hd⟩, hc⟩

theorem State.firstConflict_eq_none_iff (s : State) (p : Port) (cs : List Claim) :
    s.firstConflict p cs = none ↔ ∀ a ∈ cs, ¬ s.Conflicting p a := by
  simp only [State.firstConflict, List.find?_eq_none, State.any_conflicts_iff]

theorem State.firstConflict_append (s : State) (p : Port) (before : List Claim) (a : Claim) (after : List Claim)
    (hb : ∀ x ∈ before, ¬ s.Conflicting p x) (ha : s.Conflicting p a) :
    s.firstConflict p (before ++ a :: after) = some a := by
  have hnone := (s.firstConflict_eq_none_iff p before).2 hb
  rw [State.firstConflict] at hnone ⊢
  rw [List.find?_append, hnone, Option.none_or]
  exact List.find?_cons_of_pos ((s.any_conflicts_iff p a).2 ha)

theorem exec_waitTimerExpiry_of_waiting (s : State) (p : Port) (e : Entry) (later : List Entry) (cs : List Claim) (left : Nat)
    (hp : s.resetPin = false) (he : (s.port p).queue.entries = e :: later) (hs : e.state = .waiting left)
    (hr : (s.port p).request = some cs) : exec (.waitTimerExpiry p) s = .next (match s.firstConflict p cs with
      | some c => (s.elapse left).endFaulted p e (s.waitFault c)
      | none => s) := by
  change execWaitTimerExpiry p s = _
  rw [execWaitTimerExpiry, s.unlessHeld_of_running _ hp, hr, he]
  simp only [hs]
  split <;> split <;> simp_all

/-- Settles O46: the report decides between a status and a fault, and a queue in RESETTING ends its job without either. -/
theorem jobsEndAsReported : Obligations.JobsEndAsReported := by
  refine ⟨?_, ?_⟩
  · intro s p e later causes rep hp he hs hr b ends
    have hexec := exec_jobEnd_of_report s p e later causes rep hp he hs hr
    refine ⟨fun hrun => ⟨fun h => ?_, fun h => ?_, fun d h => ?_⟩, fun hrun => ?_⟩
    · refine hexec.trans (congrArg _ (s.endJob_of_status p e causes rep .done hrun ?_))
      obtain rfl | rfl := h <;> rfl
    · exact hexec.trans (congrArg _ (s.endJob_of_status p e causes rep _ hrun (Report.ending_stopped rep causes h)))
    · refine hexec.trans (congrArg _ (s.endJob_of_fault p e causes rep d hrun ?_))
      obtain rfl | rfl | rfl := h <;> rfl
    · intro u v x
      have hlater : x.queue.entries.isEmpty = later.isEmpty := by
        rw [PortBlock.refreshStaging_queue, (State.releaseClaims_queue _ p p).2, State.port_setPort_same]
      rw [hexec, State.endJob, if_pos hrun, s.endForReset_eq p e later he]
      refine congrArg (fun d => Host.Outcome.next (((v.dropPins p e.pins).setPort p d).settleAll p e.pins)) ?_
      rw [← hlater]
      rfl
  · intro s p e later cs left hp he hs hr
    have hexec := exec_waitTimerExpiry_of_waiting s p e later cs left hp he hs hr
    refine ⟨fun h => ?_, ?_⟩
    · rw [hexec, (s.firstConflict_eq_none_iff p cs).2 h]
    · intro before a after hcs hb ha handle l
      have hconfig : ((s.elapse left).port p).config = (s.port p).config := by rw [State.elapse_port]; rfl
      rw [hexec, hcs, s.firstConflict_append p before a after hb ha]
      simp only [State.endFaulted, hconfig]
      rfl

end Sys2Proof.Machine

/-! SUPPORT. JOB_DISPATCH (R72 to R74, R89): when a head may be dispatched, what it waits for, and the end of a MARK and of a cut
entry. -/

namespace Sys2Proof.Machine

/-- A head may be dispatched: its queue is in RUN and a slot is neither used nor reserved (R72). -/
def PortBlock.MayDispatch (b : PortBlock) : Prop := b.queue.run = .run ∧ b.link.used.length + b.link.reserved < 8

theorem exec_jobDispatch_of_head (s : State) (p : Port) (e : Entry) (later : List Entry) (hp : s.resetPin = false)
    (he : (s.port p).queue.entries = e :: later) : exec (.jobDispatch p) s =
      .next (if (s.port p).queue.run = .run && (s.port p).link.freeSlots != 0 then s.dispatch p e else s) := by
  change execJobDispatch p s = _
  rw [execJobDispatch, s.unlessHeld_of_running _ hp, he]

theorem PortBlock.mayDispatch_iff (b : PortBlock) :
    (decide (b.queue.run = .run) && b.link.freeSlots != 0) = true ↔ b.MayDispatch := by
  rw [Bool.and_eq_true, decide_eq_true_eq, bne_iff_ne, Ne, Link.freeSlots_eq_zero, Nat.not_le]
  rfl

theorem exec_jobDispatch_of_may (s : State) (p : Port) (e : Entry) (later : List Entry) (hp : s.resetPin = false)
    (he : (s.port p).queue.entries = e :: later) (hm : (s.port p).MayDispatch) :
    exec (.jobDispatch p) s = .next (s.dispatch p e) := by
  rw [exec_jobDispatch_of_head s p e later hp he, if_pos ((s.port p).mayDispatch_iff.2 hm)]

theorem State.dispatch_of_not_queued (s : State) (p : Port) (e : Entry) (h : e.isQueued = false) : s.dispatch p e = s := by
  unfold State.dispatch
  unfold Entry.isQueued at h
  split
  · next hs => simp [hs] at h
  · next hs => simp [hs] at h
  · rfl

/-- With no CANCEL waiting and the queue in RUN, the end of a job that halts nothing is its notice and the staging buffer's. -/
theorem PortBlock.jobEnded_of_run (b : PortBlock) (e : Entry) (status : JobStatus) (index : Option Nat)
    (hc : b.queue.cancelWaiters = []) (hr : b.queue.run = .run) :
    b.jobEnded e status index false = (b.placeNotice e status index).refreshStaging := by
  have hq : (b.placeNotice e status index).refreshStaging.queue = b.queue := by simp
  have hanswer : (b.placeNotice e status index).refreshStaging.answerCancels e.seq status =
      (b.placeNotice e status index).refreshStaging := by
    rw [PortBlock.answerCancels_eq, hq, hc, List.foldl_nil, ← hc, ← hq]
  simp only [PortBlock.jobEnded, hanswer, hq, hr]
  rfl

/-- A notice placed in the slot that its dispatch has just reserved, or that slot released again (R73, R74, R78). -/
theorem PortBlock.placeNotice_of_reserve (b : PortBlock) (e : Entry) (status : JobStatus)
    (h : b.link.used.length + b.link.reserved < 8) :
    ({ b with link := b.link.reserve } : PortBlock).placeNotice e status none = { b with
      link := if noticePlaced e.notify status then b.link.placed .ntc (e.noticeBytes status.code 0xFF) else b.link } := by
  unfold PortBlock.placeNotice
  split
  · rw [Link.fill_reserve_of_free _ _ _ h, noticePayload_eq]
    rfl
  · rw [Link.release_reserve_of_free _ h]

/-- The end, at its dispatch, of a head that has no pins and waits for nothing (R73, R74). -/
theorem State.endHead_of_dispatch (s : State) (p : Port) (e : Entry) (later : List Entry) (status : JobStatus)
    (he : (s.port p).queue.entries = e :: later) (hm : (s.port p).MayDispatch) (hq : e.isQueued = true)
    (hrecord : (s.port p).record = none) (hrequest : (s.port p).request = none)
    (hreport : (s.port p).queue.report = none) (hcancel : (s.port p).queue.cancelWaiters = []) (hpins : e.pins = []) :
    (s.modPort p fun b => { b with link := b.link.reserve }).endHead p e status none false =
      s.setPort p (({ s.port p with
        link := if noticePlaced e.notify status then (s.port p).link.placed .ntc (e.noticeBytes status.code 0xFF)
          else (s.port p).link
        queue := { (s.port p).queue with entries := later } } : PortBlock).refreshStaging) := by
  obtain ⟨hrun, hfree⟩ := hm
  have hactive : e.isActive = false := by
    unfold Entry.isQueued at hq
    unfold Entry.isActive
    split at hq
    · next hs => rw [hs]
    · cases hq
  have hleft : State.headLeft (s.modPort p fun b => { b with link := b.link.reserve }) p e later =
      s.setPort p { s.port p with link := (s.port p).link.reserve, queue := { (s.port p).queue with entries := later } } := by
    simp [State.headLeft, hactive, State.modPort, hrecord, hrequest, hreport]
  have hended := PortBlock.jobEnded_of_run
    { s.port p with link := (s.port p).link.reserve, queue := { (s.port p).queue with entries := later } }
    e status none hcancel hrun
  rw [State.endHead_eq _ p e later status none false (by rw [State.port_modPort_same]; exact he), hleft,
    State.port_setPort_same, hended, hpins]
  exact (State.setPort_setPort s p _ _).trans (congrArg (fun b => s.setPort p (PortBlock.refreshStaging b))
    (PortBlock.placeNotice_of_reserve { s.port p with queue := { (s.port p).queue with entries := later } } e status hfree))

/-- Settles O40: by the state of the head, a MARK apart from the other kinds. -/
theorem headIsDispatched : Obligations.HeadIsDispatched := by
  intro s p e later hp he b may claims
  have hclaims : claims = e.job.claims := by
    dsimp only [claims]
    cases e.job <;> rfl
  refine ⟨fun h => ?_, fun hm hs hk => ?_, fun hm hrecord hrequest hreport hcancel hpins => ⟨fun hs hk => ?_, fun hs => ?_⟩⟩
  · rw [exec_jobDispatch_of_head s p e later hp he]
    split
    · next hm =>
      obtain h | h := h
      · exact absurd (b.mayDispatch_iff.1 hm) h
      · rw [s.dispatch_of_not_queued p e h]
    · rfl
  · rw [exec_jobDispatch_of_may s p e later hp he hm, State.dispatch, hs]
    simp only [if_neg hk, State.modPort, PortBlock.startWaiting, Link.reserve_of_free (s.port p).link hm.2, he, List.tail_cons, hclaims]
    rfl
  · have hq : e.isQueued = true := by rw [Entry.isQueued, hs]
    rw [exec_jobDispatch_of_may s p e later hp he hm, State.dispatch, hs]
    simp only [if_pos hk]
    exact congrArg _ (s.endHead_of_dispatch p e later .done he hm hq hrecord hrequest hreport hcancel hpins)
  · have hq : e.isQueued = true := by rw [Entry.isQueued, hs]
    rw [exec_jobDispatch_of_may s p e later hp he hm, State.dispatch, hs]
    exact congrArg _ (s.endHead_of_dispatch p e later .gone he hm hq hrecord hrequest hreport hcancel hpins)

end Sys2Proof.Machine

/-! SUPPORT. HALT and RESUME in each run state (R80, R82), and CANCEL (R84, R85, R112). -/

namespace Sys2Proof.Machine

/-! ### Heads and ACTIVE entries (R71) -/

theorem JobQueue.active_isSome_iff (q : JobQueue) : q.active.isSome = true ↔ ∃ e ∈ q.entries, e.isActive = true := by
  rw [JobQueue.active, Option.isSome_map, List.find?_isSome]

theorem Entry.isActive_of_isQueued {e : Entry} (h : e.isQueued = true) : e.isActive = false := by
  unfold Entry.isQueued at h
  unfold Entry.isActive
  split at h
  · next hs => rw [hs]
  · cases h

theorem Entry.isWaiting_of_isQueued {e : Entry} (h : e.isQueued = true) : e.isWaiting = false := by
  unfold Entry.isQueued at h
  unfold Entry.isWaiting
  split at h
  · next hs => rw [hs]
  · cases h

theorem JobQueue.active_eq_false {q : JobQueue} (h : ∀ e ∈ q.entries, e.isActive = false) : q.active.isSome = false := by
  rw [Bool.eq_false_iff, Ne, JobQueue.active_isSome_iff]
  rintro ⟨e, he, ha⟩
  rw [h e he] at ha
  cases ha

theorem PortBlock.unwait_of_waiting (b : PortBlock) (e : Entry) (later : List Entry) (h : b.queue.entries = e :: later)
    (hw : e.isWaiting = true) : b.unwait = { b with
      request := none
      link := { b.link with reserved := b.link.reserved - 1 }
      queue := { b.queue with entries := { e with state := .queued false } :: later } } := by
  simp only [PortBlock.unwait, h, hw]
  rfl

theorem PortBlock.unwait_of_not_waiting (b : PortBlock) (h : ∀ e ∈ b.queue.entries, e.isWaiting = false) :
    b.unwait = b := by
  unfold PortBlock.unwait
  split
  · next e rest hq => rw [h e (hq ▸ List.mem_cons_self ..)]; rfl
  · rfl

/-! ### HALT and RESUME (R80, R82) -/

theorem exec_halt_of_oldest (s : State) (p : Port) (payload : List Byte) (rest : List InFrame)
    (h : s.Oldest p .req payload rest) (hk : IsRequest payload 0x22) (hl : payload.length = 4) :
    exec (.halt p) s = .next (s.setPort p (((s.port p).took rest).takeHalt payload)) := by
  change execHalt p s = _
  rw [execHalt, s.process_of_oldest p .req payload rest _ _ h (InFrame.row_request payload .halt hk nofun nofun), hl]
  simp [ReqKind.lengthOk, State.modPort]

theorem exec_resume_of_oldest (s : State) (p : Port) (payload : List Byte) (rest : List InFrame)
    (h : s.Oldest p .req payload rest) (hk : IsRequest payload 0x23) (hl : payload.length = 4) :
    exec (.resume p) s = .next (s.setPort p (((s.port p).took rest).takeResume payload)) := by
  change execResume p s = _
  rw [execResume, s.process_of_oldest p .req payload rest _ _ h (InFrame.row_request payload .resume hk nofun nofun), hl]
  simp [ReqKind.lengthOk, State.modPort]

/-- The block of a port whose queue goes to HALTED at once: the HALT is answered, then the flag is set (R80, log 15). -/
def PortBlock.haltedAtOnce (b : PortBlock) (payload : List Byte) : PortBlock :=
  (({ b with queue := { b.queue with run := .halted } } : PortBlock).answered payload 0x00 [0x01, 0]).raise .halted

theorem PortBlock.takeHalt_of_active (b : PortBlock) (payload : List Byte)
    (h : b.queue.run = .halting ∨ b.queue.run = .run ∧ ∃ e ∈ b.queue.entries, e.isActive = true) :
    b.takeHalt payload = ({ b with queue := { b.queue with
      run := .halting, haltWaiters := b.queue.haltWaiters ++ [reqId payload] } } : PortBlock).putOff payload := by
  obtain hr | ⟨hr, ha⟩ := h
  · simp only [PortBlock.takeHalt, hr]
    rfl
  · simp only [PortBlock.takeHalt, hr, b.queue.active_isSome_iff.2 ha]
    rfl

theorem PortBlock.takeHalt_of_run (b d : PortBlock) (payload : List Byte) (hr : b.queue.run = .run)
    (ha : ∀ e ∈ b.queue.entries, e.isActive = false) (hd : b.unwait = d) (hs : 0 < d.link.reserved) :
    b.takeHalt payload = d.haltedAtOnce payload := by
  have hreply := PortBlock.reply_eq_answered { d with queue := { d.queue with run := .halted } } payload .ok [0x01, 0] hs
  simp only [PortBlock.takeHalt, hr, JobQueue.active_eq_false ha, hd]
  exact congrArg (PortBlock.raise · .halted) hreply

theorem PortBlock.takeHalt_of_halted (b : PortBlock) (payload : List Byte) (hr : b.queue.run = .halted)
    (hs : 0 < b.link.reserved) : b.takeHalt payload = b.answered payload 0x00 [0x01, 0] := by
  simp only [PortBlock.takeHalt, hr]
  exact b.reply_eq_answered payload .ok [0x01, 0] hs

theorem PortBlock.takeResume_of_idle (b : PortBlock) (payload : List Byte)
    (hr : b.queue.run = .halted ∨ b.queue.run = .run) (hs : 0 < b.link.reserved) : b.takeResume payload =
      ({ b with queue := { b.queue with run := .run } } : PortBlock).answered payload 0x00 [] := by
  refine Eq.trans ?_ (PortBlock.reply_eq_answered { b with queue := { b.queue with run := .run } } payload .ok [] hs)
  obtain hr | hr := hr
  · simp only [PortBlock.takeResume, hr]
  · simp only [PortBlock.takeResume, hr]
    rw [← hr]

theorem PortBlock.takeResume_of_halting (b : PortBlock) (payload : List Byte) (hr : b.queue.run = .halting)
    (hs : 0 < (({ b with queue := { b.queue with run := .run, haltWaiters := [] } } : PortBlock).answerAll
      b.queue.haltWaiters [0x02, 0]).link.reserved) : b.takeResume payload =
      (({ b with queue := { b.queue with run := .run, haltWaiters := [] } } : PortBlock).answerAll
        b.queue.haltWaiters [0x02, 0]).answered payload 0x00 [] := by
  refine Eq.trans ?_ (PortBlock.reply_eq_answered _ payload .ok [] hs)
  simp only [PortBlock.takeResume, hr]
  rfl

/-- Settles O33: by the run state, and for a HALT in RUN by the state of the head. -/
theorem haltAndResumeInEachRunState : Obligations.HaltAndResumeInEachRunState := by
  intro s p payload rest h hl hres b q leaves
  have hleaves (c : Instr) (d d' : PortBlock) (hc : exec c s = .next (s.setPort p d)) (hd : d = d') : leaves c d' :=
    hd ▸ hc
  refine ⟨fun hk => ?_, fun hk => ?_⟩
  · have hexec := exec_halt_of_oldest s p payload rest h hk hl
    refine ⟨fun hr ha => ?_, fun hr hq => ?_, fun e later n hr he hs hq h2 => ?_, fun hr => ?_, fun hr => ?_⟩
    · exact hleaves _ _ _ hexec (b.takeHalt_of_active payload (.inr ⟨hr, ha⟩))
    · exact hleaves _ _ _ hexec (b.takeHalt_of_run b payload hr (fun e he => Entry.isActive_of_isQueued (hq e he))
        (b.unwait_of_not_waiting fun e he => Entry.isWaiting_of_isQueued (hq e he)) hres)
    · have hw : e.isWaiting = true := by rw [Entry.isWaiting, hs]
      have hactive (x : Entry) (hx : x ∈ b.queue.entries) : x.isActive = false := by
        rw [show b.queue.entries = e :: later from he] at hx
        obtain rfl | hx := List.mem_cons.1 hx
        · rw [Entry.isActive, hs]
        · exact Entry.isActive_of_isQueued (hq x hx)
      exact hleaves _ _ _ hexec (b.takeHalt_of_run _ payload hr hactive (b.unwait_of_waiting e later he hw)
        (Nat.sub_pos_of_lt h2))
    · exact hleaves _ _ _ hexec (b.takeHalt_of_active payload (.inl hr))
    · exact hleaves _ _ _ hexec (b.takeHalt_of_halted payload hr hres)
  · have hexec := exec_resume_of_oldest s p payload rest h hk hl
    exact ⟨fun hr => hleaves _ _ _ hexec (b.takeResume_of_idle payload hr hres),
      fun hr hs => hleaves _ _ _ hexec (b.takeResume_of_halting payload hr hs)⟩

end Sys2Proof.Machine

/-! SUPPORT. CANCEL (R84, R85, R112): the entries it names, those it removes, and the stop request for a named ACTIVE job. -/

namespace Sys2Proof.Machine

/-! ### The entries named and removed (R84, R85) -/

/-- The ACTIVE job has reached its end when its last span has ended without error (R85). -/
theorem Report.any_reachedEnd_iff (r : Option Report) :
    r.any Report.reachedEnd = true ↔ r = some .finished ∨ r = some (.stopped .last) := by
  cases r with
  | none => simp
  | some rep =>
    cases rep with
    | finished => simp [Report.reachedEnd]
    | uncorrectable d => simp [Report.reachedEnd]
    | timedOut d => simp [Report.reachedEnd]
    | stopped how => cases how <;> simp [Report.reachedEnd]

theorem JobQueue.cancelNames_eq (q : JobQueue) (target : Nat) (e : Entry) : q.cancelNames target e =
    decide ((target = 0 ∨ e.seq = target) ∧
      ¬ (e.isActive = true ∧ (q.report = some .finished ∨ q.report = some (.stopped .last)))) := by
  rw [JobQueue.cancelNames, Bool.eq_iff_iff, decide_eq_true_eq, ← Report.any_reachedEnd_iff]
  simp only [Bool.and_eq_true, Bool.or_eq_true, beq_iff_eq, Bool.not_eq_true', Bool.and_eq_false_iff, not_and_or,
    Bool.not_eq_true]

/-- The entries that a CANCEL removes: those it names that are not ACTIVE (R84). -/
def JobQueue.cancelled (q : JobQueue) (target : Nat) : List Entry :=
  q.entries.filter fun e => q.cancelNames target e && !e.isActive

theorem JobQueue.filter_cancelNames (q : JobQueue) (target : Nat) :
    ((q.entries.filter (q.cancelNames target)).filter fun e => !e.isActive) = q.cancelled target := by
  rw [List.filter_filter, JobQueue.cancelled]
  exact List.filter_congr fun e _ => Bool.and_comm _ _

theorem Entry.not_isActive_of_isWaiting {e : Entry} (h : e.isWaiting = true) : e.isActive = false := by
  obtain ⟨left, hs⟩ := e.isWaiting_iff.1 h
  rw [Entry.isActive, hs]

/-- A WAITING entry is named exactly when one is removed (R84). -/
theorem JobQueue.any_cancelled_isWaiting (q : JobQueue) (target : Nat) : (q.cancelled target).any Entry.isWaiting =
    q.entries.any fun e => q.cancelNames target e && e.isWaiting := by
  rw [JobQueue.cancelled, List.any_filter]
  refine congrArg (List.any q.entries) (funext fun e => ?_)
  cases hw : e.isWaiting with
  | false => rw [Bool.and_false, Bool.and_false]
  | true => rw [Entry.not_isActive_of_isWaiting hw, Bool.not_false, Bool.and_true]

/-- The entries that a CANCEL leaves: a named ACTIVE one has the cancel cause (R85). -/
theorem JobQueue.cancel_kept (q : JobQueue) (target : Nat) :
    ((q.entries.filter fun e => !q.cancelNames target e || e.isActive).map fun e =>
        if q.cancelNames target e then e.cancelCause else e) =
      (q.entries.filter fun e => !(q.cancelNames target e && !e.isActive)).map fun e : Entry =>
        match e.state with
        | .active c => if q.cancelNames target e then { e with state := .active { c with cancel := true } } else e
        | _ => e := by
  have hfilter : (fun e : Entry => !q.cancelNames target e || e.isActive) =
      fun e => !(q.cancelNames target e && !e.isActive) := by
    funext e
    rw [Bool.not_and, Bool.not_not]
  rw [hfilter]
  refine List.map_congr_left fun e _ => ?_
  unfold Entry.cancelCause
  split <;> split <;> simp_all

/-- The block that a CANCEL leaves once the entries it removes are gone, but for the staging buffer (R84). -/
theorem PortBlock.cancelEntries_eq (b : PortBlock) (target : Nat) : b.cancelEntries target =
    ({ b with
      request := if (b.queue.cancelled target).any Entry.isWaiting then none else b.request
      link := { b.link with
        reserved := if (b.queue.cancelled target).any Entry.isWaiting then b.link.reserved - 1 else b.link.reserved }
      queue := { b.queue with entries :=
        (b.queue.entries.filter fun e => !b.queue.cancelNames target e || e.isActive).map fun e =>
          if b.queue.cancelNames target e then e.cancelCause else e } } : PortBlock).refreshStaging := by
  rw [JobQueue.any_cancelled_isWaiting, PortBlock.cancelEntries]
  refine congrArg PortBlock.refreshStaging ?_
  split <;> rfl

theorem PortBlock.cancelEntries_record (b : PortBlock) (target : Nat) : (b.cancelEntries target).record = b.record := by
  rw [PortBlock.cancelEntries_eq, PortBlock.refreshStaging_eq]

/-- The contents of the answer to a CANCEL that waits for no job (R84, 10.5). -/
theorem cancelContents_removed (es : List Entry) :
    cancelContents ((es.map Entry.seq).map fun n => (n, .cancelled)) =
      [BitVec.ofNat 8 es.length, 0] ++ es.flatMap fun e => enc16 e.seq ++ [0x03] := by
  simp only [cancelContents, List.length_map, List.flatMap_map]
  rfl

/-! ### The stop request (R112) -/

theorem PortBlock.stopRequest_of_none (b : PortBlock) (busy : Bool) (h : b.record = none) : b.stopRequest busy = b := by
  rw [PortBlock.stopRequest, h]

theorem PortBlock.stopRequest_of_busy (b : PortBlock) (r : EngineRecord) (h : b.record = some r) :
    b.stopRequest true = { b with record := some { r with stopMark := true } } := by
  rw [PortBlock.stopRequest, h]
  rfl

theorem PortBlock.stopRequest_of_idle (b : PortBlock) (r : EngineRecord) (h : b.record = some r) :
    b.stopRequest false = { b with record := none, queue := { b.queue with report := some (.stopped .noSpan) } } := by
  rw [PortBlock.stopRequest, h]
  rfl

theorem State.spanBusy_eq_false (s : State) (p : Port) (h : ∀ x, s.engine.span = some x → x.port ≠ p) :
    s.spanBusy p = false :=
  Bool.eq_false_iff.2 fun hb => ((s.spanBusy_iff p).1 hb).elim fun x ⟨hx, hxp⟩ => h x hx hxp

/-! ### The command -/

/-- Pins are dropped in the canvas table, whatever the block of a port (R9). -/
theorem State.dropPins_setPort (s : State) (p q : Port) (b : PortBlock) (hs : List Handle) :
    (s.setPort q b).dropPins p hs = (s.dropPins p hs).setPort q b := by
  have hmod (t : State) (n : Nat) (f : Canvas → Canvas) : (t.setPort q b).modCanvas n f = (t.modCanvas n f).setPort q b := by
    rw [State.modCanvas, State.modCanvas, State.setPort_canvas]
    split
    · rfl
    · cases n <;> rfl
  induction hs generalizing s with
  | nil => rfl
  | cons h t ih =>
    rw [State.dropPins, State.dropPins, List.foldl_cons, List.foldl_cons, hmod]
    exact ih _

/-- A CANCEL that names no entry is refused NO-JOB (R84). -/
theorem exec_cancel_of_noJob (s : State) (p : Port) (payload : List Byte) (rest : List InFrame)
    (h : s.Oldest p .req payload rest) (hk : IsRequest payload 0x21) (hl : payload.length = 6)
    (hr : 0 < (s.port p).link.reserved) (ht : num16 payload 4 ≠ 0)
    (hn : ∀ e ∈ (s.port p).queue.entries, (s.port p).queue.cancelNames (num16 payload 4) e = false) :
    exec (.cancel p) s = .next (s.setPort p (((s.port p).took rest).answered payload 0x0E [])) := by
  have hnamed : (s.port p).queue.entries.filter ((s.port p).queue.cancelNames (num16 payload 4)) = [] :=
    List.filter_eq_nil_iff.2 fun e he => by rw [hn e he]; nofun
  have hrefuse := (s.setPort p ((s.port p).took rest)).refuse_eq_answered p payload .noJob
    (by rw [State.port_setPort_same]; exact hr)
  rw [State.port_setPort_same, State.setPort_setPort] at hrefuse
  have hq : ((s.port p).took rest).queue = (s.port p).queue := rfl
  change execCancel p s = _
  rw [execCancel, s.process_of_oldest p .req payload rest _ _ h (InFrame.row_request payload .cancel hk nofun nofun), hl]
  simp only [State.port_setPort_same]
  rw [if_neg (by decide), hq, hnamed, if_pos (by simp [ht])]
  exact congrArg _ hrefuse

/-- The block that a CANCEL which names entries leaves: it is answered at once, or waits for the ACTIVE job (R84, R85). -/
def PortBlock.cancelTaken (b : PortBlock) (payload : List Byte) (busy : Bool) : PortBlock :=
  let target := num16 payload 4
  let removed := b.queue.cancelled target
  let x := b.cancelEntries target
  if b.queue.entries.any fun e => b.queue.cancelNames target e && e.isActive then
    ((x.addCancelWaiter ⟨reqId payload, removed.map Entry.seq⟩).stopRequest busy).putOff payload
  else x.reply (byteAt payload 0) .ok (reqId payload) (cancelContents ((removed.map Entry.seq).map fun n => (n, .cancelled)))

theorem exec_cancel_of_named (s : State) (p : Port) (payload : List Byte) (rest : List InFrame)
    (h : s.Oldest p .req payload rest) (hk : IsRequest payload 0x21) (hl : payload.length = 6)
    (hn : num16 payload 4 = 0 ∨
      ∃ e ∈ (s.port p).queue.entries, (s.port p).queue.cancelNames (num16 payload 4) e = true) :
    let pins := ((s.port p).queue.cancelled (num16 payload 4)).flatMap Entry.pins
    exec (.cancel p) s = .next (((s.dropPins p pins).setPort p
      (((s.port p).took rest).cancelTaken payload (s.spanBusy p))).settleAll p pins) := by
  intro pins
  have hnot : ¬ (num16 payload 4 != 0 &&
      ((s.port p).queue.entries.filter ((s.port p).queue.cancelNames (num16 payload 4))).isEmpty) = true := by
    rw [Bool.and_eq_true, bne_iff_ne, List.isEmpty_iff, List.filter_eq_nil_iff]
    rintro ⟨ht, hnone⟩
    obtain h0 | ⟨e, he, hname⟩ := hn
    · exact ht h0
    · exact hnone e he hname
  have hq : ((s.port p).took rest).queue = (s.port p).queue := rfl
  change execCancel p s = _
  rw [execCancel, s.process_of_oldest p .req payload rest _ _ h (InFrame.row_request payload .cancel hk nofun nofun), hl]
  simp only [State.port_setPort_same, hq]
  rw [if_neg (by decide), if_neg hnot, List.any_filter, JobQueue.filter_cancelNames]
  simp only [State.modPort, State.reply, State.defer, State.port_setPort_same, State.setPort_setPort,
    State.dropPins_setPort, PortBlock.cancelTaken, hq]
  split <;> rfl

/-- Settles O35: without a match NO-JOB; else the entries named that are not ACTIVE leave, and a named ACTIVE one is asked to
stop. -/
theorem cancelRemovesOrStops : Obligations.CancelRemovesOrStops := by
  intro s p payload rest h hk hl hr b q target ended named removed kept waited d x leaves
  have hnamed : named = q.cancelNames target := funext fun e => (q.cancelNames_eq target e).symm
  have hremoved : removed = q.cancelled target := by rw [JobQueue.cancelled, ← hnamed]
  have hx : b.cancelEntries target = x := by
    have hcancel := b.cancelEntries_eq target
    rw [b.queue.cancel_kept target, ← hremoved, ← hnamed] at hcancel
    exact hcancel
  have hxrecord : x.record = b.record := by rw [← hx, b.cancelEntries_record]
  refine ⟨fun ht hn => ?_, fun hn => ⟨fun hidle hres => ?_, fun hactive => ?_⟩⟩
  · exact exec_cancel_of_noJob s p payload rest h hk hl hr ht fun e he => hnamed ▸ hn e he
  all_goals
    have hexec : leaves (b.cancelTaken payload (s.spanBusy p)) := by
      have := exec_cancel_of_named s p payload rest h hk hl (hn.imp_right fun ⟨e, he, hne⟩ => ⟨e, he, hnamed ▸ hne⟩)
      rwa [← show removed = (s.port p).queue.cancelled (num16 payload 4) from hremoved] at this
  · have hany : (b.queue.entries.any fun e => b.queue.cancelNames target e && e.isActive) = false := by
      rw [List.any_eq_false]
      intro e he hne
      rw [Bool.and_eq_true, ← hnamed] at hne
      rw [hidle e he hne.1] at hne
      cases hne.2
    have htaken : b.cancelTaken payload (s.spanBusy p) = x.reply (byteAt payload 0) .ok (reqId payload)
        ([BitVec.ofNat 8 removed.length, 0] ++ removed.flatMap fun e => enc16 e.seq ++ [0x03]) := by
      rw [PortBlock.cancelTaken, hany, hx, ← hremoved, cancelContents_removed]
      rfl
    rw [htaken, x.reply_eq_answered payload .ok _ hres] at hexec
    exact hexec
  · have hany : (b.queue.entries.any fun e => b.queue.cancelNames target e && e.isActive) = true := by
      obtain ⟨e, he, hne, ha⟩ := hactive
      exact List.any_eq_true.2 ⟨e, he, by rw [← hnamed, hne, ha]; rfl⟩
    intro y
    have htaken : b.cancelTaken payload (s.spanBusy p) = (y.stopRequest (s.spanBusy p)).putOff payload := by
      rw [PortBlock.cancelTaken, hany, hx, ← hremoved]
      rfl
    rw [htaken] at hexec
    refine ⟨fun hrec => ?_, fun r hrec => ⟨fun hb => ?_, fun hb => ?_⟩⟩
    · rwa [y.stopRequest_of_none _ (hxrecord.trans hrec)] at hexec
    · rwa [(s.spanBusy_iff p).2 hb, y.stopRequest_of_busy r (hxrecord.trans hrec)] at hexec
    · rwa [s.spanBusy_eq_false p hb, y.stopRequest_of_idle r (hxrecord.trans hrec)] at hexec

end Sys2Proof.Machine

/-! SUPPORT. SUBMIT (R63, R66 to R70, R187): the descriptors of its payload, the checks of a job in their order, and the
admission of all jobs in one step. -/

namespace Sys2Proof.Machine

/-! ### Fields of a descriptor at the front of a payload (10.6) -/

theorem byteAt_append (d r : List Byte) (i : Nat) (h : i < d.length) : byteAt (d ++ r) i = byteAt d i := by
  rw [byteAt, byteAt, List.getD_append _ _ _ _ h]

theorem num8_append (d r : List Byte) (i : Nat) (h : i < d.length) : num8 (d ++ r) i = num8 d i := by
  rw [num8, num8, byteAt_append d r i h]

theorem num16_append (d r : List Byte) (i : Nat) (h : i + 1 < d.length) : num16 (d ++ r) i = num16 d i := by
  rw [num16, num16, num8_append d r i (by omega), num8_append d r (i + 1) h]

theorem num32_append (d r : List Byte) (i : Nat) (h : i + 3 < d.length) : num32 (d ++ r) i = num32 d i := by
  rw [num32, num32, num16_append d r i (by omega), num16_append d r (i + 2) (by omega)]

theorem handleAt_append (d r : List Byte) (i : Nat) (h : i + 1 < d.length) : handleAt (d ++ r) i = handleAt d i := by
  rw [handleAt, handleAt, num16_append d r i h]

theorem colourAt_append (d r : List Byte) (i : Nat) (h : i + 3 < d.length) : colourAt (d ++ r) i = colourAt d i := by
  rw [colourAt, colourAt, num32_append d r i h]

theorem rectAt_append (d r : List Byte) (i : Nat) (h : i + 7 < d.length) : rectAt (d ++ r) i = rectAt d i := by
  rw [rectAt, rectAt, num16_append d r i (by omega), num16_append d r (i + 2) (by omega),
    num16_append d r (i + 4) (by omega), num16_append d r (i + 6) (by omega)]

/-! ### Descriptors (10.6) -/

/-- The sizes of the six kinds of descriptor, with the code of each. -/
theorem descriptorSize_eq_some (k n : Nat) : descriptorSize k = some n ↔
    k = 0x01 ∧ n = 20 ∨ k = 0x02 ∧ n = 24 ∨ k = 0x03 ∧ n = 28 ∨ k = 0x04 ∧ n = 16 ∨ k = 0x05 ∧ n = 16 ∨ k = 0x06 ∧ n = 8 := by
  unfold descriptorSize
  split <;> simp_all <;> omega

/-- A descriptor describes what the model reads of it, and is as long as its kind says. -/
theorem describes_iff (d : List Byte) (x : Job × Bool) :
    Describes d x ↔ descriptorSize (num8 d 0) = some d.length ∧ descriptorJob d = some x := by
  obtain ⟨j, n⟩ := x
  have hopt (i : Nat) : (num8 d 1).testBit i = (byteAt d 1).getLsbD i := rfl
  rw [descriptorSize_eq_some]
  simp only [Describes, descriptorJob, hopt]
  constructor
  · rintro ⟨rfl, ⟨hk, hl, rfl⟩ | ⟨hk, hl, rfl⟩ | ⟨hk, hl, rfl⟩ | ⟨hk, hl, rfl⟩ | ⟨hk, hl, rfl⟩ | ⟨hk, hl, rfl⟩⟩
    all_goals simp [hk, hl, handleAt, rectAt, colourAt]
  · rintro ⟨⟨hk, hl⟩ | ⟨hk, hl⟩ | ⟨hk, hl⟩ | ⟨hk, hl⟩ | ⟨hk, hl⟩ | ⟨hk, hl⟩, hj⟩
    all_goals
      simp only [hk, Option.some.injEq, Prod.mk.injEq] at hj
      obtain ⟨rfl, rfl⟩ := hj
      simp [hk, hl, handleAt, rectAt, colourAt]

/-- What follows a descriptor is not read with it. -/
theorem descriptorJob_append (d r : List Byte) (h : descriptorSize (num8 d 0) = some d.length) :
    num8 (d ++ r) 0 = num8 d 0 ∧ descriptorJob (d ++ r) = descriptorJob d := by
  have hk := (descriptorSize_eq_some _ _).1 h
  have h0 : num8 (d ++ r) 0 = num8 d 0 := num8_append d r 0 (by omega)
  refine ⟨h0, ?_⟩
  have h1 : byteAt (d ++ r) 1 = byteAt d 1 := byteAt_append d r 1 (by omega)
  unfold descriptorJob
  rw [h0, h1]
  obtain ⟨hk, hl⟩ | ⟨hk, hl⟩ | ⟨hk, hl⟩ | ⟨hk, hl⟩ | ⟨hk, hl⟩ | ⟨hk, hl⟩ := hk
  all_goals
    simp (disch := omega) only [hk, num8_append, num16_append, num32_append, handleAt_append, colourAt_append, rectAt_append]

/-- A descriptor and the bytes behind it are read one after the other (R187). -/
theorem parseDescriptors_succ (n : Nat) (b : List Byte) (x : Job × Bool) (jobs : List (Job × Bool)) :
    parseDescriptors (n + 1) b = some (x :: jobs) ↔
      ∃ d r, b = d ++ r ∧ Describes d x ∧ parseDescriptors n r = some jobs := by
  rw [parseDescriptors]
  constructor
  · intro h
    split at h
    · next size job hs hj =>
      split at h
      · cases h
      · next hlen =>
        have hlen : (b.take size).length = size := List.length_take_of_le (by omega)
        simp only [Option.map_eq_some_iff, List.cons.injEq] at h
        obtain ⟨_, hr, rfl, rfl⟩ := h
        have hpos := (descriptorSize_eq_some _ _).1 hs
        have hk : num8 b 0 = num8 (b.take size) 0 := by
          rw [← num8_append (b.take size) (b.drop size) 0 (by omega), List.take_append_drop]
        have hd : descriptorSize (num8 (b.take size) 0) = some (b.take size).length := by rw [← hk, hlen, hs]
        have happ := (descriptorJob_append (b.take size) (b.drop size) hd).2
        rw [List.take_append_drop, hj] at happ
        exact ⟨_, _, (List.take_append_drop size b).symm, (describes_iff _ _).2 ⟨hd, happ.symm⟩, hr⟩
    · cases h
  · rintro ⟨d, r, rfl, hx, hr⟩
    obtain ⟨hs, hj⟩ := (describes_iff d x).1 hx
    obtain ⟨hk, happ⟩ := descriptorJob_append d r hs
    rw [hk, happ, hs, hj]
    simp [hr]

theorem parseDescriptors_succ_ne_nil (n : Nat) (b : List Byte) : parseDescriptors (n + 1) b ≠ some [] := by
  rw [parseDescriptors]
  split
  · split <;> simp
  · simp

/-- Read jobs are those of descriptors that make up the bytes (R66, R187). -/
theorem parseDescriptors_iff (n : Nat) (b : List Byte) (jobs : List (Job × Bool)) :
    parseDescriptors n b = some jobs ↔
      ∃ ds : List (List Byte), ds.length = n ∧ b = ds.flatten ∧ List.Forall₂ Describes ds jobs := by
  induction n generalizing b jobs with
  | zero =>
    rw [parseDescriptors]
    constructor
    · intro h
      split at h
      · next hb =>
        obtain rfl := List.isEmpty_iff.1 hb
        obtain rfl := Option.some.inj h
        exact ⟨[], rfl, rfl, .nil⟩
      · cases h
    · rintro ⟨ds, hn, rfl, hd⟩
      obtain rfl := List.length_eq_zero_iff.1 hn
      cases hd
      rfl
  | succ n ih =>
    constructor
    · intro h
      match jobs with
      | [] => exact absurd h (parseDescriptors_succ_ne_nil n b)
      | x :: jobs =>
        obtain ⟨d, r, rfl, hx, hr⟩ := (parseDescriptors_succ n b x jobs).1 h
        obtain ⟨ds, rfl, rfl, hd⟩ := (ih r jobs).1 hr
        exact ⟨d :: ds, rfl, rfl, hd.cons hx⟩
    · rintro ⟨ds, hn, rfl, hd⟩
      cases hd with
      | nil => cases hn
      | @cons d x ds jobs hx hd =>
        exact (parseDescriptors_succ n _ x jobs).2
          ⟨d, ds.flatten, rfl, hx, (ih _ jobs).2 ⟨ds, Nat.succ.inj hn, rfl, hd⟩⟩

/-- The jobs of a SUBMIT payload: a count of 1 to 4, then their descriptors (R66, 10.6). -/
theorem parseSubmit_iff (payload : List Byte) (hlen : 6 ≤ payload.length) (jobs : List (Job × Bool)) :
    parseSubmit payload = some jobs ↔ 1 ≤ num8 payload 4 ∧ num8 payload 4 ≤ 4 ∧
      ∃ ds : List (List Byte), ds.length = num8 payload 4 ∧ payload.drop 6 = ds.flatten ∧
        List.Forall₂ Describes ds jobs := by
  rw [← parseDescriptors_iff, parseSubmit]
  split
  · next h =>
    have : payload.length < 6 ∨ num8 payload 4 = 0 ∨ 4 < num8 payload 4 := by simpa [or_assoc] using h
    constructor
    · rintro ⟨⟩
    · rintro ⟨h1, h4, -⟩
      omega
  · next h =>
    have : ¬ (payload.length < 6 ∨ num8 payload 4 = 0 ∨ 4 < num8 payload 4) := by simpa [or_assoc] using h
    exact ⟨fun hp => ⟨by omega, by omega, hp⟩, fun ⟨_, _, hp⟩ => hp⟩

end Sys2Proof.Machine

/-! SUPPORT. The checks of a job in the order of R66: what each check says of the canvases the job names, and which status a
job that fails them gets. -/

namespace Sys2Proof.Machine

/-! ### Canvases a job names (R3, R38, R67, R68) -/

/-- A port may use a canvas in a role when it owns it or has an ACTIVE grant with enough rights (R38, R67). -/
theorem Canvas.allows_iff (c : Canvas) (p : Port) (w : Bool) : c.allows p w = true ↔
    c.owner = p ∨ ∃ g, c.grantTo p = some g ∧ g.revoke = none ∧ (w = true → g.rights = .rw) := by
  unfold Canvas.allows
  rw [Bool.or_eq_true, beq_iff_eq]
  refine or_congr_right ?_
  cases hg : c.grantTo p with
  | none => simp
  | some g => cases w <;> simp

/-- A canvas that hosts know of is LIVE or CLOSING (R3). -/
theorem Phase.eq_live_iff {ph : Phase} (h : ph.known = true) : ph = .live ↔ ph.isClosing = false := by
  cases ph with
  | clearing _ => cases h
  | live => simp [Phase.isClosing]
  | closing _ => simp [Phase.isClosing]

/-- What the three checks of a canvas a job names come to (R66). -/
theorem State.mayName_iff (s : State) (p : Port) (h : Handle) (w : Bool) : s.MayName p h (w = true) ↔
    ∃ c, s.lookup h = some c ∧ c.phase.isClosing = false ∧ c.allows p w = true := by
  refine exists_congr fun c => and_congr_right fun hl => ?_
  rw [Phase.eq_live_iff (s.lookup_some h c hl).2.1, c.allows_iff]

theorem State.checkCanvas_eq_none (s : State) (p : Port) (j : Job) (h : Handle) :
    s.checkCanvas p j h = none ↔ s.MayName p h (j.needsWrite h = true) := by
  rw [State.mayName_iff, State.checkCanvas]
  cases s.lookup h with
  | none => simp
  | some c =>
    simp only [Option.some.injEq, exists_eq_left']
    cases c.phase.isClosing <;> cases c.allows p (j.needsWrite h) <;> simp

/-- The check of a canvas that fails, in the order of R66: BAD-HANDLE, CLOSING, NO-RIGHT. -/
theorem State.checkCanvas_eq_some (s : State) (p : Port) (j : Job) (h : Handle) (e : Status) :
    s.checkCanvas p j h = some e ↔ s.lookup h = none ∧ e = .badHandle ∨
      ∃ c, s.lookup h = some c ∧ (c.phase.isClosing = true ∧ e = .closing ∨
        c.phase.isClosing = false ∧ ¬ s.MayName p h (j.needsWrite h = true) ∧ e = .noRight) := by
  rw [State.mayName_iff, State.checkCanvas]
  cases s.lookup h with
  | none => simp [eq_comm (a := e)]
  | some c =>
    simp only [Option.some.injEq, exists_eq_left', reduceCtorEq, false_and, false_or, eq_comm (a := e)]
    cases c.phase.isClosing <;> cases c.allows p (j.needsWrite h) <;> simp

theorem State.hasFormat_iff (s : State) (h : Handle) (f : Format) :
    s.HasFormat h f ↔ (s.canvas (handleSlot h)).map Canvas.format = some f := by
  rw [State.HasFormat, Option.map_eq_some_iff]

theorem State.MayName.exists_hasFormat {s : State} {p : Port} {h : Handle} {w : Prop} (hm : s.MayName p h w) :
    ∃ f, s.HasFormat h f := by
  obtain ⟨c, hl, -⟩ := hm
  exact ⟨c.format, c, (s.lookup_some h c hl).1, rfl⟩

theorem State.rectOk_iff (s : State) (h : Handle) (r : Rect) : s.rectOk h r = true ↔ s.RectIn h r := by
  simp only [State.rectOk, State.RectIn, Option.any_eq_true, Bool.and_eq_true, decide_eq_true_eq, and_assoc]

/-- A MOVE between two canvases that are there is of one format (R67). -/
theorem State.formatOk_move {s : State} {p : Port} {src : Handle} {w : Prop} (hm : s.MayName p src w) (dst : Handle)
    (sx sy : Nat) (r : Rect) (rop : Nat) (key : Option Colour) :
    s.formatOk (.move src sx sy dst r rop key) = true ↔ ∃ f, s.HasFormat src f ∧ s.HasFormat dst f := by
  obtain ⟨f, hf⟩ := hm.exists_hasFormat
  simp only [State.formatOk, State.hasFormat_iff, beq_iff_eq] at hf ⊢
  rw [hf]
  exact ⟨fun h => ⟨f, rfl, h.symm⟩, fun ⟨g, hg, h⟩ => hg.trans h.symm⟩

theorem State.formatOk_expand (s : State) (src dst : Handle) (sx sy : Nat) (r : Rect) (fg : Colour) (bg : Option Colour)
    (rop : Nat) :
    s.formatOk (.expand src sx sy dst r fg bg rop) = true ↔ s.HasFormat src .m1 ∧ ¬ s.HasFormat dst .m1 := by
  simp only [State.formatOk, State.hasFormat_iff, Bool.and_eq_true, beq_iff_eq, bne_iff_ne, ne_eq]

/-! ### The checks of a job (R66) -/

/-- What the checks of a job look at, one by one: the raster function, the canvases named and which of them is written, the
condition on the formats and that on the rectangles (R66 to R68). -/
structure State.ChecksOf (s : State) (p : Port) (j : Job) (code : Nat) (named : List Handle) (written : Handle → Prop)
    (formats rectangles : Prop) : Prop where
  rop_eq : (j.rop.any fun n => 15 < n) = decide (15 < code)
  named_eq : j.src.toList ++ j.dst.toList = named
  written_eq (h : Handle) : (j.needsWrite h = true) = written h
  formats_iff : (∀ h ∈ named, s.MayName p h (written h)) → (s.formatOk j = true ↔ formats)
  rectangles_iff : s.boundsOk j = true ↔ rectangles

/-- The first of the checks that fails has this status (R66). -/
def State.FirstFailing (s : State) (p : Port) (code : Nat) (named : List Handle) (written : Handle → Prop)
    (formats rectangles : Prop) (status : Nat) : Prop :=
  15 < code ∧ status = 0x01 ∨
  code ≤ 15 ∧ (∃ before h after, named = before ++ h :: after ∧ (∀ x ∈ before, s.MayName p x (written x)) ∧
    (s.lookup h = none ∧ status = 0x04 ∨
      ∃ c, s.lookup h = some c ∧
        (c.phase.isClosing = true ∧ status = 0x08 ∨
          c.phase.isClosing = false ∧ ¬ s.MayName p h (written h) ∧ status = 0x06))) ∨
  code ≤ 15 ∧ (∀ h ∈ named, s.MayName p h (written h)) ∧
    (¬ formats ∧ status = 0x09 ∨ formats ∧ ¬ rectangles ∧ status = 0x0A)

section
variable {s : State} {p : Port} {j : Job} {code : Nat} {named : List Handle} {written : Handle → Prop}
  {formats rectangles : Prop}

theorem State.ChecksOf.mayName_iff (h : s.ChecksOf p j code named written formats rectangles) :
    (j.src.toList ++ j.dst.toList).findSome? (s.checkCanvas p j) = none ↔ ∀ a ∈ named, s.MayName p a (written a) := by
  simp only [h.named_eq, List.findSome?_eq_none_iff, State.checkCanvas_eq_none, h.written_eq]

/-- The first canvas that fails its checks gives the status (R66, log 13). -/
theorem State.ChecksOf.canvas_iff (h : s.ChecksOf p j code named written formats rectangles) (status : Nat) :
    (∃ e, (j.src.toList ++ j.dst.toList).findSome? (s.checkCanvas p j) = some e ∧ e.code = status) ↔
      ∃ before a after, named = before ++ a :: after ∧ (∀ x ∈ before, s.MayName p x (written x)) ∧
        (s.lookup a = none ∧ status = 0x04 ∨
          ∃ c, s.lookup a = some c ∧
            (c.phase.isClosing = true ∧ status = 0x08 ∨
              c.phase.isClosing = false ∧ ¬ s.MayName p a (written a) ∧ status = 0x06)) := by
  simp only [h.named_eq, List.findSome?_eq_some_iff, State.checkCanvas_eq_none, State.checkCanvas_eq_some, h.written_eq]
  constructor
  · rintro ⟨e, ⟨before, a, after, hn, hfail, hb⟩, rfl⟩
    refine ⟨before, a, after, hn, hb, ?_⟩
    obtain ⟨hl, rfl⟩ | ⟨c, hl, ⟨hc, rfl⟩ | ⟨hc, hm, rfl⟩⟩ := hfail
    · exact .inl ⟨hl, rfl⟩
    · exact .inr ⟨c, hl, .inl ⟨hc, rfl⟩⟩
    · exact .inr ⟨c, hl, .inr ⟨hc, hm, rfl⟩⟩
  · rintro ⟨before, a, after, hn, hb, ⟨hl, rfl⟩ | ⟨c, hl, ⟨hc, rfl⟩ | ⟨hc, hm, rfl⟩⟩⟩
    · exact ⟨.badHandle, ⟨before, a, after, hn, .inl ⟨hl, rfl⟩, hb⟩, rfl⟩
    · exact ⟨.closing, ⟨before, a, after, hn, .inr ⟨c, hl, .inl ⟨hc, rfl⟩⟩, hb⟩, rfl⟩
    · exact ⟨.noRight, ⟨before, a, after, hn, .inr ⟨c, hl, .inr ⟨hc, hm, rfl⟩⟩, hb⟩, rfl⟩

theorem State.ChecksOf.passes_iff (h : s.ChecksOf p j code named written formats rectangles) :
    s.checkJob p j = none ↔
      code ≤ 15 ∧ (∀ a ∈ named, s.MayName p a (written a)) ∧ formats ∧ rectangles := by
  rw [State.checkJob, h.rop_eq, ← h.mayName_iff, ← h.rectangles_iff]
  by_cases hc : 15 < code
  · simp [hc]
  have hle : code ≤ 15 := by omega
  cases hf : (j.src.toList ++ j.dst.toList).findSome? (s.checkCanvas p j) with
  | some e => simp [hc]
  | none =>
    rw [← h.formats_iff (h.mayName_iff.1 hf)]
    cases s.formatOk j <;> cases s.boundsOk j <;> simp [hc, hle]

theorem State.ChecksOf.fails_iff (h : s.ChecksOf p j code named written formats rectangles) (status : Nat) :
    s.FirstFailing p code named written formats rectangles status ↔
      ∃ e, s.checkJob p j = some e ∧ e.code = status := by
  rw [State.FirstFailing, State.checkJob, h.rop_eq, ← h.mayName_iff, ← h.canvas_iff, ← h.rectangles_iff]
  by_cases hc : 15 < code
  · have hle : ¬ code ≤ 15 := by omega
    simp [hc, hle, Status.code, eq_comm (a := status)]
  have hle : code ≤ 15 := by omega
  cases hf : (j.src.toList ++ j.dst.toList).findSome? (s.checkCanvas p j) with
  | some e => simp [hc, hle]
  | none =>
    rw [← h.formats_iff (h.mayName_iff.1 hf)]
    cases s.formatOk j <;> cases s.boundsOk j <;> simp [hc, hle, Status.code, eq_comm (a := status)]

end

/-! ### The checks kind by kind -/

theorem State.checksOf_fill (s : State) (p : Port) (dst : Handle) (r : Rect) (c : Colour) (rop : Nat) :
    s.ChecksOf p (.fill dst r c rop) rop [dst] (· = dst) True (s.RectIn dst r) where
  rop_eq := by simp [Job.rop]
  named_eq := rfl
  written_eq h := by simp [Job.needsWrite, Job.dst, eq_comm (a := h)]
  formats_iff _ := by simp [State.formatOk]
  rectangles_iff := by simp [State.boundsOk, Job.dst, Job.dstRect, Job.src, State.rectOk_iff]

theorem State.checksOf_move (s : State) (p : Port) (src dst : Handle) (sx sy : Nat) (r : Rect) (rop : Nat)
    (key : Option Colour) :
    s.ChecksOf p (.move src sx sy dst r rop key) rop [src, dst] (· = dst) (∃ f, s.HasFormat src f ∧ s.HasFormat dst f)
      (s.RectIn dst r ∧ s.RectIn src ⟨sx, sy, r.w, r.h⟩) where
  rop_eq := by simp [Job.rop]
  named_eq := rfl
  written_eq h := by simp [Job.needsWrite, Job.dst, eq_comm (a := h)]
  formats_iff hm := State.formatOk_move (hm src (List.mem_cons_self ..)) dst sx sy r rop key
  rectangles_iff := by simp [State.boundsOk, Job.dst, Job.dstRect, Job.src, Job.srcRect, State.rectOk_iff]

theorem State.checksOf_expand (s : State) (p : Port) (src dst : Handle) (sx sy : Nat) (r : Rect) (fg : Colour)
    (bg : Option Colour) (rop : Nat) :
    s.ChecksOf p (.expand src sx sy dst r fg bg rop) rop [src, dst] (· = dst) (s.HasFormat src .m1 ∧ ¬ s.HasFormat dst .m1)
      (s.RectIn dst r ∧ s.RectIn src ⟨sx, sy, r.w, r.h⟩) where
  rop_eq := by simp [Job.rop]
  named_eq := rfl
  written_eq h := by simp [Job.needsWrite, Job.dst, eq_comm (a := h)]
  formats_iff _ := s.formatOk_expand src dst sx sy r fg bg rop
  rectangles_iff := by simp [State.boundsOk, Job.dst, Job.dstRect, Job.src, Job.srcRect, State.rectOk_iff]

theorem State.checksOf_write (s : State) (p : Port) (dst : Handle) (r : Rect) :
    s.ChecksOf p (.write dst r) 0 [dst] (· = dst) True (s.RectIn dst r) where
  rop_eq := by simp [Job.rop]
  named_eq := rfl
  written_eq h := by simp [Job.needsWrite, Job.dst, eq_comm (a := h)]
  formats_iff _ := by simp [State.formatOk]
  rectangles_iff := by simp [State.boundsOk, Job.dst, Job.dstRect, Job.src, State.rectOk_iff]

theorem State.checksOf_read (s : State) (p : Port) (src : Handle) (r : Rect) :
    s.ChecksOf p (.read src r) 0 [src] (fun _ => False) True (s.RectIn src r) where
  rop_eq := by simp [Job.rop]
  named_eq := rfl
  written_eq h := by simp [Job.needsWrite, Job.dst]
  formats_iff _ := by simp [State.formatOk]
  rectangles_iff := by simp [State.boundsOk, Job.dst, Job.src, Job.srcRect, State.rectOk_iff]

theorem State.checksOf_mark (s : State) (p : Port) (tag : BitVec 32) :
    s.ChecksOf p (.mark tag) 0 [] (fun _ => False) True True where
  rop_eq := by simp [Job.rop]
  named_eq := rfl
  written_eq h := by simp [Job.needsWrite, Job.dst]
  formats_iff _ := by simp [State.formatOk]
  rectangles_iff := by simp [State.boundsOk, Job.dst, Job.src]

/-- A job is allowed exactly when no check of it fails (R66). -/
theorem State.jobAllowed_iff (s : State) (p : Port) (j : Job) : s.JobAllowed p j ↔ s.checkJob p j = none := by
  cases j with
  | fill dst r c rop => simp [State.JobAllowed, (s.checksOf_fill p dst r c rop).passes_iff]
  | move src sx sy dst r rop key =>
    simp [State.JobAllowed, (s.checksOf_move p src dst sx sy r rop key).passes_iff, and_assoc]
  | expand src sx sy dst r fg bg rop =>
    simp [State.JobAllowed, (s.checksOf_expand p src dst sx sy r fg bg rop).passes_iff, and_assoc]
  | write dst r => simp [State.JobAllowed, (s.checksOf_write p dst r).passes_iff]
  | read src r => simp [State.JobAllowed, (s.checksOf_read p src r).passes_iff]
  | mark tag => simp [State.JobAllowed, (s.checksOf_mark p tag).passes_iff]

/-- A job fails with the status of its first check that fails (R66). -/
theorem State.jobFails_iff (s : State) (p : Port) (j : Job) (status : Nat) :
    s.JobFails p j status ↔ ∃ e, s.checkJob p j = some e ∧ e.code = status := by
  cases j with
  | fill dst r c rop => exact (s.checksOf_fill p dst r c rop).fails_iff status
  | move src sx sy dst r rop key => exact (s.checksOf_move p src dst sx sy r rop key).fails_iff status
  | expand src sx sy dst r fg bg rop => exact (s.checksOf_expand p src dst sx sy r fg bg rop).fails_iff status
  | write dst r => exact (s.checksOf_write p dst r).fails_iff status
  | read src r => exact (s.checksOf_read p src r).fails_iff status
  | mark tag => exact (s.checksOf_mark p tag).fails_iff status

theorem State.not_jobAllowed_iff (s : State) (p : Port) (j : Job) :
    ¬ s.JobAllowed p j ↔ ∃ status, s.JobFails p j status := by
  rw [State.jobAllowed_iff, ← ne_eq, Option.ne_none_iff_exists']
  simp only [State.jobFails_iff]
  exact ⟨fun ⟨e, he⟩ => ⟨_, e, he, rfl⟩, fun ⟨_, e, he, _⟩ => ⟨e, he⟩⟩

/-! ### The checks of a SUBMIT (R66) -/

theorem State.checkJobs_of_allowed {s : State} {p : Port} {jobs : List (Job × Bool)} (h : ∀ x ∈ jobs, s.JobAllowed p x.1)
    (i : Nat) : s.checkJobs p i jobs = none := by
  induction jobs generalizing i with
  | nil => rfl
  | cons x jobs ih =>
    rw [State.checkJobs, (s.jobAllowed_iff p x.1).1 (h x (List.mem_cons_self ..))]
    exact ih (fun y hy => h y (List.mem_cons_of_mem _ hy)) _

/-- The first job that fails is reported with its position and the first check it fails (R66, R184). -/
theorem State.checkJobs_of_first {s : State} {p : Port} {before after : List (Job × Bool)} {x : Job × Bool} {e : Status}
    (h : ∀ y ∈ before, s.JobAllowed p y.1) (he : s.checkJob p x.1 = some e) (i : Nat) :
    s.checkJobs p i (before ++ x :: after) = some (e, i + before.length) := by
  induction before generalizing i with
  | nil => rw [List.nil_append, State.checkJobs, he]; rfl
  | cons y before ih =>
    rw [List.cons_append, State.checkJobs, (s.jobAllowed_iff p y.1).1 (h y (List.mem_cons_self ..))]
    refine (ih (fun z hz => h z (List.mem_cons_of_mem _ hz)) (i + 1)).trans ?_
    rw [List.length_cons, Nat.add_right_comm, Nat.add_assoc]

/-- The checks look at the canvases alone. -/
theorem State.checkJobs_setPort (s : State) (p q : Port) (b : PortBlock) (i : Nat) (jobs : List (Job × Bool)) :
    (s.setPort q b).checkJobs p i jobs = s.checkJobs p i jobs := by
  have hc (j : Job) : (s.setPort q b).checkCanvas p j = s.checkCanvas p j := by
    funext h
    rw [State.checkCanvas, State.lookup_setPort, State.checkCanvas]
  have hj (j : Job) : (s.setPort q b).checkJob p j = s.checkJob p j := by
    unfold State.checkJob
    rw [hc]
    rfl
  induction jobs generalizing i with
  | nil => rfl
  | cons x jobs ih => rw [State.checkJobs, State.checkJobs, hj, ih]

end Sys2Proof.Machine

/-! SUPPORT. Admission of the jobs of a SUBMIT (R65, R69, R70, R118): their sequences, their pins, the served WRITE. -/

namespace Sys2Proof.Machine

/-! ### Sequences (R65) -/

/-- The sequence `i` after `first`; the number after 65535 is 1 (R65). -/
theorem iterate_nextJobSeq {first : Nat} (h1 : 1 ≤ first) (h2 : first ≤ 65535) (i : Nat) :
    nextJobSeq^[i] first = (first - 1 + i) % 65535 + 1 := by
  induction i with
  | zero => simp only [Function.iterate_zero, id]; omega
  | succ i ih =>
    rw [Function.iterate_succ_apply', ih, nextJobSeq]
    split <;> omega

/-! ### Pins (R70) -/

theorem Canvas.modPins_add_zero (c : Canvas) (p : Port) : c.modPins p (· + 0) = c := by
  unfold Canvas.modPins Canvas.modGrant
  split <;> simp

theorem Canvas.modPins_add_add (c : Canvas) (p : Port) (m n : Nat) :
    (c.modPins p (· + m)).modPins p (· + n) = c.modPins p (· + (m + n)) := by
  unfold Canvas.modPins Canvas.modGrant
  by_cases ho : c.owner = p
  · simp only [if_pos ho, Nat.add_assoc]
  · simp only [if_neg ho, List.map_map]
    congr 2
    funext g
    by_cases hg : g.port = p <;> simp [hg, Nat.add_assoc]

/-- The pins a list of handles takes on the canvas of slot `n` (R70). -/
theorem State.canvas_pins (s : State) (p : Port) (hs : List Handle) (n : Nat) :
    (hs.foldl (fun s h => s.pin p h) s).canvas n =
      (s.canvas n).map fun c => c.modPins p (· + hs.countP fun h => handleSlot h == n) := by
  induction hs generalizing s with
  | nil => simp only [List.foldl_nil, List.countP_nil, Canvas.modPins_add_zero, Option.map_id']
  | cons h hs ih =>
    rw [List.foldl_cons, ih, State.pin, State.canvas_modCanvas, List.countP_cons]
    by_cases hn : n = handleSlot h
    · simp [hn, Option.map_map, Function.comp_def, Canvas.modPins_add_add, Nat.add_comm]
    · simp [hn, Ne.symm hn]

theorem State.generation_pins (s : State) (p : Port) (hs : List Handle) (n : Nat) :
    ((hs.foldl (fun s h => s.pin p h) s).slot n).generation = (s.slot n).generation := by
  induction hs generalizing s with
  | nil => rfl
  | cons h hs ih => exact (ih _).trans (s.modCanvas_generation _ _ _)

theorem State.pins_changes (s : State) (p : Port) (hs : List Handle) :
    ∃ slots, hs.foldl (fun s h => s.pin p h) s = { s with slots := slots } := by
  induction hs generalizing s with
  | nil => exact ⟨s.slots, rfl⟩
  | cons h hs ih =>
    obtain ⟨slots, hpins⟩ := ih (s.pin p h)
    refine ⟨slots, hpins.trans ?_⟩
    rw [State.pin, State.modCanvas_eq]

/-- Handles that are current and differ name different slots (R2, R3). -/
theorem State.countP_handleSlot (s : State) (hs : List Handle) (hd : hs.Nodup)
    (hc : ∀ h ∈ hs, s.handle (handleSlot h) = h) (n : Nat) :
    (hs.countP fun h => handleSlot h == n) = if hs.any fun h => handleSlot h == n then 1 else 0 := by
  have hslots : (hs.map handleSlot).Nodup := hd.map_on fun a ha b hb hab => by rw [← hc a ha, ← hc b hb, hab]
  have hcount := hslots.count (a := n)
  rw [List.count, List.countP_map] at hcount
  refine hcount.trans (if_congr ?_ rfl rfl)
  simp

/-- A job that is allowed names each canvas by one handle (R66, R70). -/
theorem State.countP_names {s : State} {p : Port} {j : Job} (h : s.JobAllowed p j) (n : Nat) :
    (j.names.countP fun a => handleSlot a == n) = if j.names.any fun a => handleSlot a == n then 1 else 0 := by
  refine s.countP_handleSlot j.names j.names_nodup (fun a ha => ?_) n
  obtain ⟨c, hl, -⟩ := s.mayPin_of_checkJob p j ((s.jobAllowed_iff p j).1 h) a ha
  exact (s.lookup_some a c hl).2.2.2

/-! ### What admission changes (R69) -/

/-- The pins that jobs take on the canvas of slot `n`: one for each job that names it (R70). -/
theorem State.canvas_admitJobs (s : State) (p : Port) (jobs : List (Job × Bool)) (n : Nat)
    (h : ∀ x ∈ jobs, (x.1.names.countP fun a => handleSlot a == n) =
      if x.1.names.any fun a => handleSlot a == n then 1 else 0) :
    (jobs.foldl (State.admitJob p) s).canvas n =
      (s.canvas n).map fun c =>
        c.modPins p (· + jobs.countP fun x => x.1.names.any fun a => handleSlot a == n) := by
  induction jobs generalizing s with
  | nil => simp only [List.foldl_nil, List.countP_nil, Canvas.modPins_add_zero, Option.map_id']
  | cons x jobs ih =>
    rw [List.foldl_cons, ih _ fun y hy => h y (List.mem_cons_of_mem _ hy), State.admitJob_eq, State.canvas_pins,
      h x (List.mem_cons_self ..), State.modPort_canvas, List.countP_cons, Option.map_map]
    simp only [Function.comp_def, Canvas.modPins_add_add, Nat.add_comm]

theorem State.generation_admitJobs (s : State) (p : Port) (jobs : List (Job × Bool)) (n : Nat) :
    ((jobs.foldl (State.admitJob p) s).slot n).generation = (s.slot n).generation := by
  induction jobs generalizing s with
  | nil => rfl
  | cons x jobs ih => exact (ih _).trans (State.generation_pins _ p x.1.names n)

/-- Admission touches the port's block and the canvas table alone. -/
theorem State.admitJobs_changes (s : State) (p : Port) (jobs : List (Job × Bool)) :
    ∃ b slots, jobs.foldl (State.admitJob p) s = { s.setPort p b with slots := slots } := by
  induction jobs using List.reverseRecOn with
  | nil => exact ⟨s.port p, s.slots, by rw [State.setPort_port]; rfl⟩
  | append_singleton jobs x ih =>
    obtain ⟨b, slots, h⟩ := ih
    obtain ⟨slots', hpins⟩ := State.pins_changes ((jobs.foldl (State.admitJob p) s).modPort p fun b => b.withJob x) p x.1.names
    refine ⟨(State.port { s.setPort p b with slots := slots } p).withJob x, slots', ?_⟩
    rw [List.foldl_concat, State.admitJob_eq, hpins, h]
    simp [State.modPort, State.setPort]

/-! ### The served WRITE (R118) -/

/-- The served WRITE stays, or the first admitted one becomes it when there is none (R118). -/
theorem PortBlock.refreshStaging_withJobs (b : PortBlock) (jobs : List (Job × Bool))
    (h : b.staging.served = (b.queue.entries.find? Entry.servable).map Entry.seq) :
    (b.withJobs jobs).refreshStaging = { b.withJobs jobs with
      staging := { b.staging with
        served := ((b.queue.entries ++ admittedEntries b.queue.nextSeq jobs).find? Entry.servable).map Entry.seq } } := by
  rw [List.find?_append]
  unfold PortBlock.refreshStaging
  cases hf : b.queue.entries.find? Entry.servable with
  | none =>
    have hs : (b.withJobs jobs).staging.served = none := by rw [hf] at h; exact h
    rw [hs]
    simp only [PortBlock.withJobs, List.find?_append, hf]
  | some e =>
    have hs : (b.withJobs jobs).staging.served = some e.seq := by rw [hf] at h; exact h
    have hany : ((b.withJobs jobs).queue.entries.any fun x => x.servable && x.seq == e.seq) = true :=
      List.any_eq_true.2 ⟨e, List.mem_append_left _ (List.mem_of_find?_eq_some hf), by simp [List.find?_some hf]⟩
    rw [hs]
    simp only [hany, if_true, Option.some_or, Option.map_some, ← hs]
    rfl

end Sys2Proof.Machine

/-! SUPPORT. The row of SUBMIT, case by case, and the obligation about it. -/

namespace Sys2Proof.Machine

/-! ### The row of SUBMIT (R66, R69) -/

theorem submit_lengthOk {n : Nat} (h14 : 14 ≤ n) (h118 : n ≤ 118) : (!ReqKind.submit.lengthOk n) = false := by
  simp [ReqKind.lengthOk, h14, h118]

section
variable {s : State} {p : Port} {payload : List Byte} {rest : List InFrame} (h : s.Oldest p .req payload rest)
  (hk : IsRequest payload 0x20) (h14 : 14 ≤ payload.length) (h118 : payload.length ≤ 118)
include h hk h14 h118

/-- A SUBMIT whose payload holds no jobs is refused MALFORMED at position 0 (R187). -/
theorem exec_submit_of_parse_none (hr : 0 < (s.port p).link.reserved) (hp : parseSubmit payload = none) :
    exec (.submit p) s = .next (s.setPort p (((s.port p).took rest).answered payload Status.malformed.code
      (positionContents 0))) := by
  rw [← s.reply_took p rest payload .malformed _ hr]
  change execSubmit p s = _
  rw [execSubmit, s.process_of_oldest p .req payload rest _ _ h (InFrame.row_request payload .submit hk nofun nofun),
    submit_lengthOk h14 h118, if_neg Bool.false_ne_true, hp]

/-- A SUBMIT with a job that fails is refused with its status and its position (R66, R184). -/
theorem exec_submit_of_fails (hr : 0 < (s.port p).link.reserved) {jobs : List (Job × Bool)} {e : Status} {i : Nat}
    (hp : parseSubmit payload = some jobs) (hc : s.checkJobs p 1 jobs = some (e, i)) :
    exec (.submit p) s = .next (s.setPort p (((s.port p).took rest).answered payload e.code (positionContents i))) := by
  rw [← s.reply_took p rest payload e _ hr]
  change execSubmit p s = _
  rw [execSubmit, s.process_of_oldest p .req payload rest _ _ h (InFrame.row_request payload .submit hk nofun nofun),
    submit_lengthOk h14 h118, if_neg Bool.false_ne_true, hp]
  simp only [State.checkJobs_setPort, hc]

/-- A SUBMIT of more jobs than the queue has room for is refused QUEUE-FULL (R66). -/
theorem exec_submit_of_full (hr : 0 < (s.port p).link.reserved) {jobs : List (Job × Bool)}
    (hp : parseSubmit payload = some jobs) (hc : s.checkJobs p 1 jobs = none)
    (hf : 16 < (s.port p).queue.entries.length + jobs.length) :
    exec (.submit p) s = .next (s.setPort p (((s.port p).took rest).answered payload Status.queueFull.code
      (positionContents 0))) := by
  rw [← s.reply_took p rest payload .queueFull _ hr]
  change execSubmit p s = _
  rw [execSubmit, s.process_of_oldest p .req payload rest _ _ h (InFrame.row_request payload .submit hk nofun nofun),
    submit_lengthOk h14 h118, if_neg Bool.false_ne_true, hp]
  simp only [State.checkJobs_setPort, hc, State.port_setPort_same]
  exact congrArg _ (if_pos hf)

/-- A SUBMIT whose jobs all pass and have room is admitted whole (R69, R118). -/
theorem exec_submit_of_room {jobs : List (Job × Bool)}
    (hp : parseSubmit payload = some jobs) (hc : s.checkJobs p 1 jobs = none)
    (hf : (s.port p).queue.entries.length + jobs.length ≤ 16) :
    exec (.submit p) s = .next (((jobs.foldl (State.admitJob p) (s.setPort p ((s.port p).took rest))).modPort p
      PortBlock.refreshStaging).reply p payload .ok (submitContents (s.port p).queue.nextSeq jobs.length)) := by
  change execSubmit p s = _
  rw [execSubmit, s.process_of_oldest p .req payload rest _ _ h (InFrame.row_request payload .submit hk nofun nofun),
    submit_lengthOk h14 h118, if_neg Bool.false_ne_true, hp]
  simp only [State.checkJobs_setPort, hc, State.port_setPort_same]
  exact congrArg _ (if_neg (Nat.not_lt.2 hf))

end

/-! ### Admission -/

/-- The block of the port once its jobs are admitted and the SUBMIT is answered (R69, R118, R184). -/
theorem PortBlock.reply_withJobs (b : PortBlock) (payload : List Byte) (jobs : List (Job × Bool))
    (hr : 0 < b.link.reserved)
    (hs : b.staging.served = (b.queue.entries.find? Entry.servable).map Entry.seq) (m : List Byte) :
    (b.withJobs jobs).refreshStaging.reply (byteAt payload 0) .ok (reqId payload) m =
      ({ b.withJobs jobs with
        staging := { b.staging with
          served := ((b.queue.entries ++ admittedEntries b.queue.nextSeq jobs).find? Entry.servable).map Entry.seq } } :
        PortBlock).answered payload 0x00 m := by
  rw [PortBlock.reply_eq_answered _ payload .ok m (by rw [PortBlock.refreshStaging_eq]; exact hr),
    b.refreshStaging_withJobs jobs hs]
  rfl

section
variable (s : State) (p : Port) (b : PortBlock) (jobs : List (Job × Bool)) (payload : List Byte) (st : Status) (m : List Byte)

/-- Admission and its reply touch the port's block and the canvas table alone (R69). -/
theorem State.replyAdmitted_changes :
    let t := ((jobs.foldl (State.admitJob p) (s.setPort p b)).modPort p PortBlock.refreshStaging).reply p payload st m
    t = { s with ports := s.ports.set p (t.port p), slots := t.slots } := by
  obtain ⟨d, slots, hd⟩ := (s.setPort p b).admitJobs_changes p jobs
  rw [hd]
  simp [State.reply, State.modPort, State.setPort, State.port]

theorem State.slot_replyAdmitted (n : Nat) :
    (((s.modPort p PortBlock.refreshStaging).reply p payload st m).slot n) = s.slot n := by
  rw [State.reply, State.modPort, State.setPort_slot, State.modPort, State.setPort_slot]

theorem State.canvas_replyAdmitted (n : Nat) :
    (((s.modPort p PortBlock.refreshStaging).reply p payload st m).canvas n) = s.canvas n := by
  rw [State.reply, State.modPort_canvas, State.modPort_canvas]

/-- Admitted jobs take one pin each on the canvases they name (R70). -/
theorem State.canvas_admitted {jobs : List (Job × Bool)} (h : ∀ x ∈ jobs, s.JobAllowed p x.1) (n : Nat) :
    (jobs.foldl (State.admitJob p) (s.setPort p b)).canvas n =
      (s.canvas n).map fun c => c.modPins p (· + jobs.countP fun x => x.1.names.any fun a => handleSlot a == n) := by
  rw [State.canvas_admitJobs _ p jobs n fun x hx => State.countP_names (h x hx) n, State.setPort_canvas]

end

/-- Settles O32: the payload's descriptors are its jobs, the first check that fails of the first job that fails gives the
refusal, and jobs that all pass and have room are admitted together. -/
theorem submitAdmitsAllOrNone : Obligations.SubmitAdmitsAllOrNone := by
  intro s p payload rest h hk h14 h118 hr b refused holds
  have hparse (jobs : List (Job × Bool)) : parseSubmit payload = some jobs ↔ holds jobs :=
    parseSubmit_iff payload (by omega) jobs
  refine ⟨fun hnone => ?_, fun jobs hjobs => ⟨fun j _ => s.not_jobAllowed_iff p j.1, ?_, ?_, ?_⟩⟩
  · have hp : parseSubmit payload = none := Option.eq_none_iff_forall_ne_some.2 fun jobs hj => hnone jobs ((hparse jobs).1 hj)
    exact exec_submit_of_parse_none h hk h14 h118 hr hp
  all_goals have hp := (hparse jobs).2 hjobs
  · rintro before j after status rfl hbefore hfails
    obtain ⟨e, he, rfl⟩ := (s.jobFails_iff p j.1 status).1 hfails
    have := exec_submit_of_fails h hk h14 h118 hr hp (State.checkJobs_of_first hbefore he 1)
    rwa [Nat.add_comm] at this
  · intro hall hfull
    exact exec_submit_of_full h hk h14 h118 hr hp (State.checkJobs_of_allowed hall 1) hfull
  · intro hall hroom h1 h2 seq added served
    have hadded : added = admittedEntries b.queue.nextSeq jobs := by
      refine List.map_congr_left fun x _ => ?_
      rw [iterate_nextJobSeq h1 h2]
    have hport : ((jobs.foldl (State.admitJob p) (s.setPort p b)).port p) = b.withJobs jobs := by
      rw [State.port_admitJobs, if_pos rfl, State.port_setPort_same]
    refine ⟨_, exec_submit_of_room h hk h14 h118 hp (State.checkJobs_of_allowed hall 1) hroom,
      s.replyAdmitted_changes p b jobs _ _ _, fun hserved => ?_, fun n => ?_, fun n hn => ?_, fun n c hc => ?_⟩
    · have hreply := b.reply_withJobs payload jobs hr hserved (submitContents b.queue.nextSeq jobs.length)
      conv_rhs at hreply => rw [PortBlock.withJobs, ← hadded, iterate_nextJobSeq h1 h2]
      rw [State.reply, State.port_modPort_same, State.port_modPort_same, hport]
      exact hreply
    · rw [State.slot_replyAdmitted, State.generation_admitJobs, State.setPort_slot]
    · rw [State.canvas_replyAdmitted, s.canvas_admitted p b hall, hn]
      rfl
    · rw [State.canvas_replyAdmitted, s.canvas_admitted p b hall, hc]
      rfl

end Sys2Proof.Machine

/-! SUPPORT. Claims and their requests (R90 to R92): when two claims conflict, what a grant makes of a port, and the turns
of the waiting requests at a release. -/

namespace Sys2Proof.Machine

/-! ### When claims conflict (R90) -/

/-- Two intervals overlap when some number lies in both. -/
theorem exists_in_both_iff (a b c d : Nat) : (∃ x, a ≤ x ∧ x < b ∧ c ≤ x ∧ x < d) ↔ max a c < min b d :=
  ⟨fun ⟨x, h⟩ => by omega, fun h => ⟨max a c, by omega⟩⟩

theorem Rect.intersects_iff (a b : Rect) : a.intersects b = true ↔
    (∃ x, a.x ≤ x ∧ x < a.x + a.w ∧ b.x ≤ x ∧ x < b.x + b.w) ∧
    (∃ y, a.y ≤ y ∧ y < a.y + a.h ∧ b.y ≤ y ∧ y < b.y + b.h) := by
  rw [exists_in_both_iff, exists_in_both_iff, Rect.intersects, Bool.and_eq_true, decide_eq_true_eq, decide_eq_true_eq]

theorem State.firstConflict_isSome_iff (s : State) (p : Port) (cs : List Claim) :
    (s.firstConflict p cs).isSome = true ↔ ∃ a ∈ cs, s.Conflicting p a := by
  simp only [State.firstConflict, List.find?_isSome, State.any_conflicts_iff]

/-- Settles O41: the test compares the greater left and top ends with the lesser right and bottom ends. -/
theorem claimsConflict : Obligations.ClaimsConflict := by
  refine ⟨fun a b => ?_, fun s p cs => s.firstConflict_isSome_iff p cs, ?_⟩
  · simp only [Claim.conflicts, Bool.and_eq_true, Bool.or_eq_true, beq_iff_eq, Rect.intersects_iff, and_assoc]
  · decide

/-! ### A grant (R75, R91, R101) -/

/-- The rows of a job go upward only in a MOVE within one canvas to a place below (R97). -/
theorem Job.directions_upward (j : Job) : j.directions.1 =
    match j with
    | .move src _ sy dst r _ _ => decide (src = dst ∧ sy < r.y)
    | _ => false := by
  cases j with
  | move src sx sy dst r rop key => by_cases h : src = dst <;> simp [Job.directions, h]
  | _ => rfl

/-- The spans of a row go leftward only in a MOVE within one canvas to a place to the right in the same rows (R97). -/
theorem Job.directions_leftward (j : Job) : j.directions.2 =
    match j with
    | .move src sx sy dst r _ _ => decide (src = dst ∧ sy = r.y ∧ sx < r.x)
    | _ => false := by
  cases j with
  | move src sx sy dst r rop key => by_cases h : src = dst <;> simp [Job.directions, h]
  | _ => rfl

theorem PortConfig.streamTimer_eq (c : PortConfig) (j : Job) : c.streamTimer j =
    match j with
    | .write _ _ => some c.dataTimeout
    | .read _ _ => some c.readStall
    | _ => none := by
  cases j <;> rfl

/-- What a grant makes of the port, with the record of the job taken up written out (R97, R98, R101). -/
theorem State.grantedBlock_eq (s : State) (p : Port) (e : Entry) (later : List Entry) (cs : List Claim) :
    s.grantedBlock p e later cs = { s.port p with
      claims := cs
      request := none
      record := some (s.takeUp p e)
      queue := { (s.port p).queue with entries := { e with state := .active ⟨false, false, false⟩ } :: later } } := by
  simp only [State.takeUp, Job.directions_upward, Job.directions_leftward, PortConfig.streamTimer_eq]
  rfl

section
variable {s : State} {p : Port} {cs : List Claim} {e : Entry} {later : List Entry} (hr : (s.port p).request = some cs)
  (he : (s.port p).queue.entries = e :: later) (hw : e.isWaiting = true)
include hr he hw

theorem State.tryGrant_of_conflict (h : ∃ a ∈ cs, s.Conflicting p a) : s.tryGrant p = s := by
  have hc := (s.firstConflict_isSome_iff p cs).2 h
  simp only [State.tryGrant, hr, he, hw, Option.isNone_eq_false_iff.2 hc, Bool.and_false, Bool.false_eq_true, if_false]

theorem State.tryGrant_of_free (h : ∀ a ∈ cs, ¬ s.Conflicting p a) :
    s.tryGrant p = s.setPort p (s.grantedBlock p e later cs) := by
  simp only [State.tryGrant, hr, he, hw, (s.firstConflict_eq_none_iff p cs).2 h, Option.isNone_none, Bool.and_true, if_true,
    State.grantedBlock_eq]
  rfl

end

/-- Settles O42: the row tests the request and, when it may, grants it. -/
theorem claimsAreGranted : Obligations.ClaimsAreGranted := by
  intro s p e later cs left hp he hs hr
  have hw : e.isWaiting = true := e.isWaiting_iff.2 ⟨left, hs⟩
  have hexec : exec (.claimGrant p) s = .next (s.tryGrant p) := s.unlessHeld_of_running _ hp
  exact ⟨fun h => hexec.trans (congrArg _ (State.tryGrant_of_conflict hr he hw h)),
    fun h => hexec.trans (congrArg _ (State.tryGrant_of_free hr he hw h))⟩

/-! ### Turns of the waiting requests (R92) -/

/-- A port that awaits no claims is left as it is when its turn comes. -/
theorem State.tryGrant_of_idle (s : State) (p : Port) (h : ∀ cs, ¬ s.AwaitsClaims p cs) : s.tryGrant p = s := by
  obtain ht | ⟨cs, e, rest, hr, he, hw, _, _⟩ := s.tryGrant_cases p
  · exact ht
  · exact absurd ⟨hr, e, rest, he, hw⟩ (h cs)

/-- A turn changes the block of its port alone. -/
theorem State.tryGrant_changes (s : State) (p : Port) : s.tryGrant p = s.setPort p ((s.tryGrant p).port p) := by
  obtain h | ⟨_, _, _, _, _, _, _, h⟩ := s.tryGrant_cases p
  · rw [h, State.setPort_port]
  · rw [h, State.port_setPort_same]

/-- The waiting requests of several ports are reconsidered, in the order of the list (R92). -/
def State.reconsider (s : State) (ps : List Port) : State := ps.foldl (fun s q => s.tryGrant q) s

theorem State.releaseClaims_eq (s : State) (p : Port) :
    s.releaseClaims p = (s.setPort p { s.port p with claims := [] }).reconsider p.roundAfter := rfl

theorem State.reconsider_append (s : State) (ps qs : List Port) :
    s.reconsider (ps ++ qs) = (s.reconsider ps).reconsider qs := List.foldl_append

theorem State.reconsider_cons (s : State) (q : Port) (ps : List Port) :
    s.reconsider (q :: ps) = (s.tryGrant q).reconsider ps := rfl

/-- Turns change the blocks of the ports alone. -/
theorem State.reconsider_changes (s : State) (ps : List Port) : s.reconsider ps = { s with ports := (s.reconsider ps).ports } := by
  induction ps generalizing s with
  | nil => rfl
  | cons q ps ih =>
    rw [State.reconsider_cons, ih, s.tryGrant_changes q]
    rfl

/-- The turns of other ports leave a port as it is. -/
theorem State.port_reconsider_of_not_mem (s : State) (ps : List Port) (r : Port) (h : r ∉ ps) :
    (s.reconsider ps).port r = s.port r := by
  induction ps generalizing s with
  | nil => rfl
  | cons q ps ih =>
    obtain ⟨hq, hps⟩ := not_or.1 (mt List.mem_cons.2 h)
    rw [State.reconsider_cons, ih _ hps, s.tryGrant_changes q, State.port_setPort_ne _ _ _ _ hq]

/-- Each port has one turn in a round. -/
theorem roundAfter_nodup (p : Port) : p.roundAfter.Nodup := by cases p <;> decide

theorem mem_roundAfter (p q : Port) : q ∈ p.roundAfter := by cases p <;> cases q <;> decide

/-- The port whose claims are released has the last turn. -/
theorem mem_after_of_round {p q : Port} {before after : List Port} (h : p.roundAfter = before ++ q :: after) (hq : q ≠ p) :
    p ∈ after := by
  have hlast : p.roundAfter.getLast? = some p := rfl
  rw [h, List.getLast?_append_cons] at hlast
  cases after with
  | nil => exact absurd (Option.some.inj hlast) hq
  | cons r rs =>
    rw [List.getLast?_cons_cons] at hlast
    exact List.mem_of_getLast? hlast

/-- The state in the release of the claims of `p` when the ports `before` have had their turns (R92). -/
def State.atTurn (s : State) (p : Port) (before : List Port) : State :=
  (s.setPort p { s.port p with claims := [] }).reconsider before

theorem State.atTurn_slots (s : State) (p : Port) (before : List Port) : (s.atTurn p before).slots = s.slots := by
  rw [State.atTurn, State.reconsider_changes, State.setPort_slots]

/-- A grant depends on the port's block and the canvas table. -/
theorem State.grantedBlock_congr {s t : State} {p : Port} {e : Entry} {later : List Entry} {cs : List Claim}
    (hslots : t.slots = s.slots) (hp : t.port p = s.port p) : t.grantedBlock p e later cs = s.grantedBlock p e later cs := by
  have hcanvas : t.canvas = s.canvas := funext fun n => t.canvas_congr s n hslots
  rw [State.grantedBlock, State.grantedBlock, hp, hcanvas]

/-! ### One turn in the round of a release (R92) -/

section
variable {s : State} {p q : Port} {before after : List Port} (hround : p.roundAfter = before ++ q :: after)
include hround

theorem not_mem_of_round : q ∉ before ∧ q ∉ after ∧ ∀ r ∈ before, r ∉ q :: after := by
  have hnodup := roundAfter_nodup p
  rw [hround, List.nodup_append] at hnodup
  obtain ⟨_, hq, hapart⟩ := hnodup
  exact ⟨fun h => hapart q h q List.mem_cons_self rfl, (List.nodup_cons.1 hq).1, fun r hr hr' => hapart r hr r hr' rfl⟩

theorem State.port_release_of_round (s : State) (hqp : q ≠ p) :
    (s.releaseClaims p).port q = ((s.atTurn p before).tryGrant q).port q ∧ (s.atTurn p before).port q = s.port q := by
  obtain ⟨hb, ha, _⟩ := not_mem_of_round hround
  refine ⟨?_, ?_⟩
  · rw [State.releaseClaims_eq, hround, State.reconsider_append, State.reconsider_cons,
      State.port_reconsider_of_not_mem _ _ _ ha]
    rfl
  · rw [State.atTurn, State.port_reconsider_of_not_mem _ _ _ hb, State.port_setPort_ne _ _ _ _ hqp]

/-- At the turn of `q` the port whose claims are released has none, the ports before `q` stand as they will after the release,
and all others as they stood. -/
theorem State.port_atTurn (s : State) (hqp : q ≠ p) (r : Port) : (s.atTurn p before).port r =
    if r = p then { s.port p with claims := [] } else if r ∈ before then (s.releaseClaims p).port r else s.port r := by
  obtain ⟨_, _, hapart⟩ := not_mem_of_round hround
  have hlast : p ∉ before := fun h => hapart p h (List.mem_cons_of_mem q (mem_after_of_round hround hqp))
  split
  · next hr => rw [hr, State.atTurn, State.port_reconsider_of_not_mem _ _ _ hlast, State.port_setPort_same]
  · next hrp =>
    split
    · next hr =>
      rw [State.releaseClaims_eq, hround, State.reconsider_append, State.port_reconsider_of_not_mem _ _ _ (hapart r hr)]
      rfl
    · next hr => rw [State.atTurn, State.port_reconsider_of_not_mem _ _ _ hr, State.port_setPort_ne _ _ _ _ hrp]

end

/-- One of the claims `cs` asked for by `q` conflicts with a claim that stands at its turn, behind the ports `before`, in the
release of the claims of `p` (R92). -/
def State.OpposedAt (s : State) (p : Port) (before : List Port) (q : Port) (cs : List Claim) : Prop :=
  ∃ r, r ≠ p ∧ r ≠ q ∧
    ∃ d ∈ if r ∈ before then ((s.releaseClaims p).port r).claims else (s.port r).claims, ∃ a ∈ cs, a.conflicts d = true

section
variable {s : State} {p q : Port} {before after : List Port} (hround : p.roundAfter = before ++ q :: after) (hqp : q ≠ p)
include hround hqp

/-- A request is tested against what stands at its turn. -/
theorem State.opposedAt_iff (cs : List Claim) :
    s.OpposedAt p before q cs ↔ ∃ a ∈ cs, (s.atTurn p before).Conflicting q a := by
  have hclaims (r : Port) (hrp : r ≠ p) : ((s.atTurn p before).port r).claims =
      if r ∈ before then ((s.releaseClaims p).port r).claims else (s.port r).claims := by
    rw [s.port_atTurn hround hqp, if_neg hrp, apply_ite PortBlock.claims]
  constructor
  · rintro ⟨r, hrp, hrq, d, hd, a, ha, hc⟩
    exact ⟨a, ha, r, hrq, d, hclaims r hrp ▸ hd, hc⟩
  · rintro ⟨a, ha, r, hrq, d, hd, hc⟩
    by_cases hrp : r = p
    · rw [s.port_atTurn hround hqp, if_pos hrp] at hd
      cases hd
    · exact ⟨r, hrp, hrq, d, hclaims r hrp ▸ hd, a, ha, hc⟩

/-- A port that awaits nothing is left as it is. -/
theorem State.release_of_idle (h : ∀ cs, ¬ s.AwaitsClaims q cs) : (s.releaseClaims p).port q = s.port q := by
  obtain ⟨hend, hq⟩ := s.port_release_of_round hround hqp
  have hidle : ∀ cs, ¬ (s.atTurn p before).AwaitsClaims q cs := by
    simpa only [State.AwaitsClaims, hq] using h
  rw [hend, State.tryGrant_of_idle _ _ hidle, hq]

variable {cs : List Claim} {e : Entry} {later : List Entry} (hr : (s.port q).request = some cs)
  (he : (s.port q).queue.entries = e :: later) (hw : e.isWaiting = true)
include hr he hw

theorem State.release_of_opposed (h : s.OpposedAt p before q cs) : (s.releaseClaims p).port q = s.port q := by
  obtain ⟨hend, hq⟩ := s.port_release_of_round hround hqp
  rw [← hq] at hr he
  rw [hend, State.tryGrant_of_conflict hr he hw ((State.opposedAt_iff hround hqp cs).1 h), hq]

theorem State.release_of_unopposed (h : ¬ s.OpposedAt p before q cs) :
    (s.releaseClaims p).port q = s.grantedBlock q e later cs := by
  obtain ⟨hend, hq⟩ := s.port_release_of_round hround hqp
  rw [State.opposedAt_iff hround hqp] at h
  rw [← State.grantedBlock_congr (s.atTurn_slots p before) hq]
  rw [← hq] at hr he
  rw [hend, State.tryGrant_of_free hr he hw fun a ha hc => h ⟨a, ha, hc⟩, State.port_setPort_same]

end

/-! ### What conflicts after a release (R92) -/

section
variable {s : State} {p : Port} (hp : ∀ cs, ¬ s.AwaitsClaims p cs)
  (hnone : ∀ q cs, s.AwaitsClaims q cs → (s.port q).claims = [])

include hp in
/-- The port itself, which awaits nothing, is left without claims. -/
theorem State.release_self : (s.releaseClaims p).port p = { s.port p with claims := [] } := by
  have hround : p.roundAfter = [p.after, p.after.after, p.after.after.after] ++ [p] := rfl
  have hmem : p ∉ [p.after, p.after.after, p.after.after.after] := by cases p <;> decide
  have hturn : (s.atTurn p [p.after, p.after.after, p.after.after.after]).port p = { s.port p with claims := [] } := by
    rw [State.atTurn, State.port_reconsider_of_not_mem _ _ _ hmem, State.port_setPort_same]
  have hidle : ∀ cs, ¬ (s.atTurn p [p.after, p.after.after, p.after.after.after]).AwaitsClaims p cs := by
    simpa only [State.AwaitsClaims, hturn] using hp
  rw [State.releaseClaims_eq, hround, State.reconsider_append]
  change ((s.atTurn p _).tryGrant p).port p = _
  rw [State.tryGrant_of_idle _ _ hidle, hturn]

include hnone in
/-- Claims that stood before the release of another port's stand after it. -/
theorem State.release_claims_of_mem {r : Port} (hrp : r ≠ p) {d : Claim} (hd : d ∈ (s.port r).claims) :
    d ∈ ((s.releaseClaims p).port r).claims := by
  obtain ⟨before, after, hround⟩ := List.append_of_mem (mem_roundAfter p r)
  rw [State.release_of_idle hround hrp fun cs h => by rw [hnone r cs h] at hd; cases hd]
  exact hd

variable {q : Port} {before after : List Port} (hround : p.roundAfter = before ++ q :: after) (hqp : q ≠ p)
  {cs : List Claim} {e : Entry} {later : List Entry} (hr : (s.port q).request = some cs)
  (he : (s.port q).queue.entries = e :: later) (hw : e.isWaiting = true)

include hnone in
/-- A request that is opposed at its turn conflicts after the release. -/
theorem State.conflicting_of_opposed (h : s.OpposedAt p before q cs) : ∃ a ∈ cs, (s.releaseClaims p).Conflicting q a := by
  obtain ⟨r, hrp, hrq, d, hd, a, ha, hc⟩ := h
  refine ⟨a, ha, r, hrq, d, ?_, hc⟩
  split at hd
  · exact hd
  · exact State.release_claims_of_mem hnone hrp hd

include hp hround hqp hr he hw in
/-- A request that is granted conflicts with none after the release: none of those granted after it conflicts with it. -/
theorem State.not_conflicting_of_unopposed (h : ¬ s.OpposedAt p before q cs) :
    ∀ a ∈ cs, ¬ (s.releaseClaims p).Conflicting q a := by
  rintro a ha ⟨r, hrq, d, hd, hc⟩
  have hrp : r ≠ p := by
    rintro rfl
    rw [State.release_self hp] at hd
    cases hd
  have hrb : r ∉ before := fun hrb => h ⟨r, hrp, hrq, d, by rwa [if_pos hrb], a, ha, hc⟩
  have hnew : d ∉ (s.port r).claims := fun hd' => h ⟨r, hrp, hrq, d, by rwa [if_neg hrb], a, ha, hc⟩
  have hra : r ∈ after := by
    have hmem := hround ▸ mem_roundAfter p r
    simpa only [List.mem_append, List.mem_cons, hrb, hrq, false_or] using hmem
  obtain ⟨between, behind, rfl⟩ := List.append_of_mem hra
  have hround' : p.roundAfter = (before ++ q :: between) ++ r :: behind := by
    rw [hround, List.append_assoc, List.cons_append]
  by_cases hwait : ∃ cs, s.AwaitsClaims r cs
  · obtain ⟨cs', hr', e', later', he', hw'⟩ := hwait
    by_cases hop : s.OpposedAt p (before ++ q :: between) r cs'
    · rw [State.release_of_opposed hround' hrp hr' he' hw' hop] at hd
      exact hnew hd
    · rw [State.release_of_unopposed hround' hrp hr' he' hw' hop] at hd
      refine hop ⟨q, hqp, hrq.symm, a, ?_, d, hd, (d.conflicts_comm a).trans hc⟩
      rw [if_pos (List.mem_append_right _ List.mem_cons_self),
        State.release_of_unopposed hround hqp hr he hw h]
      exact ha
  · rw [State.release_of_idle hround' hrp (not_exists.1 hwait)] at hd
    exact hnew hd

end

/-- Settles O43: each request has one turn, at which it is granted or left, and what stands then decides what stands after. -/
theorem releaseReconsidersRequests : Obligations.ReleaseReconsidersRequests := by
  intro s p hp hnone t
  refine ⟨State.reconsider_changes _ _, State.release_self hp, fun q hqp => ⟨fun h => ?_, fun cs e later hr he hw =>
    ⟨?_, fun before after hround => ⟨?_, ?_⟩⟩⟩⟩
  · obtain ⟨before, after, hround⟩ := List.append_of_mem (mem_roundAfter p q)
    exact State.release_of_idle hround hqp h
  · obtain ⟨before, after, hround⟩ := List.append_of_mem (mem_roundAfter p q)
    by_cases h : s.OpposedAt p before q cs
    · exact .inl ⟨State.conflicting_of_opposed hnone h, State.release_of_opposed hround hqp hr he hw h⟩
    · exact .inr ⟨State.not_conflicting_of_unopposed hp hround hqp hr he hw h,
        State.release_of_unopposed hround hqp hr he hw h⟩
  · exact State.release_of_opposed hround hqp hr he hw
  · exact State.release_of_unopposed hround hqp hr he hw

end Sys2Proof.Machine

/-! SUPPORT. The engine and the store (R23, R26, R102 to R105, R112 to R114, R122 to R127): what the two arbiters choose, and
what the end of a span leaves of the store, of the port and of its link. -/

namespace Sys2Proof.Machine

/-! ### Ready jobs (R102) -/

theorem PortBlock.jobReady_iff (b : PortBlock) (r : EngineRecord) : b.jobReady r = true ↔
    (r.job.kind = .write → r.spanBytes ≤ b.staging.held.length) ∧
      (r.job.kind = .read → b.link.used.length + b.link.reserved < 8) := by
  have hfree : (b.link.freeSlots != 0) = true ↔ b.link.used.length + b.link.reserved < 8 := by
    rw [bne_iff_ne, Ne, Link.freeSlots_eq_zero, Nat.not_le]
  unfold PortBlock.jobReady
  split
  · next h => simp [h, PortBlock.writeReady]
  · next h => simp [h, hfree]
  · next hw hr => exact iff_of_true rfl ⟨fun h => (hw h).elim, fun h => (hr h).elim⟩

theorem PortBlock.ready_iff (b : PortBlock) : b.ready = true ↔ b.HasReadyJob := by
  simp only [PortBlock.ready, Option.any_eq_true, PortBlock.jobReady_iff, PortBlock.HasReadyJob]

/-! ### The engine arbiter (R103, R104) -/

theorem State.nextToServe_of_none (s : State) (h : ∀ p, ¬ (s.port p).HasReadyJob) : s.nextToServe = none :=
  List.find?_eq_none.2 fun p _ => mt (s.port p).ready_iff.1 (h p)

theorem State.nextToServe_of_round (s : State) {before after : List Port} {p : Port}
    (hround : s.engine.lastServed.roundAfter = before ++ p :: after) (hb : ∀ q ∈ before, ¬ (s.port q).HasReadyJob)
    (hp : (s.port p).HasReadyJob) : s.nextToServe = some p := by
  have hbefore : before.find? (fun q => (s.port q).ready) = none :=
    List.find?_eq_none.2 fun q hq => mt (s.port q).ready_iff.1 (hb q hq)
  rw [State.nextToServe, hround, List.find?_append, hbefore, Option.none_or]
  exact List.find?_cons_of_pos ((s.port p).ready_iff.2 hp)

section
variable {b : PortBlock} {r : EngineRecord} (hr : b.record = some r)
include hr

theorem PortBlock.spanData_of_record :
    b.spanData = if r.job.kind = .write then b.staging.held.take r.spanBytes else [] := by
  rw [PortBlock.spanData, hr]

/-- A ready READ reserves its slot, and no other job has one reserved (R104). -/
theorem PortBlock.reserveSpanSlot_of_ready (hb : b.HasReadyJob) : b.reserveSpanSlot =
    if r.job.kind = .read then
      { b with link := { b.link with reserved := b.link.reserved + 1 }, record := some { r with spanSlot := true } }
    else b := by
  obtain ⟨r', hr', _, hfree⟩ := hb
  obtain rfl : r = r' := Option.some.inj (hr.symm.trans hr')
  rw [PortBlock.reserveSpanSlot, hr]
  refine ite_congr rfl (fun hk => ?_) fun _ => rfl
  rw [Link.reserve_of_free _ (hfree hk)]

end

theorem State.beginSpan_eq (s : State) (p : Port) : s.beginSpan p =
    State.setPort { s with engine := ⟨some ⟨p, (s.port p).spanData⟩, p⟩ } p (s.port p).reserveSpanSlot := rfl

/-! ### The store arbiter (R26, R34) -/

theorem exec_storeAccessBegin_of_choice (s : State) (a : Access) (r : Requester) (hp : s.resetPin = false)
    (hi : s.arbiter.serving = none) (hc : s.arbiterChoice = some (a, r)) :
    exec .storeAccessBegin s = .next { s with arbiter := ⟨some a, r⟩ } := by
  change execStoreAccessBegin s = _
  rw [execStoreAccessBegin, s.unlessHeld_of_running _ hp, hi, hc]
  rfl

theorem exec_storeAccessBegin_of_none (s : State) (hp : s.resetPin = false)
    (h : s.arbiter.serving ≠ none ∨ s.arbiterChoice = none) : exec .storeAccessBegin s = .next s := by
  change execStoreAccessBegin s = _
  rw [execStoreAccessBegin, s.unlessHeld_of_running _ hp]
  split
  · rfl
  · next hi =>
    rw [h.resolve_left fun hs => hi (Option.isSome_iff_ne_none.2 hs)]

theorem State.blockRequest_of_head (s : State) {n : Nat} {others : List Nat} {c : Canvas} (hl : s.clear.list = n :: others)
    (hc : s.canvas n = some c) :
    s.blockRequest = some (.block (c.firstBlock + s.clear.clearedSoFar) c.format c.fill) := by
  simp only [State.blockRequest, hl, hc, Option.map_some]

theorem State.blockRequest_of_nil (s : State) (hl : s.clear.list = []) : s.blockRequest = none := by
  rw [State.blockRequest, hl]

theorem State.spanRequest_of_span (s : State) {x : Span} (h : s.engine.span = some x) : s.spanRequest = some .span := by
  rw [State.spanRequest, h, Option.map_some]

theorem State.spanRequest_of_none (s : State) (h : s.engine.span = none) : s.spanRequest = none := by
  rw [State.spanRequest, h, Option.map_none]

/-- Settles O47: each arbiter takes the first it finds that waits, from its marker on. -/
theorem arbitersChoose : Obligations.ArbitersChoose := by
  refine ⟨fun s hp => ⟨fun h => ?_, fun h hnone => ?_, ?_⟩, fun s hp => ?_⟩
  · change execSpanBegin s = _
    rw [execSpanBegin, s.unlessHeld_of_running _ hp, if_pos (Option.isSome_iff_ne_none.2 h)]
  · rw [exec_spanBegin_of_idle s hp h, State.chooseSpan, s.nextToServe_of_none hnone]
  · intro before p after r h hround hb hready hr b
    rw [exec_spanBegin_of_idle s hp h, State.chooseSpan, s.nextToServe_of_round hround hb hready]
    simp only [State.beginSpan_eq, PortBlock.spanData_of_record hr, PortBlock.reserveSpanSlot_of_ready hr hready]
    rfl
  · intro begins
    refine ⟨fun h => exec_storeAccessBegin_of_none s hp (.inl h), fun hi => ⟨fun hs hl => ?_, fun x hs hl => ?_, ?_⟩⟩
    · refine exec_storeAccessBegin_of_none s hp (.inr ?_)
      rw [State.arbiterChoice, s.spanRequest_of_none hs, s.blockRequest_of_nil hl]
    · refine exec_storeAccessBegin_of_choice s _ _ hp hi ?_
      rw [State.arbiterChoice, s.spanRequest_of_span hs, s.blockRequest_of_nil hl]
    · intro n others c hl hc block
      have hblock := s.blockRequest_of_head hl hc
      refine ⟨fun hs => ?_, fun x hs => ⟨fun hm => ?_, fun hm => ?_⟩⟩ <;> refine exec_storeAccessBegin_of_choice s _ _ hp hi ?_
      · rw [State.arbiterChoice, s.spanRequest_of_none hs, hblock]
      · rw [State.arbiterChoice, s.spanRequest_of_span hs, hblock]
        exact if_pos hm
      · rw [State.arbiterChoice, s.spanRequest_of_span hs, hblock]
        exact if_neg (by rw [hm]; decide)

/-! ### The store at the end of a span (R22, R23) -/

/-- Words read with a flipped bit, good before, are correctable (R22). -/
theorem Store.condition_noteCorrected (m : Store) (reads corrected : List Nat) (w : Nat) :
    (m.noteCorrected reads corrected).condition w =
      if w ∈ reads ∧ w ∈ corrected ∧ wordOk w = true ∧ m.condition w = none then some .correctable else m.condition w := by
  have hmem : w ∈ reads ∧ w ∈ corrected ∧ wordOk w = true ∧ m.condition w = none ↔
      w ∈ reads.filter corrected.contains ∧ wordOk w = true ∧ m.condition w = none := by
    rw [List.mem_filter, List.contains_iff_mem, and_assoc]
  rw [if_congr hmem rfl rfl, Store.noteCorrected]
  clear hmem
  generalize reads.filter corrected.contains = ws
  induction ws generalizing m with
  | nil => simp
  | cons x ws ih =>
    rw [List.foldl_cons, ih]
    by_cases hx : ((m.condition x).isNone && wordOk x) = true
    · rw [if_pos hx, Store.condition_setCondition]
      rw [Bool.and_eq_true, Option.isNone_iff_eq_none] at hx
      by_cases hw : w = x
      · subst hw
        simp [hx]
      · simp [hw]
    · rw [if_neg hx]
      refine if_congr ?_ rfl rfl
      rw [Bool.and_eq_true, Option.isNone_iff_eq_none] at hx
      constructor
      · rintro ⟨hw, h⟩
        exact ⟨List.mem_cons_of_mem _ hw, h⟩
      · rintro ⟨hw, hok, hc⟩
        refine ⟨(List.mem_cons.1 hw).resolve_left ?_, hok, hc⟩
        rintro rfl
        exact hx ⟨hc, hok⟩

/-- The words a span wrote are good, and no other changes its condition (R22). -/
theorem EngineRecord.condition_writePhase (r : EngineRecord) (m : Store) (data : List Byte) (w : Nat) :
    (r.writePhase m data).condition w = if w ∈ r.dstWords then none else m.condition w := by
  cases hd : r.dst with
  | none => simp [EngineRecord.writePhase, EngineRecord.dstWords_of_none, hd]
  | some g =>
    simp only [EngineRecord.writePhase, hd, Store.condition_makeGood, Store.write_condition]

/-- The words read by an access within the store exist (R21). -/
theorem EngineRecord.wordOk_of_reads (r : EngineRecord) (h : r.accessInStore = true) {w : Nat} (hw : w ∈ r.reads) :
    wordOk w = true := by
  rw [EngineRecord.accessInStore, Bool.and_eq_true, List.all_eq_true] at h
  refine h.1 w ?_
  rw [EngineRecord.reads, List.mem_append] at hw
  exact List.mem_append.2 (hw.imp_right fun hw => r.dstReads_sublist.subset hw)

/-! ### The port at the end of a span (R105, R112 to R114, R122, R125, R127) -/

/-- The offset of a READ's data counts whole rows and the columns before the span (R127). -/
theorem EngineRecord.spanOffset_of_read (r : EngineRecord) (hk : r.job.kind = .read) (hl : r.leftward = false) :
    r.spanOffset =
      match r.src with
      | some g => r.row * g.format.rowBytes r.job.rect.w + g.format.rowBytes r.col
      | none => 0 := by
  simp only [EngineRecord.spanOffset, EngineRecord.spanGeo, hk, EngineRecord.spanLeft, hl, Bool.false_eq_true, if_false]
  cases r.src <;> rfl

/-- A READ's data goes into the reserved slot, or the slot is released under the port's reset (R105, R114). -/
theorem PortBlock.placeData_of_read (b : PortBlock) (r : EngineRecord) (data : List Byte)
    (hdir : r.job.kind = .read → r.leftward = false) (hslot : r.spanSlot = true → 0 < b.link.reserved) :
    (if r.job.kind = .read then b.placeData r data else b.link) =
      if r.job.kind = .read ∧ r.spanSlot = true then
        if b.portState.isResetting then { b.link with reserved := b.link.reserved - 1 }
        else b.link.placedReserved .dat (enc16 r.seq ++ enc32 (match r.src with
          | some g => r.row * g.format.rowBytes r.job.rect.w + g.format.rowBytes r.col
          | none => 0) ++ data)
      else b.link := by
  by_cases hk : r.job.kind = .read
  · cases hs : r.spanSlot with
    | false => simp [PortBlock.placeData, hs]
    | true =>
      simp only [PortBlock.placeData, hk, hs, Link.fill_of_reserved _ _ _ (hslot hs), EngineRecord.datPayload,
        r.spanOffset_of_read hk (hdir hk), Bool.not_true, Bool.false_eq_true, if_false, if_true, and_self]
      rfl
  · rw [if_neg hk, if_neg fun h => hk h.1]

/-- The job goes on when it has a next span and no stop mark; else it is reported, and its record is gone (R105, R112). -/
theorem PortBlock.spanComplete_eq (b : PortBlock) (r : EngineRecord) (data : List Byte)
    (hdir : r.job.kind = .read → r.leftward = false) (hslot : r.spanSlot = true → 0 < b.link.reserved) :
    b.spanComplete r data = { b with
    staging := if r.job.kind = .write then { b.staging with held := b.staging.held.drop r.spanBytes } else b.staging
    link :=
      if r.job.kind = .read ∧ r.spanSlot = true then
        if b.portState.isResetting then { b.link with reserved := b.link.reserved - 1 }
        else b.link.placedReserved .dat (enc16 r.seq ++ enc32 (match r.src with
          | some g => r.row * g.format.rowBytes r.job.rect.w + g.format.rowBytes r.col
          | none => 0) ++ data)
      else b.link
    record :=
      match r.nextProgress, r.stopMark with
      | some (row, col), false => some { r with
          row := row, col := col, spanSlot := false
          timer := if r.spanSlot then some b.config.readStall else r.timer }
      | _, _ => none
    queue := { b.queue with report :=
      match r.nextProgress, r.stopMark with
      | none, false => some .finished
      | none, true => some (.stopped .last)
      | some _, true => some (.stopped .notLast)
      | some _, false => b.queue.report } } := by
  unfold PortBlock.spanComplete EngineRecord.endReport EngineRecord.advance
  rw [b.placeData_of_read r data hdir hslot]
  cases r.nextProgress <;> cases r.stopMark <;> rfl

section
variable {s : State} {p : Port} {r : EngineRecord} {data : List Byte} (h : s.SpanServed p r data)
include h

/-- A served span whose words read good or correctable ends so, and the next is chosen (R105). -/
theorem exec_spanComplete_of_served (corrected : List Nat) :
    exec (.spanComplete corrected) s = .next (s.spanCompleted ⟨p, data⟩ r corrected).chooseSpan := by
  obtain ⟨hpin, ha, he, hr, hin, hgood⟩ := h
  have hserved := s.spanServed_of ⟨p, data⟩ r ha he hr
  have hnone : s.store.firstUncorrectable r.reads = none :=
    List.find?_eq_none.2 fun w hw => mt (s.store.uncorrectable_iff w).1 (hgood w hw)
  change execSpanComplete corrected s = _
  simp only [execSpanComplete, hpin, hserved, hin, hnone, Bool.not_true, Bool.false_eq_true, if_false, Option.isSome_none]

end

/-- What a span's good end changes: the store, the port, the engine's span and the store's access (R105). -/
theorem State.spanCompleted_eq (s : State) (p : Port) (r : EngineRecord) (data : List Byte) (corrected : List Nat) :
    s.spanCompleted ⟨p, data⟩ r corrected = { s with
    ports := s.ports.set p ((s.port p).spanComplete r (r.readData s.store))
    store := r.writePhase (s.store.noteCorrected r.reads corrected) data
    engine := { s.engine with span := none }
    arbiter := { s.arbiter with serving := none } } := rfl

/-- Settles O48: the state in which the span has ended is the one in which SPAN_BEGIN then chooses. -/
theorem spanCompletes : Obligations.SpanCompletes := by
  intro s p r data corrected h b offset hdir hslot
  have ⟨hpin, _, _, _, hin, _⟩ := h
  have ht := s.spanCompleted_eq p r data corrected
  have hport : (s.spanCompleted ⟨p, data⟩ r corrected).port p = b.spanComplete r (r.readData s.store) := by
    rw [ht]
    exact Quad.get_set_same _ _ _
  have hstore : (s.spanCompleted ⟨p, data⟩ r corrected).store =
      r.writePhase (s.store.noteCorrected r.reads corrected) data := by rw [ht]
  refine ⟨_, _, exec_spanComplete_of_served h corrected, exec_spanBegin_of_idle _ ?_ ?_, ?_, fun w => ?_, ?_, ?_⟩
  · rw [ht]; exact hpin
  · rw [ht]
  · rw [hport, ht]
  · rw [hstore, r.condition_writePhase, Store.condition_noteCorrected]
    refine ite_congr rfl (fun _ => rfl) fun _ => if_congr ?_ rfl rfl
    exact and_congr_right fun hw => and_congr_right fun _ => and_iff_right (r.wordOk_of_reads hin hw)
  · intro hp hn w
    rw [hstore, r.checkBits_writePhase _ _ _ hp hn, Store.noteCorrected_checkBits]
  · exact hport.trans (b.spanComplete_eq r _ hdir hslot)

end Sys2Proof.Machine

/-! SUPPORT. The pixels of a row (R21, R107, R128): the bits of a pixel, pixels packed as bytes and read back, and what the
write phase of a span makes of the row. -/

namespace Sys2Proof.Machine

/-! ### Bits of colours (R4, R107) -/

/-- Every bit of the result is looked up in the code with the bits of source and destination (R107). -/
theorem raster_getLsbD (code : Nat) (x y : Colour) (k : Nat) (hk : k < 32) :
    (raster code x y).getLsbD k = code.testBit (2 * (x.getLsbD k).toNat + (y.getLsbD k).toNat) := by
  have hite (c : Bool) (v : Colour) : (if c then v else 0).getLsbD k = (c && v.getLsbD k) := by cases c <;> simp
  simp only [raster, BitVec.getLsbD_or, hite, BitVec.getLsbD_and, BitVec.getLsbD_not, hk, decide_true, Bool.true_and]
  cases x.getLsbD k <;> cases y.getLsbD k <;> simp

theorem mask_getLsbD (n k : Nat) (hk : k < 32) : (BitVec.ofNat 32 (2 ^ n - 1)).getLsbD k = decide (k < n) := by
  rw [BitVec.getLsbD_ofNat, Nat.testBit_two_pow_sub_one, decide_eq_true hk, Bool.true_and]

/-- A pixel of a format has the low bits of the value (R4). -/
theorem Format.truncate_getLsbD (f : Format) (v : Colour) (k : Nat) :
    (f.truncate v).getLsbD k = (decide (k < f.bits) && v.getLsbD k) := by
  by_cases hk : k < 32
  · have hmask (n : Nat) : (v &&& BitVec.ofNat 32 (2 ^ n - 1)).getLsbD k = (decide (k < n) && v.getLsbD k) := by
      rw [BitVec.getLsbD_and, mask_getLsbD n k hk, Bool.and_comm]
    cases f with
    | m1 => exact hmask 1
    | i8 => exact hmask 8
    | c16 => exact hmask 16
    | c32 => simp [Format.truncate, Format.bits, hk]
  · rw [BitVec.getLsbD_of_ge _ _ (by omega), BitVec.getLsbD_of_ge _ _ (by omega), Bool.and_false]

@[simp] theorem Format.truncate_truncate (f : Format) (v : Colour) : f.truncate (f.truncate v) = f.truncate v := by
  refine BitVec.eq_of_getLsbD_eq fun k _ => ?_
  rw [f.truncate_getLsbD, f.truncate_getLsbD, ← Bool.and_assoc, Bool.and_self]

/-- Eight bits as a byte, the first in the most significant bit. -/
theorem byteOfBits_getLsbD (bit : Nat → Bool) (i : Nat) (hi : i < 8) : (byteOfBits bit).getLsbD (7 - i) = bit i := by
  have hfold (n k : Nat) (hk : k < 8) :
      ((List.range n).foldl (fun (acc : Byte) i => (acc <<< 1) ||| (if bit i then 1 else 0)) 0).getLsbD k =
        (decide (k < n) && bit (n - 1 - k)) := by
    induction n generalizing k with
    | zero => simp
    | succ n ih =>
      rw [List.range_succ, List.foldl_append, List.foldl_cons, List.foldl_nil, BitVec.getLsbD_or, BitVec.getLsbD_shiftLeft]
      cases k with
      | zero => cases h : bit n <;> simp [h]
      | succ k =>
        have hlow : (if bit n then (1 : Byte) else 0).getLsbD (k + 1) = false := by cases bit n <;> simp
        rw [hlow, Nat.add_sub_cancel, ih k (by omega), show n + 1 - 1 - (k + 1) = n - 1 - k by omega]
        simp [hk]
  rw [byteOfBits, hfold 8 (7 - i) (by omega), show 8 - 1 - (7 - i) = i by omega, decide_eq_true (by omega), Bool.true_and]

/-! ### A pixel in the bytes of its row (R21, R128) -/

/-- The pixel `x` of a row whose bytes, from the row's first, are `b` (R21). -/
def pixelIn (f : Format) (b : Nat → Byte) (x : Nat) : Colour :=
  match f with
  | .m1 => if (b (x / 8)).getLsbD (7 - x % 8) then 1 else 0
  | .i8 => (b x).setWidth 32
  | .c16 => (b (2 * x)).setWidth 32 ||| ((b (2 * x + 1)).setWidth 32 <<< 8)
  | .c32 => (b (4 * x)).setWidth 32 ||| ((b (4 * x + 1)).setWidth 32 <<< 8) |||
      ((b (4 * x + 2)).setWidth 32 <<< 16) ||| ((b (4 * x + 3)).setWidth 32 <<< 24)

theorem Store.pixel_eq (m : Store) (g : Geo) (x y : Nat) :
    m.pixel g x y = pixelIn g.format (fun k => m.read (g.rowBase y + k)) x := by
  unfold Store.pixel pixelIn
  cases g.format <;> simp only [Nat.add_assoc]

/-- The bits of a byte that stands in a field as its byte `j`: of the bits of byte `q` of the field, those of the byte itself. -/
theorem shifted_byte_getLsbD (v : Byte) (j q t : Nat) (ht : t < 8) (hq : q < 4) :
    ((v.setWidth 32 : Colour) <<< (8 * j)).getLsbD (8 * q + t) = (decide (q = j) && v.getLsbD t) := by
  rw [BitVec.getLsbD_shiftLeft, BitVec.getLsbD_setWidth, decide_eq_true (by omega : 8 * q + t < 32), Bool.true_and]
  rcases Nat.lt_trichotomy q j with h | h | h
  · simp [show 8 * q + t < 8 * j by omega, Nat.ne_of_lt h]
  · subst h
    simp [show t < 32 by omega]
  · rw [BitVec.getLsbD_of_ge v _ (by omega), decide_eq_false (by omega : ¬ q = j), Bool.and_false, Bool.and_false, Bool.false_and]

/-- The bits of a pixel of whole bytes, of which the first is the least significant (R21). -/
theorem pixelIn_getLsbD {f : Format} (hf : f ≠ .m1) (b : Nat → Byte) (x q t : Nat) (ht : t < 8) (hq : q < 4) :
    (pixelIn f b x).getLsbD (8 * q + t) = (decide (q < f.bits / 8) && (b (f.bits / 8 * x + q)).getLsbD t) := by
  have h0 (v : Byte) : (v.setWidth 32 : Colour).getLsbD (8 * q + t) = (decide (q = 0) && v.getLsbD t) := by
    rw [← shifted_byte_getLsbD v 0 q t ht hq, Nat.mul_zero, BitVec.shiftLeft_zero]
  have h1 := fun v => shifted_byte_getLsbD v 1 q t ht hq
  have h2 := fun v => shifted_byte_getLsbD v 2 q t ht hq
  have h3 := fun v => shifted_byte_getLsbD v 3 q t ht hq
  cases f with
  | m1 => exact absurd rfl hf
  | i8 | c16 | c32 =>
    simp only [pixelIn, Format.bits, BitVec.getLsbD_or, h0, h1, h2, h3]
    interval_cases q <;> simp

/-- Colours are equal when their bytes agree bit by bit. -/
theorem Colour.eq_of_bytes {v w : Colour} (h : ∀ q t, q < 4 → t < 8 → v.getLsbD (8 * q + t) = w.getLsbD (8 * q + t)) :
    v = w := by
  refine BitVec.eq_of_getLsbD_eq fun k hk => ?_
  have := h (k / 8) (k % 8) (by omega) (by omega)
  rwa [Nat.div_add_mod] at this

theorem Format.bits_of_ne {f : Format} (hf : f ≠ .m1) : f.bits = 8 * (f.bits / 8) := by
  cases f with
  | m1 => exact absurd rfl hf
  | _ => rfl

/-- A pixel of a format of whole bytes has the low bytes of the value (R4). -/
theorem Format.truncate_byte {f : Format} (hf : f ≠ .m1) (v : Colour) (q t : Nat) (ht : t < 8) :
    (f.truncate v).getLsbD (8 * q + t) = (decide (q < f.bits / 8) && v.getLsbD (8 * q + t)) := by
  have hlt : 8 * q + t < f.bits ↔ q < f.bits / 8 := by
    have := f.bits_of_ne hf
    omega
  rw [f.truncate_getLsbD, decide_eq_decide.2 hlt]

/-- A pixel has no bits but those of its format. -/
theorem truncate_pixelIn (f : Format) (b : Nat → Byte) (x : Nat) : f.truncate (pixelIn f b x) = pixelIn f b x := by
  by_cases hf : f = .m1
  · have hbit (c : Bool) : Format.m1.truncate (if c then 1 else 0) = if c then 1 else 0 := by cases c <;> decide
    subst hf
    exact hbit _
  · refine Colour.eq_of_bytes fun q t hq ht => ?_
    rw [Format.truncate_byte hf _ _ _ ht, pixelIn_getLsbD hf _ _ _ _ ht hq, ← Bool.and_assoc, Bool.and_self]

theorem Store.truncate_pixel (m : Store) (g : Geo) (x y : Nat) : g.format.truncate (m.pixel g x y) = m.pixel g x y := by
  rw [m.pixel_eq, truncate_pixelIn]

/-! ### Fields of data (R186) -/

theorem num16_testBit (data : List Byte) (j q t : Nat) (ht : t < 8) :
    (num16 data j).testBit (8 * q + t) = (decide (q < 2) && (byteAt data (j + q)).getLsbD t) := by
  have hsplit : (num16 data j).testBit (8 * q + t) =
      if 8 * q + t < 8 then (byteAt data j).getLsbD (8 * q + t) else (byteAt data (j + 1)).getLsbD (8 * q + t - 8) := by
    rw [num16, Nat.add_comm]
    exact Nat.testBit_two_pow_mul_add (i := 8) _ (byteAt data j).isLt _
  rw [hsplit]
  match q with
  | 0 => simp [ht]
  | 1 => simp [show 8 + t - 8 = t by omega]
  | q + 2 =>
    rw [if_neg (by omega), BitVec.getLsbD_of_ge _ _ (by omega), decide_eq_false (by omega), Bool.false_and]

theorem num32_testBit (data : List Byte) (j q t : Nat) (hq : q < 4) (ht : t < 8) :
    (num32 data j).testBit (8 * q + t) = (byteAt data (j + q)).getLsbD t := by
  have hsplit : (num32 data j).testBit (8 * q + t) = if 8 * q + t < 16 then (num16 data j).testBit (8 * q + t)
      else (num16 data (j + 2)).testBit (8 * q + t - 16) := by
    rw [num32, Nat.add_comm]
    exact Nat.testBit_two_pow_mul_add (i := 16) _ (num16_lt data j) _
  rw [hsplit]
  by_cases h : q < 2
  · rw [if_pos (by omega), num16_testBit _ _ _ _ ht, decide_eq_true h, Bool.true_and]
  · rw [if_neg (by omega), show 8 * q + t - 16 = 8 * (q - 2) + t by omega, num16_testBit _ _ _ _ ht,
      decide_eq_true (by omega), Bool.true_and, show j + 2 + (q - 2) = j + q by omega]

/-- Packed data is read as the bytes of a row are (R128, R21). -/
theorem unpackPixel_eq (f : Format) (data : List Byte) (i : Nat) : unpackPixel f data i = pixelIn f (byteAt data) i := by
  by_cases hf : f = .m1
  · subst hf
    rfl
  · refine Colour.eq_of_bytes fun q t hq ht => ?_
    have hlt : 8 * q + t < 32 := by omega
    rw [pixelIn_getLsbD hf _ _ _ _ ht hq]
    cases f with
    | m1 => exact absurd rfl hf
    | i8 =>
      rw [unpackPixel, BitVec.getLsbD_ofNat, decide_eq_true hlt, Bool.true_and]
      change (byteAt data i).getLsbD _ = (decide (q < 1) && (byteAt data (1 * i + q)).getLsbD t)
      by_cases h : q = 0
      · simp [h]
      · rw [BitVec.getLsbD_of_ge _ _ (by omega), decide_eq_false (by omega), Bool.false_and]
    | c16 =>
      rw [unpackPixel, BitVec.getLsbD_ofNat, num16_testBit _ _ _ _ ht, decide_eq_true hlt, Bool.true_and]
      rfl
    | c32 =>
      rw [unpackPixel, BitVec.getLsbD_ofNat, num32_testBit _ _ _ _ hq ht, decide_eq_true hlt, Bool.true_and]
      rw [decide_eq_true (show q < Format.c32.bits / 8 from hq), Bool.true_and]
      rfl

/-! ### Pixels as bytes (R21, R128) -/

section
variable {f : Format} (hf : f ≠ .m1)
include hf

theorem pixelBytes_length (v : Colour) : (pixelBytes f v).length = f.bits / 8 := by
  cases f with
  | m1 => exact absurd rfl hf
  | i8 | c16 | c32 => simp only [pixelBytes, List.length_cons, List.length_nil, Format.bits]

theorem pixelBytes_getLsbD (v : Colour) (q t : Nat) (hq : q < f.bits / 8) (ht : t < 8) :
    ((pixelBytes f v).getD q 0).getLsbD t = v.getLsbD (8 * q + t) := by
  cases f with
  | m1 => exact absurd rfl hf
  | i8 | c16 | c32 =>
    simp only [Format.bits] at hq
    interval_cases q <;> simp [pixelBytes, ht]

/-- The bytes of a pixel stand in packed data at the pixel's index. -/
theorem flatMap_pixelBytes_getD (px : List Colour) (i q : Nat) (hi : i < px.length) (hq : q < f.bits / 8) :
    (px.flatMap (pixelBytes f)).getD (f.bits / 8 * i + q) 0 = (pixelBytes f (px.getD i 0)).getD q 0 := by
  induction px generalizing i with
  | nil => cases hi
  | cons v px ih =>
    have hlen := pixelBytes_length hf v
    rw [List.flatMap_cons]
    cases i with
    | zero => rw [Nat.mul_zero, Nat.zero_add, List.getD_append _ _ _ _ (by omega), List.getD_cons_zero]
    | succ i =>
      have hidx : f.bits / 8 * (i + 1) + q = (pixelBytes f v).length + (f.bits / 8 * i + q) := by rw [hlen]; ring
      rw [hidx, List.getD_append_right _ _ _ _ (Nat.le_add_right _ _), Nat.add_sub_cancel_left, List.getD_cons_succ]
      exact ih i (Nat.lt_of_succ_lt_succ hi)

theorem flatMap_pixelBytes_length (px : List Colour) :
    (px.flatMap (pixelBytes f)).length = px.length * (f.bits / 8) := by
  induction px with
  | nil => simp
  | cons v px ih => rw [List.flatMap_cons, List.length_append, ih, pixelBytes_length hf, List.length_cons]; ring

/-- The pixel read where the bytes of a colour stand is the colour, as far as the format has it. -/
theorem pixelIn_of_pixelBytes (b : Nat → Byte) (x : Nat) (v : Colour)
    (h : ∀ q, q < f.bits / 8 → b (f.bits / 8 * x + q) = (pixelBytes f v).getD q 0) : pixelIn f b x = f.truncate v := by
  refine Colour.eq_of_bytes fun q t hq ht => ?_
  rw [pixelIn_getLsbD hf _ _ _ _ ht hq, f.truncate_byte hf _ _ _ ht]
  by_cases hlt : q < f.bits / 8
  · rw [h q hlt, pixelBytes_getLsbD hf v q t hlt ht]
  · rw [decide_eq_false hlt, Bool.false_and, Bool.false_and]

/-- A pixel of whole bytes is read from those bytes alone. -/
theorem pixelIn_congr_bytes (b c : Nat → Byte) (x : Nat)
    (h : ∀ q, q < f.bits / 8 → b (f.bits / 8 * x + q) = c (f.bits / 8 * x + q)) : pixelIn f b x = pixelIn f c x := by
  refine Colour.eq_of_bytes fun q t hq ht => ?_
  rw [pixelIn_getLsbD hf _ _ _ _ ht hq, pixelIn_getLsbD hf _ _ _ _ ht hq]
  by_cases hlt : q < f.bits / 8
  · rw [h q hlt]
  · rw [decide_eq_false hlt, Bool.false_and, Bool.false_and]

end

/-- A pixel of one bit is its colour's lowest bit. -/
theorem truncate_m1 (v : Colour) : Format.m1.truncate v = if v.getLsbD 0 then 1 else 0 := by
  refine BitVec.eq_of_getLsbD_eq fun k _ => ?_
  rw [Format.truncate_getLsbD, Format.bits]
  cases k with
  | zero => cases v.getLsbD 0 <;> simp
  | succ k => cases v.getLsbD 0 <;> simp

/-! ### Data rows (R128) -/

theorem packPixels_of_bytes {f : Format} (hf : f ≠ .m1) (px : List Colour) : packPixels f px = px.flatMap (pixelBytes f) := by
  cases f with
  | m1 => exact absurd rfl hf
  | _ => rfl

theorem packPixels_length (f : Format) (px : List Colour) : (packPixels f px).length = f.rowBytes px.length := by
  by_cases hf : f = .m1
  · subst hf
    simp [packPixels, Format.rowBytes, Format.bits]
  · rw [packPixels_of_bytes hf, flatMap_pixelBytes_length hf, Format.rowBytes]
    have hbits := f.bits_of_ne hf
    generalize f.bits / 8 = k at hbits ⊢
    rw [hbits, show px.length * (8 * k) = 8 * (px.length * k) by ring]
    omega

/-- The byte of a monochrome data row that holds a bit of it. -/
theorem packPixels_m1_getLsbD (px : List Colour) (i : Nat) (hi : i < 8 * ((px.length + 7) / 8)) :
    (byteAt (packPixels .m1 px) (i / 8)).getLsbD (7 - i % 8) = (px.getD i 0).getLsbD 0 := by
  have hbyte : byteAt (packPixels .m1 px) (i / 8) = byteOfBits fun j => (px.getD (8 * (i / 8) + j) 0).getLsbD 0 := by
    rw [byteAt, packPixels, List.getD_eq_getElem?_getD, List.getElem?_map, List.getElem?_range (by omega)]
    rfl
  rw [hbyte, byteOfBits_getLsbD _ _ (by omega), Nat.div_add_mod]

/-- Each pixel is read back from packed data (R128). -/
theorem unpackPixel_packPixels (f : Format) (px : List Colour) (i : Nat) (hi : i < px.length) :
    unpackPixel f (packPixels f px) i = f.truncate (px.getD i 0) := by
  by_cases hf : f = .m1
  · subst hf
    rw [unpackPixel, packPixels_m1_getLsbD px i (by omega), truncate_m1]
  · rw [unpackPixel_eq, packPixels_of_bytes hf]
    exact pixelIn_of_pixelBytes hf _ _ _ fun q hq => flatMap_pixelBytes_getD hf px i q hi hq

/-- The bits behind the last pixel of a monochrome data row are 0 (R128). -/
theorem unpackPixel_padding (px : List Colour) (i : Nat) (hi : px.length ≤ i) (hi' : i < 8 * Format.m1.rowBytes px.length) :
    unpackPixel .m1 (packPixels .m1 px) i = 0 := by
  rw [Format.rowBytes, Format.bits, Nat.mul_one] at hi'
  rw [unpackPixel, packPixels_m1_getLsbD px i hi', List.getD_eq_default _ _ hi]
  rfl

/-! ### Pixels written (R107) -/

theorem Geo.pixelStart_eq (g : Geo) (x y : Nat) : g.pixelStart x y = g.rowBase y + x * g.format.bits / 8 := rfl

/-- The bytes behind those written begin at the end of the row so far (R21). -/
theorem Store.rowBytes_end (m : Store) (g : Geo) (x y : Nat) (px : List Colour) :
    x * g.format.bits / 8 + (m.rowBytes g x y px).length ≤ g.format.rowBytes (x + px.length) := by
  rw [Store.length_rowBytes, Format.rowBytes]
  cases g.format <;> simp only [Format.bits, if_true, reduceCtorEq, if_false] <;> omega

section
variable (m : Store) (g : Geo) (x y : Nat) (px : List Colour)

/-- No byte beside those of the pixels is written (R21). -/
theorem Store.read_writeRow_of_outside (a : Nat)
    (h : a < g.rowBase y + x * g.format.bits / 8 ∨ g.rowBase y + g.format.rowBytes (x + px.length) ≤ a) :
    (m.write (g.pixelStart x y) (m.rowBytes g x y px)).read a = m.read a := by
  have hend := m.rowBytes_end g x y px
  rw [Store.read_write, g.pixelStart_eq, if_neg (by omega)]

/-- Bits of a monochrome row: those of the pixels written are new, the others of the same bytes keep their values (R107). -/
theorem Store.bit_writeRow_m1 (hf : g.format = .m1) (x' : Nat) :
    ((m.write (g.pixelStart x y) (m.rowBytes g x y px)).read (g.rowBase y + x' / 8)).getLsbD (7 - x' % 8) =
      if x ≤ x' ∧ x' < x + px.length then (px.getD (x' - x) 0).getLsbD 0
      else (m.read (g.rowBase y + x' / 8)).getLsbD (7 - x' % 8) := by
  have hlen := m.length_rowBytes g x y px
  rw [if_pos hf] at hlen
  rw [Store.read_write, hlen, g.pixelStart_eq, hf, Format.bits, Nat.mul_one]
  by_cases hin : x / 8 ≤ x' / 8 ∧ x' / 8 < (x + px.length + 7) / 8
  · have hrow : m.rowBytes g x y px = (List.range ((x + px.length + 7) / 8 - x / 8)).map fun k =>
        byteOfBits fun i =>
          if x ≤ 8 * (x / 8 + k) + i && 8 * (x / 8 + k) + i < x + px.length then
            (px.getD (8 * (x / 8 + k) + i - x) 0).getLsbD 0
          else (m.read (g.rowBase y + x / 8 + k)).getLsbD (7 - i) := by
      rw [Store.rowBytes, hf]
    rw [if_pos (by omega), hrow, List.getD_eq_getElem?_getD, List.getElem?_map, List.getElem?_range (by omega),
      Option.map_some, Option.getD_some, byteOfBits_getLsbD _ _ (by omega),
      show 8 * (x / 8 + (g.rowBase y + x' / 8 - (g.rowBase y + x / 8))) + x' % 8 = x' by omega,
      show g.rowBase y + x / 8 + (g.rowBase y + x' / 8 - (g.rowBase y + x / 8)) = g.rowBase y + x' / 8 by omega]
    simp only [Bool.and_eq_true, decide_eq_true_eq]
  · rw [if_neg (by omega), if_neg (by omega)]

/-- Bytes of a row of whole bytes: those of the pixels written are new, the others keep their values. -/
theorem Store.read_writeRow_bytes (hf : g.format ≠ .m1) (x' q : Nat) (hq : q < g.format.bits / 8) :
    (m.write (g.pixelStart x y) (m.rowBytes g x y px)).read (g.rowBase y + (g.format.bits / 8 * x' + q)) =
      if x ≤ x' ∧ x' < x + px.length then (pixelBytes g.format (px.getD (x' - x) 0)).getD q 0
      else m.read (g.rowBase y + (g.format.bits / 8 * x' + q)) := by
  have hrow : m.rowBytes g x y px = px.flatMap (pixelBytes g.format) := by
    unfold Store.rowBytes
    split
    · next h => exact absurd h hf
    · rfl
  have hstart : x * g.format.bits / 8 = g.format.bits / 8 * x := by
    have hbits := g.format.bits_of_ne hf
    generalize g.format.bits / 8 = k at hbits
    rw [hbits, show x * (8 * k) = 8 * (k * x) by ring, Nat.mul_div_cancel_left _ (by decide)]
  have hlen := flatMap_pixelBytes_length hf px
  have hget := fun i hi => flatMap_pixelBytes_getD hf px i q hi hq
  rw [Store.read_write, hrow, hlen, g.pixelStart_eq, hstart]
  generalize g.format.bits / 8 = k at hq hget ⊢
  have hin : (k * x ≤ k * x' + q ∧ k * x' + q < k * x + px.length * k) ↔ x ≤ x' ∧ x' < x + px.length := by
    constructor
    · rintro ⟨h1, h2⟩
      constructor
      · by_contra h
        have := Nat.mul_le_mul_left k (Nat.lt_of_not_le h)
        rw [Nat.mul_succ] at this
        omega
      · by_contra h
        have := Nat.mul_le_mul_left k (Nat.le_of_not_lt h)
        rw [Nat.mul_add, Nat.mul_comm k px.length] at this
        omega
    · rintro ⟨h1, h2⟩
      have hlow := Nat.mul_le_mul_left k h1
      have hhigh := Nat.mul_le_mul_left k (Nat.succ_le_of_lt h2)
      rw [Nat.mul_succ, Nat.mul_add, Nat.mul_comm k px.length] at hhigh
      omega
  by_cases h : x ≤ x' ∧ x' < x + px.length
  · obtain ⟨i, rfl⟩ := Nat.exists_eq_add_of_le h.1
    have hidx : g.rowBase y + (k * (x + i) + q) - (g.rowBase y + k * x) = k * i + q := by
      rw [Nat.mul_add]
      omega
    rw [if_pos h, if_pos (by have := hin.2 h; omega), hidx, Nat.add_sub_cancel_left, hget i (by omega)]
  · rw [if_neg h, if_neg (fun h' => h (hin.1 (by omega)))]

/-- The pixels of a row once some are written: those hold the values written, and all others keep theirs (R107). -/
theorem Store.pixel_writeRow (x' : Nat) : (m.write (g.pixelStart x y) (m.rowBytes g x y px)).pixel g x' y =
    if x ≤ x' ∧ x' < x + px.length then g.format.truncate (px.getD (x' - x) 0) else m.pixel g x' y := by
  rw [Store.pixel_eq, Store.pixel_eq]
  by_cases hf : g.format = .m1
  · simp only [hf, pixelIn, m.bit_writeRow_m1 g x y px hf, truncate_m1]
    split <;> rfl
  · split
    · next h =>
      refine pixelIn_of_pixelBytes hf _ _ _ fun q hq => ?_
      rw [m.read_writeRow_bytes g x y px hf x' q hq, if_pos h]
    · next h =>
      refine pixelIn_congr_bytes hf _ _ _ fun q hq => ?_
      rw [m.read_writeRow_bytes g x y px hf x' q hq, if_neg h]

end

@[simp] theorem Store.makeGood_pixel (m : Store) (ws : List Nat) (g : Geo) (x y : Nat) :
    (m.makeGood ws).pixel g x y = m.pixel g x y := rfl

/-! ### The span (R107 to R111) -/

/-- The value a job gives a pixel, from the source pixel, the old value and the pixel of the job's data (R108 to R111). -/
def Job.pixelValue (j : Job) (f : Format) (source old given : Colour) : Colour :=
  match j with
  | .fill _ _ colour rop => f.truncate (raster rop (f.truncate colour) old)
  | .move _ _ _ _ _ rop key => if key.map f.truncate = some source then old else f.truncate (raster rop source old)
  | .expand _ _ _ _ _ fg bg rop =>
    if source = 1 then f.truncate (raster rop (f.truncate fg) old)
    else
      match bg with
      | some c => f.truncate (raster rop (f.truncate c) old)
      | none => old
  | .write _ _ => given
  | _ => old

/-- The pixel a span reads for its pixel `i`; 0 without a source canvas. -/
def EngineRecord.sourcePixel (r : EngineRecord) (m : Store) (i : Nat) : Colour :=
  match r.src with
  | none => 0
  | some h => m.pixel h (r.job.srcOrigin.1 + r.spanLeft + i) (r.job.srcOrigin.2 + r.row)

theorem EngineRecord.newPixel_eq (r : EngineRecord) (m : Store) (data : List Byte) (g : Geo) (i : Nat) :
    r.newPixel m data g i = r.job.pixelValue g.format (r.sourcePixel m i)
      (m.pixel g (r.job.rect.x + r.spanLeft + i) (r.job.rect.y + r.row)) (unpackPixel g.format data i) := by
  unfold EngineRecord.newPixel EngineRecord.sourcePixel
  cases r.job <;> rfl

/-- A job makes values of the format from values of the format. -/
theorem Job.truncate_pixelValue (j : Job) (f : Format) (source : Colour) {old given : Colour} (hold : f.truncate old = old)
    (hgiven : f.truncate given = given) : f.truncate (j.pixelValue f source old given) = j.pixelValue f source old given := by
  cases j with
  | fill dst rect colour rop => exact f.truncate_truncate _
  | move src sx sy dst rect rop key => simp only [Job.pixelValue, apply_ite f.truncate, hold, f.truncate_truncate]
  | expand src sx sy dst rect fg bg rop =>
    cases bg <;> simp only [Job.pixelValue, apply_ite f.truncate, hold, f.truncate_truncate]
  | write dst rect => exact hgiven
  | read src rect => exact hold
  | mark tag => exact hold

/-- The new value of a pixel is a value of the destination's format. -/
theorem EngineRecord.truncate_newPixel (r : EngineRecord) (m : Store) (data : List Byte) (g : Geo) (i : Nat) :
    g.format.truncate (r.newPixel m data g i) = r.newPixel m data g i := by
  have hold := m.truncate_pixel g (r.job.rect.x + r.spanLeft + i) (r.job.rect.y + r.row)
  have hgiven : g.format.truncate (unpackPixel g.format data i) = unpackPixel g.format data i := by
    rw [unpackPixel_eq, truncate_pixelIn]
  rw [r.newPixel_eq]
  exact r.job.truncate_pixelValue _ _ hold hgiven

section
variable (r : EngineRecord) (m : Store) (data : List Byte) {g : Geo} (hd : r.dst = some g)
include hd

/-- The pixels of the span's row once the span is written (R107). -/
theorem EngineRecord.pixel_writePhase (x' : Nat) :
    (r.writePhase m data).pixel g x' (r.job.rect.y + r.row) =
      if r.job.rect.x + r.spanLeft ≤ x' ∧ x' < r.job.rect.x + r.spanLeft + r.spanPixels then
        r.newPixel m data g (x' - (r.job.rect.x + r.spanLeft))
      else m.pixel g x' (r.job.rect.y + r.row) := by
  have hwrite := m.pixel_writeRow g (r.job.rect.x + r.spanLeft) (r.job.rect.y + r.row)
    ((List.range r.spanPixels).map (r.newPixel m data g)) x'
  rw [List.length_map, List.length_range] at hwrite
  simp only [EngineRecord.writePhase, hd, Store.makeGood_pixel, hwrite]
  split
  · next h =>
    rw [List.getD_eq_getElem?_getD, List.getElem?_map, List.getElem?_range (by omega)]
    exact r.truncate_newPixel m data g _
  · rfl

/-- No byte beside the span's is written (R107). -/
theorem EngineRecord.read_writePhase_of_outside (a : Nat)
    (h : a < g.rowBase (r.job.rect.y + r.row) + (r.job.rect.x + r.spanLeft) * g.format.bits / 8 ∨
      g.rowBase (r.job.rect.y + r.row) + g.format.rowBytes (r.job.rect.x + r.spanLeft + r.spanPixels) ≤ a) :
    (r.writePhase m data).read a = m.read a := by
  simp only [EngineRecord.writePhase, hd, Store.makeGood_read]
  exact m.read_writeRow_of_outside g _ _ _ a (by rwa [List.length_map, List.length_range])

end

/-- The pixels a READ span delivers (R111). -/
theorem EngineRecord.readData_of_src (r : EngineRecord) (m : Store) {g : Geo} (hs : r.src = some g) :
    r.readData m = packPixels g.format ((List.range r.spanPixels).map fun i =>
      m.pixel g (r.job.rect.x + r.spanLeft + i) (r.job.rect.y + r.row)) := by
  rw [EngineRecord.readData, hs]

/-- Settles O49: a span's pixels are written to their bytes and read back from them as values of the format. -/
theorem spanPixelValues : Obligations.SpanPixelValues := by
  refine ⟨raster_getLsbD, fun r m data g hd => ?_, fun r m g _ hs => ?_⟩
  · intro f x y n t
    have hpixel (x' : Nat) := r.pixel_writePhase m data hd x'
    refine ⟨fun i hi => ?_, fun x' hx' => ?_, fun a ha => r.read_writePhase_of_outside m data hd a ha⟩
    · intro old source
      have hnew : t.pixel g (x + i) y = r.newPixel m data g i := by
        rw [hpixel, if_pos ⟨Nat.le_add_right _ _, Nat.add_lt_add_left hi _⟩, Nat.add_sub_cancel_left]
      have hvalue : t.pixel g (x + i) y = r.job.pixelValue f source old (unpackPixel f data i) :=
        hnew.trans (r.newPixel_eq m data g i)
      rw [hvalue]
      clear_value source old f
      generalize r.job = j
      cases j with
      | write dst rect => cases f <;> rfl
      | _ => rfl
    · exact (hpixel x').trans (if_neg (by omega))
  · rw [r.readData_of_src m hs]
    refine ⟨?_, fun i hi => ?_, fun hf i hi hi' => ?_⟩
    · rw [packPixels_length, List.length_map, List.length_range]
    · rw [unpackPixel_packPixels _ _ _ (by rwa [List.length_map, List.length_range]), List.getD_eq_getElem?_getD,
        List.getElem?_map, List.getElem?_range hi]
      exact m.truncate_pixel g _ _
    · rw [hf] at hi' ⊢
      exact unpackPixel_padding _ i (by rwa [List.length_map, List.length_range])
        (by rwa [List.length_map, List.length_range])

end Sys2Proof.Machine

/-! SUPPORT. The spans of a job (R96 to R98): which pixels of the rectangle each span takes, which are still ahead of a job's
progress, and how many spans there are. -/

namespace Sys2Proof.Machine

/-! ### Spans and what is ahead of them (R96 to R98) -/

/-- The pixel of the rectangle at column `i` and row `j` lies in the record's next span. -/
def EngineRecord.spanHolds (r : EngineRecord) (i j : Nat) : Bool :=
  decide (r.row = j ∧ r.spanLeft ≤ i ∧ i < r.spanLeft + r.spanPixels)

/-- The pixel of the rectangle at column `i` and row `j` is not done: its row comes later, or it lies ahead in the row (R97). -/
def EngineRecord.Ahead (r : EngineRecord) (i j : Nat) : Prop :=
  (if r.upward then j < r.row else r.row < j) ∨ r.row = j ∧ (if r.leftward then i ≤ r.col else r.col ≤ i)

/-- The progress lies within the rectangle of the job, whose spans run over the canvas `g`. -/
structure EngineRecord.Within (r : EngineRecord) (g : Geo) : Prop where
  geo : r.spanGeo = some g
  col : r.col < r.job.rect.w
  row : r.row < r.job.rect.h

/-- The record with another progress. -/
def EngineRecord.at (r : EngineRecord) (q : Nat × Nat) : EngineRecord := { r with row := q.1, col := q.2 }

/-- The pixels of the row still ahead. -/
def EngineRecord.columnsLeft (r : EngineRecord) : Nat := if r.leftward then r.col + 1 else r.job.rect.w - r.col

/-- The rows that come later. -/
def EngineRecord.rowsLeft (r : EngineRecord) : Nat := if r.upward then r.row else r.job.rect.h - 1 - r.row

/-- The progress at the beginning of the row that comes next (R98). -/
def EngineRecord.nextRow (r : EngineRecord) : Nat × Nat :=
  (if r.upward then r.row - 1 else r.row + 1, if r.leftward then r.job.rect.w - 1 else 0)

/-- The progress behind the span in its row (R98). -/
def EngineRecord.nextInRow (r : EngineRecord) : Nat × Nat :=
  (r.row, if r.leftward then r.col - r.spanPixels else r.col + r.spanPixels)

/-- How many spans are ahead, those of the row begun and those of the rows that come later (R96). -/
def EngineRecord.spansLeft (r : EngineRecord) (g : Geo) : Nat :=
  let most := maxSpan g.format r.job.rect.w
  (r.columnsLeft + most - 1) / most + r.rowsLeft * ((r.job.rect.w + most - 1) / most)

theorem one_le_maxSpan (f : Format) {w : Nat} (hw : 1 ≤ w) : 1 ≤ maxSpan f w := by
  cases f with
  | m1 => exact hw
  | i8 | c16 | c32 => simp only [maxSpan]; omega

theorem EngineRecord.spans_succ (n : Nat) (r : EngineRecord) : r.spans (n + 1) = r ::
    match r.nextProgress with
    | none => []
    | some q => (r.at q).spans n := by
  rw [EngineRecord.spans]
  cases r.nextProgress <;> rfl

section
variable {r : EngineRecord} {g : Geo} (h : r.Within g)
include h

theorem EngineRecord.Within.spanPixels_eq : r.spanPixels = min (maxSpan g.format r.job.rect.w) r.columnsLeft := by
  rw [EngineRecord.spanPixels, h.geo]
  rfl

theorem EngineRecord.Within.columnsLeft_pos : 1 ≤ r.columnsLeft ∧ r.columnsLeft ≤ r.job.rect.w := by
  have := h.col
  unfold EngineRecord.columnsLeft
  split <;> omega

/-- A span has a pixel and at most P of them (R96). -/
theorem EngineRecord.Within.spanPixels_bounds : 1 ≤ r.spanPixels ∧ r.spanPixels ≤ maxSpan g.format r.job.rect.w := by
  have hmost := one_le_maxSpan g.format (Nat.one_le_of_lt h.col)
  have hleft := h.columnsLeft_pos
  rw [h.spanPixels_eq]
  omega

/-- A span lies within the rectangle's columns. -/
theorem EngineRecord.Within.spanEnd_le : r.spanLeft + r.spanPixels ≤ r.job.rect.w := by
  have hcol := h.col
  have hle : r.spanPixels ≤ r.columnsLeft := h.spanPixels_eq ▸ Nat.min_le_right _ _
  rw [EngineRecord.columnsLeft] at hle
  rw [EngineRecord.spanLeft]
  cases hl : r.leftward <;> simp only [hl, Bool.false_eq_true, if_true, if_false] at hle ⊢ <;> omega

/-- The progress after a span (R98): none behind the last span of the last row, the next row's beginning behind the last span
of another, and otherwise further on in the row. -/
theorem EngineRecord.Within.nextProgress_cases :
    r.spanPixels = r.columnsLeft ∧ r.rowsLeft = 0 ∧ r.nextProgress = none ∨
    r.spanPixels = r.columnsLeft ∧ 0 < r.rowsLeft ∧ r.nextProgress = some r.nextRow ∨
    r.spanPixels < r.columnsLeft ∧ r.nextProgress = some r.nextInRow := by
  have hle : r.spanPixels ≤ r.columnsLeft := h.spanPixels_eq ▸ Nat.min_le_right _ _
  have hcol := h.col
  have hrow := h.row
  have hdone : (if r.leftward then r.col + 1 ≤ r.spanPixels else r.job.rect.w ≤ r.col + r.spanPixels) ↔
      r.spanPixels = r.columnsLeft := by
    unfold EngineRecord.columnsLeft at hle ⊢
    rcases r.leftward.eq_false_or_eq_true with hl | hl <;>
      simp only [hl, Bool.false_eq_true, if_true, if_false] at hle ⊢ <;> omega
  have hnext : r.nextProgress =
      if r.spanPixels = r.columnsLeft then if r.rowsLeft = 0 then none else some r.nextRow else some r.nextInRow := by
    unfold EngineRecord.nextProgress
    simp only [hdone]
    refine ite_congr rfl (fun _ => ?_) fun _ => rfl
    unfold EngineRecord.rowsLeft EngineRecord.nextRow
    cases r.upward with
    | true => rfl
    | false =>
      simp only [Bool.false_eq_true, if_false]
      exact if_congr (by omega) rfl rfl
  by_cases hn : r.spanPixels = r.columnsLeft
  · rw [if_pos hn] at hnext
    by_cases hz : r.rowsLeft = 0
    · exact .inl ⟨hn, hz, hnext.trans (if_pos hz)⟩
    · exact .inr (.inl ⟨hn, Nat.pos_of_ne_zero hz, hnext.trans (if_neg hz)⟩)
  · exact .inr (.inr ⟨by omega, hnext.trans (if_neg hn)⟩)

/-- The progress stays within the rectangle. -/
theorem EngineRecord.Within.at_next {q : Nat × Nat} (hq : r.nextProgress = some q) : (r.at q).Within g := by
  have hcol := h.col
  have hrow := h.row
  obtain ⟨_, _, hn⟩ | ⟨_, hrows, hn⟩ | ⟨hlt, hn⟩ := h.nextProgress_cases
  · rw [hn] at hq
    cases hq
  · obtain rfl := Option.some.inj (hn.symm.trans hq)
    rw [EngineRecord.rowsLeft] at hrows
    refine ⟨h.geo, ?_, ?_⟩ <;> simp only [EngineRecord.at, EngineRecord.nextRow]
    · split <;> omega
    · split at hrows <;> simp only [*, Bool.false_eq_true, if_true, if_false] <;> omega
  · obtain rfl := Option.some.inj (hn.symm.trans hq)
    rw [EngineRecord.columnsLeft] at hlt
    refine ⟨h.geo, ?_, hrow⟩
    simp only [EngineRecord.at, EngineRecord.nextInRow]
    split at hlt <;> simp only [*, Bool.false_eq_true, if_true, if_false] <;> omega

/-- What is ahead of a job's last span is that span (R98). -/
theorem EngineRecord.Within.ahead_last (hq : r.nextProgress = none) (i j : Nat) (hi : i < r.job.rect.w)
    (hj : j < r.job.rect.h) : r.Ahead i j ↔ r.spanHolds i j = true := by
  obtain ⟨hn, hrows, _⟩ | ⟨_, _, hn⟩ | ⟨_, hn⟩ := h.nextProgress_cases
  · have hcol := h.col
    rw [EngineRecord.spanHolds, decide_eq_true_eq, EngineRecord.Ahead, EngineRecord.spanLeft, hn]
    rw [EngineRecord.rowsLeft] at hrows
    rw [EngineRecord.columnsLeft]
    cases hu : r.upward <;> cases hl : r.leftward <;>
      simp only [hu, Bool.false_eq_true, if_true, if_false] at hrows ⊢ <;> omega
  all_goals
    rw [hn] at hq
    cases hq

/-- What is ahead of a span with another after it is in that span, or else ahead of the progress behind it (R97, R98). -/
theorem EngineRecord.Within.ahead_next {q : Nat × Nat} (hq : r.nextProgress = some q) (i j : Nat) (hi : i < r.job.rect.w) :
    (r.at q).Ahead i j ↔ r.Ahead i j ∧ ¬ r.spanHolds i j = true := by
  have hcol := h.col
  have hrow := h.row
  rw [EngineRecord.spanHolds, decide_eq_true_eq, EngineRecord.Ahead, EngineRecord.Ahead, EngineRecord.spanLeft]
  obtain ⟨_, _, hn⟩ | ⟨hn', hrows, hn⟩ | ⟨hlt, hn⟩ := h.nextProgress_cases
  · rw [hn] at hq
    cases hq
  · obtain rfl := Option.some.inj (hn.symm.trans hq)
    rw [hn']
    rw [EngineRecord.rowsLeft] at hrows
    rw [EngineRecord.columnsLeft]
    simp only [EngineRecord.at, EngineRecord.nextRow]
    rcases r.upward.eq_false_or_eq_true with hu | hu <;> rcases r.leftward.eq_false_or_eq_true with hl | hl <;>
      simp only [hu, hl, Bool.false_eq_true, if_true, if_false] at hrows ⊢ <;> omega
  · obtain rfl := Option.some.inj (hn.symm.trans hq)
    have hpos := h.spanPixels_bounds.1
    rw [EngineRecord.columnsLeft] at hlt
    simp only [EngineRecord.at, EngineRecord.nextInRow]
    rcases r.upward.eq_false_or_eq_true with hu | hu <;> rcases r.leftward.eq_false_or_eq_true with hl | hl <;>
      simp only [hu, hl, Bool.false_eq_true, if_true, if_false] at hlt ⊢ <;> omega

/-- A span's pixels are ahead of the progress it begins at. -/
theorem EngineRecord.Within.ahead_of_holds (i j : Nat) (hij : r.spanHolds i j = true) : r.Ahead i j := by
  have hcol := h.col
  have hle : r.spanPixels ≤ r.columnsLeft := h.spanPixels_eq ▸ Nat.min_le_right _ _
  rw [EngineRecord.columnsLeft] at hle
  rw [EngineRecord.spanHolds, decide_eq_true_eq, EngineRecord.spanLeft] at hij
  rw [EngineRecord.Ahead]
  cases hl : r.leftward <;> simp only [hl, Bool.false_eq_true, if_true, if_false] at hij hle ⊢ <;> omega

/-! ### All spans of a job (R96, R98) -/

theorem EngineRecord.Within.spansLeft_pos : 0 < r.spansLeft g := by
  have hmost := one_le_maxSpan g.format (Nat.one_le_of_lt h.col)
  have hleft := h.columnsLeft_pos
  have : 1 ≤ (r.columnsLeft + maxSpan g.format r.job.rect.w - 1) / maxSpan g.format r.job.rect.w :=
    (Nat.one_le_div_iff hmost).2 (by omega)
  exact Nat.add_pos_left this _

theorem EngineRecord.Within.spansLeft_last (hq : r.nextProgress = none) : r.spansLeft g = 1 := by
  obtain ⟨hn, hrows, _⟩ | ⟨_, _, hn⟩ | ⟨_, hn⟩ := h.nextProgress_cases
  · have hleft := h.columnsLeft_pos
    have hbounds := h.spanPixels_bounds
    simp only [EngineRecord.spansLeft, hrows, Nat.zero_mul, Nat.add_zero]
    exact Nat.div_eq_of_lt_le (by omega) (by omega)
  all_goals
    rw [hn] at hq
    cases hq

theorem EngineRecord.Within.spansLeft_next {q : Nat × Nat} (hq : r.nextProgress = some q) :
    r.spansLeft g = (r.at q).spansLeft g + 1 := by
  have hmost := one_le_maxSpan g.format (Nat.one_le_of_lt h.col)
  have hcol := h.col
  have hrow := h.row
  have heq := h.spanPixels_eq
  have hrect : (r.at q).job.rect = r.job.rect := rfl
  simp only [EngineRecord.spansLeft, hrect]
  generalize hP : maxSpan g.format r.job.rect.w = P at hmost heq ⊢
  obtain ⟨_, _, hn⟩ | ⟨hn', hrows, hn⟩ | ⟨hlt, hn⟩ := h.nextProgress_cases
  · rw [hn] at hq
    cases hq
  · obtain rfl := Option.some.inj (hn.symm.trans hq)
    have hone : (r.columnsLeft + P - 1) / P = 1 := by
      have hleft := h.columnsLeft_pos
      exact Nat.div_eq_of_lt_le (by omega) (by omega)
    have hcolumns : (r.at r.nextRow).columnsLeft = r.job.rect.w := by
      simp only [EngineRecord.columnsLeft, EngineRecord.at, EngineRecord.nextRow]
      split <;> omega
    have hlater : r.rowsLeft = (r.at r.nextRow).rowsLeft + 1 := by
      rw [EngineRecord.rowsLeft] at hrows ⊢
      simp only [EngineRecord.rowsLeft, EngineRecord.at, EngineRecord.nextRow]
      rcases r.upward.eq_false_or_eq_true with hu | hu <;>
        simp only [hu, Bool.false_eq_true, if_true, if_false] at hrows ⊢ <;> omega
    rw [hone, hcolumns, hlater, Nat.succ_mul]
    omega
  · obtain rfl := Option.some.inj (hn.symm.trans hq)
    have hcolumns : r.columnsLeft = (r.at r.nextInRow).columnsLeft + P := by
      rw [EngineRecord.columnsLeft] at hlt heq
      simp only [EngineRecord.columnsLeft, EngineRecord.at, EngineRecord.nextInRow]
      split at hlt <;> simp only [*, Bool.false_eq_true, if_true, if_false] at heq ⊢ <;> omega
    have hlater : (r.at r.nextInRow).rowsLeft = r.rowsLeft := rfl
    rw [hcolumns, hlater, show (r.at r.nextInRow).columnsLeft + P + P - 1 = (r.at r.nextInRow).columnsLeft + P - 1 + P by omega,
      Nat.add_div_right _ hmost]
    omega

end

/-- What holds of a job's last span, and of a span with those after it when it holds of those, holds of all its spans. -/
theorem EngineRecord.spans_induction {motive : EngineRecord → List EngineRecord → Prop} {g : Geo}
    (last : ∀ r : EngineRecord, r.Within g → r.nextProgress = none → motive r [r])
    (next : ∀ (r : EngineRecord) (q : Nat × Nat) (l : List EngineRecord), r.Within g → r.nextProgress = some q →
      motive (r.at q) l → motive r (r :: l))
    (n : Nat) (r : EngineRecord) (h : r.Within g) (hn : r.spansLeft g ≤ n) : motive r (r.spans n) := by
  induction n generalizing r with
  | zero => exact absurd h.spansLeft_pos (by omega)
  | succ n ih =>
    rw [EngineRecord.spans_succ]
    cases hq : r.nextProgress with
    | none => exact last r h hq
    | some q => exact next r q _ h hq (ih (r.at q) (h.at_next hq) (by rw [h.spansLeft_next hq] at hn; omega))

section
variable {r : EngineRecord} {g : Geo} (h : r.Within g) {n : Nat} (hn : r.spansLeft g ≤ n)
include h hn

theorem EngineRecord.length_spans : (r.spans n).length = r.spansLeft g := by
  refine EngineRecord.spans_induction (motive := fun r l => l.length = r.spansLeft g) ?_ ?_ n r h hn
  · exact fun r h hq => (h.spansLeft_last hq).symm
  · intro r q l h hq ih
    rw [List.length_cons, ih, h.spansLeft_next hq]

/-- Every span has a pixel and at most P (R96). -/
theorem EngineRecord.spanPixels_of_mem_spans :
    ∀ k ∈ r.spans n, 1 ≤ k.spanPixels ∧ k.spanPixels ≤ maxSpan g.format r.job.rect.w := by
  refine EngineRecord.spans_induction (motive := fun r l =>
    ∀ k ∈ l, 1 ≤ k.spanPixels ∧ k.spanPixels ≤ maxSpan g.format r.job.rect.w) ?_ ?_ n r h hn
  · exact fun r h _ => List.forall_mem_singleton.2 h.spanPixels_bounds
  · exact fun r q l h _ ih => List.forall_mem_cons.2 ⟨h.spanPixels_bounds, ih⟩

/-- A pixel that is ahead lies in one of the spans, and one that is done in none. -/
theorem EngineRecord.countP_spans : ∀ i j, i < r.job.rect.w → j < r.job.rect.h →
    (r.Ahead i j → (r.spans n).countP (fun k => k.spanHolds i j) = 1) ∧
      (¬ r.Ahead i j → (r.spans n).countP (fun k => k.spanHolds i j) = 0) := by
  refine EngineRecord.spans_induction (motive := fun r l => ∀ i j, i < r.job.rect.w → j < r.job.rect.h →
    (r.Ahead i j → l.countP (fun k => k.spanHolds i j) = 1) ∧
      (¬ r.Ahead i j → l.countP (fun k => k.spanHolds i j) = 0)) ?_ ?_ n r h hn
  · intro r h hq i j hi hj
    rw [h.ahead_last hq i j hi hj]
    simp [List.countP_singleton]
  · intro r q l h hq ih i j hi hj
    obtain ⟨hone, hzero⟩ := ih i j hi hj
    have hholds := h.ahead_of_holds i j
    rw [h.ahead_next hq i j hi] at hone hzero
    rw [List.countP_cons]
    by_cases hs : r.spanHolds i j = true
    · rw [if_pos hs, hzero fun ha => ha.2 hs]
      exact ⟨fun _ => rfl, fun hn => absurd (hholds hs) hn⟩
    · rw [if_neg hs, Nat.add_zero]
      exact ⟨fun ha => hone ⟨ha, hs⟩, fun hn => hzero fun ha => hn ha.1⟩

end

/-! ### A job from its beginning (R96 to R98) -/

/-- The record of a job whose first span is the next one (R98). -/
structure EngineRecord.AtStart (r : EngineRecord) (g : Geo) : Prop where
  geo : r.spanGeo = some g
  width : 1 ≤ r.job.rect.w
  height : 1 ≤ r.job.rect.h
  row : r.row = if r.upward then r.job.rect.h - 1 else 0
  col : r.col = if r.leftward then r.job.rect.w - 1 else 0

section
variable {r : EngineRecord} {g : Geo} (h : r.AtStart g)
include h

theorem EngineRecord.AtStart.within : r.Within g := by
  have hw := h.width
  have hh := h.height
  refine ⟨h.geo, ?_, ?_⟩
  · rw [h.col]
    split <;> omega
  · rw [h.row]
    split <;> omega

/-- The whole rectangle is ahead. -/
theorem EngineRecord.AtStart.ahead (i j : Nat) (hi : i < r.job.rect.w) (hj : j < r.job.rect.h) : r.Ahead i j := by
  have hrow := h.row
  have hcol := h.col
  rw [EngineRecord.Ahead]
  rcases r.upward.eq_false_or_eq_true with hu | hu <;> rcases r.leftward.eq_false_or_eq_true with hl | hl <;>
    simp only [hu, hl, Bool.false_eq_true, if_true, if_false] at hrow hcol ⊢ <;> omega

/-- Each row has ceil(w ÷ P) spans (R96). -/
theorem EngineRecord.AtStart.spansLeft_eq : r.spansLeft g =
    r.job.rect.h * ((r.job.rect.w + maxSpan g.format r.job.rect.w - 1) / maxSpan g.format r.job.rect.w) := by
  have hw := h.width
  have hh := h.height
  have hcolumns : r.columnsLeft = r.job.rect.w := by
    rw [EngineRecord.columnsLeft, h.col]
    split <;> omega
  have hrows : r.rowsLeft + 1 = r.job.rect.h := by
    rw [EngineRecord.rowsLeft, h.row]
    split <;> omega
  rw [EngineRecord.spansLeft, hcolumns, ← hrows, Nat.succ_mul, Nat.add_comm]

/-- A job has at most as many spans as pixels. -/
theorem EngineRecord.AtStart.spansLeft_le : r.spansLeft g ≤ r.job.rect.w * r.job.rect.h := by
  have hmost := one_le_maxSpan g.format h.width
  rw [h.spansLeft_eq, Nat.mul_comm]
  refine Nat.mul_le_mul_right _ ((Nat.div_le_iff_le_mul_add_pred hmost).2 ?_)
  have := Nat.mul_le_mul_right r.job.rect.w hmost
  omega

end

end Sys2Proof.Machine

/-! SUPPORT. A MOVE from its first span to its last (R97, R99): which pixels of the canvases stand as they did, and which hold
what a copy of the source gives. -/

namespace Sys2Proof.Machine

/-! ### Rows of canvases in the store (R5, R21) -/

/-- A pixel is read from the bytes of its row up to its own last one. -/
theorem Store.pixel_congr (m m' : Store) (g : Geo) (x y : Nat)
    (h : ∀ k, k < g.format.rowBytes (x + 1) → m.read (g.rowBase y + k) = m'.read (g.rowBase y + k)) :
    m.pixel g x y = m'.pixel g x y := by
  rw [Store.pixel_eq, Store.pixel_eq]
  by_cases hf : g.format = .m1
  · have hlast : x / 8 < g.format.rowBytes (x + 1) := by
      rw [hf, Format.rowBytes, Format.bits]
      omega
    simp only [hf, pixelIn, h _ hlast]
  · refine pixelIn_congr_bytes hf _ _ _ fun q hq => h _ ?_
    have hbits := g.format.bits_of_ne hf
    generalize hk : g.format.bits / 8 = k at hbits hq ⊢
    rw [Format.rowBytes, hbits, show (x + 1) * (8 * k) = 8 * (k * x + k) by ring]
    omega

theorem Format.rowBytes_mono (f : Format) {w w' : Nat} (h : w ≤ w') : f.rowBytes w ≤ f.rowBytes w' := by
  have := Nat.mul_le_mul_right f.bits h
  unfold Format.rowBytes
  omega

section
variable {g : Geo} {height : Nat} (hg : g.IsCanvas height)
include hg

/-- The pixels of a row take no more than the pitch (R5). -/
theorem Geo.IsCanvas.rowBytes_le (w : Nat) (hw : w ≤ g.width) : g.format.rowBytes w ≤ g.pitch := by
  have := g.format.rowBytes_mono hw
  rw [hg.1, Format.pitch]
  omega

/-- A row lies within the canvas's run of blocks (R5, R21). -/
theorem Geo.IsCanvas.row_in_run (y : Nat) (hy : y < height) :
    4096 * g.firstBlock ≤ g.rowBase y ∧ g.rowBase y + g.pitch ≤ 4096 * (g.firstBlock + g.blockCount) := by
  have hrows := Nat.mul_le_mul_right g.pitch (Nat.succ_le_of_lt hy)
  have hrun := hg.2
  rw [Nat.succ_mul] at hrows
  rw [Nat.mul_comm] at hrun
  rw [Geo.rowBase, Config.blockBytes]
  omega

end

/-- Rows of a canvas lie apart. -/
theorem Geo.rows_apart (g : Geo) {y y' : Nat} (h : y ≠ y') :
    g.rowBase y + g.pitch ≤ g.rowBase y' ∨ g.rowBase y' + g.pitch ≤ g.rowBase y := by
  unfold Geo.rowBase
  rcases Nat.lt_or_gt_of_ne h with h | h
  · have := Nat.mul_le_mul_right g.pitch (Nat.succ_le_of_lt h)
    rw [Nat.succ_mul] at this
    omega
  · have := Nat.mul_le_mul_right g.pitch (Nat.succ_le_of_lt h)
    rw [Nat.succ_mul] at this
    omega

section
variable (r : EngineRecord) (m : Store) (data : List Byte) {g : Geo} (hd : r.dst = some g) {height : Nat}
  (hg : g.IsCanvas height) (hx : r.job.rect.x + r.spanLeft + r.spanPixels ≤ g.width)
include hd hg hx

/-- A span writes no byte outside its row (R21). -/
theorem EngineRecord.read_writePhase_of_other_row (a : Nat) (h : a < g.rowBase (r.job.rect.y + r.row) ∨
    g.rowBase (r.job.rect.y + r.row) + g.pitch ≤ a) : (r.writePhase m data).read a = m.read a := by
  have := hg.rowBytes_le _ hx
  exact r.read_writePhase_of_outside m data hd a (by omega)

/-- The pixels of the other rows stay. -/
theorem EngineRecord.pixel_writePhase_of_other_row (x y : Nat) (hw : x < g.width) (hy : y ≠ r.job.rect.y + r.row) :
    (r.writePhase m data).pixel g x y = m.pixel g x y := by
  have hbytes := hg.rowBytes_le (x + 1) hw
  have hapart := g.rows_apart hy
  exact Store.pixel_congr _ _ g x y fun k hk => r.read_writePhase_of_other_row m data hd hg hx _ (by omega)

/-- The pixels of a canvas in other blocks stay. -/
theorem EngineRecord.pixel_writePhase_of_other_canvas (hy : r.job.rect.y + r.row < height) {a : Geo} {aHeight : Nat}
    (ha : a.IsCanvas aHeight)
    (hapart : a.firstBlock + a.blockCount ≤ g.firstBlock ∨ g.firstBlock + g.blockCount ≤ a.firstBlock) (x y : Nat)
    (hax : x < a.width) (hay : y < aHeight) : (r.writePhase m data).pixel a x y = m.pixel a x y := by
  have hrun := hg.row_in_run _ hy
  have harun := ha.row_in_run _ hay
  have hbytes := ha.rowBytes_le (x + 1) hax
  exact Store.pixel_congr _ _ a x y fun k hk => r.read_writePhase_of_other_row m data hd hg hx _ (by omega)

end

/-! ### A MOVE and its canvases (R97, R99) -/

/-- A MOVE with the geometries of its canvases and their heights. -/
structure Move where
  src : Handle
  dst : Handle
  sx : Nat
  sy : Nat
  rect : Rect
  rop : Nat
  key : Option Colour
  a : Geo
  g : Geo
  srcHeight : Nat
  dstHeight : Nat

/-- The canvases are of one format, both rectangles lie within them, and they are one canvas or have no block in common. -/
structure Move.Allowed (v : Move) : Prop where
  format : v.a.format = v.g.format
  srcCanvas : v.a.IsCanvas v.srcHeight
  dstCanvas : v.g.IsCanvas v.dstHeight
  dstX : v.rect.x + v.rect.w ≤ v.g.width
  dstY : v.rect.y + v.rect.h ≤ v.dstHeight
  srcX : v.sx + v.rect.w ≤ v.a.width
  srcY : v.sy + v.rect.h ≤ v.srcHeight
  apart : v.src = v.dst ∧ v.a = v.g ∨ v.src ≠ v.dst ∧
    (v.a.firstBlock + v.a.blockCount ≤ v.g.firstBlock ∨ v.g.firstBlock + v.g.blockCount ≤ v.a.firstBlock)

/-- The record is one of the engine's for this MOVE, in the order of R97. -/
structure EngineRecord.Runs (r : EngineRecord) (v : Move) : Prop where
  job : r.job = .move v.src v.sx v.sy v.dst v.rect v.rop v.key
  src : r.src = some v.a
  dst : r.dst = some v.g
  upward : r.upward = decide (v.src = v.dst ∧ v.sy < v.rect.y)
  leftward : r.leftward = decide (v.src = v.dst ∧ v.sy = v.rect.y ∧ v.sx < v.rect.x)

/-- The value the destination pixel at offset (i, j) of the rectangle gets from the source and the destination as they stand
in the store (R109). -/
def Move.copied (v : Move) (m : Store) (i j : Nat) : Colour :=
  let source := m.pixel v.a (v.sx + i) (v.sy + j)
  let old := m.pixel v.g (v.rect.x + i) (v.rect.y + j)
  if v.key.map v.g.format.truncate = some source then old else v.g.format.truncate (raster v.rop source old)

/-- The store `t` holds the MOVE from the store `m` done but for the pixels of the rectangle `todo`: those, and every pixel
beside the rectangle, stand as in `m`; and so does a source canvas that is another than the destination. -/
structure Move.Partly (v : Move) (m t : Store) (todo : Nat → Nat → Prop) : Prop where
  done : ∀ i j, i < v.rect.w → j < v.rect.h → ¬ todo i j → t.pixel v.g (v.rect.x + i) (v.rect.y + j) = v.copied m i j
  left : ∀ i j, i < v.rect.w → j < v.rect.h → todo i j →
    t.pixel v.g (v.rect.x + i) (v.rect.y + j) = m.pixel v.g (v.rect.x + i) (v.rect.y + j)
  beside : ∀ x y, x < v.g.width → ¬ (v.rect.x ≤ x ∧ x < v.rect.x + v.rect.w ∧ v.rect.y ≤ y ∧ y < v.rect.y + v.rect.h) →
    t.pixel v.g x y = m.pixel v.g x y
  source : v.src ≠ v.dst → ∀ x y, x < v.a.width → y < v.srcHeight → t.pixel v.a x y = m.pixel v.a x y

/-- The same holds with the same pixels to do. -/
theorem Move.Partly.congr {v : Move} {m t : Store} {todo todo' : Nat → Nat → Prop} (h : v.Partly m t todo)
    (heq : ∀ i j, i < v.rect.w → j < v.rect.h → (todo' i j ↔ todo i j)) : v.Partly m t todo' :=
  ⟨fun i j hi hj ht => h.done i j hi hj (mt (heq i j hi hj).2 ht), fun i j hi hj ht => h.left i j hi hj ((heq i j hi hj).1 ht),
    h.beside, h.source⟩

section
variable {v : Move} {r : EngineRecord} (hr : r.Runs v) (hin : r.Within v.g)
include hr

theorem EngineRecord.Runs.rect_eq : r.job.rect = v.rect := by rw [hr.job]; rfl

include hin in
/-- Within one canvas, a source pixel of the span that lies in the destination rectangle is ahead itself: the order of R97
takes no pixel before the spans that read it. -/
theorem EngineRecord.Runs.source_ahead (hsame : v.src = v.dst) {i i' j' : Nat} (hi : r.spanHolds i r.row = true)
    (hx : v.rect.x + i' = v.sx + i) (hy : v.rect.y + j' = v.sy + r.row) : r.Ahead i' j' := by
  have hahead := hin.ahead_of_holds i r.row hi
  have hu := hr.upward
  have hl := hr.leftward
  simp only [hsame, true_and] at hu hl
  rw [EngineRecord.Ahead] at hahead ⊢
  by_cases hup : v.sy < v.rect.y
  · rw [hu, if_pos (decide_eq_true hup)]
    omega
  · rw [decide_eq_false hup] at hu
    simp only [hu, Bool.false_eq_true, if_false] at hahead ⊢
    by_cases hleft : v.sy = v.rect.y ∧ v.sx < v.rect.x
    · rw [decide_eq_true hleft] at hl
      simp only [hl, if_true] at hahead ⊢
      omega
    · rw [decide_eq_false hleft] at hl
      simp only [hl, Bool.false_eq_true, if_false] at hahead ⊢
      omega

variable (hv : v.Allowed)
include hv hin

/-- The source pixels of a span stand as they stood before the MOVE (R99). -/
theorem Move.Partly.source_stands {m t : Store} (h : v.Partly m t r.Ahead) (i : Nat) (hi : r.spanHolds i r.row = true)
    (hiw : i < v.rect.w) : t.pixel v.a (v.sx + i) (v.sy + r.row) = m.pixel v.a (v.sx + i) (v.sy + r.row) := by
  have hrow : r.row < v.rect.h := hr.rect_eq ▸ hin.row
  have hsx := hv.srcX
  have hsy := hv.srcY
  obtain ⟨hsame, hgeo⟩ | ⟨hother, _⟩ := hv.apart
  · rw [hgeo] at hsx ⊢
    by_cases hinside : v.rect.x ≤ v.sx + i ∧ v.sx + i < v.rect.x + v.rect.w ∧ v.rect.y ≤ v.sy + r.row ∧
        v.sy + r.row < v.rect.y + v.rect.h
    · obtain ⟨hlx, hrx, hly, hry⟩ := hinside
      obtain ⟨i', hi'⟩ := Nat.exists_eq_add_of_le hlx
      obtain ⟨j', hj'⟩ := Nat.exists_eq_add_of_le hly
      rw [hi', hj']
      exact h.left i' j' (by omega) (by omega) (hr.source_ahead hin hsame hi hi'.symm hj'.symm)
    · exact h.beside _ _ (by omega) hinside
  · exact h.source hother _ _ (by omega) (by omega)

/-- The value a span gives a pixel is that of a copy made before the MOVE (R99, R109). -/
theorem Move.Partly.newPixel_eq {m t : Store} (h : v.Partly m t r.Ahead) (i : Nat)
    (hi : r.spanHolds i r.row = true) : r.newPixel t [] v.g (i - r.spanLeft) = v.copied m i r.row := by
  obtain ⟨_, hlow, hhigh⟩ := of_decide_eq_true hi
  have hiw : i < v.rect.w := Nat.lt_of_lt_of_le hhigh (hr.rect_eq ▸ hin.spanEnd_le)
  have hrow : r.row < v.rect.h := hr.rect_eq ▸ hin.row
  obtain ⟨k, rfl⟩ := Nat.exists_eq_add_of_le hlow
  have horigin : r.job.srcOrigin = (v.sx, v.sy) := by rw [hr.job]; rfl
  have hsource : r.sourcePixel t k = m.pixel v.a (v.sx + (r.spanLeft + k)) (v.sy + r.row) := by
    rw [EngineRecord.sourcePixel, hr.src, horigin, Nat.add_assoc]
    exact h.source_stands hr hin hv _ hi hiw
  have hold := h.left _ _ hiw hrow (hin.ahead_of_holds _ _ hi)
  rw [Nat.add_sub_cancel_left, r.newPixel_eq, hsource, hr.rect_eq, Nat.add_assoc v.rect.x, hold, hr.job]
  rfl

theorem EngineRecord.Runs.spanEnd_in_canvas : r.job.rect.x + r.spanLeft + r.spanPixels ≤ v.g.width := by
  have hend := hin.spanEnd_le
  have hx := hv.dstX
  rw [hr.rect_eq] at hend ⊢
  omega

/-- The pixels of the destination canvas once a span is written: those of the span new, all others as they were (R107). -/
theorem Move.Partly.pixel_written {m t : Store} (h : v.Partly m t r.Ahead) (x y : Nat) (hx : x < v.g.width) :
    (r.writePhase t []).pixel v.g x y =
      if v.rect.x ≤ x ∧ v.rect.y ≤ y ∧ r.spanHolds (x - v.rect.x) (y - v.rect.y) = true then
        v.copied m (x - v.rect.x) (y - v.rect.y)
      else t.pixel v.g x y := by
  have hspan := hr.spanEnd_in_canvas hin hv
  by_cases hy : y = r.job.rect.y + r.row
  · subst hy
    rw [r.pixel_writePhase t [] hr.dst, hr.rect_eq, Nat.add_sub_cancel_left]
    have hholds : v.rect.x + r.spanLeft ≤ x ∧ x < v.rect.x + r.spanLeft + r.spanPixels ↔
        v.rect.x ≤ x ∧ v.rect.y ≤ v.rect.y + r.row ∧ r.spanHolds (x - v.rect.x) r.row = true := by
      rw [EngineRecord.spanHolds, decide_eq_true_eq]
      omega
    rw [if_congr hholds rfl rfl]
    refine ite_congr rfl (fun hin' => ?_) fun _ => rfl
    rw [← h.newPixel_eq hr hin hv _ hin'.2.2, Nat.sub_sub]
  · rw [r.pixel_writePhase_of_other_row t [] hr.dst hv.dstCanvas hspan x y hx hy, if_neg]
    rintro ⟨_, hle, hholds⟩
    rw [EngineRecord.spanHolds, decide_eq_true_eq] at hholds
    rw [hr.rect_eq] at hy
    omega

/-- A span does its own pixels and leaves all others to do or done, as they were (R97, R99). -/
theorem Move.Partly.writePhase {m t : Store} (h : v.Partly m t r.Ahead) :
    v.Partly m (r.writePhase t []) fun i j => r.Ahead i j ∧ ¬ r.spanHolds i j = true := by
  have hx := hv.dstX
  have hpixel := h.pixel_written hr hin hv
  have hinside (i j : Nat) (hi : i < v.rect.w) : (r.writePhase t []).pixel v.g (v.rect.x + i) (v.rect.y + j) =
      if r.spanHolds i j = true then v.copied m i j else t.pixel v.g (v.rect.x + i) (v.rect.y + j) := by
    rw [hpixel _ _ (by omega), Nat.add_sub_cancel_left, Nat.add_sub_cancel_left]
    refine if_congr ?_ rfl rfl
    simp only [Nat.le_add_right, true_and]
  refine ⟨fun i j hi hj htodo => ?_, fun i j hi hj htodo => ?_, fun x y hxw hout => ?_, fun hother x y hxw hyh => ?_⟩
  · rw [hinside i j hi]
    split
    · rfl
    · next hs => exact h.done i j hi hj fun ha => htodo ⟨ha, hs⟩
  · rw [hinside i j hi, if_neg htodo.2]
    exact h.left i j hi hj htodo.1
  · rw [hpixel x y hxw, if_neg, h.beside x y hxw hout]
    rintro ⟨hlx, hly, hholds⟩
    have hend := hin.spanEnd_le
    have hrow := hin.row
    rw [EngineRecord.spanHolds, decide_eq_true_eq] at hholds
    rw [hr.rect_eq] at hend hrow
    omega
  · have hrow : r.job.rect.y + r.row < v.dstHeight := by
      have hrow := hin.row
      have hy := hv.dstY
      rw [hr.rect_eq] at hrow ⊢
      omega
    rw [r.pixel_writePhase_of_other_canvas t [] hr.dst hv.dstCanvas (hr.spanEnd_in_canvas hin hv) hrow hv.srcCanvas
      (hv.apart.resolve_left fun hs => hother hs.1).2 x y hxw hyh]
    exact h.source hother x y hxw hyh

end

/-- All spans of a MOVE, one after the other, do what was ahead (R99). -/
theorem Move.Partly.spans {v : Move} (hv : v.Allowed) (m : Store) {r : EngineRecord} (hr : r.Runs v) (hin : r.Within v.g)
    {n : Nat} (hn : r.spansLeft v.g ≤ n) {t : Store} (h : v.Partly m t r.Ahead) :
    v.Partly m ((r.spans n).foldl (fun x k => k.writePhase x []) t) fun _ _ => False := by
  refine EngineRecord.spans_induction (motive := fun r l => r.Runs v → ∀ t, v.Partly m t r.Ahead →
    v.Partly m (l.foldl (fun x k => k.writePhase x []) t) fun _ _ => False) ?_ ?_ n r hin hn hr t h
  · intro r hin hq hr t h
    refine (h.writePhase hr hin hv).congr fun i j hi hj => ?_
    rw [hin.ahead_last hq i j (hr.rect_eq ▸ hi) (hr.rect_eq ▸ hj)]
    exact (and_not_self_iff _).symm
  · intro r q l hin hq ih hr t h
    have hnext : (r.at q).Runs v := ⟨hr.job, hr.src, hr.dst, hr.upward, hr.leftward⟩
    exact ih hnext _ ((h.writePhase hr hin hv).congr fun i j hi _ => hin.ahead_next hq i j (hr.rect_eq ▸ hi))

/-- Settles O50: every pixel is ahead at the beginning and in one span alone, and the order of R97 takes no pixel before the
spans that read it. -/
theorem spansCoverAJobAndMoveActsAsIfCopied : Obligations.SpansCoverAJobAndMoveActsAsIfCopied := by
  refine ⟨?_, ?_⟩
  · intro r g hgeo hw hh hrow hcol w h most spans
    have hspan : r.spanGeo = some g := by
      rw [← hgeo, EngineRecord.spanGeo]
      split
      · next hk => rw [if_pos hk]
      · next hk => rw [if_neg hk]
    have hstart : r.AtStart g := ⟨hspan, hw, hh, hrow, hcol⟩
    have hfuel := hstart.spansLeft_le
    refine ⟨?_, EngineRecord.spanPixels_of_mem_spans hstart.within hfuel, fun i j hi hj => ?_⟩
    · exact (EngineRecord.length_spans hstart.within hfuel).trans hstart.spansLeft_eq
    · exact (EngineRecord.countP_spans hstart.within hfuel i j hi hj).1 (hstart.ahead i j hi hj)
  · intro m r a g src dst sx sy srcHeight dstHeight rect rop key hjob hsrc hdst hformat ha hg hw hh hdx hdy hsx hsy hapart
      hup hleft hrow hcol f t
    let v : Move := ⟨src, dst, sx, sy, rect, rop, key, a, g, srcHeight, dstHeight⟩
    have hv : v.Allowed := ⟨hformat, ha, hg, hdx, hdy, hsx, hsy, hapart⟩
    have hr : r.Runs v := ⟨hjob, hsrc, hdst, hup, hleft⟩
    have hrect : r.job.rect = rect := hr.rect_eq
    have hspan : r.spanGeo = some g := by rw [EngineRecord.spanGeo, hjob]; exact hdst
    have hstart : r.AtStart g := by
      refine ⟨hspan, ?_, ?_, ?_, ?_⟩ <;> rw [hrect] <;> assumption
    have hbegin : v.Partly m m r.Ahead :=
      ⟨fun i j hi hj hdone => absurd (hstart.ahead i j (hrect ▸ hi) (hrect ▸ hj)) hdone, fun _ _ _ _ _ => rfl,
        fun _ _ _ _ => rfl, fun _ _ _ _ _ => rfl⟩
    have hend := Move.Partly.spans hv m hr hstart.within (hrect ▸ hstart.spansLeft_le) hbegin
    exact ⟨fun i j hi hj => hend.done i j hi hj not_false, fun x y hx _ hout => hend.beside x y hx hout⟩

end Sys2Proof.Machine

/-! SUPPORT. Write data (R118 to R121, R124): when the data of a DAT frame is appended and what that changes, what a rejected
frame leaves, and which WRITE is served when the entries of the queue have changed. -/

namespace Sys2Proof.Machine

/-! ### Frames of write data (R119, R120) -/

theorem datWellFormed_iff (payload : List Byte) :
    datWellFormed payload = true ↔ 7 ≤ payload.length ∧ payload.length ≤ 1030 := by
  simp only [datWellFormed, Bool.and_eq_true, decide_eq_true_eq]

theorem length_datData (payload : List Byte) : (datData payload).length = payload.length - 6 := List.length_drop

/-- Only a well-formed frame has a promise to take back (R119). -/
theorem PortBlock.unpromise_eq (b : PortBlock) (payload : List Byte) : b.unpromise payload = { b with
    staging := { b.staging with promised :=
      if 7 ≤ payload.length ∧ payload.length ≤ 1030 then b.staging.promised - (payload.length - 6)
      else b.staging.promised } } := by
  rw [PortBlock.unpromise, if_congr (datWellFormed_iff payload) rfl rfl, length_datData]
  split <;> rfl

@[simp] theorem State.dataLength_setPort (s : State) (p : Port) (b : PortBlock) (j : Job) :
    (s.setPort p b).dataLength j = s.dataLength j := by
  simp only [State.dataLength, State.setPort_canvas]

/-- The data length of a WRITE is that of its destination rectangle (R63, R128). -/
theorem State.dataLength_write (s : State) {dst : Handle} {rect : Rect} {c : Canvas}
    (h : s.canvas (handleSlot dst) = some c) : s.dataLength (.write dst rect) = rect.h * c.format.rowBytes rect.w := by
  simp only [State.dataLength, Job.dst, Job.rect, Option.orElse_some, Option.bind_some, h]

/-- The three conditions of R120 for one entry. -/
theorem State.datFits_iff (s : State) (p : Port) (payload : List Byte) (e : Entry) : s.datFits p payload e = true ↔
    (s.port p).staging.served = some (datSeq payload) ∧ e.seq = datSeq payload ∧ datOffset payload = e.received ∧
      datOffset payload + (payload.length - 6) ≤ s.dataLength e.job := by
  simp only [State.datFits, Bool.and_eq_true, beq_iff_eq, decide_eq_true_eq, length_datData, and_assoc]

/-- The conditions under which the data of a frame is appended, on the port's block (R119, R120). -/
def State.DatAppends (s : State) (b : PortBlock) (payload : List Byte) : Prop :=
  (7 ≤ payload.length ∧ payload.length ≤ 1030) ∧ b.staging.served = some (datSeq payload) ∧
    ∃ e ∈ b.queue.entries, e.seq = datSeq payload ∧ datOffset payload = e.received ∧
      datOffset payload + (payload.length - 6) ≤ s.dataLength e.job

/-- The test of DAT_FRAME is those conditions: the promise taken back plays no part in it. -/
theorem State.datTest_iff (s : State) (p : Port) (b : PortBlock) (payload : List Byte) :
    (datWellFormed payload && (b.unpromise payload).queue.entries.any
      ((s.setPort p (b.unpromise payload)).datFits p payload)) = true ↔ s.DatAppends b payload := by
  have hserved : (b.unpromise payload).staging.served = b.staging.served := by rw [PortBlock.unpromise_eq]
  simp only [Bool.and_eq_true, datWellFormed_iff, List.any_eq_true, State.datFits_iff, State.port_setPort_same, hserved,
    PortBlock.unpromise_queue, State.dataLength_setPort, State.DatAppends]
  refine and_congr_right fun _ => ⟨?_, ?_⟩
  · rintro ⟨e, he, hs, hfits⟩
    exact ⟨hs, e, he, hfits⟩
  · rintro ⟨hs, e, he, hfits⟩
    exact ⟨e, he, hs, hfits⟩

/-! ### The command (R120, R121) -/

section
variable {s : State} {p : Port} {payload : List Byte} {rest : List InFrame} (h : s.Oldest p .dat payload rest)
include h

theorem exec_datFrame_of_oldest :
    exec (.datFrame p) s = .next ((s.setPort p ((s.port p).took rest)).takeData p payload) := by
  change execDatFrame p s = _
  rw [execDatFrame, s.process_of_oldest p .dat payload rest _ _ h (InFrame.row_dat payload)]

theorem exec_datFrame_of_appends (ha : s.DatAppends ((s.port p).took rest) payload) :
    exec (.datFrame p) s = .next (s.setPort p
      ((((s.port p).took rest).unpromise payload).appendData payload (datSeq payload))) := by
  rw [exec_datFrame_of_oldest h]
  simp only [State.takeData, State.modPort, State.port_setPort_same, State.setPort_setPort]
  rw [if_pos ((s.datTest_iff p _ payload).2 ha)]

theorem exec_datFrame_of_not_appends (ha : ¬ s.DatAppends ((s.port p).took rest) payload) :
    exec (.datFrame p) s = .next (s.setPort p
      ((((s.port p).took rest).unpromise payload).rejectData payload)) := by
  rw [exec_datFrame_of_oldest h]
  simp only [State.takeData, State.modPort, State.port_setPort_same, State.setPort_setPort]
  rw [if_neg (mt (s.datTest_iff p _ payload).1 ha)]

end

/-- A change of the entries of one sequence changes the one entry that has it. -/
theorem Entry.map_of_seq_unique {before after : List Entry} {e : Entry} {seq : Nat} (f : Entry → Entry)
    (hothers : ∀ x ∈ before ++ after, x.seq ≠ seq) (he : e.seq = seq) :
    ((before ++ e :: after).map fun x => if x.seq = seq then f x else x) = before ++ f e :: after := by
  have hstay : ∀ l : List Entry, (∀ x ∈ l, x.seq ≠ seq) → (l.map fun x => if x.seq = seq then f x else x) = l :=
    fun l hl => (List.map_congr_left fun x hx => if_neg (hl x hx)).trans (List.map_id' l)
  rw [List.map_append, List.map_cons, if_pos he, hstay before fun x hx => hothers x (List.mem_append_left _ hx),
    hstay after fun x hx => hothers x (List.mem_append_right _ hx)]

/-- What an append changes: the held bytes, the bytes received of the one entry, and the data timeout (R120, R124). -/
theorem PortBlock.appendData_eq (b : PortBlock) (payload : List Byte) {before after : List Entry} {e : Entry} {seq : Nat}
    (hentries : b.queue.entries = before ++ e :: after) (hothers : ∀ x ∈ before ++ after, x.seq ≠ seq)
    (hseq : e.seq = seq) : b.appendData payload seq = { b with
      staging := { b.staging with held := b.staging.held ++ payload.drop 6 }
      queue := { b.queue with
        entries := before ++ { e with received := e.received + (payload.length - 6) } :: after }
      record := b.record.map fun r : EngineRecord =>
        if r.seq = seq then { r with timer := some b.config.dataTimeout } else r } := by
  have hmap := Entry.map_of_seq_unique
    (fun x => { x with received := x.received + (datData payload).length }) hothers hseq
  rw [← hentries, length_datData] at hmap
  simp only [PortBlock.appendData, length_datData, hmap]
  rfl

/-! ### The served WRITE (R118, R123) -/

theorem Entry.servable_iff (e : Entry) : e.servable = true ↔ e.job.kind = .write ∧ e.state ≠ .queued true := by
  simp only [Entry.servable, Job.isWrite, Bool.and_eq_true, beq_iff_eq, bne_iff_ne]

/-- The entry of the served WRITE, by its sequence `q`, stands uncut in the queue. -/
theorem PortBlock.servedStands_iff (b : PortBlock) (q : Nat) :
    (b.queue.entries.any fun e => e.servable && e.seq == q) = true ↔
      ∃ e ∈ b.queue.entries, e.seq = q ∧ e.job.kind = .write ∧ e.state ≠ .queued true := by
  simp only [List.any_eq_true, Bool.and_eq_true, Entry.servable_iff, beq_iff_eq, and_comm]

section
variable {b : PortBlock} {q : Nat}

theorem PortBlock.refreshStaging_of_stands (hq : b.staging.served = some q)
    (h : ∃ e ∈ b.queue.entries, e.seq = q ∧ e.job.kind = .write ∧ e.state ≠ .queued true) : b.refreshStaging = b := by
  rw [PortBlock.refreshStaging, hq]
  exact if_pos ((b.servedStands_iff q).2 h)

theorem PortBlock.refreshStaging_of_gone (hq : b.staging.served = some q)
    (h : ¬ ∃ e ∈ b.queue.entries, e.seq = q ∧ e.job.kind = .write ∧ e.state ≠ .queued true) :
    b.refreshStaging = { b with staging :=
      { b.staging with held := [], served := (b.queue.entries.find? Entry.servable).map Entry.seq } } := by
  rw [PortBlock.refreshStaging, hq]
  exact if_neg (mt (b.servedStands_iff q).1 h)

theorem PortBlock.refreshStaging_of_none (hq : b.staging.served = none) :
    b.refreshStaging = { b with staging :=
      { b.staging with served := (b.queue.entries.find? Entry.servable).map Entry.seq } } := by
  rw [PortBlock.refreshStaging, hq]

end

/-- Settles O39: the frame is appended when the conditions of R120 hold of one entry and rejected otherwise, and the served
WRITE stays or passes on by whether its entry stands. -/
theorem writeDataIsAppendedOrRejected : Obligations.WriteDataIsAppendedOrRejected := by
  refine ⟨fun s p payload rest h => ?_, fun b => ?_⟩
  · intro b size wellFormed seq offset staging
    refine ⟨?_, fun hrejects => ?_⟩
    · intro before e after dst rect c hwell hserved hentries hothers hseq hjob hc hoffset hfits
      have hlength : offset + size ≤ s.dataLength e.job := by
        rw [hjob, s.dataLength_write hc]
        exact hfits
      have happends : s.DatAppends b payload :=
        ⟨hwell, hserved, e, by rw [hentries]; simp, hseq, hoffset, hlength⟩
      have hqueue : (b.unpromise payload).queue.entries = before ++ e :: after := by
        rw [PortBlock.unpromise_queue]
        exact hentries
      rw [exec_datFrame_of_appends h happends,
        PortBlock.appendData_eq (seq := datSeq payload) _ payload hqueue hothers hseq, PortBlock.unpromise_eq]
      rfl
    · have hnot : ¬ s.DatAppends b payload := by
        rintro ⟨hwell, hserved, e, he, hseq, hoffset, hlength⟩
        obtain hw | hs | hall := hrejects
        · exact hw hwell
        · exact hs hserved
        · exact (hall e he hseq).elim (· hoffset) (Nat.not_lt.2 hlength)
      rw [exec_datFrame_of_not_appends h hnot, PortBlock.unpromise_eq]
      rfl
  · exact ⟨fun q => PortBlock.refreshStaging_of_stands, fun q => PortBlock.refreshStaging_of_gone,
      PortBlock.refreshStaging_of_none⟩

end Sys2Proof.Machine

/-! SUPPORT. The stream timers (R124 to R126): when the timer of a WRITE or a READ counts down, and what its expiry leaves. -/

namespace Sys2Proof.Machine

/-! ### Timers that count down (R124, R125) -/

theorem State.spanBusy_eq_false_iff (s : State) (p : Port) :
    s.spanBusy p = false ↔ ∀ x, s.engine.span = some x → x.port ≠ p :=
  ⟨fun hf x hx hp => Bool.eq_false_iff.1 hf ((s.spanBusy_iff p).2 ⟨x, hx, hp⟩), s.spanBusy_eq_false p⟩

section
variable {b : PortBlock} {r : EngineRecord} (hr : b.record = some r) (busy : Bool)
include hr

/-- The data timeout counts while the held bytes do not cover the next span (R124). -/
theorem PortBlock.streamCounts_of_write {g : Geo} (hk : r.job.kind = .write) (hg : r.spanGeo = some g) :
    b.streamCounts busy = true ↔ busy = false ∧ b.staging.held.length < g.format.rowBytes r.spanPixels := by
  simp only [PortBlock.streamCounts, hr, hk, PortBlock.writeReady, EngineRecord.spanBytes, hg, Bool.and_eq_true,
    Bool.not_eq_true', decide_eq_false_iff_not, Nat.not_le]

/-- The read stall timer counts while no slot is free (R125). -/
theorem PortBlock.streamCounts_of_read (hk : r.job.kind = .read) :
    b.streamCounts busy = true ↔ busy = false ∧ 8 ≤ b.link.used.length + b.link.reserved := by
  simp only [PortBlock.streamCounts, hr, hk, Bool.and_eq_true, Bool.not_eq_true', beq_iff_eq, Link.freeSlots_eq_zero]

/-! ### Expiry (R126) -/

/-- Time changes at most the timer of a record. -/
theorem PortBlock.record_elapse (ms : Nat) : ∃ t, (b.elapse ms busy).record = some { r with timer := t } := by
  simp only [PortBlock.elapse, hr]
  split
  · exact ⟨_, rfl⟩
  · exact ⟨r.timer, rfl⟩

/-- The report of an expiry names the job's canvas and its progress, which the passing of time leaves as they were (R126). -/
theorem PortBlock.timedOut_elapse {g : Geo} (hg : r.spanGeo = some g) (ms : Nat) (kind : FaultKind) :
    (b.elapse ms busy).timedOut kind = { b.elapse ms busy with
      record := none
      queue := { (b.elapse ms busy).queue with
        report := some (.timedOut ⟨kind, g.handle, some (r.row, r.col), none⟩) } } := by
  obtain ⟨t, ht⟩ := PortBlock.record_elapse hr busy ms
  have hgeo : ({ r with timer := t } : EngineRecord).spanGeo = some g := hg
  rw [PortBlock.timedOut, ht]
  simp only [EngineRecord.streamFault, hgeo, Option.map_some, Option.getD_some]

end

/-- The state in which the stream timer of `p`'s job, on the canvas `g`, has expired: the time left has passed, and the job
is reported timed out at its progress (R126, log 6). -/
def State.streamExpired (s : State) (p : Port) (r : EngineRecord) (g : Geo) (left : Nat) (kind : FaultKind) : State :=
  let b := (s.elapse left).port p
  (s.elapse left).setPort p { b with
    record := none
    queue := { b.queue with report := some (.timedOut ⟨kind, g.handle, some (r.row, r.col), none⟩) } }

section
variable {s : State} {p : Port} {r : EngineRecord} (hr : (s.port p).record = some r)
include hr

theorem State.streamExpiry_of_counts {g : Geo} {left : Nat} (kind : FaultKind) (ht : r.timer = some left)
    (hg : r.spanGeo = some g) (hc : (s.port p).streamCounts (s.spanBusy p) = true) :
    s.streamExpiry p r.job.kind kind = s.streamExpired p r g left kind := by
  simp only [State.streamExpiry, hr, hc, decide_true, Bool.and_self, if_true]
  rw [ht, Option.getD_some, State.modPort, State.elapse_port, PortBlock.timedOut_elapse hr _ hg, State.streamExpired,
    State.elapse_port]

theorem State.streamExpiry_of_not_counts (job : JobKind) (kind : FaultKind)
    (hc : ¬ (s.port p).streamCounts (s.spanBusy p) = true) : s.streamExpiry p job kind = s := by
  simp only [State.streamExpiry, hr]
  exact if_neg fun h => hc (Bool.and_eq_true_iff.1 h).2

/-- An expiry takes place exactly while the timer counts: with no span of the job in progress, and the job short (R126). -/
theorem State.streamExpiry_cases {g : Geo} {left : Nat} {short : Prop} (kind : FaultKind) (ht : r.timer = some left)
    (hg : r.spanGeo = some g)
    (hcounts : ∀ busy, (s.port p).streamCounts busy = true ↔ busy = false ∧ short) :
    let noSpan := ∀ x, s.engine.span = some x → x.port ≠ p
    (noSpan ∧ short → s.streamExpiry p r.job.kind kind = s.streamExpired p r g left kind) ∧
      (¬ (noSpan ∧ short) → s.streamExpiry p r.job.kind kind = s) := by
  intro noSpan
  have hiff : (s.port p).streamCounts (s.spanBusy p) = true ↔ noSpan ∧ short := by
    rw [hcounts, s.spanBusy_eq_false_iff]
  exact ⟨fun h => State.streamExpiry_of_counts hr kind ht hg (hiff.2 h),
    fun h => State.streamExpiry_of_not_counts hr _ kind (mt hiff.1 h)⟩

end

/-- Settles O52: a WRITE's timer counts while its data is short, a READ's while no slot is free, and a timer expires exactly
while it counts. -/
theorem streamTimersExpire : Obligations.StreamTimersExpire := by
  intro s p r g left hp hr ht b noSpan u expired
  refine ⟨fun hk hdst => ?_, fun hk hsrc => ?_⟩
  · intro short
    have hg : r.spanGeo = some g := by rw [EngineRecord.spanGeo, hk]; exact hdst
    have hexec : exec (.dataTimeoutExpiry p) s = .next (s.streamExpiry p r.job.kind .dataTimeout) := by
      rw [hk]; exact s.unlessHeld_of_running _ hp
    rw [hexec]
    exact (State.streamExpiry_cases hr .dataTimeout ht hg
      fun busy => PortBlock.streamCounts_of_write hr busy hk hg).imp (congrArg _ ∘ ·) (congrArg _ ∘ ·)
  · intro full
    have hg : r.spanGeo = some g := by rw [EngineRecord.spanGeo, hk]; exact hsrc
    have hexec : exec (.readStallExpiry p) s = .next (s.streamExpiry p r.job.kind .readStall) := by
      rw [hk]; exact s.unlessHeld_of_running _ hp
    rw [hexec]
    exact (State.streamExpiry_cases hr .readStall ht hg
      fun busy => PortBlock.streamCounts_of_read hr busy hk).imp (congrArg _ ∘ ·) (congrArg _ ∘ ·)

end Sys2Proof.Machine

/-! SUPPORT. The attention marks (R140), the fault log (R130) and the store (R22) under the operations of the part: which
operations leave a due mark outstanding, the arrival list exact, and the store in its form with its check bits agreeing. -/

namespace Sys2Proof.Machine

set_option Elab.async false

/-! ### The marks of a port (R140) -/

/-- The port's ATN frame is due only while its attention is outstanding (R140). -/
def PortBlock.DueOutstanding (b : PortBlock) : Prop := b.attn.due = true → b.attn.outstanding = true

namespace PortBlock.DueOutstanding

variable {b : PortBlock}

/-- A change that leaves the attention unit as it is. -/
theorem of_attn {d : PortBlock} (h : b.DueOutstanding) (hd : d.attn = b.attn) : d.DueOutstanding := by
  rwa [PortBlock.DueOutstanding, hd]

theorem of_not_due {d : PortBlock} (hd : d.attn.due = false) : d.DueOutstanding :=
  fun h => absurd (hd.symm.trans h) Bool.false_ne_true

theorem ite {c : Prop} [Decidable c] {d e : PortBlock} (hd : d.DueOutstanding) (he : e.DueOutstanding) :
    (if c then d else e).DueOutstanding := by
  split
  · exact hd
  · exact he

theorem raise (h : b.DueOutstanding) {k : Flag} : (b.raise k).DueOutstanding := b.raise_due k h

theorem raiseFault (h : b.DueOutstanding) {k : FaultKind} : (b.raiseFault k).DueOutstanding := .ite h h.raise

theorem placeDueAtn (h : b.DueOutstanding) : b.placeDueAtn.DueOutstanding := .ite (.of_not_due rfl) h

theorem answer (h : b.DueOutstanding) {id : ReqId} {m : List Byte} : (b.answer id m).DueOutstanding :=
  h.of_attn (by rw [PortBlock.answer_eq])

theorem answerAll (h : b.DueOutstanding) {ids : List ReqId} {m : List Byte} : (b.answerAll ids m).DueOutstanding :=
  h.of_attn (by rw [PortBlock.answerAll_eq])

theorem answerCancels (h : b.DueOutstanding) {q : Nat} {st : JobStatus} : (b.answerCancels q st).DueOutstanding := by
  have hfold (ws : List CancelWaiter) (f : CancelWaiter → List Byte) (d : PortBlock) (hd : d.DueOutstanding) :
      (ws.foldl (fun d w => d.answer w.id (f w)) d).DueOutstanding := by
    induction ws generalizing d with
    | nil => exact hd
    | cons w t ih => exact ih _ hd.answer
  exact hfold _ _ _ h

theorem refreshStaging (h : b.DueOutstanding) : b.refreshStaging.DueOutstanding :=
  h.of_attn (by rw [PortBlock.refreshStaging_eq])

theorem stopRequest (h : b.DueOutstanding) {busy : Bool} : (b.stopRequest busy).DueOutstanding :=
  h.of_attn (by rw [PortBlock.stopRequest_eq])

theorem placeNotice (h : b.DueOutstanding) {e : Entry} {st : JobStatus} {i : Option Nat} :
    (b.placeNotice e st i).DueOutstanding := .ite h h

theorem becomeHalted (h : b.DueOutstanding) : b.becomeHalted.DueOutstanding :=
  raise (answerAll (b := { b with queue := { b.queue with run := .halted, haltWaiters := [] } }) h)

theorem unwait (h : b.DueOutstanding) : b.unwait.DueOutstanding := by
  unfold PortBlock.unwait
  split
  · exact .ite h h
  · exact h

theorem takeHalt (h : b.DueOutstanding) {m : List Byte} : (b.takeHalt m).DueOutstanding := by
  have hhalted (d : PortBlock) (hd : d.DueOutstanding) {id : ReqId} {c : List Byte} :
      (({ d with queue := { d.queue with run := .halted } } : PortBlock).reply (byteAt m 0) .ok id c).DueOutstanding := hd
  unfold PortBlock.takeHalt
  dsimp only
  split
  · exact .ite h (hhalted _ h.unwait).raise
  · exact h
  · exact h
  · exact h

theorem takeResume (h : b.DueOutstanding) {m : List Byte} : (b.takeResume m).DueOutstanding := by
  unfold PortBlock.takeResume
  dsimp only
  split
  · exact h
  · exact answerAll (b := { b with queue := { b.queue with run := .run, haltWaiters := [] } }) h
  · exact h

theorem cut (h : b.DueOutstanding) {a : Handle} {busy : Bool} : (b.cut a busy).DueOutstanding :=
  h.of_attn (by rw [PortBlock.cut_fields])

theorem cancelEntries (h : b.DueOutstanding) {target : Nat} : (b.cancelEntries target).DueOutstanding :=
  h.of_attn (by rw [PortBlock.cancelEntries_eq, PortBlock.refreshStaging_eq])

theorem reserveSpanSlot (h : b.DueOutstanding) : b.reserveSpanSlot.DueOutstanding := by
  unfold PortBlock.reserveSpanSlot
  split
  · exact h
  · exact .ite h h

theorem timedOut (h : b.DueOutstanding) {k : FaultKind} : (b.timedOut k).DueOutstanding := by
  unfold PortBlock.timedOut
  split <;> exact h

theorem reportStopped (h : b.DueOutstanding) : b.reportStopped.DueOutstanding := by
  unfold PortBlock.reportStopped
  split <;> exact h

theorem dropRequesters (h : b.DueOutstanding) : b.dropRequesters.DueOutstanding := by
  unfold PortBlock.dropRequesters
  split <;> exact h

/-- A port reset clears the attention unit (R146). -/
theorem beginReset {op : ResetOp} {busy : Bool} : (b.beginReset op busy).DueOutstanding :=
  refreshStaging (.ite (.of_not_due rfl) (stopRequest (.of_not_due rfl)))

theorem enable (h : b.DueOutstanding) : b.enable.DueOutstanding := by
  unfold PortBlock.enable
  split <;> exact h

theorem applySetting (h : b.DueOutstanding) {x : Setting} : (b.applySetting x).DueOutstanding :=
  .ite h (.ite h (.ite h (.ite h (.ite h (.ite h (.ite h h))))))

theorem applySettings (h : b.DueOutstanding) {xs : List Setting} :
    (xs.foldl PortBlock.applySetting b).DueOutstanding := by
  induction xs generalizing b with
  | nil => exact h
  | cons x t ih => exact ih h.applySetting

theorem unpromise (h : b.DueOutstanding) {m : List Byte} : (b.unpromise m).DueOutstanding := .ite h h

theorem rejectData (h : b.DueOutstanding) {m : List Byte} : (b.rejectData m).DueOutstanding :=
  raise (b := { b with staging := { b.staging with lastRejected := some (rejectedRecord m) } }) h

theorem haltOnLoss (h : b.DueOutstanding) : b.haltOnLoss.DueOutstanding := by
  unfold PortBlock.haltOnLoss
  split
  · exact .ite h h.unwait.becomeHalted
  · exact h

theorem resendExpired (h : b.DueOutstanding) : b.resendExpired.DueOutstanding := by
  have hlost (l : Link) : ({ b with link := l, portState := .lost } : PortBlock).haltOnLoss.DueOutstanding := haltOnLoss h
  exact .ite h (.ite (hlost _) h)

/-! ### Frames of a lane (R163 to R173) -/

theorem badCrc (h : b.DueOutstanding) : b.badCrc.DueOutstanding := by
  unfold PortBlock.badCrc
  split <;> exact h

theorem refuseForState (h : b.DueOutstanding) : b.refuseForState.DueOutstanding := by
  unfold PortBlock.refuseForState
  split <;> exact h

theorem takeInSequence (h : b.DueOutstanding) {c : InClass} {m : List Byte} : (b.takeInSequence c m).DueOutstanding := by
  cases c with
  | req => exact .ite h (.ite h h)
  | dat => exact .ite h (.ite h h)

theorem reqDatArrived (h : b.DueOutstanding) {c : InClass} {f : WireFrame} : (b.reqDatArrived c f).DueOutstanding := by
  unfold PortBlock.reqDatArrived
  split
  · exact .ite (takeInSequence (b := b.applyAck f.ack) h) (.ite h h)
  · exact h.refuseForState

theorem ackArrived (h : b.DueOutstanding) {f : WireFrame} : (b.ackArrived f).DueOutstanding := by
  unfold PortBlock.ackArrived
  split
  · exact h
  · exact h.refuseForState

theorem helloArrived (h : b.DueOutstanding) {f : WireFrame} : (b.helloArrived f).DueOutstanding := by
  have htake (q : BitVec 8) : (b.takeHello f.payload q).DueOutstanding := .ite h h
  unfold PortBlock.helloArrived
  split
  · exact htake _
  · exact htake _
  · exact htake _
  · exact h
  · exact h

theorem transmit (h : b.DueOutstanding) : b.transmit.DueOutstanding := by
  unfold PortBlock.transmit
  dsimp only
  split
  · exact h
  · split
    · exact h
    · split
      · exact h
      · split
        · exact h
        · exact .ite h h

end PortBlock.DueOutstanding

end Sys2Proof.Machine

/-! SUPPORT. What O58 says of one change of the part, but for the generations: the changes that keep it, one after the other. -/

namespace Sys2Proof.Machine

set_option Elab.async false

/-! ### The store in its form (R22, R23) -/

/-- The bytes of a row of pixels end where the row's bytes up to its last pixel do (R5, R21). -/
theorem Geo.pixelStart_add_length_le (g : Geo) (m : Store) (x y : Nat) (px : List Colour) :
    g.pixelStart x y + (m.rowBytes g x y px).length ≤ g.rowBase y + g.format.rowBytes (x + px.length) := by
  rw [Store.length_rowBytes, Geo.pixelStart, Geo.bitAddress, Format.rowBytes]
  cases hf : g.format <;> simp only [Format.bits, if_true, reduceCtorEq, if_false] <;> omega

/-- A span whose access lies in the store keeps the store's form (R21, R23). -/
theorem EngineRecord.wf_writePhase (r : EngineRecord) (m : Store) (data : List Byte) (h : m.wf = true)
    (hin : r.accessInStore = true) : (r.writePhase m data).wf = true := by
  unfold EngineRecord.writePhase
  split
  · exact h
  · next g hd =>
    refine Store.wf_makeGood _ _ (m.wf_write _ _ h ?_)
    obtain ⟨_, hend⟩ := Bool.and_eq_true_iff.1 hin
    rw [EngineRecord.writeEnd, hd, decide_eq_true_eq] at hend
    refine (g.pixelStart_add_length_le m _ _ _).trans ?_
    rwa [List.length_map, List.length_range]

/-- What an abandoned access leaves is in form, and its check bits agree (R27). -/
theorem State.abandonedStore_keeps (s : State) :
    (s.store.wf = true → s.abandonedStore.wf = true) ∧ (s.store.ChecksAgree → s.abandonedStore.ChecksAgree) := by
  have habandon (after : Store) (ws : List Nat) :
      (s.store.wf = true → (s.store.abandon s.deviceResets after ws).wf = true) ∧
        (s.store.ChecksAgree → (s.store.abandon s.deviceResets after ws).ChecksAgree) :=
    ⟨s.store.wf_abandon _ _ _, s.store.checksAgree_abandon _ _ _⟩
  unfold State.abandonedStore
  split
  · exact ⟨id, id⟩
  · exact habandon _ _
  · split
    · exact ⟨id, id⟩
    · split
      · exact ⟨id, id⟩
      · split
        · exact ⟨id, id⟩
        · exact habandon _ _

/-! ### The fault log (R130 to R138) -/

/-- A record logged where one was FREE joins the arrival list (R132). -/
theorem FaultLog.Consistent.log {l : FaultLog} (h : l.Consistent) {i : Nat} (hi : l.firstFree = some i) (p : Port)
    (seq : Nat) (kind : JobKind) (d : FaultDetail) : (l.log i p seq kind d).Consistent := by
  obtain ⟨hnodup, hmem⟩ := h
  obtain ⟨hlt, hfree, _⟩ := l.firstFree_some i hi
  have hnot : i ∉ l.arrival := by rw [hmem, hfree]; exact Bool.false_ne_true
  refine ⟨List.nodup_append.2 ⟨hnodup, List.nodup_singleton i, ?_⟩, fun j => ?_⟩
  · intro a ha b hb hab
    rw [List.mem_singleton] at hb
    exact hnot (hb ▸ hab ▸ ha)
  · rw [FaultLog.record_log _ _ _ _ _ _ _ hlt, FaultLog.log, List.mem_append, List.mem_singleton, hmem]
    by_cases hj : j = i
    · simp [hj]
    · simp [hj]

/-- A freed record leaves the arrival list (R137). -/
theorem FaultLog.Consistent.free {l : FaultLog} (h : l.Consistent) (i : Nat) : (l.free i).Consistent := by
  obtain ⟨hnodup, hmem⟩ := h
  refine ⟨hnodup.filter _, fun j => ?_⟩
  rw [FaultLog.record_free, FaultLog.free, List.mem_filter, hmem]
  by_cases hj : j = i
  · simp [hj]
  · simp [hj]

theorem FaultLog.record_freePort (l : FaultLog) (p : Port) (i : Nat) :
    (l.freePort p).record i = if (l.record i).any (fun r => r.port == p) then none else l.record i := by
  by_cases hi : i < 12
  · simp [FaultLog.record, FaultLog.freePort, hi]
  · simp [FaultLog.record, FaultLog.freePort, hi]

/-- The records of a port that is reset leave the arrival list (R138). -/
theorem FaultLog.Consistent.freePort {l : FaultLog} (h : l.Consistent) (p : Port) : (l.freePort p).Consistent := by
  obtain ⟨hnodup, hmem⟩ := h
  refine ⟨hnodup.filter _, fun i => ?_⟩
  rw [FaultLog.record_freePort, FaultLog.freePort, List.mem_filter, hmem]
  cases (l.record i).any fun r => r.port == p <;> simp

theorem FaultLog.Consistent.acknowledgeAll {l : FaultLog} (h : l.Consistent) (p : Port) (is : List Nat) :
    (l.acknowledgeAll p is).2.Consistent := by
  induction is generalizing l with
  | nil => exact h
  | cons i t ih =>
    refine ih ?_
    unfold FaultLog.acknowledge
    split
    · exact h
    · split
      · exact h.free i
      · exact h

theorem FaultLog.consistent_reset : FaultLog.reset.Consistent := by
  refine ⟨List.nodup_nil, fun i => ?_⟩
  by_cases hi : i < 12 <;> simp [FaultLog.reset, FaultLog.record, hi]

/-! ### Changes that keep store, log and marks -/

/-- From `s` to `t` the store keeps its form and its agreement with the check bits, the fault log its arrival list, and the
ports their marks. -/
structure State.StaysSound (s t : State) : Prop where
  form : s.StoreCanonical → t.StoreCanonical
  checks : s.store.ChecksAgree → t.store.ChecksAgree
  log : s.faultLog.Consistent → t.faultLog.Consistent
  due : s.DueOutstanding → t.DueOutstanding

theorem State.StaysSound.refl (s : State) : s.StaysSound s := ⟨id, id, id, id⟩

namespace State.StaysSound

variable {s t : State}

/-- A further change that touches neither store nor log. -/
theorem thenPorts (h : s.StaysSound t) {u : State} (hs : u.store = t.store) (hl : u.faultLog = t.faultLog)
    (hd : t.DueOutstanding → u.DueOutstanding) : s.StaysSound u where
  form hf := by rw [State.StoreCanonical, hs]; exact h.form hf
  checks hc := by rw [hs]; exact h.checks hc
  log hc := by rw [hl]; exact h.log hc
  due := hd ∘ h.due

/-- A further change outside store, log and ports. -/
theorem thenOther (h : s.StaysSound t) {u : State} (hs : u.store = t.store) (hl : u.faultLog = t.faultLog)
    (hp : u.ports = t.ports) : s.StaysSound u :=
  h.thenPorts hs hl fun hd p => by rw [State.port, hp]; exact hd p

/-- A further change of the store that keeps its form and its agreement. -/
theorem thenStore (h : s.StaysSound t) {m : Store} (hf : t.store.wf = true → m.wf = true)
    (hc : t.store.ChecksAgree → m.ChecksAgree) : s.StaysSound { t with store := m } :=
  ⟨hf ∘ h.form, hc ∘ h.checks, h.log, h.due⟩

/-- A further change of the fault log that keeps its arrival list exact. -/
theorem thenLog (h : s.StaysSound t) {l : FaultLog} (hl : t.faultLog.Consistent → l.Consistent) :
    s.StaysSound { t with faultLog := l } := ⟨h.form, h.checks, hl ∘ h.log, h.due⟩

theorem ite {c : Prop} [Decidable c] {u : State} (ht : s.StaysSound t) (hu : s.StaysSound u) :
    s.StaysSound (if c then t else u) := by
  split
  · exact ht
  · exact hu

theorem foldl (h : s.StaysSound t) {α : Type} {f : State → α → State}
    (hf : ∀ (u : State) (a : α), s.StaysSound u → s.StaysSound (f u a)) {xs : List α} : s.StaysSound (xs.foldl f t) := by
  induction xs generalizing t with
  | nil => exact h
  | cons a _ ih => exact ih (hf t a h)

theorem modPort (h : s.StaysSound t) {p : Port} {f : PortBlock → PortBlock}
    (hf : ∀ b : PortBlock, b.DueOutstanding → (f b).DueOutstanding) : s.StaysSound (t.modPort p f) :=
  h.thenPorts rfl rfl fun hd q => by
    rw [State.port_modPort]
    split
    · exact hf _ (hd q)
    · exact hd q

/-- A further change of a port's block that leaves its attention unit as it is. -/
theorem quiet (h : s.StaysSound t) {p : Port} {f : PortBlock → PortBlock}
    (hf : ∀ b, (f b).attn = b.attn := by exact fun _ => rfl) : s.StaysSound (t.modPort p f) :=
  h.modPort fun b hb => hb.of_attn (hf b)

theorem setPort (h : s.StaysSound t) {p : Port} {b : PortBlock}
    (hb : (t.port p).DueOutstanding → b.DueOutstanding) : s.StaysSound (t.setPort p b) :=
  h.thenPorts rfl rfl fun hd q => by
    rw [State.port_setPort]
    split
    · exact hb (hd p)
    · exact hd q

theorem raise (h : s.StaysSound t) {p : Port} {k : Flag} : s.StaysSound (t.modPort p fun b => b.raise k) :=
  h.modPort fun _ hb => hb.raise

theorem reply (h : s.StaysSound t) {p : Port} {payload : List Byte} {st : Status} {m : List Byte} :
    s.StaysSound (t.reply p payload st m) := h.quiet

theorem refuse (h : s.StaysSound t) {p : Port} {payload : List Byte} {st : Status} :
    s.StaysSound (t.refuse p payload st) := h.reply

theorem defer (h : s.StaysSound t) {p : Port} {payload : List Byte} : s.StaysSound (t.defer p payload) :=
  h.quiet

theorem setSlot (h : s.StaysSound t) {n : Nat} {x : Slot} : s.StaysSound (t.setSlot n x) :=
  h.thenOther (t.setSlot_store n x) (t.setSlot_faultLog n x) (t.setSlot_ports n x)

theorem setCanvas (h : s.StaysSound t) {n : Nat} {c : Canvas} : s.StaysSound (t.setCanvas n c) := h.setSlot

theorem modCanvas (h : s.StaysSound t) {n : Nat} {f : Canvas → Canvas} : s.StaysSound (t.modCanvas n f) :=
  h.thenOther (t.modCanvas_store n f) (t.modCanvas_faultLog n f) (t.modCanvas_ports n f)

theorem elapse (h : s.StaysSound t) {ms : Nat} : s.StaysSound (t.elapse ms) :=
  h.thenPorts rfl rfl fun hd p => by rw [State.elapse_port]; exact hd p

/-! ### Ends of revokes and closes (R10, R45, R53) and pins (R9) -/

theorem answerWaiters (h : s.StaysSound t) {ws : List Waiter} {m : List Byte} : s.StaysSound (t.answerWaiters ws m) :=
  h.foldl fun _ _ hu => hu.modPort fun _ hb => hb.answer

theorem release (h : s.StaysSound t) {n : Nat} : s.StaysSound (t.release n) := by
  unfold State.release
  split
  · exact h
  · next c _ =>
    have hfree : s.StaysSound { t with allocated := freeRun t.allocated c.firstBlock c.blockCount } := h.thenOther rfl rfl rfl
    exact (hfree.quiet).setSlot

theorem endRevoke (h : s.StaysSound t) {n : Nat} {p : Port} : s.StaysSound (t.endRevoke n p) := by
  unfold State.endRevoke
  split
  · exact h
  · split
    · exact h
    · split
      · exact h
      · exact h.setCanvas.answerWaiters.raise

theorem answerRevoke (h : s.StaysSound t) {a : Handle} {g : Grant} : s.StaysSound (t.answerRevoke a g) := by
  unfold State.answerRevoke
  split
  · exact h
  · exact h.answerWaiters

theorem endClose (h : s.StaysSound t) {n : Nat} {op : CloseOp} : s.StaysSound (t.endClose n op) := by
  unfold State.endClose
  split
  · exact h
  · next c _ =>
    have hanswered : s.StaysSound
        ((c.grants.foldl (State.answerRevoke (t.handle n)) t).setCanvas n { c with grants := [] }) :=
      (h.foldl fun _ _ hu => hu.answerRevoke).setCanvas
    have hraised := (hanswered.foldl (f := fun u (g : Grant) => u.modPort g.port fun b => b.raise .grantLost)
      (xs := c.grants) fun _ _ hu => hu.raise).answerWaiters (ws := op.waiters)
      (m := closeContents (t.handle n) op.mode.outcome)
    exact (hraised.raise.ite hraised).release

theorem settle (h : s.StaysSound t) {n : Nat} {p : Port} : s.StaysSound (t.settle n p) := by
  obtain ⟨_, _, _, _, he⟩ | ⟨_, _, _, _, he⟩ | ⟨he, _⟩ := t.settle_cases n p <;> rw [he]
  · exact h.endClose
  · exact h.endRevoke
  · exact h

theorem settleAll (h : s.StaysSound t) {p : Port} {hs : List Handle} : s.StaysSound (t.settleAll p hs) := by
  induction hs generalizing t with
  | nil => exact h
  | cons a _ ih => exact ih (h.ite h.settle)

theorem dropPins (h : s.StaysSound t) {p : Port} {hs : List Handle} : s.StaysSound (t.dropPins p hs) :=
  h.foldl fun _ _ hu => hu.modCanvas

theorem unpinAll (h : s.StaysSound t) {p : Port} {hs : List Handle} : s.StaysSound (t.unpinAll p hs) :=
  h.foldl fun _ _ hu => hu.modCanvas.settle

theorem cutPort (h : s.StaysSound t) {n : Nat} {p : Port} : s.StaysSound (t.cutPort n p) := by
  unfold State.cutPort
  split
  · exact h
  · exact .ite h (h.modPort fun _ hb => hb.cut).unpinAll

theorem cutCanvas (h : s.StaysSound t) {n : Nat} : s.StaysSound (t.cutCanvas n) := by
  unfold State.cutCanvas
  split
  · exact h
  · exact h.foldl fun _ _ hu => hu.cutPort

/-! ### Claims and the end of a job (R77, R79, R87, R91, R92) -/

theorem tryGrant (h : s.StaysSound t) {p : Port} : s.StaysSound (t.tryGrant p) := by
  obtain he | ⟨_, _, _, _, _, _, _, he⟩ := t.tryGrant_cases p <;> rw [he]
  · exact h
  · exact h.setPort id

theorem releaseClaims (h : s.StaysSound t) {p : Port} : s.StaysSound (t.releaseClaims p) :=
  h.quiet.foldl fun _ _ hu => hu.tryGrant

theorem endHead (h : s.StaysSound t) {p : Port} {e : Entry} {st : JobStatus} {i : Option Nat} {halts : Bool} :
    s.StaysSound (t.endHead p e st i halts) := by
  have htail := h.quiet (p := p) (f := fun b => { b with
    record := none, request := none, queue := { b.queue with entries := b.queue.entries.tail, report := none } })
  refine (State.StaysSound.modPort (dropPins (.ite htail.releaseClaims htail)) fun b hb => ?_).settleAll
  have hanswered : ((b.placeNotice e st i).refreshStaging.answerCancels e.seq st).DueOutstanding :=
    hb.placeNotice.refreshStaging.answerCancels
  exact .ite hanswered.becomeHalted hanswered

/-- A fault handed over is logged in a FREE record, or LOG-FULL is set (R132, R133). -/
theorem logFault (h : s.StaysSound t) {p : Port} {seq : Nat} {kind : JobKind} {d : FaultDetail} :
    s.StaysSound (t.logFault p seq kind d).1 := by
  unfold State.logFault
  split
  · next hi => exact (h.thenLog fun hl => hl.log hi p seq kind d).modPort fun _ hb => hb.raiseFault
  · exact h.modPort fun _ hb => hb.raise.raiseFault

theorem endFaulted (h : s.StaysSound t) {p : Port} {e : Entry} {d : FaultDetail} : s.StaysSound (t.endFaulted p e d) :=
  h.logFault.endHead

theorem endForReset (h : s.StaysSound t) {p : Port} {e : Entry} : s.StaysSound (t.endForReset p e) :=
  (h.quiet.releaseClaims.dropPins.modPort fun _ hb => hb.refreshStaging.reportStopped).settleAll

theorem endJob (h : s.StaysSound t) {p : Port} {e : Entry} {causes : StopCauses} {rep : Report} :
    s.StaysSound (t.endJob p e causes rep) := by
  unfold State.endJob
  split
  · exact h.endForReset
  · split
    · exact h.endFaulted
    · exact h.endHead

theorem dispatch (h : s.StaysSound t) {p : Port} {e : Entry} : s.StaysSound (t.dispatch p e) := by
  have hreserved := h.quiet (p := p) (f := fun b => { b with link := b.link.reserve })
  unfold State.dispatch
  split
  · exact hreserved.endHead
  · exact .ite hreserved.endHead h.quiet
  · exact h

/-! ### Port resets (R156 to R159) -/

theorem abandonClearing (h : s.StaysSound t) {n : Nat} : s.StaysSound (t.abandonClearing n) := by
  have hclear (u : ClearUnit) : s.StaysSound { t with clear := u } := h.thenOther rfl rfl rfl
  exact .ite (.ite (hclear _) (hclear _).release) (hclear _).release

theorem closeForReset (h : s.StaysSound t) {n : Nat} : s.StaysSound (t.closeForReset n) := by
  unfold State.closeForReset
  split
  · exact h
  · dsimp only
    split
    · exact h.abandonClearing
    · exact .ite h.setCanvas.endClose (.ite h.setCanvas.cutCanvas h.setCanvas)
    · exact .ite h.setCanvas.endClose (.ite h.setCanvas.cutCanvas h.setCanvas)

theorem dropSupervisor (h : s.StaysSound t) {p : Port} : s.StaysSound (t.dropSupervisor p) :=
  .ite (h.thenPorts rfl rfl fun hd q => by
    rw [State.port, Quad.get_map]
    exact PortBlock.DueOutstanding.dropRequesters (hd q)) h

/-- The tables of the part with a port's marks: its fault records are freed (R138). -/
theorem resetTables (h : s.StaysSound t) {p : Port} : s.StaysSound (t.resetTables p) :=
  (h.thenLog fun hl => hl.freePort p).thenOther rfl rfl rfl

theorem resetCanvases (h : s.StaysSound t) {p : Port} : s.StaysSound (t.resetCanvases p) :=
  (h.foldl fun _ _ hu => hu.closeForReset).foldl fun _ _ hu => hu.settle

theorem beginReset (h : s.StaysSound t) {p : Port} {op : ResetOp} : s.StaysSound (t.beginReset p op) :=
  (h.modPort fun _ _ => .beginReset).dropPins.dropSupervisor.resetTables.resetCanvases

theorem tryComplete (h : s.StaysSound t) {p : Port} : s.StaysSound (t.tryComplete p) := by
  unfold State.tryComplete
  split
  · exact h
  · exact .ite (h.quiet.modPort fun _ hb => hb.answerAll) h

theorem beginForRequest (h : s.StaysSound t) {payload : List Byte} {q : Port} {final : FinalState}
    {quotas : Option (Nat × Nat)} : s.StaysSound (t.beginForRequest payload q final quotas) := by
  unfold State.beginForRequest
  dsimp only
  split
  · exact h.beginReset.tryComplete.reply
  · exact (h.beginReset.tryComplete.quiet).defer

theorem joinReset (h : s.StaysSound t) {payload : List Byte} {q : Port} {op : ResetOp} {final : FinalState}
    {quotas : Option (Nat × Nat)} : s.StaysSound (t.joinReset payload q op final quotas) :=
  h.quiet.defer

/-! ### Sharing (R42, R43, R50, R51), admission (R69) and the engine (R103) -/

theorem beginRevoke (h : s.StaysSound t) {payload : List Byte} {a : Handle} {c : Canvas} {q : Port} {pins : Nat}
    {mode : WaitMode} : s.StaysSound (t.beginRevoke payload a c q pins mode) := by
  unfold State.beginRevoke
  dsimp only
  split
  · exact h.setCanvas.endRevoke.reply
  · split
    · exact h.setCanvas.defer
    · exact h.setCanvas.defer.cutPort

theorem joinRevoke (h : s.StaysSound t) {payload : List Byte} {a : Handle} {c : Canvas} {q : Port} {r : RevokeOp}
    {mode : WaitMode} : s.StaysSound (t.joinRevoke payload a c q r mode) := by
  unfold State.joinRevoke
  dsimp only
  split
  · exact h.setCanvas.defer.cutPort
  · exact h.setCanvas.defer

theorem beginClose (h : s.StaysSound t) {p : Port} {payload : List Byte} {a : Handle} {c : Canvas} {mode : WaitMode}
    {forced : Bool} : s.StaysSound (t.beginClose p payload a c mode forced) := by
  unfold State.beginClose
  dsimp only
  split
  · exact h.setCanvas.endClose.reply
  · split
    · exact h.setCanvas.defer
    · exact h.setCanvas.defer.cutCanvas

theorem joinClose (h : s.StaysSound t) {p : Port} {payload : List Byte} {a : Handle} {c : Canvas} {op : CloseOp}
    {mode : WaitMode} {forced : Bool} : s.StaysSound (t.joinClose p payload a c op mode forced) := by
  unfold State.joinClose
  dsimp only
  split
  · exact h.setCanvas.defer.cutCanvas
  · exact h.setCanvas.defer

theorem admitJob (h : s.StaysSound t) {p : Port} {j : Job × Bool} : s.StaysSound (t.admitJob p j) :=
  h.quiet.foldl fun _ _ hu => hu.modCanvas

theorem takeOpen (h : s.StaysSound t) {p : Port} {id : ReqId} {a : OpenAsk} {n f : Nat} :
    s.StaysSound (t.takeOpen p id a n f) := by
  have hslot : s.StaysSound (t.setCanvas n (a.record p id f)) := h.setCanvas
  unfold State.takeOpen
  refine State.StaysSound.quiet (hslot.thenOther ?_ ?_ ?_) <;> rfl

theorem canvasLive (h : s.StaysSound t) {n : Nat} : s.StaysSound (t.canvasLive n) := by
  unfold State.canvasLive
  split
  · exact h
  · split
    · exact h.setCanvas.answerWaiters
    · exact h

theorem blockReport (h : s.StaysSound t) : s.StaysSound t.blockReport := by
  have hclear (u : ClearUnit) : s.StaysSound { t with clear := u } := h.thenOther rfl rfl rfl
  unfold State.blockReport
  split
  · exact h
  · exact .ite (hclear _).release (.ite (hclear _) (hclear _).canvasLive)

theorem chooseSpan (h : s.StaysSound t) : s.StaysSound t.chooseSpan := by
  unfold State.chooseSpan
  split
  · exact h
  · next p _ =>
    have hengine : s.StaysSound { t with engine := ⟨some ⟨p, (t.port p).spanData⟩, p⟩ } := h.thenOther rfl rfl rfl
    exact hengine.modPort fun _ hb => hb.reserveSpanSlot

theorem streamExpiry (h : s.StaysSound t) {p : Port} {job : JobKind} {kind : FaultKind} :
    s.StaysSound (t.streamExpiry p job kind) := by
  unfold State.streamExpiry
  split
  · exact h
  · exact .ite (h.elapse.modPort fun _ hb => hb.timedOut) h

theorem takeData (h : s.StaysSound t) {p : Port} {payload : List Byte} : s.StaysSound (t.takeData p payload) :=
  .ite ((h.modPort fun _ hb => hb.unpromise).quiet)
    ((h.modPort fun _ hb => hb.unpromise).modPort fun _ hb => hb.rejectData)

theorem helloUnsynced (h : s.StaysSound t) {p : Port} {payload : List Byte} : s.StaysSound (t.helloUnsynced p payload) :=
  .ite h h.quiet

/-! ### Resets of the whole part (R160, R161) -/

/-- The attention units of a part at its reset values are clear (R146). -/
theorem dueOutstanding_of_reset (h : t.ports = State.reset.ports) : t.DueOutstanding := fun p => by
  rw [State.port, h]
  exact PortBlock.DueOutstanding.of_not_due (by rw [← State.port, State.reset_port]; rfl)

theorem powerOnValues {pin : Bool} : s.StaysSound (t.powerOnValues pin) where
  form _ := rfl
  checks _ := nofun
  log _ := FaultLog.consistent_reset
  due _ := dueOutstanding_of_reset rfl

theorem deviceReset (h : s.StaysSound t) : s.StaysSound t.deviceReset where
  form := t.abandonedStore_keeps.1 ∘ h.form
  checks := t.abandonedStore_keeps.2 ∘ h.checks
  log _ := FaultLog.consistent_reset
  due _ := dueOutstanding_of_reset rfl

end State.StaysSound

end Sys2Proof.Machine

/-! SUPPORT. Each command of the table, as a change that keeps store, fault log and marks, and the step invariant. -/

namespace Sys2Proof.Machine

set_option Elab.async false

/-! ### Commands and their frames -/

section
variable {s t : State}

theorem staysSound_of_unlessHeld {u : State} (h : s.unlessHeld u = .next t) (k : s.StaysSound u) : s.StaysSound t := by
  cases h
  exact .ite (.refl s) k

/-- A row of the request unit keeps what the processing of its frame keeps (R181). -/
theorem staysSound_of_process {p : Port} {row : StreamRow} {f : List Byte → State → State}
    (h : s.process p row f = .next t)
    (k : ∀ (payload : List Byte) (v : State), s.StaysSound v → s.StaysSound (f payload v)) : s.StaysSound t := by
  refine staysSound_of_unlessHeld h ?_
  split
  · exact .refl s
  · next payload v hv =>
    obtain ⟨rest, rfl⟩ := State.takeFrame_some hv
    exact k payload _ ((State.StaysSound.refl s).setPort id)

/-! ### Frames that arrive and are sent (R163 to R175) -/

theorem staysSound_arrived {p : Port} {rest : List Byte} {f : PortBlock → PortBlock}
    (hf : ∀ b : PortBlock, b.DueOutstanding → (f b).DueOutstanding) : s.StaysSound (s.arrived p rest f) :=
  (State.StaysSound.refl s).modPort fun b hb => hf { b with link := b.link.huntAgain rest } hb

theorem staysSound_frameLengthError {p : Port} {bytes : List Byte} (h : execFrameLengthError p bytes s = .next t) :
    s.StaysSound t := by
  refine staysSound_of_unlessHeld h ?_
  split
  · exact staysSound_arrived fun _ => id
  · exact .refl s

theorem staysSound_crcError {p : Port} {bytes : List Byte} (h : execCrcError p bytes s = .next t) : s.StaysSound t := by
  refine staysSound_of_unlessHeld h ?_
  split
  · exact staysSound_arrived fun _ hb => hb.badCrc
  · exact .refl s

theorem staysSound_unknownClassFrame {p : Port} {bytes : List Byte} (h : execUnknownClassFrame p bytes s = .next t) :
    s.StaysSound t := by
  refine staysSound_of_unlessHeld h ?_
  split
  · exact .ite (.refl s) (staysSound_arrived fun _ => id)
  · exact .refl s

theorem staysSound_reqDatFrameReceived {p : Port} {bytes : List Byte} (h : execReqDatFrameReceived p bytes s = .next t) :
    s.StaysSound t := by
  refine staysSound_of_unlessHeld h ?_
  split
  · split
    · exact .ite (.refl s) (staysSound_arrived fun _ hb => hb.reqDatArrived)
    · exact .refl s
  · exact .refl s

theorem staysSound_ackFrameReceived {p : Port} {bytes : List Byte} (h : execAckFrameReceived p bytes s = .next t) :
    s.StaysSound t := by
  refine staysSound_of_unlessHeld h ?_
  split
  · exact .ite (staysSound_arrived fun _ hb => hb.ackArrived) (.refl s)
  · exact .refl s

theorem staysSound_helloFrameReceived {p : Port} {bytes : List Byte} (h : execHelloFrameReceived p bytes s = .next t) :
    s.StaysSound t := by
  refine staysSound_of_unlessHeld h ?_
  split
  · exact .ite (staysSound_arrived fun _ hb => hb.helloArrived) (.refl s)
  · exact .refl s

theorem staysSound_frameTransmit {p : Port} (h : execFrameTransmit p s = .next t) : s.StaysSound t :=
  staysSound_of_unlessHeld h ((State.StaysSound.refl s).modPort fun _ hb => hb.transmit)

theorem staysSound_resendTimerExpiry {p : Port} (h : execResendTimerExpiry p s = .next t) : s.StaysSound t := by
  refine staysSound_of_unlessHeld h ?_
  split
  · exact .refl s
  · exact (State.StaysSound.refl s).elapse.modPort fun _ hb => hb.resendExpired

/-! ### Sessions (R150, R176 to R183) and supervisor requests (R152 to R160) -/

theorem staysSound_helloFresh {p : Port} (h : execHelloFresh p s = .next t) : s.StaysSound t :=
  staysSound_of_process h fun payload v hv => by
    split
    · exact hv.helloUnsynced
    · exact .ite hv.beginReset.tryComplete hv
    · exact .ite hv.beginReset.tryComplete hv
    · exact hv
    · exact hv

theorem staysSound_helloResume {p : Port} (h : execHelloResume p s = .next t) : s.StaysSound t :=
  staysSound_of_process h fun payload v hv => by
    split
    · exact hv.helloUnsynced
    · exact .ite hv.quiet hv
    · exact .ite hv.quiet hv
    · exact hv
    · exact hv

theorem staysSound_unknownKind {p : Port} (h : execUnknownKind p s = .next t) : s.StaysSound t :=
  staysSound_of_process h fun _ _ hv => .ite hv.quiet hv.refuse

theorem staysSound_portSetEnable {p : Port} (h : execPortSetEnable p s = .next t) : s.StaysSound t :=
  staysSound_of_process h fun payload v hv => by
    split
    · exact hv.refuse
    · dsimp only
      split
      · exact hv.joinReset
      · exact .ite hv.refuse (hv.modPort fun b hb => PortBlock.DueOutstanding.enable (b := b.setQuotas _) hb).reply

theorem staysSound_portSetDisable {p : Port} (h : execPortSetDisable p s = .next t) : s.StaysSound t :=
  staysSound_of_process h fun payload v hv => by
    split
    · exact hv.refuse
    · dsimp only
      split
      · exact hv.joinReset
      · exact hv.beginForRequest

theorem staysSound_config {p : Port} (h : execConfig p s = .next t) : s.StaysSound t :=
  staysSound_of_process h fun payload v hv => by
    split
    · exact hv.refuse
    · exact (hv.modPort fun _ hb => hb.applySettings).reply

theorem staysSound_resetPort {p : Port} (h : execResetPort p s = .next t) : s.StaysSound t :=
  staysSound_of_process h fun payload v hv => by
    refine .ite hv.refuse (.ite hv.refuse ?_)
    split
    · exact hv.refuse
    · refine .ite hv.refuse ?_
      split
      · exact hv.joinReset
      · exact hv.beginForRequest

theorem staysSound_resetDevice {p : Port} (h : execResetDevice p s = .next t) : s.StaysSound t :=
  staysSound_of_process h fun _ _ hv => .ite hv.refuse (.ite hv.refuse hv.deviceReset)

/-! ### Canvases (R11 to R18, R34) -/

theorem staysSound_openCanvas {p : Port} (h : execOpenCanvas p s = .next t) : s.StaysSound t :=
  staysSound_of_process h fun payload v hv => by
    split
    · exact hv.refuse
    · refine .ite hv.refuse (.ite hv.refuse ?_)
      split
      · exact hv.takeOpen.defer
      · exact hv.refuse

theorem staysSound_query {p : Port} (h : execQuery p s = .next t) : s.StaysSound t :=
  staysSound_of_process h fun payload v hv => by
    refine .ite hv.refuse ?_
    dsimp only
    split
    · exact hv.refuse
    · exact .ite hv.reply hv.refuse

theorem staysSound_list {p : Port} (h : execList p s = .next t) : s.StaysSound t :=
  staysSound_of_process h fun _ _ hv => .ite hv.refuse (.ite hv.refuse hv.reply)

/-- A block access keeps the store's form, within the store, and computes its check bits afresh (R25). -/
theorem staysSound_blockCleared (h : execBlockCleared s = .next t) : s.StaysSound t := by
  unfold execBlockCleared at h
  split at h
  · next b f fill _ _ =>
    split at h
    · next hb =>
      cases h
      have hstore := (State.StaysSound.refl s).thenStore (m := s.store.clearBlock b f fill)
        (fun hf => s.store.wf_clearBlock b f fill hf hb) (s.store.checksAgree_clearBlock b f fill)
      have hidle : s.StaysSound { s with
          store := s.store.clearBlock b f fill
          arbiter := { s.arbiter with serving := none } } := hstore.thenOther rfl rfl rfl
      exact hidle.blockReport
    · cases h
  · cases h
    exact .refl s

/-! ### Sharing (R39 to R54) -/

theorem staysSound_grant {p : Port} (h : execGrant p s = .next t) : s.StaysSound t :=
  staysSound_of_process h fun payload v hv => by
    refine .ite hv.refuse ?_
    split
    · dsimp only
      split
      · exact hv.refuse
      · refine .ite hv.refuse (.ite hv.refuse (.ite hv.refuse ?_))
        split
        · exact hv.refuse
        · exact hv.setCanvas.reply
    · exact hv.refuse

theorem staysSound_revoke {p : Port} (h : execRevoke p s = .next t) : s.StaysSound t :=
  staysSound_of_process h fun payload v hv => by
    refine .ite hv.refuse ?_
    split
    · dsimp only
      split
      · exact hv.refuse
      · refine .ite hv.refuse (.ite hv.refuse (.ite hv.refuse ?_))
        split
        · exact hv.refuse
        · split
          · exact hv.beginRevoke
          · exact hv.joinRevoke
    · exact hv.refuse

theorem staysSound_closeCanvas {p : Port} (h : execCloseCanvas p s = .next t) : s.StaysSound t :=
  staysSound_of_process h fun payload v hv => by
    refine .ite hv.refuse ?_
    split
    · exact hv.refuse
    · dsimp only
      split
      · exact hv.refuse
      · refine .ite hv.refuse (.ite hv.refuse ?_)
        split
        · exact hv.joinClose
        · exact hv.beginClose

theorem staysSound_revokeDeadlineExpiry {n : Nat} {p : Port} (h : execRevokeDeadlineExpiry n p s = .next t) :
    s.StaysSound t := by
  refine staysSound_of_unlessHeld h ?_
  split
  · exact (State.StaysSound.refl s).elapse.modCanvas.cutPort
  · exact .refl s

theorem staysSound_closeDeadlineExpiry {n : Nat} (h : execCloseDeadlineExpiry n s = .next t) : s.StaysSound t := by
  refine staysSound_of_unlessHeld h ?_
  split
  · split
    · exact (State.StaysSound.refl s).elapse.modCanvas.cutCanvas
    · exact .refl s
  · exact .refl s

theorem staysSound_revokeEnd {n : Nat} {p : Port} (h : execRevokeEnd n p s = .next t) : s.StaysSound t := by
  refine staysSound_of_unlessHeld h ?_
  split
  · exact .refl s
  · exact .ite (State.StaysSound.refl s).endRevoke (.refl s)

theorem staysSound_closeEnd {n : Nat} (h : execCloseEnd n s = .next t) : s.StaysSound t := by
  refine staysSound_of_unlessHeld h ?_
  split
  · exact (State.StaysSound.refl s).endClose
  · exact .refl s

/-! ### Queues and their heads (R66 to R87) -/

theorem staysSound_submit {p : Port} (h : execSubmit p s = .next t) : s.StaysSound t :=
  staysSound_of_process h fun payload v hv => by
    refine .ite hv.reply ?_
    split
    · exact hv.reply
    · split
      · exact hv.reply
      · have hjobs (jobs : List (Job × Bool)) : s.StaysSound (jobs.foldl (State.admitJob p) v) :=
          hv.foldl fun _ _ hu => hu.admitJob
        exact .ite hv.reply ((hjobs _).modPort fun _ hb => hb.refreshStaging).reply

theorem staysSound_cancel {p : Port} (h : execCancel p s = .next t) : s.StaysSound t :=
  staysSound_of_process h fun payload v hv => by
    refine .ite hv.refuse (.ite hv.refuse ?_)
    have hdropped (target : Nat) (hs : List Handle) :
        s.StaysSound ((v.modPort p fun b => b.cancelEntries target).dropPins p hs) :=
      (hv.modPort fun _ hb => hb.cancelEntries).dropPins
    have hwaiting (b : PortBlock) (w : CancelWaiter) (busy : Bool) (hb : b.DueOutstanding) :
        ((b.addCancelWaiter w).stopRequest busy).DueOutstanding :=
      PortBlock.DueOutstanding.stopRequest (b := b.addCancelWaiter w) hb
    exact (State.StaysSound.ite ((hdropped _ _).modPort fun b => hwaiting b _ _).defer (hdropped _ _).reply).settleAll

theorem staysSound_halt {p : Port} (h : execHalt p s = .next t) : s.StaysSound t :=
  staysSound_of_process h fun _ _ hv => .ite hv.refuse (hv.modPort fun _ hb => hb.takeHalt)

theorem staysSound_resume {p : Port} (h : execResume p s = .next t) : s.StaysSound t :=
  staysSound_of_process h fun _ _ hv => .ite hv.refuse (hv.modPort fun _ hb => hb.takeResume)

theorem staysSound_jobDispatch {p : Port} (h : execJobDispatch p s = .next t) : s.StaysSound t := by
  refine staysSound_of_unlessHeld h ?_
  split
  · exact .refl s
  · exact .ite (State.StaysSound.refl s).dispatch (.refl s)

theorem staysSound_waitTimerExpiry {p : Port} (h : execWaitTimerExpiry p s = .next t) : s.StaysSound t := by
  refine staysSound_of_unlessHeld h ?_
  split
  · split
    · exact (State.StaysSound.refl s).elapse.endFaulted
    · exact .refl s
  · exact .refl s

theorem staysSound_jobEnd {p : Port} (h : execJobEnd p s = .next t) : s.StaysSound t := by
  refine staysSound_of_unlessHeld h ?_
  split
  · split
    · exact (State.StaysSound.refl s).endJob
    · exact .refl s
  · exact .refl s

/-! ### Reports (R136 to R145) and write data (R120) -/

/-- A port that asks about itself clears both marks (R144). -/
theorem staysSound_status {p : Port} (h : execStatus p s = .next t) : s.StaysSound t :=
  staysSound_of_process h fun payload v hv => by
    refine .ite hv.refuse ?_
    split
    · exact hv.refuse
    · exact .ite hv.refuse (State.StaysSound.ite (hv.modPort fun _ _ => .of_not_due rfl) hv).reply

theorem staysSound_faultRead {p : Port} (h : execFaultRead p s = .next t) : s.StaysSound t :=
  staysSound_of_process h fun _ _ hv => .ite hv.refuse (.ite hv.reply (.ite hv.refuse (.ite hv.refuse hv.reply)))

theorem staysSound_faultAck {p : Port} (h : execFaultAck p s = .next t) : s.StaysSound t :=
  staysSound_of_process h fun payload v hv => by
    split
    · exact hv.refuse
    · exact (hv.thenLog fun hl => hl.acknowledgeAll p _).reply

theorem staysSound_attnClear {p : Port} (h : execAttnClear p s = .next t) : s.StaysSound t :=
  staysSound_of_process h fun payload v hv => by
    split
    · exact hv.refuse
    · exact .ite hv.refuse (hv.modPort fun _ _ => .of_not_due rfl).reply

theorem staysSound_datFrame {p : Port} (h : execDatFrame p s = .next t) : s.StaysSound t :=
  staysSound_of_process h fun _ _ hv => hv.takeData

theorem staysSound_attentionFramePlaced {p : Port} (h : execAttentionFramePlaced p s = .next t) : s.StaysSound t :=
  staysSound_of_unlessHeld h ((State.StaysSound.refl s).modPort fun _ hb => hb.placeDueAtn)

/-! ### The engine and the store (R26, R103 to R126) -/

theorem staysSound_spanBegin (h : execSpanBegin s = .next t) : s.StaysSound t :=
  staysSound_of_unlessHeld h (.ite (.refl s) (State.StaysSound.refl s).chooseSpan)

theorem staysSound_storeAccessBegin (h : execStoreAccessBegin s = .next t) : s.StaysSound t := by
  refine staysSound_of_unlessHeld h (.ite (.refl s) ?_)
  split
  · exact .refl s
  · exact (State.StaysSound.refl s).thenOther rfl rfl rfl

/-- The end of a span changes the store, the engine and its port's block, but for the attention unit. -/
theorem staysSound_spanEnd {m : Store} {p : Port} {f : PortBlock → PortBlock} (hform : s.store.wf = true → m.wf = true)
    (hchecks : s.store.ChecksAgree → m.ChecksAgree) (hf : ∀ b, (f b).attn = b.attn) :
    s.StaysSound (State.modPort { s.endAccess with store := m } p f).chooseSpan := by
  have haccess : s.StaysSound s.endAccess := (State.StaysSound.refl s).thenOther rfl rfl rfl
  exact ((haccess.thenStore (m := m) hform hchecks).quiet hf).chooseSpan

/-- A span is written with its check bits computed afresh, once the words found with one flipped bit are noted (R22, R23). -/
theorem staysSound_spanComplete {corrected : List Nat} (h : execSpanComplete corrected s = .next t) : s.StaysSound t := by
  unfold execSpanComplete at h
  split at h
  · next x r _ _ =>
    split at h
    · cases h
    · next hin =>
      rw [Bool.not_eq_true', Bool.not_eq_false] at hin
      split at h
      · cases h
        exact .refl s
      · cases h
        exact staysSound_spanEnd (fun hf => r.wf_writePhase _ x.data (s.store.wf_noteCorrected _ _ hf) hin)
          (fun hc => r.checksAgree_writePhase _ x.data (s.store.checksAgree_noteCorrected _ _ hc)) fun _ => rfl
  · cases h
    exact .refl s

/-- The word found uncorrectable is one of the access's, and so of the store (R24). -/
theorem staysSound_spanUncorrectable {word : Nat} (h : execSpanUncorrectable word s = .next t) : s.StaysSound t := by
  unfold execSpanUncorrectable at h
  split at h
  · next x r _ _ =>
    split at h
    · cases h
    · next hin =>
      rw [Bool.not_eq_true', Bool.not_eq_false] at hin
      split at h
      · next hw =>
        cases h
        have hword : word < Config.storeBytes / 8 :=
          of_decide_eq_true (r.wordOk_of_reads hin (List.contains_iff_mem.1 hw))
        exact staysSound_spanEnd (fun hf => s.store.wf_setCondition word .uncorrectable hf hword) id fun _ => rfl
      · cases h
        exact .refl s
  · cases h
    exact .refl s

/-! ### Every command, and the step -/

theorem staysSound_exec {c : Instr} (h : exec c s = .next t) : s.StaysSound t := by
  cases c with
  | powerOn => cases h; exact .powerOnValues
  | resetPinAssert => cases h; exact .powerOnValues
  | resetPinRelease => cases h; exact .ite .powerOnValues (.refl s)
  | frameLengthError p bytes => exact staysSound_frameLengthError h
  | crcError p bytes => exact staysSound_crcError h
  | unknownClassFrame p bytes => exact staysSound_unknownClassFrame h
  | reqDatFrameReceived p bytes => exact staysSound_reqDatFrameReceived h
  | ackFrameReceived p bytes => exact staysSound_ackFrameReceived h
  | helloFrameReceived p bytes => exact staysSound_helloFrameReceived h
  | frameTransmit p => exact staysSound_frameTransmit h
  | resendTimerExpiry p => exact staysSound_resendTimerExpiry h
  | helloFresh p => exact staysSound_helloFresh h
  | helloResume p => exact staysSound_helloResume h
  | unknownKind p => exact staysSound_unknownKind h
  | portSetEnable p => exact staysSound_portSetEnable h
  | portSetDisable p => exact staysSound_portSetDisable h
  | config p => exact staysSound_config h
  | resetPort p => exact staysSound_resetPort h
  | portResetComplete p => exact staysSound_of_unlessHeld h (State.StaysSound.refl s).tryComplete
  | resetDevice p => exact staysSound_resetDevice h
  | openCanvas p => exact staysSound_openCanvas h
  | closeCanvas p => exact staysSound_closeCanvas h
  | query p => exact staysSound_query h
  | list p => exact staysSound_list h
  | grant p => exact staysSound_grant h
  | revoke p => exact staysSound_revoke h
  | submit p => exact staysSound_submit h
  | cancel p => exact staysSound_cancel h
  | halt p => exact staysSound_halt h
  | resume p => exact staysSound_resume h
  | status p => exact staysSound_status h
  | faultRead p => exact staysSound_faultRead h
  | faultAck p => exact staysSound_faultAck h
  | attnClear p => exact staysSound_attnClear h
  | datFrame p => exact staysSound_datFrame h
  | jobDispatch p => exact staysSound_jobDispatch h
  | claimGrant p => exact staysSound_of_unlessHeld h (State.StaysSound.refl s).tryGrant
  | waitTimerExpiry p => exact staysSound_waitTimerExpiry h
  | spanBegin => exact staysSound_spanBegin h
  | storeAccessBegin => exact staysSound_storeAccessBegin h
  | spanComplete corrected => exact staysSound_spanComplete h
  | spanUncorrectable word => exact staysSound_spanUncorrectable h
  | dataTimeoutExpiry p => exact staysSound_of_unlessHeld h (State.StaysSound.refl s).streamExpiry
  | readStallExpiry p => exact staysSound_of_unlessHeld h (State.StaysSound.refl s).streamExpiry
  | jobEnd p => exact staysSound_jobEnd h
  | attentionFramePlaced p => exact staysSound_attentionFramePlaced h
  | revokeDeadlineExpiry slot p => exact staysSound_revokeDeadlineExpiry h
  | closeDeadlineExpiry slot => exact staysSound_closeDeadlineExpiry h
  | revokeEnd slot p => exact staysSound_revokeEnd h
  | closeEnd slot => exact staysSound_closeEnd h
  | blockCleared => exact staysSound_blockCleared h

theorem staysSound_step (h : step s = .next t) : s.StaysSound t := by
  obtain ⟨_, rfl⟩ | ⟨c, rest, _, he⟩ := step_cases s t h
  · exact .ite (.refl s) (State.StaysSound.refl s).elapse
  · obtain ⟨hf, hc, hl, hd⟩ := staysSound_exec he
    exact ⟨hf, hc, hl, hd⟩

/-! ### Generations (R1, R2) -/

theorem nextGeneration_ne_zero (g : BitVec 8) : nextGeneration g ≠ 0 := by
  unfold nextGeneration
  split <;> bv_omega

/-- A slot's generation stays or advances, whatever the records do (R2). -/
theorem Slot.Fixed.generation_ne_zero {x y : Slot} (h : x.Fixed y) (hx : x.generation ≠ 0) : y.generation ≠ 0 := by
  obtain ⟨hfree, hheld⟩ := h
  cases hc : x.canvas with
  | none => rwa [hfree hc]
  | some c =>
    obtain ⟨_, hg⟩ | ⟨_, _, hg, _⟩ := hheld c hc
    · rw [hg]
      exact nextGeneration_ne_zero _
    · rwa [hg]

theorem State.generationsValid_powerOnValues (s : State) (pin : Bool) : (s.powerOnValues pin).GenerationsValid :=
  fun n h1 h2 => by
    have hslot : (s.powerOnValues pin).slot n = State.reset.slot n := by cases n <;> rfl
    rw [hslot, State.reset_slot n h1 h2]
    decide

theorem generationsValid_exec {c : Instr} (h : exec c s = .next t) (hs : s.GenerationsValid) : t.GenerationsValid := by
  have hfixed (hf : ∀ n, (s.slot n).Fixed (t.slot n)) : t.GenerationsValid :=
    fun n h1 h2 => (hf n).generation_ne_zero (hs n h1 h2)
  obtain hc | hk := exec_resetsOrOpens_or_keeps c s t h
  · cases hc with
    | powerOn => cases h; exact s.generationsValid_powerOnValues _
    | resetPinAssert => cases h; exact s.generationsValid_powerOnValues _
    | resetPinRelease =>
      cases h
      split
      · exact s.generationsValid_powerOnValues _
      · exact hs
    | portResetComplete p => exact hfixed fun n => (records_portResetComplete s t p h n).fixed
    | openCanvas p => exact hfixed fun n => fixed_openCanvas s t p n h
  · exact hfixed fun n => (hk.records n).fixed

theorem generationsValid_step (h : step s = .next t) (hs : s.GenerationsValid) : t.GenerationsValid := by
  obtain ⟨_, rfl⟩ | ⟨c, rest, _, he⟩ := step_cases s t h
  · exact fun n h1 h2 => (s.still_idle.table.records n).fixed.generation_ne_zero (hs n h1 h2)
  · refine generationsValid_exec he fun n h1 h2 => ?_
    exact ((s.still_pending rest).table.records n).fixed.generation_ne_zero (hs n h1 h2)

end

/-- Settles O58: every command, and the passing of time, keeps store, fault log and marks, and a generation stays or
advances. -/
theorem storeLogAndMarksStayConsistent : Obligations.StoreLogAndMarksStayConsistent := by
  intro s t h
  obtain ⟨hform, hchecks, hlog, hdue⟩ := staysSound_step h
  exact ⟨hform, hchecks, hlog, hdue, generationsValid_step h⟩

end Sys2Proof.Machine

/-! SUPPORT. Attention flags and their frames (R139 to R143), and the hand-over of a fault (R132 to R134). -/

namespace Sys2Proof.Machine

set_option Elab.async false

/-! ### When a frame can be placed (R140, R141) -/

/-- The port is UP or LOST and a slot is free (R140). -/
def PortBlock.CanPlaceAtn (b : PortBlock) : Prop :=
  (b.portState = .up ∨ b.portState = .lost) ∧ b.link.used.length + b.link.reserved < 8

theorem PortState.isResetting_iff (st : PortState) : st.isResetting = true ↔ ∃ op, st = .resetting op := by
  cases st <;> simp [PortState.isResetting]

theorem PortState.inSession_iff (st : PortState) : st.inSession = true ↔ st = .up ∨ st = .lost := by
  cases st <;> simp [PortState.inSession]

theorem PortBlock.canPlaceAtn_iff (b : PortBlock) : b.canPlaceAtn = true ↔ b.CanPlaceAtn := by
  rw [PortBlock.canPlaceAtn, Bool.and_eq_true, PortState.inSession_iff, bne_iff_ne, Ne, Link.freeSlots_eq_zero, Nat.not_le]
  rfl

/-! ### The setting of a flag (R139, R140) -/

section
variable {b : PortBlock} {k : Flag}

theorem PortBlock.raise_of_ignored (h : (∃ op, b.portState = .resetting op) ∨ b.attn.flags.get k = true) : b.raise k = b :=
  if_pos (Bool.or_eq_true_iff.2 (h.imp_left (PortState.isResetting_iff _).2))

variable (hs : ∀ op, b.portState ≠ .resetting op) (hf : b.attn.flags.get k = false)
include hs hf

theorem PortBlock.raise_of_new : b.raise k =
    if b.attn.mask.get k || b.attn.outstanding then { b with attn := { b.attn with flags := b.attn.flags.set k true } }
    else if b.canPlaceAtn then
      { b with
        attn := { b.attn with flags := b.attn.flags.set k true, outstanding := true }
        link := b.link.placeFree .atn [(b.attn.flags.set k true).byte, 0] }
    else { b with attn := { b.attn with flags := b.attn.flags.set k true, outstanding := true, due := true } } := by
  refine if_neg fun h => ?_
  obtain h | h := Bool.or_eq_true_iff.1 h
  · obtain ⟨op, hop⟩ := (PortState.isResetting_iff _).1 h
    exact hs op hop
  · exact Bool.false_ne_true (hf.symm.trans h)

theorem PortBlock.raise_of_quiet (h : b.attn.mask.get k = true ∨ b.attn.outstanding = true) :
    b.raise k = { b with attn := { b.attn with flags := b.attn.flags.set k true } } := by
  rw [PortBlock.raise_of_new hs hf, if_pos (Bool.or_eq_true_iff.2 h)]

variable (hm : b.attn.mask.get k = false) (ho : b.attn.outstanding = false)
include hm ho

theorem PortBlock.raise_of_loud : b.raise k =
    if b.canPlaceAtn then
      { b with
        attn := { b.attn with flags := b.attn.flags.set k true, outstanding := true }
        link := b.link.placeFree .atn [(b.attn.flags.set k true).byte, 0] }
    else { b with attn := { b.attn with flags := b.attn.flags.set k true, outstanding := true, due := true } } := by
  rw [PortBlock.raise_of_new hs hf]
  exact if_neg fun h => Bool.false_ne_true ((Bool.or_eq_false_iff.2 ⟨hm, ho⟩).symm.trans h)

theorem PortBlock.raise_of_canPlace (h : b.CanPlaceAtn) : b.raise k =
    { b with
      attn := { b.attn with flags := b.attn.flags.set k true, outstanding := true }
      link := b.link.placed .atn [(b.attn.flags.set k true).byte, 0] } := by
  rw [PortBlock.raise_of_loud hs hf hm ho, if_pos (b.canPlaceAtn_iff.2 h), Link.placeFree_of_free _ _ _ h.2]

theorem PortBlock.raise_of_not_canPlace (h : ¬ b.CanPlaceAtn) : b.raise k =
    { b with attn := { b.attn with flags := b.attn.flags.set k true, outstanding := true, due := true } } := by
  rw [PortBlock.raise_of_loud hs hf hm ho, if_neg (mt b.canPlaceAtn_iff.1 h)]

end

/-! ### The due frame (R141) -/

section
variable {b : PortBlock}

theorem PortBlock.placeDueAtn_of_due (hd : b.attn.due = true) (h : b.CanPlaceAtn) : b.placeDueAtn =
    { b with
      attn := { b.attn with due := false }
      link := b.link.placed .atn [b.attn.flags.byte, 0] } := by
  rw [PortBlock.placeDueAtn, if_pos (Bool.and_eq_true_iff.2 ⟨hd, b.canPlaceAtn_iff.2 h⟩), Link.placeFree_of_free _ _ _ h.2]
  rfl

theorem PortBlock.placeDueAtn_of_not (h : ¬ (b.attn.due = true ∧ b.CanPlaceAtn)) : b.placeDueAtn = b :=
  if_neg fun hc => h ((Bool.and_eq_true_iff.1 hc).imp_right b.canPlaceAtn_iff.1)

end

/-! ### The flags a byte lists (R143, R186) -/

theorem getLsbD_byteAt (payload : List Byte) (i k : Nat) : (byteAt payload i).getLsbD k = (num8 payload i).testBit k :=
  (BitVec.testBit_toNat _).symm

/-- A code with bit 6 or bit 7 is no set of flags (R186). -/
theorem flagCode_iff {n : Nat} (hn : n < 256) : (n.testBit 6 || n.testBit 7) = true ↔ 64 ≤ n := by
  simp only [Nat.testBit_eq_decide_div_mod_eq, Bool.or_eq_true, decide_eq_true_eq]
  omega

theorem FlagSet.ofByte_of_large (payload : List Byte) (h : 64 ≤ num8 payload 4) :
    FlagSet.ofByte (byteAt payload 4) = none := by
  have hcode := (flagCode_iff (byteAt payload 4).isLt).2 h
  rw [FlagSet.ofByte, getLsbD_byteAt, getLsbD_byteAt]
  exact if_pos hcode

/-- The flags listed by the code of an ATTN-CLEAR (R143). -/
def listedFlags (payload : List Byte) : FlagSet :=
  let listed := (num8 payload 4).testBit
  ⟨listed 0, listed 1, listed 2, listed 3, listed 4, listed 5⟩

theorem FlagSet.ofByte_of_small (payload : List Byte) (h : num8 payload 4 < 64) :
    FlagSet.ofByte (byteAt payload 4) = some (listedFlags payload) := by
  have hcode := mt (flagCode_iff (byteAt payload 4).isLt).1 (Nat.not_le.2 h)
  simp only [FlagSet.ofByte, getLsbD_byteAt]
  exact if_neg hcode

/-! ### ATTN_CLEAR (R143) -/

section
variable {s : State} {p : Port} {payload : List Byte} {rest : List InFrame} (h : s.Oldest p .req payload rest)
  (hk : IsRequest payload 0x33) (hl : payload.length = 6) (hr : 0 < (s.port p).link.reserved)
include h hk hr

theorem exec_attnClear_of_no_flag (hcode : 64 ≤ num8 payload 4) :
    exec (.attnClear p) s = .next (s.setPort p (((s.port p).took rest).answered payload 0x01 [])) := by
  change execAttnClear p s = _
  rw [execAttnClear, s.process_of_oldest p .req payload rest _ _ h (InFrame.row_request payload .attnClear hk nofun nofun),
    FlagSet.ofByte_of_large payload hcode]
  exact congrArg _ (s.refuse_took p rest payload .malformed hr)

include hl in
theorem exec_attnClear_of_flags (hcode : num8 payload 4 < 64) :
    let b := (s.port p).took rest
    let flags := b.attn.flags.without (listedFlags payload)
    exec (.attnClear p) s = .next (s.setPort p
      (({ b with attn := { b.attn with flags := flags, outstanding := false, due := false } } : PortBlock).answered payload
        0x00 [flags.byte, 0])) := by
  intro b flags
  have hlength : ReqKind.attnClear.lengthOk payload.length = true := by rw [hl]; rfl
  change execAttnClear p s = _
  rw [execAttnClear, s.process_of_oldest p .req payload rest _ _ h (InFrame.row_request payload .attnClear hk nofun nofun),
    FlagSet.ofByte_of_small payload hcode]
  simp only [hlength, Bool.not_true, Bool.false_eq_true, if_false, State.modPort, State.port_setPort_same,
    State.setPort_setPort]
  rw [State.reply_eq_answered _ _ _ _ _ (by rw [State.port_setPort_same]; exact hr), State.port_setPort_same,
    State.setPort_setPort]
  rfl

end

/-- Settles O38: a flag that is new, unmasked and set without attention outstanding raises a frame, placed or due. -/
theorem attentionFlagsAndFrames : Obligations.AttentionFlagsAndFrames := by
  refine ⟨fun f => ?_, fun b k => ?_, fun s p hp => ?_, fun s p payload rest h hk hl hr => ?_⟩
  · obtain ⟨fault, logFull, grantLost, canvasLost, halted, dataRejected⟩ := f
    revert fault logFull grantLost canvasLost halted dataRejected
    decide
  · intro a canPlace
    refine ⟨PortBlock.raise_of_ignored, fun hs hf => ⟨PortBlock.raise_of_quiet hs hf, fun hm ho => ?_⟩⟩
    exact ⟨PortBlock.raise_of_canPlace hs hf hm ho, PortBlock.raise_of_not_canPlace hs hf hm ho⟩
  · intro b canPlace
    have hexec : exec (.attentionFramePlaced p) s = .next (s.setPort p b.placeDueAtn) := s.unlessHeld_of_running _ hp
    rw [hexec]
    refine ⟨fun ⟨hd, hc⟩ => ?_, fun hn => ?_⟩
    · rw [PortBlock.placeDueAtn_of_due hd hc]
    · rw [PortBlock.placeDueAtn_of_not hn, State.setPort_port]
  · exact ⟨exec_attnClear_of_no_flag h hk hr, exec_attnClear_of_flags h hk hl hr⟩

/-! ### A fault handed over (R130 to R134) -/

/-- The record chosen is the FREE one of lowest index (R132). -/
theorem FaultLog.firstFree_of_lowest (l : FaultLog) {i : Nat} (hi : i < 12) (hfree : l.record i = none)
    (hlow : ∀ j, j < i → l.record j ≠ none) : l.firstFree = some i := by
  cases h : l.firstFree with
  | none => exact absurd hfree (l.firstFree_none h i hi)
  | some j =>
    obtain ⟨_, hj, hjlow⟩ := l.firstFree_some j h
    obtain hlt | heq | hgt := Nat.lt_trichotomy i j
    · exact absurd hfree (hjlow i hlt)
    · rw [heq]
    · exact absurd hj (hlow j hgt)

theorem FaultLog.firstFree_of_full (l : FaultLog) (hfull : ∀ i, i < 12 → l.record i ≠ none) : l.firstFree = none := by
  cases h : l.firstFree with
  | none => rfl
  | some i =>
    obtain ⟨hi, hfree, _⟩ := l.firstFree_some i h
    exact absurd hfree (hfull i hi)

/-- The serial after this one, among the serials a record may have (R130). -/
theorem nextSerial_of_le {n : Nat} (h : n ≤ 65535) : nextSerial n = if n = 65535 then 1 else n + 1 :=
  if_congr (by omega) rfl rfl

/-- Settles O45: the record is the first FREE one, when there is one, and FAULT follows LOG-FULL when there is none. -/
theorem faultsAreLogged : Obligations.FaultsAreLogged := by
  intro s p seq kind d b serial hserial
  refine ⟨fun i hi hfree hlow => ?_, fun hfull => ?_⟩
  · have hrecord (j : Nat) := s.faultLog.record_log i j p seq kind d hi
    rw [nextSerial_of_le hserial] at hrecord
    refine ⟨s.faultLog.log i p seq kind d, ?_, nextSerial_of_le hserial, rfl, ?_, fun j hj => ?_⟩
    · rw [State.logFault, s.faultLog.firstFree_of_lowest hi hfree hlow]
      rfl
    · rw [hrecord, if_pos rfl]
    · rw [hrecord, if_neg hj]
  · have hconfig : (b.raise .logFull).config = b.config := by rw [PortBlock.raise_eq]
    have hfault : (b.raise .logFull).raiseFault d.kind =
        if b.config.quiet.get d.kind then b.raise .logFull else (b.raise .logFull).raise .fault := by
      rw [← hconfig]
      rfl
    rw [State.logFault, s.faultLog.firstFree_of_full hfull]
    exact congrArg (fun x => (s.setPort p x, none)) hfault

end Sys2Proof.Machine

/-! SUPPORT. STATUS (R144, R145), FAULT_READ (R136) and FAULT_ACK (R137): the bytes of their replies, and the log once the
indexes of a list have been acknowledged in turn. -/

namespace Sys2Proof.Machine

set_option Elab.async false

/-! ### STATUS (R144, R145) -/

/-- The first pending index of a port is the first of its records in arrival order (R135). -/
theorem FaultLog.firstPending_eq_find (l : FaultLog) (p : Port) :
    l.firstPending p = l.arrival.find? fun i => (l.record i).any fun r => r.port == p := List.head?_filter ..

/-- A STATUS record does not show the inbound buffer. -/
theorem State.statusContents_took (s : State) (p t : Port) (rest : List InFrame) :
    (s.setPort p ((s.port p).took rest)).statusContents t = s.statusContents t := by
  simp only [State.statusContents, State.port_setPort, State.setPort_faultLog]
  split
  · next ht => rw [ht]; rfl
  · rfl

section
variable {s : State} {p : Port} {payload : List Byte} {rest : List InFrame} (h : s.Oldest p .req payload rest)
  (hk : IsRequest payload 0x30) (hl : payload.length = 6)
include h hk hl

theorem exec_status_of_oldest : exec (.status p) s = .next (
    let v := s.setPort p ((s.port p).took rest)
    match Port.ofNum (num8 payload 4) with
    | none => v.refuse p payload .malformed
    | some t =>
      if p != .p0 && t != p then v.refuse p payload .notSupervisor
      else
        State.reply (if t = p then v.modPort p fun b => { b with attn := b.attn.clearMarks } else v) p payload .ok
          (v.statusContents t)) := by
  have hlength : ReqKind.status.lengthOk payload.length = true := by rw [hl]; rfl
  change execStatus p s = _
  rw [execStatus, s.process_of_oldest p .req payload rest _ _ h (InFrame.row_request payload .status hk nofun nofun), hlength]
  rfl

variable (hr : 0 < (s.port p).link.reserved)
include hr

theorem exec_status_of_no_port (ht : 3 < num8 payload 4) :
    exec (.status p) s = .next (s.setPort p (((s.port p).took rest).answered payload 0x01 [])) := by
  rw [exec_status_of_oldest h hk hl, Port.ofNum_eq_none _ ht]
  exact congrArg _ (s.refuse_took p rest payload .malformed hr)

variable {t : Port} (ht : num8 payload 4 = t.num)
include ht

theorem exec_status_not_supervisor (hp : p ≠ .p0) (htp : t ≠ p) :
    exec (.status p) s = .next (s.setPort p (((s.port p).took rest).answered payload 0x03 [])) := by
  rw [exec_status_of_oldest h hk hl, ht, Port.ofNum_num]
  dsimp only
  rw [if_pos (by simp [hp, htp])]
  exact congrArg _ (s.refuse_took p rest payload .notSupervisor hr)

theorem exec_status_of_other (hp : p = .p0) (htp : t ≠ p) :
    exec (.status p) s = .next (s.setPort p (((s.port p).took rest).answered payload 0x00 (s.statusContents t))) := by
  rw [exec_status_of_oldest h hk hl, ht, Port.ofNum_num]
  dsimp only
  rw [if_neg (by simp [hp]), if_neg htp, s.statusContents_took]
  exact congrArg _ (s.reply_took p rest payload .ok _ hr)

theorem exec_status_of_self (htp : t = p) :
    exec (.status p) s = .next (s.setPort p (PortBlock.answered
      { (s.port p).took rest with attn := { ((s.port p).took rest).attn with outstanding := false, due := false } }
      payload 0x00 (s.statusContents t))) := by
  rw [exec_status_of_oldest h hk hl, ht, Port.ofNum_num]
  dsimp only
  rw [if_neg (by simp [htp]), if_pos htp, s.statusContents_took, State.modPort, State.port_setPort_same,
    State.setPort_setPort, State.reply_eq_answered _ _ _ _ _ (by rw [State.port_setPort_same]; exact hr),
    State.port_setPort_same, State.setPort_setPort]
  rfl

end

/-- Settles O36: by the target, and for a port by whose it is. -/
theorem statusReportsThePort : Obligations.StatusReportsThePort := by
  intro s p payload rest h hk hl hr b leaves
  refine ⟨exec_status_of_no_port h hk hl hr, fun t ht => ?_⟩
  intro d pendingIndex contents
  have hcontents : s.statusContents t = contents := by
    rw [State.statusContents, FaultLog.firstPending_eq_find]
    rfl
  rw [← hcontents]
  exact ⟨exec_status_not_supervisor h hk hl hr ht, exec_status_of_other h hk hl hr ht, exec_status_of_self h hk hl hr ht⟩

/-! ### FAULT_READ (R136) -/

section
variable {s : State} {p : Port} {payload : List Byte} {rest : List InFrame} (h : s.Oldest p .req payload rest)
  (hk : IsRequest payload 0x31) (hl : payload.length = 6)
include h hk hl

theorem exec_faultRead_of_oldest : exec (.faultRead p) s = .next (
    let v := s.setPort p ((s.port p).took rest)
    let i := num8 payload 4
    if i = 0xFF then v.reply p payload .ok (s.faultReadContents (s.faultLog.ofPort p))
    else if 11 < i then v.refuse p payload .malformed
    else if p != .p0 && (s.faultLog.record i).any fun r => r.port != p then v.refuse p payload .notOwner
    else v.reply p payload .ok (s.faultReadContents [i])) := by
  have hlength : ReqKind.faultRead.lengthOk payload.length = true := by rw [hl]; rfl
  change execFaultRead p s = _
  rw [execFaultRead, s.process_of_oldest p .req payload rest _ _ h
    (InFrame.row_request payload .faultRead hk nofun nofun), hlength]
  rfl

variable (hr : 0 < (s.port p).link.reserved)
include hr

theorem exec_faultRead_of_all (hi : num8 payload 4 = 0xFF) : exec (.faultRead p) s = .next (s.setPort p
    (((s.port p).took rest).answered payload 0x00 (s.faultReadContents (s.faultLog.ofPort p)))) := by
  rw [exec_faultRead_of_oldest h hk hl]
  dsimp only
  rw [if_pos hi]
  exact congrArg _ (s.reply_took p rest payload .ok _ hr)

theorem exec_faultRead_of_no_index (hi : 11 < num8 payload 4) (hne : num8 payload 4 ≠ 0xFF) :
    exec (.faultRead p) s = .next (s.setPort p (((s.port p).took rest).answered payload 0x01 [])) := by
  rw [exec_faultRead_of_oldest h hk hl]
  dsimp only
  rw [if_neg hne, if_pos hi]
  exact congrArg _ (s.refuse_took p rest payload .malformed hr)

variable (hi : num8 payload 4 ≤ 11)
include hi

theorem exec_faultRead_not_owner (hp : p ≠ .p0)
    (hother : ∃ r, s.faultLog.record (num8 payload 4) = some r ∧ r.port ≠ p) :
    exec (.faultRead p) s = .next (s.setPort p (((s.port p).took rest).answered payload 0x05 [])) := by
  obtain ⟨r, hrecord, hport⟩ := hother
  rw [exec_faultRead_of_oldest h hk hl]
  dsimp only
  rw [if_neg (by omega), if_neg (by omega), hrecord, if_pos (by simp [hp, hport])]
  exact congrArg _ (s.refuse_took p rest payload .notOwner hr)

theorem exec_faultRead_of_index (hmine : (∀ r, s.faultLog.record (num8 payload 4) = some r → r.port = p) ∨ p = .p0) :
    exec (.faultRead p) s = .next (s.setPort p
      (((s.port p).took rest).answered payload 0x00 (s.faultReadContents [num8 payload 4]))) := by
  have hown : ¬ (p != .p0 && (s.faultLog.record (num8 payload 4)).any fun r => r.port != p) = true := by
    rw [Bool.and_eq_true, bne_iff_ne, Option.any_eq_true]
    rintro ⟨hp, r, hrecord, hport⟩
    exact hmine.elim (fun hall => bne_iff_ne.1 hport (hall r hrecord)) hp
  rw [exec_faultRead_of_oldest h hk hl]
  dsimp only
  rw [if_neg (by omega), if_neg (by omega), if_neg hown]
  exact congrArg _ (s.reply_took p rest payload .ok _ hr)

end

/-! ### Indexes acknowledged in turn (R137) -/

/-- The record at the index is PENDING, and the port may free it (R137). -/
def FaultLog.mayFree (l : FaultLog) (p : Port) (i : Nat) : Bool := (l.record i).any fun r => r.port == p || p == .p0

/-- The log `m` is `l` once the port has freed the records it may at the indexes `done`. -/
structure FaultLog.Acknowledged (l m : FaultLog) (p : Port) (done : List Nat) : Prop where
  serial : m.serial = l.serial
  arrival : m.arrival = l.arrival.filter fun i => !(done.contains i && l.mayFree p i)
  record : ∀ i, m.record i = if i ∈ done ∧ l.mayFree p i = true then none else l.record i

/-- The outcome of an index after those `done` (R137, R186). -/
def FaultLog.outcomeOf (l : FaultLog) (p : Port) (done : List Nat) (i : Nat) : Byte :=
  if (l.record i).isNone then 0x03
  else if l.mayFree p i then (if i ∈ done then 0x03 else 0x01)
  else 0x02

theorem FaultLog.acknowledged_nil (l : FaultLog) (p : Port) : l.Acknowledged l p [] where
  serial := rfl
  arrival := by simp
  record := by simp

section
variable {l m : FaultLog} {p : Port} {done : List Nat} (h : l.Acknowledged m p done) {i : Nat}
include h

/-- Nothing more is freed at an index that has had its turn, or whose record the port may not free. -/
theorem FaultLog.Acknowledged.keep (hi : l.mayFree p i = true → i ∈ done) : l.Acknowledged m p (done ++ [i]) := by
  have hmem (j : Nat) : j ∈ done ++ [i] ∧ l.mayFree p j = true ↔ j ∈ done ∧ l.mayFree p j = true := by
    rw [List.mem_append, List.mem_singleton]
    refine and_congr_left fun hj => or_iff_left_of_imp ?_
    rintro rfl
    exact hi hj
  refine ⟨h.serial, ?_, fun j => (h.record j).trans (if_congr (hmem j).symm rfl rfl)⟩
  rw [h.arrival]
  refine List.filter_congr fun j _ => congrArg _ (Bool.eq_iff_iff.2 ?_)
  simpa only [Bool.and_eq_true, List.contains_iff_mem] using (hmem j).symm

/-- The record of an index is freed at its turn. -/
theorem FaultLog.Acknowledged.free (hi : l.mayFree p i = true) : l.Acknowledged (m.free i) p (done ++ [i]) := by
  have hmem (j : Nat) : j ∈ done ++ [i] ∧ l.mayFree p j = true ↔ j = i ∨ j ∈ done ∧ l.mayFree p j = true := by
    rw [List.mem_append, List.mem_singleton]
    by_cases hj : j = i
    · subst hj
      simp [hi]
    · simp [hj]
  refine ⟨h.serial, ?_, fun j => ?_⟩
  · rw [FaultLog.free, h.arrival, List.filter_filter]
    refine List.filter_congr fun j _ => Bool.eq_iff_iff.2 ?_
    have := not_congr (hmem j)
    simp only [Bool.and_eq_true, Bool.not_eq_true', ← Bool.not_eq_true, bne_iff_ne, List.contains_iff_mem] at this ⊢
    rw [this, not_or]
  · rw [FaultLog.record_free, h.record, if_congr (hmem j) rfl rfl]
    by_cases hj : j = i <;> simp [hj]

/-- One more index is acknowledged (R137). -/
theorem FaultLog.Acknowledged.next : l.Acknowledged (m.acknowledge p i).2 p (done ++ [i]) ∧
    BitVec.ofNat 8 (m.acknowledge p i).1 = l.outcomeOf p done i := by
  have hrecord := h.record i
  cases hl : l.record i with
  | none =>
    have hfree : l.mayFree p i = false := by rw [FaultLog.mayFree, hl]; rfl
    have hm : m.record i = none := by rw [hrecord, hl, ite_self]
    simp only [FaultLog.acknowledge, hm, FaultLog.outcomeOf, hl]
    exact ⟨h.keep fun hi => absurd (hfree.symm.trans hi) Bool.false_ne_true, rfl⟩
  | some r =>
    have hfree : l.mayFree p i = (r.port == p || p == .p0) := by rw [FaultLog.mayFree, hl]; rfl
    have hown : (decide (r.port = p) || decide (p = .p0)) = l.mayFree p i := hfree.symm
    simp only [FaultLog.outcomeOf, hl, Option.isNone_some, Bool.false_eq_true, if_false]
    cases hmay : l.mayFree p i with
    | false =>
      have hm : m.record i = some r := by rw [hrecord, hl, hmay]; exact if_neg fun hc => Bool.false_ne_true hc.2
      simp only [FaultLog.acknowledge, hm, hown, hmay]
      exact ⟨h.keep fun hi => absurd (hmay.symm.trans hi) Bool.false_ne_true, rfl⟩
    | true =>
      by_cases hd : i ∈ done
      · have hm : m.record i = none := by rw [hrecord, if_pos ⟨hd, hmay⟩]
        simp only [FaultLog.acknowledge, hm, hd]
        exact ⟨h.keep fun _ => hd, rfl⟩
      · have hm : m.record i = some r := by rw [hrecord, hl]; exact if_neg fun hc => hd hc.1
        simp only [FaultLog.acknowledge, hm, hown, hmay, hd]
        exact ⟨h.free hmay, rfl⟩

end

/-- The indexes of a list are acknowledged one after the other, each with those before it done (R137, 10.5). -/
theorem FaultLog.acknowledgeAll_eq {l m : FaultLog} {p : Port} {done : List Nat} (h : l.Acknowledged m p done)
    (is : List Nat) : l.Acknowledged (m.acknowledgeAll p is).2 p (done ++ is) ∧
      (m.acknowledgeAll p is).1 = (is.zipIdx done.length).flatMap fun x =>
        [BitVec.ofNat 8 x.1, l.outcomeOf p ((done ++ is).take x.2) x.1] := by
  induction is generalizing m done with
  | nil => exact ⟨(List.append_nil done).symm ▸ h, rfl⟩
  | cons i is ih =>
    obtain ⟨hnext, hout⟩ := h.next (i := i)
    obtain ⟨hlog, hbytes⟩ := ih hnext
    rw [List.append_assoc, List.singleton_append] at hlog hbytes
    refine ⟨hlog, ?_⟩
    rw [List.zipIdx_cons, List.flatMap_cons, List.take_left, ← hout]
    rw [List.length_append, List.length_singleton] at hbytes
    exact congrArg (_ ++ ·) hbytes

/-! ### FAULT_ACK (R137, R187) -/

/-- The list of a FAULT-ACK is well formed (R137, R187). -/
def FaultAckGood (payload : List Byte) (is : List Nat) : Prop :=
  1 ≤ is.length ∧ is.length ≤ 12 ∧ num8 payload 4 = is.length ∧ ∀ i ∈ is, i ≤ 11

theorem parseFaultAck_of_list {payload header : List Byte} {is : List Nat} (hheader : header.length = 5)
    (hpayload : payload = header ++ is.map (BitVec.ofNat 8)) (his : ∀ i ∈ is, i ≤ 255) :
    (FaultAckGood payload is → parseFaultAck payload = some is) ∧
      (¬ FaultAckGood payload is → parseFaultAck payload = none) := by
  have hlist : (payload.drop 5).map BitVec.toNat = is := by
    rw [hpayload, ← hheader, List.drop_left, List.map_map]
    exact (List.map_congr_left fun i hi => Nat.mod_eq_of_lt (Nat.lt_succ_of_le (his i hi))).trans (List.map_id _)
  have hlength : payload.length = 5 + is.length := by rw [hpayload, List.length_append, hheader, List.length_map]
  have hbad : (!ReqKind.faultAck.lengthOk payload.length || num8 payload 4 == 0 || 12 < num8 payload 4 ||
      payload.length != 5 + num8 payload 4 || is.any fun i => 11 < i) = true ↔ ¬ FaultAckGood payload is := by
    have hany : (is.any fun i => decide (11 < i)) = true ↔ ¬ ∀ i ∈ is, i ≤ 11 := by simp
    rw [Bool.or_eq_true, hany, FaultAckGood, ← and_assoc, ← and_assoc, not_and_or]
    refine or_congr_left ?_
    simp only [ReqKind.lengthOk, hlength, Bool.or_eq_true, Bool.not_eq_true', Bool.and_eq_false_iff,
      decide_eq_false_iff_not, beq_iff_eq, decide_eq_true_eq, bne_iff_ne]
    omega
  simp only [parseFaultAck, hlist]
  exact ⟨fun hg => if_neg fun hc => hbad.1 hc hg, fun hg => if_pos (hbad.2 hg)⟩

section
variable {s : State} {p : Port} {payload : List Byte} {rest : List InFrame} (h : s.Oldest p .req payload rest)
  (hk : IsRequest payload 0x32) (hr : 0 < (s.port p).link.reserved)
include h hk hr

theorem exec_faultAck_of_malformed (hn : parseFaultAck payload = none) :
    exec (.faultAck p) s = .next (s.setPort p (((s.port p).took rest).answered payload 0x01 [])) := by
  change execFaultAck p s = _
  rw [execFaultAck, s.process_of_oldest p .req payload rest _ _ h
    (InFrame.row_request payload .faultAck hk nofun nofun), hn]
  exact congrArg _ (s.refuse_took p rest payload .malformed hr)

theorem exec_faultAck_of_list {is : List Nat} (hp : parseFaultAck payload = some is) :
    exec (.faultAck p) s = .next (State.setPort { s with faultLog := (s.faultLog.acknowledgeAll p is).2 } p
      (((s.port p).took rest).answered payload 0x00
        ([BitVec.ofNat 8 is.length, 0] ++ (s.faultLog.acknowledgeAll p is).1))) := by
  change execFaultAck p s = _
  rw [execFaultAck, s.process_of_oldest p .req payload rest _ _ h
    (InFrame.row_request payload .faultAck hk nofun nofun), hp]
  exact congrArg _ (State.reply_took { s with faultLog := (s.faultLog.acknowledgeAll p is).2 } p rest payload .ok _ hr)

end

/-- Settles O37: the checks of FAULT_READ in their order, and the indexes of a FAULT_ACK acknowledged in turn. -/
theorem faultLogIsReadAndFreed : Obligations.FaultLogIsReadAndFreed := by
  refine ⟨?_, ?_, ?_⟩
  · intro s p payload rest h hk hl hr i answer bytes mine
    have hbytes (j : Nat) : recordBytes j (s.faultLog.record j) = bytes j := by
      simp only [bytes]
      cases s.faultLog.record j with
      | none => rfl
      | some r =>
        obtain ⟨_, _, _, _, _, _, position, block⟩ := r
        cases position <;> cases block <;> rfl
    have hcontents (is : List Nat) : s.faultReadContents is = [BitVec.ofNat 8 is.length, 0] ++ is.flatMap bytes :=
      congrArg ([BitVec.ofNat 8 is.length, 0] ++ List.flatMap · is) (funext hbytes)
    refine ⟨exec_faultRead_of_no_index h hk hl hr, fun hi hother hp => exec_faultRead_not_owner h hk hl hr hi hp hother,
      fun hi hmine => ?_, fun hi => ?_⟩
    · have hone : s.faultReadContents [i] = [1, 0] ++ bytes i := by
        rw [hcontents, List.flatMap_singleton]
        rfl
      exact hone ▸ exec_faultRead_of_index h hk hl hr hi hmine
    · exact hcontents mine ▸ exec_faultRead_of_all h hk hl hr hi
  · intro s p payload header is rest h hk hr hheader hpayload his b good mayFree outcome
    obtain ⟨hgood, hbad⟩ := parseFaultAck_of_list hheader hpayload his
    refine ⟨fun hn => exec_faultAck_of_malformed h hk hr (hbad hn), fun hg => ?_⟩
    obtain ⟨hlog, hout⟩ := FaultLog.acknowledgeAll_eq (s.faultLog.acknowledged_nil p) is
    refine ⟨_, ?_, hlog.serial, hlog.arrival, hlog.record⟩
    rw [exec_faultAck_of_list h hk hr (hgood hg), hout]
    rfl
  · intro s p payload rest h hk hl hr
    refine exec_faultAck_of_malformed h hk hr ?_
    rw [parseFaultAck, hl]
    rfl

end Sys2Proof.Machine

/-! SUPPORT. The bounds of a port's slots and buffers (R117, R166, R172) under the operations of a port: which changes of
a link keep its slots within bounds, and which of a block keep the inbound buffer and the staging buffer within theirs. -/

namespace Sys2Proof.Machine

set_option Elab.async false

/-! ### The three bounds -/

/-- The bounds of a port: its outbound slots (R172), its inbound buffer (R166), its staging buffer (R117). -/
inductive LinkBound where
  | slots | inbound | staging

/-- What a bound says of a port's link and staging buffer. -/
def LinkBound.Holds (k : LinkBound) (l : Link) (g : Staging) : Prop :=
  match k with
  | .slots => l.used.length + l.reserved ≤ Config.outboundSlots
  | .inbound => l.inbound.length ≤ Config.inboundFrames
  | .staging => g.promised = l.promises ∧ g.held.length + g.promised ≤ Config.stagingBytes

/-- The port meets the bound. -/
def PortBlock.Fits (k : LinkBound) (b : PortBlock) : Prop := k.Holds b.link b.staging

/-- Every port meets the bound. -/
def State.Fits (k : LinkBound) (s : State) : Prop := ∀ p, (s.port p).Fits k

theorem State.outboundFits_iff (s : State) : s.OutboundFits ↔ s.Fits .slots := Iff.rfl

theorem State.inboundFits_iff (s : State) : s.InboundFits ↔ s.Fits .inbound := Iff.rfl

theorem State.stagingFits_iff (s : State) : s.StagingFits ↔ s.Fits .staging := Iff.rfl

/-! ### Changes of the outbound slots (R172) -/

/-- From `l` to `m` the slots stay within bounds, and the inbound buffer is as it was. -/
structure Link.SlotChange (l m : Link) : Prop where
  fits : l.used.length + l.reserved ≤ 8 → m.used.length + m.reserved ≤ 8
  inbound : m.inbound = l.inbound

namespace Link.SlotChange

theorem refl (l : Link) : l.SlotChange l := ⟨id, rfl⟩

theorem reserve (l : Link) : l.SlotChange l.reserve :=
  ⟨l.fits_reserve, by unfold Link.reserve; split <;> rfl⟩

theorem release (l : Link) : l.SlotChange l.release := by
  refine ⟨fun h => ?_, rfl⟩
  change l.used.length + (l.reserved - 1) ≤ 8
  omega

theorem fill (l : Link) (c : OutClass) (m : List Byte) : l.SlotChange (l.fill c m) :=
  ⟨l.fits_fill c m, by unfold Link.fill; split <;> rfl⟩

theorem placeFree (l : Link) (c : OutClass) (m : List Byte) : l.SlotChange (l.placeFree c m) :=
  ⟨l.fits_placeFree c m, by unfold Link.placeFree; split <;> rfl⟩

/-- An acknowledgement frees frames (R170). -/
theorem applyAck (l : Link) (interval : Nat) (a : BitVec 8) : l.SlotChange (l.applyAck interval a) := by
  unfold Link.applyAck
  dsimp only
  split
  · exact .refl l
  · refine ⟨fun h => ?_, rfl⟩
    have hleft : (l.used.drop (l.acked a)).length ≤ l.used.length := List.length_drop ▸ Nat.sub_le ..
    exact (Nat.add_le_add_right hleft _).trans h

/-- A HELLO RESUME frees frames as an acknowledgement does (R178). -/
theorem resume (l : Link) (interval : Nat) (p : Port) (id : ReqId) (a : BitVec 8) :
    l.SlotChange (l.resume interval p id a) := by
  obtain ⟨hfits, hinbound⟩ := applyAck l interval a
  exact ⟨hfits, hinbound⟩

/-- A session begins with its reply in a free slot (R177). -/
theorem beginSession (l : Link) (p : Port) (id : ReqId) : l.SlotChange (l.beginSession p id) := by
  obtain ⟨hfits, hinbound⟩ := placeFree { l with
    expected := 1, nextOut := 0, sentCount := 0, retransmits := 0, transmitPoint := none, ackOwed := false
    resendTimer := none } .rep (helloPayload p id 0x01 1)
  exact ⟨hfits, hinbound⟩

end Link.SlotChange

/-! ### Promised room (R117, R119) -/

/-- The room promised for one taken frame: a well-formed DAT frame's data (R119). -/
def InFrame.room (f : InFrame) : Nat :=
  if f.cls = .dat ∧ datWellFormed f.payload = true then (datData f.payload).length else 0

theorem InFrame.room_dat {payload : List Byte} (h : datWellFormed payload = true) :
    (InFrame.mk .dat payload).room = (datData payload).length := if_pos ⟨rfl, h⟩

theorem InFrame.room_malformed {payload : List Byte} (h : ¬ datWellFormed payload = true) :
    (InFrame.mk .dat payload).room = 0 := if_neg fun hc => h hc.2

theorem Link.promises_eq (l : Link) : l.promises = (l.inbound.map InFrame.room).sum := rfl

/-! ### What the operations of a port keep -/

namespace PortBlock.Fits

variable {k : LinkBound} {b : PortBlock}

theorem ite {c : Prop} [Decidable c] {d e : PortBlock} (hd : d.Fits k) (he : e.Fits k) :
    (if c then d else e).Fits k := by
  split
  · exact hd
  · exact he

/-- A change of the outbound slots. -/
theorem of_slots {d : PortBlock} (h : b.Fits k) (hl : b.link.SlotChange d.link) (hg : d.staging = b.staging) :
    d.Fits k := by
  cases k with
  | slots => exact hl.fits h
  | inbound =>
    rw [PortBlock.Fits, LinkBound.Holds, hl.inbound]
    exact h
  | staging =>
    rw [PortBlock.Fits, LinkBound.Holds, hg, Link.promises_eq, hl.inbound]
    exact h

/-- A change that lets held bytes go. -/
theorem of_held {d : PortBlock} (h : b.Fits k) (hl : d.link = b.link) (hp : d.staging.promised = b.staging.promised)
    (hh : d.staging.held.length ≤ b.staging.held.length) : d.Fits k := by
  cases k with
  | slots => rw [PortBlock.Fits, LinkBound.Holds, hl]; exact h
  | inbound => rw [PortBlock.Fits, LinkBound.Holds, hl]; exact h
  | staging =>
    obtain ⟨hexact, hroom⟩ := h
    rw [PortBlock.Fits, LinkBound.Holds, hl, hp]
    exact ⟨hexact, by omega⟩

/-- A change of neither link nor staging buffer. -/
theorem of_same {d : PortBlock} (h : b.Fits k) (hl : d.link = b.link) (hg : d.staging = b.staging) : d.Fits k := by
  rwa [PortBlock.Fits, hl, hg]

/-- A port with empty buffers and no slot in use. -/
theorem of_empty (hu : b.link.used = []) (hr : b.link.reserved = 0) (hi : b.link.inbound = [])
    (hp : b.staging.promised = 0) (hh : b.staging.held = []) : b.Fits k := by
  cases k with
  | slots =>
    rw [PortBlock.Fits, LinkBound.Holds, hu, hr]
    exact Nat.zero_le _
  | inbound =>
    rw [PortBlock.Fits, LinkBound.Holds, hi]
    exact Nat.zero_le _
  | staging =>
    rw [PortBlock.Fits, LinkBound.Holds, hp, hh, Link.promises, hi]
    exact ⟨rfl, Nat.zero_le _⟩

theorem raise (h : b.Fits k) {f : Flag} : (b.raise f).Fits k := by
  unfold PortBlock.raise
  dsimp only
  exact .ite h (.ite h (.ite (h.of_slots (.placeFree ..) rfl) h))

theorem raiseFault (h : b.Fits k) {f : FaultKind} : (b.raiseFault f).Fits k := .ite h h.raise

theorem placeDueAtn (h : b.Fits k) : b.placeDueAtn.Fits k := .ite (h.of_slots (.placeFree ..) rfl) h

theorem reply (h : b.Fits k) {kind : Byte} {st : Status} {id : ReqId} {m : List Byte} : (b.reply kind st id m).Fits k :=
  h.of_slots (.fill ..) rfl

theorem answer (h : b.Fits k) {id : ReqId} {m : List Byte} : (b.answer id m).Fits k := by
  unfold PortBlock.answer
  split
  · exact h
  · exact h.of_slots (.fill ..) rfl

theorem answerAll (h : b.Fits k) {ids : List ReqId} {m : List Byte} : (b.answerAll ids m).Fits k := by
  induction ids generalizing b with
  | nil => exact h
  | cons id _ ih => exact ih h.answer

theorem answerCancels (h : b.Fits k) {q : Nat} {st : JobStatus} : (b.answerCancels q st).Fits k := by
  have hfold (ws : List CancelWaiter) (f : CancelWaiter → List Byte) (d : PortBlock) (hd : d.Fits k) :
      (ws.foldl (fun d w => d.answer w.id (f w)) d).Fits k := by
    induction ws generalizing d with
    | nil => exact hd
    | cons w t ih => exact ih _ hd.answer
  exact hfold _ _ _ h

/-- Held bytes may be discarded, and the promised room stays (R123). -/
theorem refreshStaging (h : b.Fits k) : b.refreshStaging.Fits k := by
  obtain ⟨hpromised, hheld⟩ := b.refreshStaging_room
  exact h.of_held (by rw [PortBlock.refreshStaging_eq]) hpromised hheld

theorem stopRequest (h : b.Fits k) {busy : Bool} : (b.stopRequest busy).Fits k :=
  h.of_same (by rw [PortBlock.stopRequest_eq]) (by rw [PortBlock.stopRequest_eq])

theorem withdraw (h : b.Fits k) : b.withdraw.Fits k := h.of_slots (.release _) rfl

theorem placeNotice (h : b.Fits k) {e : Entry} {st : JobStatus} {i : Option Nat} : (b.placeNotice e st i).Fits k :=
  .ite (h.of_slots (.fill ..) rfl) (h.of_slots (.release _) rfl)

theorem becomeHalted (h : b.Fits k) : b.becomeHalted.Fits k :=
  raise (answerAll (b := { b with queue := { b.queue with run := .halted, haltWaiters := [] } }) h)

theorem unwait (h : b.Fits k) : b.unwait.Fits k := by
  unfold PortBlock.unwait
  split
  · exact .ite (withdraw (b := { b with queue := _ }) h) h
  · exact h

theorem takeHalt (h : b.Fits k) {m : List Byte} : (b.takeHalt m).Fits k := by
  have hhalted (d : PortBlock) (hd : d.Fits k) {id : ReqId} {c : List Byte} :
      (({ d with queue := { d.queue with run := .halted } } : PortBlock).reply (byteAt m 0) .ok id c).Fits k :=
    reply (b := { d with queue := { d.queue with run := .halted } }) hd
  unfold PortBlock.takeHalt
  dsimp only
  split
  · exact .ite h (hhalted _ h.unwait).raise
  · exact h
  · exact h.reply
  · exact h

theorem takeResume (h : b.Fits k) {m : List Byte} : (b.takeResume m).Fits k := by
  unfold PortBlock.takeResume
  dsimp only
  refine reply ?_
  split
  · exact h
  · exact answerAll (b := { b with queue := { b.queue with run := .run, haltWaiters := [] } }) h
  · exact h

theorem cut (h : b.Fits k) {a : Handle} {busy : Bool} : (b.cut a busy).Fits k := by
  have hentries : ({ b with queue := { b.queue with
      entries := b.queue.entries.map fun e : Entry => (e.cutBy a).1 } } : PortBlock).Fits k := h
  have hwaiting (c : Bool) := ite (c := c) hentries.withdraw hentries
  unfold PortBlock.cut
  exact refreshStaging (.ite (hwaiting _).stopRequest (hwaiting _))

theorem cancelEntries (h : b.Fits k) {target : Nat} : (b.cancelEntries target).Fits k := by
  unfold PortBlock.cancelEntries
  exact refreshStaging (.ite (withdraw (b := { b with queue := _ }) h) h)

theorem startWaiting (h : b.Fits k) {e : Entry} : (b.startWaiting e).Fits k := h.of_slots (.reserve _) rfl

theorem reserveSpanSlot (h : b.Fits k) : b.reserveSpanSlot.Fits k := by
  unfold PortBlock.reserveSpanSlot
  split
  · exact h
  · exact .ite (h.of_slots (.reserve _) rfl) h

theorem timedOut (h : b.Fits k) {f : FaultKind} : (b.timedOut f).Fits k := by
  unfold PortBlock.timedOut
  split <;> exact h

theorem reportStopped (h : b.Fits k) : b.reportStopped.Fits k := by
  unfold PortBlock.reportStopped
  split <;> exact h

theorem dropRequesters (h : b.Fits k) : b.dropRequesters.Fits k := by
  unfold PortBlock.dropRequesters
  split <;> exact h

/-- A port reset empties the slots and the buffers (R129, R179). -/
theorem beginReset {op : ResetOp} {busy : Bool} : (b.beginReset op busy).Fits k := by
  unfold PortBlock.beginReset
  dsimp only
  exact refreshStaging (.ite (.of_empty rfl rfl rfl rfl rfl) (stopRequest (.of_empty rfl rfl rfl rfl rfl)))

/-- A reset that completes under a HELLO begins a session (R158). -/
theorem completeReset (h : b.Fits k) {p : Port} {op : ResetOp} : (b.completeReset p op).Fits k := by
  unfold PortBlock.completeReset
  split
  · exact h.of_slots (.beginSession ..) rfl
  · exact h

theorem enable (h : b.Fits k) : b.enable.Fits k := by
  unfold PortBlock.enable
  split <;> exact h

theorem applySetting (h : b.Fits k) {x : Setting} : (b.applySetting x).Fits k :=
  .ite h (.ite h (.ite h (.ite h (.ite h (.ite h (.ite h h))))))

theorem applySettings (h : b.Fits k) {xs : List Setting} : (xs.foldl PortBlock.applySetting b).Fits k := by
  induction xs generalizing b with
  | nil => exact h
  | cons x _ ih => exact ih h.applySetting

theorem haltOnLoss (h : b.Fits k) : b.haltOnLoss.Fits k := by
  unfold PortBlock.haltOnLoss
  split
  · exact .ite h h.unwait.becomeHalted
  · exact h

theorem resendExpired (h : b.Fits k) : b.resendExpired.Fits k := by
  have hlost (n : Nat) : PortBlock.Fits k ({ b with
      link := { b.link with retransmits := n, resendTimer := none }, portState := .lost } : PortBlock).haltOnLoss :=
    haltOnLoss h
  exact .ite h (.ite (hlost _) h)

/-! ### Ends of spans (R105, R106, R114, R122) -/

theorem slotChange_placeData (b : PortBlock) (r : EngineRecord) (data : List Byte) :
    b.link.SlotChange (b.placeData r data) := by
  unfold PortBlock.placeData
  split
  · exact .refl _
  · split
    · exact .release _
    · exact .fill ..

theorem spanComplete (h : b.Fits k) {r : EngineRecord} {data : List Byte} : (b.spanComplete r data).Fits k := by
  have hlink : b.link.SlotChange (b.spanComplete r data).link := by
    unfold PortBlock.spanComplete
    dsimp only
    split
    · exact slotChange_placeData b r data
    · exact .refl _
  have hplaced : ({ b with link := (b.spanComplete r data).link } : PortBlock).Fits k := h.of_slots hlink rfl
  refine hplaced.of_held rfl ?_ ?_ <;> unfold PortBlock.spanComplete <;> dsimp only <;> split
  · rfl
  · rfl
  · exact List.length_drop ▸ Nat.sub_le ..
  · exact Nat.le_refl _

theorem spanUncorrectable (h : b.Fits k) {r : EngineRecord} {d : FaultDetail} : (b.spanUncorrectable r d).Fits k := by
  unfold PortBlock.spanUncorrectable
  split
  · exact h.of_slots (.release _) rfl
  · exact h

/-! ### Frames of a lane (R163 to R173) -/

theorem nak (h : b.Fits k) {why : NakReason} {e : BitVec 8} : (b.nak why e).Fits k := h

theorem badCrc (h : b.Fits k) : b.badCrc.Fits k := by
  unfold PortBlock.badCrc
  split <;> exact h

theorem refuseForState (h : b.Fits k) : b.refuseForState.Fits k := by
  unfold PortBlock.refuseForState
  split <;> exact h

theorem applyAck (h : b.Fits k) {a : BitVec 8} : (b.applyAck a).Fits k := h.of_slots (.applyAck ..) rfl

/-- A frame joins an inbound buffer that has room, and its data the promised room (R119, R168, R176). -/
theorem takeIn {d : PortBlock} {f : InFrame} (h : b.Fits k) (hroom : b.link.inbound.length < Config.inboundFrames)
    (hslots : b.link.used.length + b.link.reserved ≤ 8 → d.link.used.length + d.link.reserved ≤ 8)
    (hinbound : d.link.inbound = b.link.inbound ++ [f]) (hheld : d.staging.held = b.staging.held)
    (hpromised : d.staging.promised = b.staging.promised + f.room)
    (hbytes : f.room = 0 ∨ b.staging.held.length + b.staging.promised + f.room ≤ Config.stagingBytes) : d.Fits k := by
  cases k with
  | slots => exact hslots h
  | inbound =>
    rw [PortBlock.Fits, LinkBound.Holds, hinbound, List.length_append]
    exact hroom
  | staging =>
    obtain ⟨hexact, hfits⟩ := h
    rw [PortBlock.Fits, LinkBound.Holds, hpromised, hexact, hheld, Link.promises_eq, Link.promises_eq, hinbound,
      List.map_append, List.sum_append, List.map_singleton, List.sum_singleton, ← Link.promises_eq, ← hexact]
    exact ⟨rfl, by omega⟩

/-- A REQ is taken into a slot reserved for its reply, a DAT frame with its data promised (R119, R168). -/
theorem takeInSequence (h : b.Fits k) {c : InClass} {m : List Byte} : (b.takeInSequence c m).Fits k := by
  unfold PortBlock.takeInSequence
  split
  · exact h.nak
  · next hfull =>
    have hroom := Nat.not_le.1 hfull
    cases c with
    | req =>
      obtain ⟨hslots, hinbound⟩ := Link.SlotChange.reserve (b.link.takeIn .req m)
      exact .ite h.nak (h.takeIn (f := ⟨.req, m⟩) hroom hslots hinbound rfl rfl (.inl rfl))
    | dat =>
      dsimp only
      split
      · next hdata =>
        by_cases hw : datWellFormed m = true
        · have hbytes : b.staging.held.length + b.staging.promised + (datData m).length ≤ Config.stagingBytes := by
            simpa [Staging.roomFor, hw] using hdata
          rw [Staging.promise, if_pos hw]
          refine h.takeIn (f := ⟨.dat, m⟩) hroom id rfl rfl ?_ (.inr ?_) <;> rw [InFrame.room_dat hw]
          exact hbytes
        · rw [Staging.promise, if_neg hw]
          have hnone := InFrame.room_malformed hw
          exact h.takeIn (f := ⟨.dat, m⟩) hroom id rfl rfl (hnone ▸ rfl) (.inl hnone)
      · exact h.nak

theorem reqDatArrived (h : b.Fits k) {c : InClass} {f : WireFrame} : (b.reqDatArrived c f).Fits k := by
  unfold PortBlock.reqDatArrived
  split
  · exact .ite h.applyAck.takeInSequence (.ite h.applyAck.nak h.applyAck)
  · exact h.refuseForState

theorem ackArrived (h : b.Fits k) {f : WireFrame} : (b.ackArrived f).Fits k := by
  unfold PortBlock.ackArrived
  split
  · exact h.applyAck
  · exact h.refuseForState

theorem helloArrived (h : b.Fits k) {f : WireFrame} : (b.helloArrived f).Fits k := by
  have htake (e : BitVec 8) : (b.takeHello f.payload e).Fits k := by
    unfold PortBlock.takeHello
    split
    · next hroom => exact h.takeIn (f := ⟨.req, f.payload⟩) hroom id rfl rfl rfl (.inl rfl)
    · exact h.nak
  unfold PortBlock.helloArrived
  split
  · exact htake _
  · exact htake _
  · exact htake _
  · exact h.nak
  · exact h.nak

theorem transmit (h : b.Fits k) : b.transmit.Fits k := by
  unfold PortBlock.transmit
  dsimp only
  split
  · exact h
  · refine .ite h ?_
    split
    · exact h
    · split
      · exact h
      · exact .ite h h

/-! ### Frames processed (R120, R181) -/

/-- What the bounds say of a port whose oldest frame is `f`: they hold once it has left, its room taken back. -/
theorem oldest_leaves {d : PortBlock} {f : InFrame} {rest : List InFrame} (h : b.Fits k)
    (hb : b.link.inbound = f :: rest) (hd : d.link = (b.took rest).link)
    (hpromised : d.staging.promised = b.staging.promised - f.room)
    (hheld : d.staging.held.length ≤ b.staging.held.length + f.room) : d.Fits k := by
  cases k with
  | slots => rw [PortBlock.Fits, LinkBound.Holds, hd]; exact h
  | inbound =>
    rw [PortBlock.Fits, LinkBound.Holds, hb] at h
    rw [PortBlock.Fits, LinkBound.Holds, hd]
    exact (Nat.le_succ _).trans h
  | staging =>
    obtain ⟨hexact, hroom⟩ := h
    rw [Link.promises_eq, hb, List.map_cons, List.sum_cons] at hexact
    have hrest : (b.took rest).link.inbound = rest := rfl
    rw [PortBlock.Fits, LinkBound.Holds, hd, hpromised, Link.promises_eq, hrest]
    exact ⟨by omega, by omega⟩

/-- A REQ that leaves the inbound buffer had no room promised. -/
theorem took (h : b.Fits k) {payload : List Byte} {rest : List InFrame}
    (hb : b.link.inbound = ⟨.req, payload⟩ :: rest) : (b.took rest).Fits k :=
  h.oldest_leaves hb rfl rfl (Nat.le_refl _)

/-- The room promised for a DAT frame is taken back when it is handed over (R120). -/
theorem took_unpromise (h : b.Fits k) {payload : List Byte} {rest : List InFrame}
    (hb : b.link.inbound = ⟨.dat, payload⟩ :: rest) : ((b.took rest).unpromise payload).Fits k := by
  unfold PortBlock.unpromise
  split
  · next hw => exact h.oldest_leaves hb rfl (InFrame.room_dat hw ▸ rfl) (Nat.le_add_right ..)
  · next hw => exact h.oldest_leaves hb rfl (InFrame.room_malformed hw ▸ rfl) (Nat.le_add_right ..)

/-- The data of a well-formed DAT frame fits into the room promised for it (R120). -/
theorem took_appendData (h : b.Fits k) {payload : List Byte} {rest : List InFrame} {seq : Nat}
    (hb : b.link.inbound = ⟨.dat, payload⟩ :: rest) (hw : datWellFormed payload = true) :
    (((b.took rest).unpromise payload).appendData payload seq).Fits k := by
  have hroom := InFrame.room_dat hw
  rw [PortBlock.unpromise, if_pos hw]
  refine h.oldest_leaves hb rfl (hroom ▸ rfl) ?_
  rw [hroom]
  exact List.length_append.le

theorem rejectData (h : b.Fits k) {m : List Byte} : (b.rejectData m).Fits k :=
  raise (b := { b with staging := { b.staging with lastRejected := some (rejectedRecord m) } }) h

end PortBlock.Fits

end Sys2Proof.Machine

/-! SUPPORT. The bounds of the slots and buffers under the shared operations of the part: each keeps the bound of every
port. -/

namespace Sys2Proof.Machine

set_option Elab.async false

namespace State.Fits

variable {k : LinkBound} {t : State}

/-! ### Changes of a port, and changes of none -/

/-- A change outside the ports. -/
theorem of_ports (h : t.Fits k) {u : State} (hp : u.ports = t.ports) : u.Fits k := fun p => by
  rw [State.port, hp]
  exact h p

theorem ite {c : Prop} [Decidable c] {u : State} (ht : t.Fits k) (hu : u.Fits k) : (if c then t else u).Fits k := by
  split
  · exact ht
  · exact hu

theorem foldl (h : t.Fits k) {α : Type} {f : State → α → State} (hf : ∀ (u : State) (a : α), u.Fits k → (f u a).Fits k)
    {xs : List α} : (xs.foldl f t).Fits k := by
  induction xs generalizing t with
  | nil => exact h
  | cons a _ ih => exact ih (hf t a h)

theorem setPort (h : t.Fits k) {p : Port} {b : PortBlock} (hb : b.Fits k) : (t.setPort p b).Fits k := fun q => by
  rw [State.port_setPort]
  split
  · exact hb
  · exact h q

theorem modPort (h : t.Fits k) {p : Port} {f : PortBlock → PortBlock} (hf : ∀ b : PortBlock, b.Fits k → (f b).Fits k) :
    (t.modPort p f).Fits k :=
  h.setPort (hf _ (h p))

/-- A change of a port's block outside its link and its staging buffer. -/
theorem apart (h : t.Fits k) {p : Port} {f : PortBlock → PortBlock}
    (hl : ∀ b, (f b).link = b.link := by exact fun _ => rfl)
    (hg : ∀ b, (f b).staging = b.staging := by exact fun _ => rfl) : (t.modPort p f).Fits k :=
  h.modPort fun b hb => hb.of_same (hl b) (hg b)

theorem setCanvas (h : t.Fits k) {n : Nat} {c : Canvas} : (t.setCanvas n c).Fits k := h.of_ports (t.setCanvas_ports n c)

theorem modCanvas (h : t.Fits k) {n : Nat} {f : Canvas → Canvas} : (t.modCanvas n f).Fits k :=
  h.of_ports (t.modCanvas_ports n f)

theorem elapse (h : t.Fits k) {ms : Nat} : (t.elapse ms).Fits k := fun p => by
  rw [State.elapse_port]
  exact h p

theorem raise (h : t.Fits k) {p : Port} {f : Flag} : (t.modPort p fun b => b.raise f).Fits k :=
  h.modPort fun _ hb => hb.raise

theorem reply (h : t.Fits k) {p : Port} {payload : List Byte} {st : Status} {m : List Byte} :
    (t.reply p payload st m).Fits k := h.modPort fun _ hb => hb.reply

theorem refuse (h : t.Fits k) {p : Port} {payload : List Byte} {st : Status} : (t.refuse p payload st).Fits k := h.reply

theorem defer (h : t.Fits k) {p : Port} {payload : List Byte} : (t.defer p payload).Fits k := h.apart

theorem of_reset (h : t.ports = State.reset.ports) : t.Fits k := fun p => by
  rw [State.port, h, ← State.port, State.reset_port]
  exact .of_empty rfl rfl rfl rfl rfl

/-! ### Pins, and the ends of revokes and closes (R10, R45, R46, R53) -/

theorem answerWaiters (h : t.Fits k) {ws : List Waiter} {m : List Byte} : (t.answerWaiters ws m).Fits k :=
  h.foldl fun _ _ hu => hu.modPort fun _ hb => hb.answer

theorem release (h : t.Fits k) {n : Nat} : (t.release n).Fits k := by
  unfold State.release
  split
  · exact h
  · next c _ =>
    have hfree : State.Fits k { t with allocated := freeRun t.allocated c.firstBlock c.blockCount } := h.of_ports rfl
    exact hfree.apart.of_ports (State.setSlot_ports ..)

theorem endRevoke (h : t.Fits k) {n : Nat} {p : Port} : (t.endRevoke n p).Fits k := by
  unfold State.endRevoke
  split
  · exact h
  · split
    · exact h
    · split
      · exact h
      · exact h.setCanvas.answerWaiters.raise

theorem answerRevoke (h : t.Fits k) {a : Handle} {g : Grant} : (t.answerRevoke a g).Fits k := by
  unfold State.answerRevoke
  split
  · exact h
  · exact h.answerWaiters

theorem endClose (h : t.Fits k) {n : Nat} {op : CloseOp} : (t.endClose n op).Fits k := by
  unfold State.endClose
  split
  · exact h
  · have hforced {u : State} {q : Port} (hu : u.Fits k) :
        (if op.forced then u.modPort q fun b => b.raise .canvasLost else u).Fits k := .ite hu.raise hu
    refine release (hforced (answerWaiters (foldl (setCanvas ?_) fun _ _ hu => hu.raise)))
    exact h.foldl fun _ _ hu => hu.answerRevoke

theorem settle (h : t.Fits k) {n : Nat} {p : Port} : (t.settle n p).Fits k := by
  obtain ⟨_, _, _, _, he⟩ | ⟨_, _, _, _, he⟩ | ⟨he, _⟩ := t.settle_cases n p <;> rw [he]
  · exact h.endClose
  · exact h.endRevoke
  · exact h

theorem settleAll (h : t.Fits k) {p : Port} {hs : List Handle} : (t.settleAll p hs).Fits k := by
  induction hs generalizing t with
  | nil => exact h
  | cons a _ ih => exact ih (h.ite h.settle)

theorem dropPins (h : t.Fits k) {p : Port} {hs : List Handle} : (t.dropPins p hs).Fits k :=
  h.foldl fun _ _ hu => hu.modCanvas

theorem cutPort (h : t.Fits k) {n : Nat} {p : Port} : (t.cutPort n p).Fits k := by
  unfold State.cutPort
  split
  · exact h
  · exact .ite h (foldl (h.modPort fun _ hb => hb.cut) fun _ _ hu => hu.modCanvas.settle)

theorem cutCanvas (h : t.Fits k) {n : Nat} : (t.cutCanvas n).Fits k := by
  unfold State.cutCanvas
  split
  · exact h
  · exact h.foldl fun _ _ hu => hu.cutPort

/-! ### Claims, and the head of a queue (R72 to R79, R87, R91, R92) -/

theorem tryGrant (h : t.Fits k) {p : Port} : (t.tryGrant p).Fits k := by
  obtain he | ⟨_, _, _, _, _, _, _, he⟩ := t.tryGrant_cases p <;> rw [he]
  · exact h
  · exact h.setPort (h p)

theorem releaseClaims (h : t.Fits k) {p : Port} : (t.releaseClaims p).Fits k := h.apart.foldl fun _ _ hu => hu.tryGrant

theorem endHead (h : t.Fits k) {p : Port} {e : Entry} {st : JobStatus} {i : Option Nat} {halts : Bool} :
    (t.endHead p e st i halts).Fits k := by
  have htail := h.apart (p := p) (f := fun b => { b with
    record := none, request := none, queue := { b.queue with entries := b.queue.entries.tail, report := none } })
  refine (modPort (dropPins (.ite htail.releaseClaims htail)) fun b hb => ?_).settleAll
  have hanswered : ((b.placeNotice e st i).refreshStaging.answerCancels e.seq st).Fits k :=
    hb.placeNotice.refreshStaging.answerCancels
  exact .ite hanswered.becomeHalted hanswered

theorem endFaulted (h : t.Fits k) {p : Port} {e : Entry} {d : FaultDetail} : (t.endFaulted p e d).Fits k := by
  have hlogged : (t.logFault p e.seq e.job.kind d).1.Fits k := by
    unfold State.logFault
    split
    · exact modPort (h.of_ports rfl) fun _ hb => hb.raiseFault
    · exact h.modPort fun _ hb => hb.raise.raiseFault
  exact hlogged.endHead

theorem endForReset (h : t.Fits k) {p : Port} {e : Entry} : (t.endForReset p e).Fits k :=
  (h.apart.releaseClaims.dropPins.modPort fun _ hb => hb.refreshStaging.reportStopped).settleAll

theorem endJob (h : t.Fits k) {p : Port} {e : Entry} {causes : StopCauses} {rep : Report} :
    (t.endJob p e causes rep).Fits k := by
  unfold State.endJob
  split
  · exact h.endForReset
  · split
    · exact h.endFaulted
    · exact h.endHead

theorem dispatch (h : t.Fits k) {p : Port} {e : Entry} : (t.dispatch p e).Fits k := by
  have hreserved : (t.modPort p fun b => { b with link := b.link.reserve }).Fits k :=
    h.modPort fun _ hb => hb.of_slots (.reserve _) rfl
  unfold State.dispatch
  split
  · exact hreserved.endHead
  · exact .ite hreserved.endHead (h.modPort fun _ hb => hb.startWaiting)
  · exact h

/-! ### Port resets (R156 to R159) -/

theorem abandonClearing (h : t.Fits k) {n : Nat} : (t.abandonClearing n).Fits k := by
  have hclear (u : ClearUnit) : State.Fits k { t with clear := u } := h.of_ports rfl
  exact .ite (.ite (hclear _) (hclear _).release) (hclear _).release

theorem closeForReset (h : t.Fits k) {n : Nat} : (t.closeForReset n).Fits k := by
  unfold State.closeForReset
  split
  · exact h
  · dsimp only
    split
    · exact h.abandonClearing
    · exact .ite h.setCanvas.endClose (.ite h.setCanvas.cutCanvas h.setCanvas)
    · exact .ite h.setCanvas.endClose (.ite h.setCanvas.cutCanvas h.setCanvas)

theorem dropSupervisor (h : t.Fits k) {p : Port} : (t.dropSupervisor p).Fits k := by
  refine .ite (fun q => ?_) h
  rw [State.port, Quad.get_map]
  exact (h q).dropRequesters

theorem resetTables (h : t.Fits k) {p : Port} : (t.resetTables p).Fits k := h.of_ports rfl

theorem resetCanvases (h : t.Fits k) {p : Port} : (t.resetCanvases p).Fits k :=
  (h.foldl fun _ _ hu => hu.closeForReset).foldl fun _ _ hu => hu.settle

theorem beginReset (h : t.Fits k) {p : Port} {op : ResetOp} : (t.beginReset p op).Fits k :=
  (h.modPort fun _ _ => .beginReset).dropPins.dropSupervisor.resetTables.resetCanvases

theorem tryComplete (h : t.Fits k) {p : Port} : (t.tryComplete p).Fits k := by
  unfold State.tryComplete
  split
  · exact h
  · exact .ite (modPort (h.modPort fun _ hb => hb.completeReset) fun _ hb => hb.answerAll) h

theorem beginForRequest (h : t.Fits k) {payload : List Byte} {q : Port} {final : FinalState}
    {quotas : Option (Nat × Nat)} : (t.beginForRequest payload q final quotas).Fits k := by
  unfold State.beginForRequest
  dsimp only
  split
  · exact h.beginReset.tryComplete.reply
  · exact h.beginReset.tryComplete.apart.defer

theorem joinReset (h : t.Fits k) {payload : List Byte} {q : Port} {op : ResetOp} {final : FinalState}
    {quotas : Option (Nat × Nat)} : (t.joinReset payload q op final quotas).Fits k := h.apart.defer

theorem helloUnsynced (h : t.Fits k) {p : Port} {payload : List Byte} : (t.helloUnsynced p payload).Fits k :=
  .ite h (h.modPort fun _ hb => hb.of_slots (.beginSession ..) rfl)

/-! ### Sharing (R42, R43, R50, R51) -/

theorem beginRevoke (h : t.Fits k) {payload : List Byte} {a : Handle} {c : Canvas} {q : Port} {pins : Nat}
    {mode : WaitMode} : (t.beginRevoke payload a c q pins mode).Fits k := by
  unfold State.beginRevoke
  dsimp only
  split
  · exact h.setCanvas.endRevoke.reply
  · split
    · exact h.setCanvas.defer
    · exact h.setCanvas.defer.cutPort

theorem joinRevoke (h : t.Fits k) {payload : List Byte} {a : Handle} {c : Canvas} {q : Port} {r : RevokeOp}
    {mode : WaitMode} : (t.joinRevoke payload a c q r mode).Fits k := by
  unfold State.joinRevoke
  dsimp only
  split
  · exact h.setCanvas.defer.cutPort
  · exact h.setCanvas.defer

theorem beginClose (h : t.Fits k) {p : Port} {payload : List Byte} {a : Handle} {c : Canvas} {mode : WaitMode}
    {forced : Bool} : (t.beginClose p payload a c mode forced).Fits k := by
  unfold State.beginClose
  dsimp only
  split
  · exact h.setCanvas.endClose.reply
  · split
    · exact h.setCanvas.defer
    · exact h.setCanvas.defer.cutCanvas

theorem joinClose (h : t.Fits k) {p : Port} {payload : List Byte} {a : Handle} {c : Canvas} {op : CloseOp}
    {mode : WaitMode} {forced : Bool} : (t.joinClose p payload a c op mode forced).Fits k := by
  unfold State.joinClose
  dsimp only
  split
  · exact h.setCanvas.defer.cutCanvas
  · exact h.setCanvas.defer

/-! ### Admission (R69), OPEN (R14), the clear unit (R34, R35) and the engine (R103, R126) -/

theorem admitJob (h : t.Fits k) {p : Port} {j : Job × Bool} : (t.admitJob p j).Fits k :=
  h.apart.foldl fun _ _ hu => hu.modCanvas

theorem takeOpen (h : t.Fits k) {p : Port} {id : ReqId} {a : OpenAsk} {n f : Nat} : (t.takeOpen p id a n f).Fits k := by
  have hslot : (t.setCanvas n (a.record p id f)).Fits k := h.setCanvas
  unfold State.takeOpen
  refine apart (hslot.of_ports ?_)
  rfl

theorem canvasLive (h : t.Fits k) {n : Nat} : (t.canvasLive n).Fits k := by
  unfold State.canvasLive
  split
  · exact h
  · split
    · exact h.setCanvas.answerWaiters
    · exact h

theorem blockReport (h : t.Fits k) : t.blockReport.Fits k := by
  have hclear (u : ClearUnit) : State.Fits k { t with clear := u } := h.of_ports rfl
  unfold State.blockReport
  split
  · exact h
  · exact .ite (hclear _).release (.ite (hclear _) (hclear _).canvasLive)

theorem chooseSpan (h : t.Fits k) : t.chooseSpan.Fits k := by
  unfold State.chooseSpan
  split
  · exact h
  · exact modPort (h.of_ports rfl) fun _ hb => hb.reserveSpanSlot

theorem streamExpiry (h : t.Fits k) {p : Port} {job : JobKind} {kind : FaultKind} :
    (t.streamExpiry p job kind).Fits k := by
  unfold State.streamExpiry
  split
  · exact h
  · exact .ite (h.elapse.modPort fun _ hb => hb.timedOut) h

/-! ### Frames processed (R120, R181) -/

/-- A row that processes REQ frames finds the room promised as it was. -/
theorem took (h : t.Fits k) {p : Port} {payload : List Byte} {rest : List InFrame}
    (hb : (t.port p).link.inbound = ⟨.req, payload⟩ :: rest) : (t.setPort p ((t.port p).took rest)).Fits k :=
  h.setPort ((h p).took hb)

/-- A DAT frame is handed over with the room promised for it (R120, R121). -/
theorem takeData (h : t.Fits k) {p : Port} {payload : List Byte} {rest : List InFrame}
    (hb : (t.port p).link.inbound = ⟨.dat, payload⟩ :: rest) :
    ((t.setPort p ((t.port p).took rest)).takeData p payload).Fits k := by
  have hport (f : PortBlock → PortBlock) (hf : (f (((t.port p).took rest).unpromise payload)).Fits k) :
      (((t.setPort p ((t.port p).took rest)).modPort p (PortBlock.unpromise payload)).modPort p f).Fits k := by
    rw [State.modPort_modPort, State.modPort, State.setPort_setPort, State.port_setPort_same]
    exact h.setPort hf
  unfold State.takeData
  dsimp only
  split
  · next hc =>
    obtain ⟨hw, _⟩ := Bool.and_eq_true_iff.1 hc
    exact hport _ ((h p).took_appendData hb hw)
  · exact hport _ ((h p).took_unpromise hb).rejectData

end State.Fits

end Sys2Proof.Machine

/-! SUPPORT. Each command of the table, as a change that keeps the bounds of the slots and buffers, and the step
invariant. -/

namespace Sys2Proof.Machine

set_option Elab.async false

/-! ### Commands and their frames -/

/-- Only DAT frames belong to the row of write data (R181). -/
theorem InFrame.row_req_ne_dat (payload : List Byte) : (InFrame.mk .req payload).row ≠ .dat := by
  unfold InFrame.row
  dsimp only
  split
  · split <;> nofun
  · nofun
  · split
    · nofun
    · split
      · split <;> nofun
      · nofun

/-- The frame a row processes is the oldest of the buffer (R181). -/
theorem State.takeFrame_oldest {s t : State} {p : Port} {row : StreamRow} {payload : List Byte}
    (h : s.takeFrame p row = some (payload, t)) : ∃ cls rest, (s.port p).link.inbound = ⟨cls, payload⟩ :: rest ∧
      (InFrame.mk cls payload).row = row ∧ t = s.setPort p ((s.port p).took rest) := by
  unfold State.takeFrame at h
  split at h
  · cases h
  · next f rest hb =>
    split at h
    · next hrow => cases h; exact ⟨f.cls, rest, hb, hrow, rfl⟩
    · cases h

section
variable {k : LinkBound} {s t : State} (hs : s.Fits k)
include hs

theorem fits_of_unlessHeld {u : State} (h : s.unlessHeld u = .next t) (hu : u.Fits k) : t.Fits k := by
  cases h
  exact .ite hs hu

/-- A row of the request unit keeps what the processing of its REQ keeps (R181). -/
theorem fits_of_process {p : Port} {row : StreamRow} {f : List Byte → State → State} (h : s.process p row f = .next t)
    (hf : ∀ (payload : List Byte) (v : State), v.Fits k → (f payload v).Fits k)
    (hrow : row ≠ .dat := by exact nofun) : t.Fits k := by
  refine fits_of_unlessHeld hs h ?_
  split
  · exact hs
  · next payload v hv =>
    obtain ⟨cls, rest, hb, hr, rfl⟩ := State.takeFrame_oldest hv
    cases cls with
    | req => exact hf payload _ (hs.took hb)
    | dat => exact absurd (hr.symm.trans (InFrame.row_dat payload)) hrow

theorem fits_datFrame {p : Port} (h : execDatFrame p s = .next t) : t.Fits k := by
  refine fits_of_unlessHeld hs h ?_
  split
  · exact hs
  · next payload v hv =>
    obtain ⟨cls, rest, hb, hr, rfl⟩ := State.takeFrame_oldest hv
    cases cls with
    | req => exact absurd hr (InFrame.row_req_ne_dat payload)
    | dat => exact hs.takeData hb

/-! ### Frames that arrive and are sent (R163 to R175) -/

theorem fits_arrived {p : Port} {rest : List Byte} {f : PortBlock → PortBlock}
    (hf : ∀ b : PortBlock, b.Fits k → (f b).Fits k) : (s.arrived p rest f).Fits k :=
  hs.modPort fun b hb => hf { b with link := b.link.huntAgain rest } hb

theorem fits_frameLengthError {p : Port} {bytes : List Byte} (h : execFrameLengthError p bytes s = .next t) :
    t.Fits k := by
  refine fits_of_unlessHeld hs h ?_
  split
  · exact fits_arrived hs fun _ => id
  · exact hs

theorem fits_crcError {p : Port} {bytes : List Byte} (h : execCrcError p bytes s = .next t) : t.Fits k := by
  refine fits_of_unlessHeld hs h ?_
  split
  · exact fits_arrived hs fun _ hb => hb.badCrc
  · exact hs

theorem fits_unknownClassFrame {p : Port} {bytes : List Byte} (h : execUnknownClassFrame p bytes s = .next t) :
    t.Fits k := by
  refine fits_of_unlessHeld hs h ?_
  split
  · exact .ite hs (fits_arrived hs fun _ => id)
  · exact hs

theorem fits_reqDatFrameReceived {p : Port} {bytes : List Byte} (h : execReqDatFrameReceived p bytes s = .next t) :
    t.Fits k := by
  refine fits_of_unlessHeld hs h ?_
  split
  · split
    · exact .ite hs (fits_arrived hs fun _ hb => hb.reqDatArrived)
    · exact hs
  · exact hs

theorem fits_ackFrameReceived {p : Port} {bytes : List Byte} (h : execAckFrameReceived p bytes s = .next t) :
    t.Fits k := by
  refine fits_of_unlessHeld hs h ?_
  split
  · exact .ite (fits_arrived hs fun _ hb => hb.ackArrived) hs
  · exact hs

theorem fits_helloFrameReceived {p : Port} {bytes : List Byte} (h : execHelloFrameReceived p bytes s = .next t) :
    t.Fits k := by
  refine fits_of_unlessHeld hs h ?_
  split
  · exact .ite (fits_arrived hs fun _ hb => hb.helloArrived) hs
  · exact hs

theorem fits_resendTimerExpiry {p : Port} (h : execResendTimerExpiry p s = .next t) : t.Fits k := by
  refine fits_of_unlessHeld hs h ?_
  split
  · exact hs
  · exact hs.elapse.modPort fun _ hb => hb.resendExpired

/-! ### Sessions (R150, R176 to R183) and supervisor requests (R152 to R160) -/

theorem fits_helloFresh {p : Port} (h : execHelloFresh p s = .next t) : t.Fits k :=
  fits_of_process hs h fun payload v hv => by
    split
    · exact hv.helloUnsynced
    · exact .ite hv.beginReset.tryComplete hv
    · exact .ite hv.beginReset.tryComplete hv
    · exact hv
    · exact hv

theorem fits_helloResume {p : Port} (h : execHelloResume p s = .next t) : t.Fits k :=
  fits_of_process hs h fun payload v hv => by
    have hresumed := hv.modPort (p := p) (f := fun b => { b with
        portState := .up
        link := b.link.resume b.config.resendInterval p (reqId payload) (byteAt payload 5) })
      fun _ hb => hb.of_slots (.resume ..) rfl
    split
    · exact hv.helloUnsynced
    · exact .ite hresumed hv
    · exact .ite hresumed hv
    · exact hv
    · exact hv

theorem fits_unknownKind {p : Port} (h : execUnknownKind p s = .next t) : t.Fits k :=
  fits_of_process hs h fun _ _ hv => .ite (hv.modPort fun _ hb => hb.reply) hv.refuse

theorem fits_portSetEnable {p : Port} (h : execPortSetEnable p s = .next t) : t.Fits k :=
  fits_of_process hs h fun payload v hv => by
    split
    · exact hv.refuse
    · dsimp only
      split
      · exact hv.joinReset
      · exact .ite hv.refuse (hv.modPort fun b hb => PortBlock.Fits.enable (b := b.setQuotas _) hb).reply

theorem fits_portSetDisable {p : Port} (h : execPortSetDisable p s = .next t) : t.Fits k :=
  fits_of_process hs h fun payload v hv => by
    split
    · exact hv.refuse
    · dsimp only
      split
      · exact hv.joinReset
      · exact hv.beginForRequest

theorem fits_config {p : Port} (h : execConfig p s = .next t) : t.Fits k :=
  fits_of_process hs h fun payload v hv => by
    split
    · exact hv.refuse
    · exact (hv.modPort fun _ hb => hb.applySettings).reply

theorem fits_resetPort {p : Port} (h : execResetPort p s = .next t) : t.Fits k :=
  fits_of_process hs h fun payload v hv => by
    refine .ite hv.refuse (.ite hv.refuse ?_)
    split
    · exact hv.refuse
    · refine .ite hv.refuse ?_
      split
      · exact hv.joinReset
      · exact hv.beginForRequest

theorem fits_resetDevice {p : Port} (h : execResetDevice p s = .next t) : t.Fits k :=
  fits_of_process hs h fun _ _ hv => .ite hv.refuse (.ite hv.refuse (.of_reset rfl))

/-! ### Canvases (R11 to R18, R34) -/

theorem fits_openCanvas {p : Port} (h : execOpenCanvas p s = .next t) : t.Fits k :=
  fits_of_process hs h fun payload v hv => by
    split
    · exact hv.refuse
    · refine .ite hv.refuse (.ite hv.refuse ?_)
      split
      · exact hv.takeOpen.defer
      · exact hv.refuse

theorem fits_query {p : Port} (h : execQuery p s = .next t) : t.Fits k :=
  fits_of_process hs h fun payload v hv => by
    refine .ite hv.refuse ?_
    dsimp only
    split
    · exact hv.refuse
    · exact .ite hv.reply hv.refuse

theorem fits_list {p : Port} (h : execList p s = .next t) : t.Fits k :=
  fits_of_process hs h fun _ _ hv => .ite hv.refuse (.ite hv.refuse hv.reply)

theorem fits_blockCleared (h : execBlockCleared s = .next t) : t.Fits k := by
  unfold execBlockCleared at h
  split at h
  · split at h
    · cases h
      exact State.Fits.blockReport (hs.of_ports rfl)
    · cases h
  · cases h
    exact hs

/-! ### Sharing (R39 to R54) -/

theorem fits_grant {p : Port} (h : execGrant p s = .next t) : t.Fits k :=
  fits_of_process hs h fun payload v hv => by
    refine .ite hv.refuse ?_
    split
    · dsimp only
      split
      · exact hv.refuse
      · refine .ite hv.refuse (.ite hv.refuse (.ite hv.refuse ?_))
        split
        · exact hv.refuse
        · exact hv.setCanvas.reply
    · exact hv.refuse

theorem fits_revoke {p : Port} (h : execRevoke p s = .next t) : t.Fits k :=
  fits_of_process hs h fun payload v hv => by
    refine .ite hv.refuse ?_
    split
    · dsimp only
      split
      · exact hv.refuse
      · refine .ite hv.refuse (.ite hv.refuse (.ite hv.refuse ?_))
        split
        · exact hv.refuse
        · split
          · exact hv.beginRevoke
          · exact hv.joinRevoke
    · exact hv.refuse

theorem fits_closeCanvas {p : Port} (h : execCloseCanvas p s = .next t) : t.Fits k :=
  fits_of_process hs h fun payload v hv => by
    refine .ite hv.refuse ?_
    split
    · exact hv.refuse
    · dsimp only
      split
      · exact hv.refuse
      · refine .ite hv.refuse (.ite hv.refuse ?_)
        split
        · exact hv.joinClose
        · exact hv.beginClose

theorem fits_revokeDeadlineExpiry {n : Nat} {p : Port} (h : execRevokeDeadlineExpiry n p s = .next t) : t.Fits k := by
  refine fits_of_unlessHeld hs h ?_
  split
  · exact hs.elapse.modCanvas.cutPort
  · exact hs

theorem fits_closeDeadlineExpiry {n : Nat} (h : execCloseDeadlineExpiry n s = .next t) : t.Fits k := by
  refine fits_of_unlessHeld hs h ?_
  split
  · split
    · exact hs.elapse.modCanvas.cutCanvas
    · exact hs
  · exact hs

theorem fits_revokeEnd {n : Nat} {p : Port} (h : execRevokeEnd n p s = .next t) : t.Fits k := by
  refine fits_of_unlessHeld hs h ?_
  split
  · exact hs
  · exact .ite hs.endRevoke hs

theorem fits_closeEnd {n : Nat} (h : execCloseEnd n s = .next t) : t.Fits k := by
  refine fits_of_unlessHeld hs h ?_
  split
  · exact hs.endClose
  · exact hs

/-! ### Queues and their heads (R66 to R87) -/

theorem fits_submit {p : Port} (h : execSubmit p s = .next t) : t.Fits k :=
  fits_of_process hs h fun payload v hv => by
    refine .ite hv.reply ?_
    split
    · exact hv.reply
    · split
      · exact hv.reply
      · have hjobs (jobs : List (Job × Bool)) : (jobs.foldl (State.admitJob p) v).Fits k :=
          hv.foldl fun _ _ hu => hu.admitJob
        exact .ite hv.reply ((hjobs _).modPort fun _ hb => hb.refreshStaging).reply

theorem fits_cancel {p : Port} (h : execCancel p s = .next t) : t.Fits k :=
  fits_of_process hs h fun payload v hv => by
    have hdropped {target : Nat} {hs : List Handle} :
        ((v.modPort p fun b => b.cancelEntries target).dropPins p hs).Fits k :=
      (hv.modPort fun _ hb => hb.cancelEntries).dropPins
    refine .ite hv.refuse (.ite hv.refuse (State.Fits.settleAll (.ite ?_ hdropped.reply)))
    exact (hdropped.modPort fun b hb => PortBlock.Fits.stopRequest (b := b.addCancelWaiter _) hb).defer

theorem fits_halt {p : Port} (h : execHalt p s = .next t) : t.Fits k :=
  fits_of_process hs h fun _ _ hv => .ite hv.refuse (hv.modPort fun _ hb => hb.takeHalt)

theorem fits_resume {p : Port} (h : execResume p s = .next t) : t.Fits k :=
  fits_of_process hs h fun _ _ hv => .ite hv.refuse (hv.modPort fun _ hb => hb.takeResume)

theorem fits_jobDispatch {p : Port} (h : execJobDispatch p s = .next t) : t.Fits k := by
  refine fits_of_unlessHeld hs h ?_
  split
  · exact hs
  · exact .ite hs.dispatch hs

theorem fits_waitTimerExpiry {p : Port} (h : execWaitTimerExpiry p s = .next t) : t.Fits k := by
  refine fits_of_unlessHeld hs h ?_
  split
  · split
    · exact hs.elapse.endFaulted
    · exact hs
  · exact hs

theorem fits_jobEnd {p : Port} (h : execJobEnd p s = .next t) : t.Fits k := by
  refine fits_of_unlessHeld hs h ?_
  split
  · split
    · exact hs.endJob
    · exact hs
  · exact hs

/-! ### Reports (R136 to R145) -/

theorem fits_status {p : Port} (h : execStatus p s = .next t) : t.Fits k :=
  fits_of_process hs h fun payload v hv => by
    refine .ite hv.refuse ?_
    split
    · exact hv.refuse
    · exact .ite hv.refuse (State.Fits.ite hv.apart hv).reply

theorem fits_faultRead {p : Port} (h : execFaultRead p s = .next t) : t.Fits k :=
  fits_of_process hs h fun _ _ hv => .ite hv.refuse (.ite hv.reply (.ite hv.refuse (.ite hv.refuse hv.reply)))

theorem fits_faultAck {p : Port} (h : execFaultAck p s = .next t) : t.Fits k :=
  fits_of_process hs h fun payload v hv => by
    split
    · exact hv.refuse
    · exact State.Fits.reply (hv.of_ports rfl)

theorem fits_attnClear {p : Port} (h : execAttnClear p s = .next t) : t.Fits k :=
  fits_of_process hs h fun payload v hv => by
    split
    · exact hv.refuse
    · exact .ite hv.refuse hv.apart.reply

/-! ### The engine and the store (R26, R103 to R126) -/

theorem fits_storeAccessBegin (h : execStoreAccessBegin s = .next t) : t.Fits k := by
  refine fits_of_unlessHeld hs h (.ite hs ?_)
  split
  · exact hs
  · exact hs.of_ports rfl

theorem fits_spanComplete {corrected : List Nat} (h : execSpanComplete corrected s = .next t) : t.Fits k := by
  unfold execSpanComplete at h
  split at h
  · split at h
    · cases h
    · split at h
      · cases h
        exact hs
      · cases h
        exact State.Fits.chooseSpan (State.Fits.modPort (hs.of_ports rfl) fun _ hb => hb.spanComplete)
  · cases h
    exact hs

theorem fits_spanUncorrectable {word : Nat} (h : execSpanUncorrectable word s = .next t) : t.Fits k := by
  unfold execSpanUncorrectable at h
  split at h
  · split at h
    · cases h
    · split at h
      · cases h
        exact State.Fits.chooseSpan (State.Fits.modPort (hs.of_ports rfl) fun _ hb => hb.spanUncorrectable)
      · cases h
        exact hs
  · cases h
    exact hs

/-! ### Every command, and the step -/

theorem fits_exec {c : Instr} (h : exec c s = .next t) : t.Fits k := by
  cases c with
  | powerOn => cases h; exact .of_reset rfl
  | resetPinAssert => cases h; exact .of_reset rfl
  | resetPinRelease => cases h; exact .ite (.of_reset rfl) hs
  | frameLengthError p bytes => exact fits_frameLengthError hs h
  | crcError p bytes => exact fits_crcError hs h
  | unknownClassFrame p bytes => exact fits_unknownClassFrame hs h
  | reqDatFrameReceived p bytes => exact fits_reqDatFrameReceived hs h
  | ackFrameReceived p bytes => exact fits_ackFrameReceived hs h
  | helloFrameReceived p bytes => exact fits_helloFrameReceived hs h
  | frameTransmit p => exact fits_of_unlessHeld hs h (hs.modPort fun _ hb => hb.transmit)
  | resendTimerExpiry p => exact fits_resendTimerExpiry hs h
  | helloFresh p => exact fits_helloFresh hs h
  | helloResume p => exact fits_helloResume hs h
  | unknownKind p => exact fits_unknownKind hs h
  | portSetEnable p => exact fits_portSetEnable hs h
  | portSetDisable p => exact fits_portSetDisable hs h
  | config p => exact fits_config hs h
  | resetPort p => exact fits_resetPort hs h
  | portResetComplete p => exact fits_of_unlessHeld hs h hs.tryComplete
  | resetDevice p => exact fits_resetDevice hs h
  | openCanvas p => exact fits_openCanvas hs h
  | closeCanvas p => exact fits_closeCanvas hs h
  | query p => exact fits_query hs h
  | list p => exact fits_list hs h
  | grant p => exact fits_grant hs h
  | revoke p => exact fits_revoke hs h
  | submit p => exact fits_submit hs h
  | cancel p => exact fits_cancel hs h
  | halt p => exact fits_halt hs h
  | resume p => exact fits_resume hs h
  | status p => exact fits_status hs h
  | faultRead p => exact fits_faultRead hs h
  | faultAck p => exact fits_faultAck hs h
  | attnClear p => exact fits_attnClear hs h
  | datFrame p => exact fits_datFrame hs h
  | jobDispatch p => exact fits_jobDispatch hs h
  | claimGrant p => exact fits_of_unlessHeld hs h hs.tryGrant
  | waitTimerExpiry p => exact fits_waitTimerExpiry hs h
  | spanBegin => exact fits_of_unlessHeld hs h (.ite hs hs.chooseSpan)
  | storeAccessBegin => exact fits_storeAccessBegin hs h
  | spanComplete corrected => exact fits_spanComplete hs h
  | spanUncorrectable word => exact fits_spanUncorrectable hs h
  | dataTimeoutExpiry p => exact fits_of_unlessHeld hs h hs.streamExpiry
  | readStallExpiry p => exact fits_of_unlessHeld hs h hs.streamExpiry
  | jobEnd p => exact fits_jobEnd hs h
  | attentionFramePlaced p => exact fits_of_unlessHeld hs h (hs.modPort fun _ hb => hb.placeDueAtn)
  | revokeDeadlineExpiry slot p => exact fits_revokeDeadlineExpiry hs h
  | closeDeadlineExpiry slot => exact fits_closeDeadlineExpiry hs h
  | revokeEnd slot p => exact fits_revokeEnd hs h
  | closeEnd slot => exact fits_closeEnd hs h
  | blockCleared => exact fits_blockCleared hs h

theorem fits_step (h : step s = .next t) : t.Fits k := by
  obtain ⟨_, rfl⟩ | ⟨c, rest, _, he⟩ := step_cases s t h
  · exact .ite hs hs.elapse
  · exact fits_exec (s := { s with pending := rest }) hs he

end

/-- Settles O54: every command, and the passing of time, keeps each of the three bounds on every port. -/
theorem linkBuffersStayInBounds : Obligations.LinkBuffersStayInBounds := by
  intro s t h
  rw [s.outboundFits_iff, s.inboundFits_iff, s.stagingFits_iff, t.outboundFits_iff, t.inboundFits_iff,
    t.stagingFits_iff]
  exact ⟨fun hs => fits_step hs h, fun hs => fits_step hs h, fun hs => fits_step hs h⟩

end Sys2Proof.Machine

/-! SUPPORT. The receiver (R162 to R165): a frame's bytes read back, and the rows of the frames that are discarded. -/

namespace Sys2Proof.Machine

set_option Elab.async false

/-! ### Fields behind others (R162, R186) -/

/-- A number of two bytes, read where it was written (R186). -/
theorem num16_behind (d r : List Byte) {n : Nat} (h : n < 65536) : num16 (d ++ (enc16 n ++ r)) d.length = n := by
  simp only [num16, num8, byteAt, enc16, List.getD_append_right, Nat.le_refl, Nat.le_add_right, Nat.sub_self,
    Nat.add_sub_cancel_left, List.cons_append, List.getD_cons_zero, List.getD_cons_succ, BitVec.toNat_ofNat]
  omega

/-! ### Frames (R162 to R164) -/

/-- The bytes of a frame that its CRC covers: header and payload (R162, R164). -/
def WireFrame.body (f : WireFrame) : List Byte := [f.cls, f.seq, f.ack] ++ enc16 f.payload.length ++ f.payload

theorem WireFrame.length_body (f : WireFrame) : f.body.length = f.payload.length + 5 := by
  simp [WireFrame.body, enc16]

theorem WireFrame.bytes_append (f : WireFrame) (rest : List Byte) :
    f.bytes ++ rest = 0xD1 :: (f.body ++ (enc16 (crc16 f.body).toNat ++ rest)) :=
  congrArg (0xD1 :: ·) (List.append_assoc ..)

/-- A receiver passes over every byte but the start byte (R163). -/
theorem hunt_append {fill : List Byte} (h : ∀ b ∈ fill, b ≠ 0xD1) (bytes : List Byte) :
    hunt (fill ++ bytes) = hunt bytes := by
  induction fill with
  | nil => rfl
  | cons b fill ih =>
    rw [List.cons_append, hunt, if_neg (h b (List.mem_cons_self ..))]
    exact ih fun c hc => h c (List.mem_cons_of_mem _ hc)

theorem receive_append {fill : List Byte} (h : ∀ b ∈ fill, b ≠ 0xD1) (bytes : List Byte) :
    receive (fill ++ bytes) = receive bytes := by
  rw [receive, hunt_append h, receive]

/-- What follows a start byte is gathered (R163). -/
theorem receive_start (t : List Byte) : receive (0xD1 :: t) = gather t := rfl

/-- The four outcomes of gathering, from the length field on (R163, R164). -/
theorem gather_of_header {t : List Byte} (h : 5 ≤ t.length) :
    gather t = if 1040 < num16 t 3 then .lengthError t
      else if t.length < num16 t 3 + 7 then .incomplete
      else if (crc16 (t.take (num16 t 3 + 5))).toNat = num16 t (num16 t 3 + 5) then
        .good ⟨byteAt t 0, byteAt t 1, byteAt t 2, (t.drop 5).take (num16 t 3)⟩ (t.drop (num16 t 3 + 7))
      else .crcError t :=
  if_neg (Nat.not_lt.2 h)

/-- A frame is read as it was sent (R162 to R164). -/
theorem receive_frame (f : WireFrame) (rest : List Byte) (h : f.payload.length ≤ 1040) :
    receive (f.bytes ++ rest) = .good f rest := by
  have hbody := f.length_body
  have hlen : (f.body ++ (enc16 (crc16 f.body).toNat ++ rest)).length = f.payload.length + 7 + rest.length := by
    rw [← List.append_assoc, List.length_append, List.length_append, hbody]
    rfl
  have hnum : num16 (f.body ++ (enc16 (crc16 f.body).toNat ++ rest)) 3 = f.payload.length := by
    rw [WireFrame.body, List.append_assoc, List.append_assoc]
    exact num16_behind [f.cls, f.seq, f.ack] _ (by omega)
  have hcrc := num16_behind f.body rest (crc16 f.body).isLt
  have hpayload : (f.body ++ (enc16 (crc16 f.body).toNat ++ rest)).drop 5 =
      f.payload ++ (enc16 (crc16 f.body).toNat ++ rest) := rfl
  have hrest : (f.body ++ (enc16 (crc16 f.body).toNat ++ rest)).drop (f.payload.length + 7) = rest := by
    rw [← List.append_assoc]
    exact List.drop_left' (by rw [List.length_append, hbody]; rfl)
  rw [WireFrame.bytes_append, receive_start, gather_of_header (by omega), hnum, if_neg (by omega), if_neg (by omega),
    ← hbody, hcrc, List.take_left, if_pos rfl, hrest, hpayload, List.take_left]
  rfl

/-- Idle fill bytes are no start bytes (R162). -/
theorem ne_start_of_idle {l : Link} (h : l.lane = none) (n : Nat) :
    ∀ b ∈ (List.replicate n l.laneBytes).flatten, b ≠ 0xD1 := by
  intro b hb
  obtain ⟨bytes, hbytes, hmem⟩ := List.mem_flatten.1 hb
  rw [List.eq_of_mem_replicate hbytes, Link.laneBytes, h, List.mem_singleton] at hmem
  rw [hmem]
  decide

/-- Settles O5: the receiver hunts past the fill, and every field is read where it was written. -/
theorem receiverReadsWhatIsSent : Obligations.ReceiverReadsWhatIsSent := by
  have hreceive (fill : List Byte) (f : WireFrame) (rest : List Byte) (hfill : ∀ b ∈ fill, b ≠ 0xD1)
      (hf : f.payload.length ≤ 1040) : receive (fill ++ f.bytes ++ rest) = .good f rest := by
    rw [List.append_assoc, receive_append hfill, receive_frame f rest hf]
  refine ⟨fun l => ⟨fun h => ?_, fun f h => ?_⟩, hreceive, fun idle busy f n rest hidle hbusy hf => ?_⟩
  · rw [Link.laneBytes, h]
    rfl
  · rw [Link.laneBytes, h]
    rfl
  · have hbytes : busy.laneBytes = f.bytes := by rw [Link.laneBytes, hbusy]
    rw [hbytes]
    exact hreceive _ f rest (ne_start_of_idle hidle n) hf

/-! ### The rows of discarded frames -/

section
variable {s : State} {p : Port} {bytes : List Byte} (hp : s.resetPin = false)
include hp

theorem exec_frameLengthError_of_rx {rest : List Byte} (h : s.rxEvent p bytes = .lengthError rest) :
    exec (.frameLengthError p bytes) s = .next (s.arrived p rest id) := by
  change execFrameLengthError p bytes s = _
  rw [execFrameLengthError, s.unlessHeld_of_running _ hp, h]

theorem exec_crcError_of_rx {rest : List Byte} (h : s.rxEvent p bytes = .crcError rest) :
    exec (.crcError p bytes) s = .next (s.arrived p rest PortBlock.badCrc) := by
  change execCrcError p bytes s = _
  rw [execCrcError, s.unlessHeld_of_running _ hp, h]

theorem exec_unknownClassFrame_of_rx {f : WireFrame} {rest : List Byte} (h : s.rxEvent p bytes = .good f rest)
    (hcls : hostClass f.cls = false) : exec (.unknownClassFrame p bytes) s = .next (s.arrived p rest id) := by
  change execUnknownClassFrame p bytes s = _
  rw [execUnknownClassFrame, s.unlessHeld_of_running _ hp, h]
  exact congrArg _ (if_neg (Bool.eq_false_iff.1 hcls))

end

/-- What the receiver of a port finds when its bytes are a whole frame. -/
theorem State.rxEvent_frame {s : State} {p : Port} {bytes rest : List Byte} {f : WireFrame}
    (h : (s.port p).link.rx ++ bytes = f.bytes ++ rest) (hf : f.payload.length ≤ 1040) :
    s.rxEvent p bytes = .good f rest := by
  rw [State.rxEvent, h, receive_frame f rest hf]

/-- Settles O6: the length field, then the CRC, then the class decide. -/
theorem faultyFramesAreDiscarded : Obligations.FaultyFramesAreDiscarded := by
  refine ⟨fun s p bytes t hp hrx hlen hlong => ?_, fun s p bytes t hp hrx hlen hshort hwhole hcrc => ?_,
    fun s p bytes f rest hp hrx hf hreq hdat hack => ?_⟩
  · refine exec_frameLengthError_of_rx hp ?_
    rw [State.rxEvent, hrx, receive_start, gather_of_header hlen, if_pos hlong]
  · have hevent : s.rxEvent p bytes = .crcError t := by
      rw [State.rxEvent, hrx, receive_start, gather_of_header hlen, if_neg (Nat.not_lt.2 hshort),
        if_neg (Nat.not_lt.2 hwhole), if_neg hcrc]
    rw [exec_crcError_of_rx hp hevent, State.arrived, State.modPort, PortBlock.badCrc]
    cases hst : (s.port p).portState <;> simp only [hst] <;> rfl
  · refine exec_unknownClassFrame_of_rx hp (State.rxEvent_frame hrx hf) ?_
    rw [hostClass, decide_eq_false hreq, decide_eq_false hdat, decide_eq_false hack]
    rfl

end Sys2Proof.Machine

/-! SUPPORT. Good frames that arrive (R167 to R170, R176): what an acknowledgement frees, which frames an UP port takes,
and what a port in any other state answers. -/

namespace Sys2Proof.Machine

set_option Elab.async false

/-! ### The rows of good frames -/

section
variable {s : State} {p : Port} {bytes : List Byte} {f : WireFrame} {rest : List Byte} (hp : s.resetPin = false)
  (hrx : (s.port p).link.rx ++ bytes = f.bytes ++ rest) (hf : f.payload.length ≤ 1040)
include hp hrx hf

theorem exec_reqDatFrameReceived_of_rx {c : InClass} (hc : inClass f.cls = some c) (hh : isHello f = false) :
    exec (.reqDatFrameReceived p bytes) s = .next (s.arrived p rest (PortBlock.reqDatArrived c f)) := by
  change execReqDatFrameReceived p bytes s = _
  rw [execReqDatFrameReceived, s.unlessHeld_of_running _ hp, State.rxEvent_frame hrx hf]
  simp only [hc, hh]
  rfl

theorem exec_ackFrameReceived_of_rx (hc : f.cls = 0xC0) :
    exec (.ackFrameReceived p bytes) s = .next (s.arrived p rest (PortBlock.ackArrived f)) := by
  change execAckFrameReceived p bytes s = _
  rw [execAckFrameReceived, s.unlessHeld_of_running _ hp, State.rxEvent_frame hrx hf]
  exact congrArg _ (if_pos hc)

theorem exec_helloFrameReceived_of_rx (hh : isHello f = true) :
    exec (.helloFrameReceived p bytes) s = .next (s.arrived p rest (PortBlock.helloArrived f)) := by
  change execHelloFrameReceived p bytes s = _
  rw [execHelloFrameReceived, s.unlessHeld_of_running _ hp, State.rxEvent_frame hrx hf]
  exact congrArg _ (if_pos hh)

end

theorem State.arrived_eq (s : State) (p : Port) (rest : List Byte) (f : PortBlock → PortBlock) :
    s.arrived p rest f = s.setPort p (f { s.port p with link := (s.port p).link.huntAgain rest }) := rfl

theorem isHello_iff (f : WireFrame) : isHello f = true ↔ f.cls = 0x01 ∧ f.payload.head? = some 0x01 := by
  rw [isHello, Bool.and_eq_true, decide_eq_true_eq, decide_eq_true_eq]

/-- The frames of the row, with their class: a REQ that is no HELLO, or a DAT frame (R165, R167). -/
def WireFrame.Sequenced (f : WireFrame) (c : InClass) : Prop :=
  (f.cls = 0x01 ∧ c = .req ∧ f.payload.head? ≠ some 0x01) ∨ (f.cls = 0x02 ∧ c = .dat)

theorem WireFrame.Sequenced.inClass {f : WireFrame} {c : InClass} (h : f.Sequenced c) :
    inClass f.cls = some c ∧ isHello f = false := by
  rw [Bool.eq_false_iff, Ne, isHello_iff]
  obtain ⟨hc, rfl, hh⟩ | ⟨hc, rfl⟩ := h <;> rw [hc]
  · exact ⟨rfl, fun hhello => hh hhello.2⟩
  · exact ⟨rfl, fun hhello => absurd hhello.1 (by decide)⟩

/-! ### Acknowledgements (R170) -/

/-- Without a used frame no value acknowledges any. -/
theorem Link.applyAck_of_no_frame {l : Link} (h : l.used = []) (interval : Nat) (a : BitVec 8) :
    l.applyAck interval a = l := by
  have hnone : l.acked a = 0 := by rw [Link.acked, Link.oldest, h]; rfl
  exact if_pos hnone

/-- How many of the frames from `g` on a value acknowledges (R170). -/
theorem Link.acked_eq {l : Link} {g : OutFrame} {others : List OutFrame} (h : l.used = g :: others) (a : BitVec 8) :
    l.acked a =
      if 1 ≤ (a - g.seq + 1).toNat ∧ (a - g.seq + 1).toNat ≤ l.sentCount then (a - g.seq + 1).toNat else 0 := by
  have hacked : l.acked a = if (a - g.seq + 1).toNat ≤ l.sentCount then (a - g.seq + 1).toNat else 0 := by
    rw [Link.acked, Link.oldest, h]
    rfl
  rw [hacked]
  split <;> split <;> omega

/-- A link whose oldest `k` frames have been acknowledged (R170). -/
def Link.freed (l : Link) (interval k : Nat) : Link :=
  { l with
    used := l.used.drop k
    sentCount := l.sentCount - k
    retransmits := 0
    resendTimer := if k < l.sentCount then some interval else none
    transmitPoint := l.transmitPoint.bind fun t =>
      if t ∈ (l.used.take k).map OutFrame.seq then (l.used.drop k).head?.map OutFrame.seq else some t }

/-- A value that acknowledges frames frees them. -/
theorem Link.applyAck_of_acked {l : Link} {interval : Nat} {a : BitVec 8} (h : l.acked a ≠ 0)
    (hsent : l.acked a ≤ l.sentCount) : l.applyAck interval a = l.freed interval (l.acked a) := by
  have htimer : (if l.sentCount - l.acked a = 0 then none else some interval) =
      if l.acked a < l.sentCount then some interval else none := by
    by_cases hlt : l.acked a < l.sentCount
    · rw [if_pos hlt, if_neg (by omega)]
    · rw [if_neg hlt, if_pos (by omega)]
  have hmem (t : BitVec 8) : ((l.used.take (l.acked a)).any fun f => f.seq == t) = true ↔
      t ∈ (l.used.take (l.acked a)).map OutFrame.seq := by
    simp only [List.any_eq_true, List.mem_map, beq_iff_eq]
  rw [Link.applyAck, Link.freed]
  simp only [hmem, htimer, if_neg h]
  cases l.transmitPoint <;> rfl

/-- A value applied to a list of used frames frees the oldest, or none. -/
theorem Link.applyAck_eq {l : Link} {g : OutFrame} {others : List OutFrame} (h : l.used = g :: others) (interval : Nat)
    (a : BitVec 8) : l.applyAck interval a =
      if 1 ≤ (a - g.seq + 1).toNat ∧ (a - g.seq + 1).toNat ≤ l.sentCount then l.freed interval (a - g.seq + 1).toNat
      else l := by
  have hacked := Link.acked_eq h a
  split
  · next hk =>
    rw [if_pos hk] at hacked
    rw [← hacked]
    exact Link.applyAck_of_acked (by omega) (by omega)
  · next hk =>
    rw [if_neg hk] at hacked
    exact if_pos hacked

/-- The receiver hunts apart from the outbound list. -/
theorem Link.applyAck_huntAgain (l : Link) (rest : List Byte) (interval : Nat) (a : BitVec 8) :
    (l.huntAgain rest).applyAck interval a = (l.applyAck interval a).huntAgain rest := by
  have hacked : (l.huntAgain rest).acked a = l.acked a := rfl
  unfold Link.applyAck
  rw [hacked]
  dsimp only
  split <;> rfl

theorem PortBlock.ackArrived_of_up {b : PortBlock} (h : b.portState = .up) (f : WireFrame) :
    b.ackArrived f = b.applyAck f.ack := by
  simp only [PortBlock.ackArrived, h]

/-- Settles O7: the value acknowledges the oldest frames, or none. -/
theorem acknowledgementFreesTheOldestFrames : Obligations.AcknowledgementFreesTheOldestFrames := by
  intro s p bytes f rest hp hup hrx hf hcls
  have hexec := exec_ackFrameReceived_of_rx hp hrx hf hcls
  rw [State.arrived_eq, PortBlock.ackArrived_of_up (by exact hup), PortBlock.applyAck, Link.applyAck_huntAgain] at hexec
  refine ⟨fun hnone => ?_, fun g others hused => ?_⟩
  · rw [hexec, Link.applyAck_of_no_frame hnone]
    rfl
  · rw [hexec, Link.applyAck_eq hused]
    dsimp only
    split
    · rw [Link.freed]
      cases (s.port p).link.transmitPoint <;> rfl
    · rfl

/-! ### Frames in sequence (R167, R168, R119) -/

section
variable {b : PortBlock} {payload : List Byte}

theorem PortBlock.takeInSequence_of_full (h : 4 ≤ b.link.inbound.length) (c : InClass) :
    b.takeInSequence c payload = b.nak .busy b.link.expected := if_pos h

/-- A REQ in sequence is taken when a slot is free for its reply (R168). -/
theorem PortBlock.takeInSequence_req (h : ¬ 4 ≤ b.link.inbound.length) : b.takeInSequence .req payload =
    if 8 ≤ b.link.used.length + b.link.reserved then b.nak .busy b.link.expected
    else { b with link := { b.link with
      inbound := b.link.inbound ++ [⟨.req, payload⟩]
      reserved := b.link.reserved + 1
      expected := b.link.expected + 1
      ackOwed := true } } := by
  rw [PortBlock.takeInSequence, if_neg (by exact h)]
  simp only [Link.freeSlots_eq_zero]
  split
  · rfl
  · next hfree => rw [Link.reserve_of_free (b.link.takeIn .req payload) (Nat.not_le.1 hfree)]; rfl

/-- A DAT frame in sequence is taken when its data, if it is well formed, has room (R119, R168). -/
theorem PortBlock.takeInSequence_dat (h : ¬ 4 ≤ b.link.inbound.length) : b.takeInSequence .dat payload =
    let taken : Link := { b.link with
      inbound := b.link.inbound ++ [⟨.dat, payload⟩], expected := b.link.expected + 1, ackOwed := true }
    let size := payload.length - 6
    if payload.length < 7 ∨ 1030 < payload.length then { b with link := taken }
    else if 4096 < b.staging.held.length + b.staging.promised + size then b.nak .busy b.link.expected
    else { b with link := taken, staging := { b.staging with promised := b.staging.promised + size } } := by
  have hdata : (datData payload).length = payload.length - 6 := List.length_drop
  have hwf : datWellFormed payload = true ↔ ¬ (payload.length < 7 ∨ 1030 < payload.length) := by
    rw [datWellFormed, Bool.and_eq_true, decide_eq_true_eq, decide_eq_true_eq]
    omega
  rw [PortBlock.takeInSequence, if_neg (by exact h)]
  by_cases hw : payload.length < 7 ∨ 1030 < payload.length
  · have hbad := Bool.eq_false_iff.2 fun hc => hwf.1 hc hw
    simp only [Staging.roomFor, Staging.promise, hbad, if_pos hw]
    rfl
  · have hgood := hwf.2 hw
    have hroom : b.staging.roomFor payload = true ↔
        ¬ 4096 < b.staging.held.length + b.staging.promised + (payload.length - 6) := by
      rw [Staging.roomFor, hgood, Bool.not_true, Bool.false_or, decide_eq_true_eq, hdata, Nat.not_lt]
      exact Iff.rfl
    simp only [hroom, Staging.promise, hgood, hdata, if_neg hw, ite_not, if_true]
    rfl

theorem PortBlock.reqDatArrived_of_up (h : b.portState = .up) (c : InClass) (f : WireFrame) :
    b.reqDatArrived c f = (b.applyAck f.ack).sequenceTest c f := by
  simp only [PortBlock.reqDatArrived, h]

end

/-- Settles O8: by the distance from the expected sequence, and for a frame in sequence by its class. -/
theorem sequenceTestOnAnUpPort : Obligations.SequenceTestOnAnUpPort := by
  intro s p bytes f rest c hp hup hrx hf hclass b l e d refused taken size
  obtain ⟨hc, hh⟩ := WireFrame.Sequenced.inClass hclass
  have harrived : ({ b with link := b.link.huntAgain rest } : PortBlock).reqDatArrived c f =
      ({ b with link := l } : PortBlock).sequenceTest c f := by
    rw [PortBlock.reqDatArrived_of_up (by exact hup), PortBlock.applyAck, Link.applyAck_huntAgain]
    rfl
  rw [exec_reqDatFrameReceived_of_rx hp hrx hf hc hh, State.arrived_eq, harrived, PortBlock.sequenceTest]
  refine congrArg (fun x => Host.Outcome.next (s.setPort p x)) (if_congr Iff.rfl ?_ rfl)
  split
  · next hfull => exact PortBlock.takeInSequence_of_full hfull c
  · next hroom =>
    cases c with
    | req => exact PortBlock.takeInSequence_req hroom
    | dat => exact PortBlock.takeInSequence_dat hroom

/-! ### Ports that are not UP, and HELLO frames (R169, R176) -/

/-- A frame that is no HELLO is refused for the state of a port that is not UP (R169). -/
theorem PortBlock.reqDatArrived_of_not_up {b : PortBlock} (h : b.portState ≠ .up) (c : InClass) (f : WireFrame) :
    b.reqDatArrived c f = b.refuseForState := by
  unfold PortBlock.reqDatArrived
  split
  · next hup => exact absurd hup h
  · rfl

theorem PortBlock.ackArrived_of_not_up {b : PortBlock} (h : b.portState ≠ .up) (f : WireFrame) :
    b.ackArrived f = b.refuseForState := by
  unfold PortBlock.ackArrived
  split
  · next hup => exact absurd hup h
  · rfl

/-- Settles O9: by the state of the port. -/
theorem framesOutsideASession : Obligations.FramesOutsideASession := by
  refine ⟨fun s p bytes f rest hp hrx hf hstate => ?_, fun s p bytes f rest hp hrx hf hcls hhead => ?_⟩
  · intro b nak refused
    have hrefused : s.setPort p ({ b with link := b.link.huntAgain rest } : PortBlock).refuseForState = refused := by
      simp only [refused, nak, PortBlock.refuseForState]
      cases hst : b.portState with
      | up => exact absurd hst hstate
      | _ => rfl
    refine ⟨fun hclass => ?_, fun hcls => ?_⟩
    · obtain ⟨c, hsequenced⟩ : ∃ c, f.Sequenced c :=
        hclass.elim (fun h => ⟨.dat, .inr ⟨h, rfl⟩⟩) fun ⟨h, hh⟩ => ⟨.req, .inl ⟨h, rfl, hh⟩⟩
      obtain ⟨hc, hh⟩ := hsequenced.inClass
      rw [exec_reqDatFrameReceived_of_rx hp hrx hf hc hh, State.arrived_eq,
        PortBlock.reqDatArrived_of_not_up (by exact hstate), hrefused]
    · rw [exec_ackFrameReceived_of_rx hp hrx hf hcls, State.arrived_eq,
        PortBlock.ackArrived_of_not_up (by exact hstate), hrefused]
  · intro b l refused offered
    rw [exec_helloFrameReceived_of_rx hp hrx hf ((isHello_iff f).2 ⟨hcls, hhead⟩), State.arrived_eq]
    refine congrArg (fun x => Host.Outcome.next (s.setPort p x)) ?_
    change ({ b with link := l } : PortBlock).helloArrived f = _
    simp only [PortBlock.helloArrived, offered, refused]
    cases b.portState <;> rfl

end Sys2Proof.Machine

/-! SUPPORT. What a port sends next (R171, R173), and the expiry of its resend timer (R174, R175). -/

namespace Sys2Proof.Machine

set_option Elab.async false

/-! ### The transmitter's choice (R173) -/

theorem exec_frameTransmit_eq {s : State} (hp : s.resetPin = false) (p : Port) :
    exec (.frameTransmit p) s = .next (s.setPort p (s.port p).transmit) :=
  s.unlessHeld_of_running _ hp

/-- A transmit point names the first frame of the list with its sequence. -/
theorem Link.atTransmitPoint_of_split {l : Link} {before after : List OutFrame} {f : OutFrame}
    (hused : l.used = before ++ f :: after) (hfirst : ∀ g ∈ before, g.seq ≠ f.seq) (ht : l.transmitPoint = some f.seq) :
    l.atTransmitPoint = some (before.length, f) := by
  have hindex : l.used.findIdx (fun g => g.seq == f.seq) = before.length := by
    have hbefore : ¬ before.findIdx (fun g => g.seq == f.seq) < before.length := fun hlt =>
      let ⟨g, hg, he⟩ := List.findIdx_lt_length.1 hlt
      hfirst g hg (beq_iff_eq.1 he)
    rw [hused, List.findIdx_append, if_neg hbefore, List.findIdx_cons, beq_self_eq_true]
    exact Nat.zero_add _
  have hframe : l.used[before.length]? = some f := by
    rw [hused, List.getElem?_append_right (Nat.le_refl _), Nat.sub_self]
    rfl
  simp only [Link.atTransmitPoint, ht, hindex, hframe, Option.map_some]

/-- The frame behind it is the next of the list. -/
theorem Link.next_of_split {l : Link} {before after : List OutFrame} {f : OutFrame}
    (hused : l.used = before ++ f :: after) : l.used[before.length + 1]? = after.head? := by
  rw [hused, List.getElem?_append_right (Nat.le_add_right _ 1), Nat.add_sub_cancel_left, List.head?_eq_getElem?]
  rfl

theorem Link.atTransmitPoint_of_none {l : Link} (ht : l.transmitPoint = none) : l.atTransmitPoint = none := by
  rw [Link.atTransmitPoint, ht]

section
variable {b : PortBlock}

/-- A pending NAK goes first, whatever the port's state (R173). -/
theorem PortBlock.transmit_of_nak {n : Nak} (h : b.link.nak = some n) : b.transmit = { b with link := { b.link with
    nak := none, lane := some ⟨0xC1, 0, b.link.expected - 1, [BitVec.ofNat 8 n.reason.code, n.seq]⟩ } } := by
  simp only [PortBlock.transmit, h]
  rfl

variable (hn : b.link.nak = none)
include hn

/-- A port that is not UP sends idle fill (R173). -/
theorem PortBlock.transmit_of_not_up (h : b.portState ≠ .up) :
    b.transmit = { b with link := { b.link with lane := none } } := by
  simp only [PortBlock.transmit, hn]
  exact if_pos (bne_iff_ne.2 h)

variable (hup : b.portState = .up)
include hup

/-- An UP port sends a pending HELLO reply (R173). -/
theorem PortBlock.transmit_of_hello {r : HelloReply} (h : b.link.helloReply = some r) : b.transmit = { b with
    link := { b.link with helloReply := none, lane := some ⟨0x81, r.seq, b.link.expected - 1, r.payload⟩ } } := by
  simp only [PortBlock.transmit, hn, hup, h]
  rfl

variable (hh : b.link.helloReply = none)
include hh

/-- An UP port sends the frame at the transmit point (R173). -/
theorem PortBlock.transmit_of_listed {i : Nat} {f : OutFrame} (h : b.link.atTransmitPoint = some (i, f)) :
    b.transmit = { b with link := b.link.sendListed b.config.resendInterval i f } := by
  simp only [PortBlock.transmit, hn, hup, hh, h]
  rfl

/-- An UP port without a frame to send sends the ACK frame it owes, or idle fill (R171, R173). -/
theorem PortBlock.transmit_of_none (h : b.link.transmitPoint = none) : b.transmit = { b with link :=
    if b.link.ackOwed then { b.link with ackOwed := false, lane := some ⟨0xC0, 0, b.link.expected - 1, []⟩ }
    else { b.link with lane := none } } := by
  simp only [PortBlock.transmit, hn, hup, hh, Link.atTransmitPoint_of_none h]
  cases b.link.ackOwed <;> rfl

end

/-- Settles O10: by what is pending, in the order of R173. -/
theorem transmitterChoosesInOrder : Obligations.TransmitterChoosesInOrder := by
  intro s p hp b l a sends
  have hsends {m : Link} (h : b.transmit = { b with link := m }) : sends m :=
    (exec_frameTransmit_eq hp p).trans (congrArg (fun x => Host.Outcome.next (s.setPort p x)) h)
  refine ⟨fun n hn => hsends (PortBlock.transmit_of_nak hn), fun hn hst => hsends (PortBlock.transmit_of_not_up hn hst),
    fun hn hup => ⟨fun r hr => hsends (PortBlock.transmit_of_hello hn hup hr), fun hh => ⟨?_, ?_, ?_⟩⟩⟩
  · intro before f after hused hfirst ht
    refine hsends ?_
    rw [PortBlock.transmit_of_listed hn hup hh (Link.atTransmitPoint_of_split hused hfirst ht), Link.sendListed,
      Link.next_of_split hused]
    rfl
  · intro ht ho
    refine hsends ?_
    rw [PortBlock.transmit_of_none hn hup hh ht, if_pos ho]
  · intro ht ho
    refine hsends ?_
    rw [PortBlock.transmit_of_none hn hup hh ht, if_neg (Bool.eq_false_iff.1 ho)]

/-! ### The resend timer (R174, R175) -/

theorem exec_resendTimerExpiry_eq {s : State} {p : Port} {left : Nat} (hp : s.resetPin = false)
    (h : (s.port p).link.resendTimer = some left) :
    exec (.resendTimerExpiry p) s = .next ((s.elapse left).setPort p ((s.elapse left).port p).resendExpired) := by
  change execResendTimerExpiry p s = _
  rw [execResendTimerExpiry, s.unlessHeld_of_running _ hp, h]
  rfl

/-- An expiry within the limit goes back (R174). -/
theorem PortBlock.resendExpired_of_within {b : PortBlock} (h : b.link.retransmits + 1 ≤ b.config.retransmitLimit) :
    b.resendExpired = { b with link := { b.link with
      retransmits := b.link.retransmits + 1
      transmitPoint := b.link.used.head?.map OutFrame.seq
      resendTimer := some b.config.resendInterval } } := if_pos h

/-- An expiry above the limit on an UP port loses the link (R151, R175). -/
theorem PortBlock.resendExpired_of_above {b : PortBlock} (h : b.config.retransmitLimit < b.link.retransmits + 1)
    (hup : b.portState = .up) : b.resendExpired = ({ b with
      portState := .lost
      link := { b.link with retransmits := b.link.retransmits + 1, resendTimer := none } } : PortBlock).haltOnLoss := by
  rw [PortBlock.resendExpired, if_neg (Nat.not_le.2 h), if_pos hup]

/-- A queue without HALT waiters goes to HALTED with the flag alone (R80, R81). -/
theorem PortBlock.becomeHalted_of_no_waiter {b : PortBlock} (h : b.queue.haltWaiters = []) :
    b.becomeHalted = ({ b with queue := { b.queue with run := .halted } } : PortBlock).raise .halted := by
  rw [PortBlock.becomeHalted_eq, h, PortBlock.answerAll, List.foldl_nil, ← h]

section
variable {b : PortBlock}

/-- A queue with an ACTIVE job waits for its end (R83). -/
theorem PortBlock.haltOnLoss_of_active (hr : b.queue.run = .run) (ha : b.queue.active.isSome = true) :
    b.haltOnLoss = { b with queue := { b.queue with run := .halting } } := by
  rw [PortBlock.haltOnLoss, hr]
  exact if_pos ha

/-- A queue without an ACTIVE job halts at once (R83). -/
theorem PortBlock.haltOnLoss_of_inactive (hr : b.queue.run = .run) (ha : ∀ e ∈ b.queue.entries, e.isActive = false) :
    b.haltOnLoss = b.unwait.becomeHalted := by
  rw [PortBlock.haltOnLoss, hr]
  exact if_neg (Bool.eq_false_iff.1 (JobQueue.active_eq_false ha))

/-- A queue that does not run keeps its state (R83). -/
theorem PortBlock.haltOnLoss_of_halted (hr : b.queue.run = .halting ∨ b.queue.run = .halted) : b.haltOnLoss = b := by
  obtain hr | hr := hr <;> rw [PortBlock.haltOnLoss, hr]

end

/-- Settles O11: the time passes, the count rises, and above the limit the run state and the head decide. -/
theorem resendTimerExpires : Obligations.ResendTimerExpires := by
  refine ⟨fun s p left hp htimer hcount => ?_, fun s p left hp htimer hcount hup => ?_⟩
  · intro t b
    have hwithin : b.link.retransmits + 1 ≤ b.config.retransmitLimit := by
      rw [show b = _ from s.elapse_port left p]
      exact hcount
    rw [exec_resendTimerExpiry_eq hp htimer, PortBlock.resendExpired_of_within hwithin]
  · intro t b
    have hlost : exec (.resendTimerExpiry p) s = .next (t.setPort p b.haltOnLoss) := by
      rw [exec_resendTimerExpiry_eq hp htimer, PortBlock.resendExpired_of_above]
      · rw [State.elapse_port]; exact hcount
      · rw [State.elapse_port]; exact hup
    rw [hlost]
    refine ⟨fun ⟨hr, ha⟩ => ?_, fun ⟨hr, hq, hw⟩ => ?_, fun e rest n hr he hstate hrest hw => ?_, fun hr => ?_⟩
    · rw [PortBlock.haltOnLoss_of_active hr ha]
    · rw [PortBlock.haltOnLoss_of_inactive hr fun e he => Entry.isActive_of_isQueued (hq e he),
        b.unwait_of_not_waiting fun e he => Entry.isWaiting_of_isQueued (hq e he),
        PortBlock.becomeHalted_of_no_waiter hw]
    · have hwaiting : e.isWaiting = true := by rw [Entry.isWaiting, hstate]
      have hinactive : ∀ d ∈ b.queue.entries, d.isActive = false := by
        rw [he]
        refine List.forall_mem_cons.2 ⟨by rw [Entry.isActive, hstate], fun d hd => ?_⟩
        exact Entry.isActive_of_isQueued (List.all_eq_true.1 hrest d hd)
      rw [PortBlock.haltOnLoss_of_inactive hr hinactive, b.unwait_of_waiting e rest he hwaiting,
        PortBlock.becomeHalted_of_no_waiter (by exact hw)]
    · rw [PortBlock.haltOnLoss_of_halted hr]

end Sys2Proof.Machine

/-! SUPPORT. Refusals (R149, R182, R187): the command that takes up each kind of request, and the refusals that every kind
has in common. -/

namespace Sys2Proof.Machine

/-! ### A request that is refused -/

/-- The row that takes up the oldest request refuses it, whatever the rest of the state: the refusal stands in the request's
slot, and nothing else changes. -/
theorem State.process_of_refused {s : State} {p : Port} {payload : List Byte} {rest : List InFrame} {row : StreamRow}
    {f : List Byte → State → State} {st : Status} (ho : s.Oldest p .req payload rest)
    (hrow : (InFrame.mk .req payload).row = row) (hres : 0 < (s.port p).link.reserved)
    (hf : ∀ v, f payload v = v.refuse p payload st) :
    s.process p row f = .next (s.setPort p (((s.port p).took rest).answered payload st.code [])) := by
  rw [s.process_of_oldest p .req payload rest row f ho hrow, hf, s.refuse_took p rest payload st hres]

/-! ### No kind of the table (R182) -/

theorem ReqKind.ofCode_eq_none {n : Nat} (h : n ∉ ReqKind.all.map ReqKind.code) : ReqKind.ofCode n = none :=
  List.find?_eq_none.2 fun k hk he => h (List.mem_map.2 ⟨k, hk, beq_iff_eq.1 he⟩)

theorem ReqKind.code_of_ofCode {n : Nat} {k : ReqKind} (h : ReqKind.ofCode n = some k) : k.code = n :=
  beq_iff_eq.1 (List.find?_some (p := fun k : ReqKind => k.code == n) h)

theorem InFrame.row_of_no_kind {payload : List Byte} (h : ReqKind.ofCode (num8 payload 0) = none) :
    (InFrame.mk .req payload).row = .unknownKind := by
  simp only [InFrame.row, h]

/-- A REQ too short for a header belongs to UNKNOWN_KIND, unless it begins as a HELLO (log 11). -/
theorem InFrame.row_of_short {payload : List Byte} (hl : payload.length < 4) (h : num8 payload 0 ≠ 0x01) :
    (InFrame.mk .req payload).row = .unknownKind := by
  cases hk : ReqKind.ofCode (num8 payload 0) with
  | none => exact InFrame.row_of_no_kind hk
  | some k =>
    have hne : k ≠ .hello := fun he => h ((ReqKind.code_of_ofCode hk).symm.trans (congrArg ReqKind.code he))
    simp only [InFrame.row, hk]
    cases k with
    | hello => exact absurd rfl hne
    | _ => exact if_pos hl

section
variable {s : State} {p : Port} {payload : List Byte} {rest : List InFrame} (ho : s.Oldest p .req payload rest)
  (hres : 0 < (s.port p).link.reserved)
include ho hres

/-- A REQ too short for a header is refused with request id 0 (R182). -/
theorem exec_unknownKind_of_short (hl : payload.length < 4) (h : num8 payload 0 ≠ 0x01) :
    exec (.unknownKind p) s = .next (s.setPort p { (s.port p).took rest with
      link := ((s.port p).took rest).link.placedReserved .rep [byteAt payload 0, 0x01, 0x00, 0x00] }) := by
  change execUnknownKind p s = _
  rw [execUnknownKind, s.process_of_oldest p .req payload rest _ _ ho (InFrame.row_of_short hl h), if_pos hl, State.modPort,
    State.port_setPort_same, State.setPort_setPort, PortBlock.reply,
    Link.fill_of_reserved ((s.port p).took rest).link _ _ hres]
  rfl

theorem exec_unknownKind_of_no_kind (hl : 4 ≤ payload.length) (h : ReqKind.ofCode (num8 payload 0) = none) :
    exec (.unknownKind p) s = .next (s.setPort p (((s.port p).took rest).answered payload 0x02 [])) :=
  State.process_of_refused (st := .unknownKind) ho (InFrame.row_of_no_kind h) hres fun _ => if_neg (Nat.not_lt.2 hl)

end

/-! ### A length the kind does not allow (R182, R187) -/

/-- The command that takes up a request of this kind: for HELLO and PORT-SET the payload decides (R181, log 11). -/
def ReqKind.command (p : Port) (payload : List Byte) : ReqKind → Instr
  | .hello => if num8 payload 4 = 0x02 then .helloResume p else .helloFresh p
  | .portSet => if num8 payload 5 = 0x02 then .portSetDisable p else .portSetEnable p
  | .config => .config p
  | .resetPort => .resetPort p
  | .resetDevice => .resetDevice p
  | .openCanvas => .openCanvas p
  | .closeCanvas => .closeCanvas p
  | .query => .query p
  | .list => .list p
  | .grant => .grant p
  | .revoke => .revoke p
  | .submit => .submit p
  | .cancel => .cancel p
  | .halt => .halt p
  | .resume => .resume p
  | .status => .status p
  | .faultRead => .faultRead p
  | .faultAck => .faultAck p
  | .attnClear => .attnClear p

/-- The payload lengths a kind allows (10.5), listed. -/
def ReqKind.lengths : ReqKind → List Nat
  | .portSet | .closeCanvas | .revoke => [10]
  | .hello | .resetPort | .query | .list | .cancel | .status | .faultRead | .attnClear => [6]
  | .resetDevice | .halt | .resume => [4]
  | .grant => [8]
  | .openCanvas => [10, 14, 18]
  | .submit => List.range' 14 105
  | .faultAck => List.range' 6 12
  | .config => List.range' 5 43

theorem ReqKind.lengthOk_iff (k : ReqKind) (n : Nat) : k.lengthOk n = true ↔ n ∈ k.lengths := by
  cases k with
  | submit | faultAck | config =>
    simp only [ReqKind.lengthOk, ReqKind.lengths, Bool.and_eq_true, decide_eq_true_eq, List.mem_range'_1]
    omega
  | openCanvas => simp [ReqKind.lengthOk, ReqKind.lengths, or_assoc]
  | _ => exact beq_iff_eq.trans List.mem_singleton.symm

/-- What a refused request carries after the reply header when its length is wrong: SUBMIT its job position 0 (R187). -/
def ReqKind.lengthRefusal (k : ReqKind) : List Byte := if k = .submit then [0, 0] else []

/-- Each command but those of HELLO is a row of the request unit whose first check is that of the length (R182). -/
theorem exec_command (p : Port) (payload : List Byte) (k : ReqKind) (hk : k ≠ .hello) (hr : IsRequest payload k.code) :
    ∃ f : List Byte → State → State,
      (∀ s, exec (k.command p payload) s = s.process p (InFrame.mk .req payload).row f) ∧
      (k.lengthOk payload.length = false → ∀ v, f payload v = v.reply p payload .malformed k.lengthRefusal) := by
  by_cases hset : k = .portSet
  · subst hset
    rw [InFrame.row_portSet payload hr, ReqKind.command]
    split
    · exact ⟨_, fun _ => rfl, fun h v => by simp only [portSetCheck, h]; rfl⟩
    · exact ⟨_, fun _ => rfl, fun h v => by simp only [portSetCheck, h]; rfl⟩
  · rw [InFrame.row_request payload k hr hk hset]
    cases k with
    | hello => exact absurd rfl hk
    | portSet => exact absurd rfl hset
    | config => exact ⟨_, fun _ => rfl, fun h v => by simp only [configCheck, h]; rfl⟩
    | openCanvas => exact ⟨_, fun _ => rfl, fun h v => by simp only [parseOpen, h]; rfl⟩
    | faultAck => exact ⟨_, fun _ => rfl, fun h v => by simp only [parseFaultAck, h]; rfl⟩
    | attnClear =>
      refine ⟨_, fun _ => rfl, fun h v => ?_⟩
      rw [h]
      cases FlagSet.ofByte (byteAt payload 4) <;> rfl
    | faultRead => exact ⟨_, fun _ => rfl, fun h v => by simp only [h]; rfl⟩
    | _ => exact ⟨_, fun _ => rfl, fun h v => by rw [h]; rfl⟩

/-- A request of a length its kind does not allow is refused MALFORMED (R182). -/
theorem exec_command_of_length {s : State} {p : Port} {payload : List Byte} {rest : List InFrame} {k : ReqKind}
    (hk : k ≠ .hello) (ho : s.Oldest p .req payload rest) (hr : IsRequest payload k.code)
    (hl : payload.length ∉ k.lengths) (hres : 0 < (s.port p).link.reserved) :
    exec (k.command p payload) s =
      .next (s.setPort p (((s.port p).took rest).answered payload 0x01 k.lengthRefusal)) := by
  obtain ⟨f, hexec, hf⟩ := exec_command p payload k hk hr
  have hlength : k.lengthOk payload.length = false := Bool.eq_false_iff.2 (mt (k.lengthOk_iff _).1 hl)
  rw [hexec, s.process_of_oldest p .req payload rest _ f ho rfl, hf hlength]
  exact congrArg _ (s.reply_took p rest payload .malformed _ hres)

/-! ### The supervisor's requests (R149, R152, R156) -/

theorem Port.exists_num_eq {n : Nat} (h : n ≤ 3) : ∃ t : Port, t.num = n :=
  match n, h with
  | 0, _ => ⟨.p0, rfl⟩
  | 1, _ => ⟨.p1, rfl⟩
  | 2, _ => ⟨.p2, rfl⟩
  | 3, _ => ⟨.p3, rfl⟩

theorem WaitMode.ofCode_eq_none {code : Nat} (deadline : Nat) (h : code ∉ [1, 2]) : WaitMode.ofCode code deadline = none := by
  unfold WaitMode.ofCode
  split <;> simp_all

/-- ENABLE and DISABLE are the choices of a PORT-SET (R186). -/
theorem portSet_no_choice_iff (choice : Nat) : (!(choice == 0x01 || choice == 0x02)) = true ↔ choice ∉ [1, 2] := by simp

section
variable {payload : List Byte} (hl : payload.length = 10) {disable : Bool}
include hl

theorem portSetCheck_of_not_supervisor {p : Port} (hp : p ≠ .p0) :
    portSetCheck p payload disable = .error .notSupervisor := by
  rw [portSetCheck, hl, if_neg (by decide), if_pos (bne_iff_ne.2 hp)]

/-- A PORT-SET of P0 with a target or a choice that is not among its codes (R186). -/
theorem portSetCheck_of_no_code (h : 3 < num8 payload 4 ∨ num8 payload 5 ∉ [1, 2]) :
    portSetCheck .p0 payload disable = .error .malformed := by
  rw [portSetCheck, hl, if_neg (by decide), if_neg (by decide)]
  by_cases ht : 3 < num8 payload 4
  · rw [Port.ofNum_eq_none _ ht]
  · obtain ⟨t, hnum⟩ := Port.exists_num_eq (Nat.not_lt.1 ht)
    rw [← hnum, Port.ofNum_num]
    exact if_pos ((portSet_no_choice_iff _).2 (h.resolve_left ht))

/-- A PORT-SET of P0 with a quota out of its range, or that asks P0's own DISABLE (R152). -/
theorem portSetCheck_of_bounds (ht : num8 payload 4 ≤ 3) (hchoice : num8 payload 5 ∈ [1, 2])
    (h : 4096 < num16 payload 6 ∨ 255 < num16 payload 8 ∨ num8 payload 4 = 0 ∧ disable = true) :
    portSetCheck .p0 payload disable = .error .bounds := by
  obtain ⟨t, hnum⟩ := Port.exists_num_eq ht
  have htarget (h0 : num8 payload 4 = 0) : t = .p0 :=
    Option.some.inj ((Port.ofNum_num t).symm.trans (congrArg Port.ofNum (hnum.trans h0)))
  rw [portSetCheck, hl, if_neg (by decide), if_neg (by decide), ← hnum, Port.ofNum_num]
  dsimp only
  rw [if_neg (mt (portSet_no_choice_iff _).1 (not_not_intro hchoice))]
  refine if_pos ?_
  obtain h | h | ⟨h0, hd⟩ := h
  · simp [portSetQuotas, h]
  · simp [portSetQuotas, h]
  · simp [htarget h0, hd]

end

section
variable {s : State} {p : Port} {payload : List Byte} {rest : List InFrame} (ho : s.Oldest p .req payload rest)
  (hres : 0 < (s.port p).link.reserved)
include ho hres

/-- A PORT-SET that fails its checks is refused with the status of the first that fails. -/
theorem exec_portSet_of_error (hr : IsRequest payload 0x02) {st : Status}
    (hc : portSetCheck p payload (decide (num8 payload 5 = 0x02)) = .error st) :
    exec (ReqKind.portSet.command p payload) s =
      .next (s.setPort p (((s.port p).took rest).answered payload st.code [])) := by
  have hrow := InFrame.row_portSet payload hr
  rw [ReqKind.command]
  by_cases h : num8 payload 5 = 0x02
  · rw [decide_eq_true h] at hc
    rw [if_pos h] at hrow ⊢
    exact State.process_of_refused ho hrow hres fun v => by rw [hc]
  · rw [decide_eq_false h] at hc
    rw [if_neg h] at hrow ⊢
    exact State.process_of_refused ho hrow hres fun v => by rw [hc]

theorem exec_resetPort_not_supervisor (hr : IsRequest payload 0x04) (hl : payload.length = 6) (hp : p ≠ .p0) :
    exec (.resetPort p) s = .next (s.setPort p (((s.port p).took rest).answered payload 0x03 [])) :=
  State.process_of_refused (st := .notSupervisor) ho (InFrame.row_request payload .resetPort hr nofun nofun) hres fun v => by
    rw [hl, if_neg (by decide), if_pos (bne_iff_ne.2 hp)]

theorem exec_resetDevice_not_supervisor (hr : IsRequest payload 0x05) (hl : payload.length = 4) (hp : p ≠ .p0) :
    exec (.resetDevice p) s = .next (s.setPort p (((s.port p).took rest).answered payload 0x03 [])) :=
  State.process_of_refused (st := .notSupervisor) ho (InFrame.row_request payload .resetDevice hr nofun nofun) hres
    fun v => by rw [hl, if_neg (by decide), if_pos (bne_iff_ne.2 hp)]

/-- A RESET-PORT of P0 for no port, or for P0 itself (R156). -/
theorem exec_resetPort_of_target {st : Status} (hp : p = .p0) (hr : IsRequest payload 0x04) (hl : payload.length = 6)
    (h : 3 < num8 payload 4 ∧ st = .malformed ∨ num8 payload 4 = 0 ∧ st = .bounds) :
    exec (.resetPort p) s = .next (s.setPort p (((s.port p).took rest).answered payload st.code [])) := by
  subst hp
  refine State.process_of_refused ho (InFrame.row_request payload .resetPort hr nofun nofun) hres fun v => ?_
  rw [hl, if_neg (by decide), if_neg (by decide)]
  obtain ⟨ht, rfl⟩ | ⟨ht, rfl⟩ := h
  · rw [Port.ofNum_eq_none _ ht]
  · rw [ht]; rfl

/-! ### Fields that are not among their codes (R186, log 14) -/

theorem exec_list_of_no_option (hr : IsRequest payload 0x13) (h : 1 < num8 payload 4) :
    exec (.list p) s = .next (s.setPort p (((s.port p).took rest).answered payload 0x01 [])) :=
  State.process_of_refused (st := .malformed) ho (InFrame.row_request payload .list hr nofun nofun) hres fun v =>
    if_pos (by rw [decide_eq_true h, Bool.or_true])

theorem exec_revoke_of_no_code (hr : IsRequest payload 0x15) (hl : payload.length = 10)
    (h : 3 < num8 payload 6 ∨ num8 payload 7 ∉ [1, 2]) :
    exec (.revoke p) s = .next (s.setPort p (((s.port p).took rest).answered payload 0x01 [])) := by
  refine State.process_of_refused (st := .malformed) ho (InFrame.row_request payload .revoke hr nofun nofun) hres fun v => ?_
  rw [hl, if_neg (by decide)]
  obtain h | h := h
  · rw [Port.ofNum_eq_none _ h]
  · rw [WaitMode.ofCode_eq_none _ h]
    cases Port.ofNum (num8 payload 6) <;> rfl

theorem exec_closeCanvas_of_no_mode (hr : IsRequest payload 0x11) (hl : payload.length = 10)
    (h : num8 payload 6 ∉ [1, 2]) :
    exec (.closeCanvas p) s = .next (s.setPort p (((s.port p).took rest).answered payload 0x01 [])) :=
  State.process_of_refused (st := .malformed) ho (InFrame.row_request payload .closeCanvas hr nofun nofun) hres fun v => by
    rw [hl, if_neg (by decide), WaitMode.ofCode_eq_none _ h]

end

/-- Settles O20: the frames without a kind, then the checks every kind has in common, then the fields of each kind. -/
theorem requestsAreRefused : Obligations.RequestsAreRefused := by
  refine ⟨fun s p payload rest ho hres => ⟨?_, ?_⟩, ?_, ?_, ?_⟩
  · exact exec_unknownKind_of_short ho hres
  · exact fun hl h => exec_unknownKind_of_no_kind ho hres hl (ReqKind.ofCode_eq_none h)
  · intro s p payload rest c code lengths hmem ho hr hl hres
    have hkind : (c, code, lengths) ∈ [ReqKind.portSet, .resetPort, .resetDevice, .openCanvas, .closeCanvas, .query, .list,
        .grant, .revoke, .submit, .cancel, .halt, .resume, .status, .faultRead, .faultAck, .attnClear, .config].map
          fun k => (k.command p payload, k.code, k.lengths) := hmem
    obtain ⟨k, hk, ⟨⟩⟩ := List.mem_map.1 hkind
    have hhello : k ≠ .hello := fun he => by subst he; revert hk; decide
    have hsubmit : k = .submit ↔ k.code = 0x20 := by cases k <;> decide
    rw [exec_command_of_length hhello ho hr hl hres, ReqKind.lengthRefusal]
    simp only [hsubmit]
  · rintro s p payload rest c hp ho hres (⟨rfl, hr, hl, hc⟩ | ⟨rfl, hr, hl, hc⟩ | ⟨rfl, hr, hl⟩ | ⟨rfl, hr, hl⟩)
    · have h := exec_portSet_of_error ho hres hr (portSetCheck_of_not_supervisor hl hp)
      rwa [ReqKind.command, if_neg hc] at h
    · have h := exec_portSet_of_error ho hres hr (portSetCheck_of_not_supervisor hl hp)
      rwa [ReqKind.command, if_pos hc] at h
    · exact exec_resetPort_not_supervisor ho hres hr hl hp
    · exact exec_resetDevice_not_supervisor ho hres hr hl hp
  · rintro s p payload rest c code status ho hr hres choice (⟨rfl, rfl, hl, rfl, h⟩ | ⟨rfl, rfl, hl, rfl, h⟩ |
      ⟨rfl, hl, rfl, h, rfl⟩ | ⟨rfl, hl, rfl, h, rfl⟩ | ⟨rfl, hl, rfl, h, rfl⟩)
    · obtain ⟨h, rfl⟩ | ⟨ht, hchoice, rfl, h⟩ := h
      · exact exec_portSet_of_error ho hres hr (portSetCheck_of_no_code hl h)
      · exact exec_portSet_of_error ho hres hr (portSetCheck_of_bounds hl ht hchoice (by simpa using h))
    · obtain ⟨ht, rfl⟩ | ⟨ht, rfl⟩ := h
      · exact exec_resetPort_of_target ho hres rfl hr hl (.inl ⟨ht, rfl⟩)
      · exact exec_resetPort_of_target ho hres rfl hr hl (.inr ⟨ht, rfl⟩)
    · exact exec_list_of_no_option ho hres hr h
    · exact exec_revoke_of_no_code ho hres hr hl h
    · exact exec_closeCanvas_of_no_mode ho hres hr hl h

end Sys2Proof.Machine

/-! SUPPORT. The answer to a deferred request (R184), and one port's pins on one canvas (R9, R70, R77). -/

namespace Sys2Proof.Machine

/-! ### Answers (R184) -/

theorem PortBlock.answer_of_none {b : PortBlock} {id : ReqId} (h : ∀ d ∈ b.deferred, d.id ≠ id) (contents : List Byte) :
    b.answer id contents = b := by
  have hfind : b.deferred.find? (fun d => d.id == id) = none := List.find?_eq_none.2 fun d hd => by simpa using h d hd
  rw [PortBlock.answer, hfind]

/-- The oldest entry with the id is found, and leaves the list. -/
theorem PortBlock.answer_of_split {b : PortBlock} {id : ReqId} {before after : List Deferred} {d : Deferred}
    (hres : 0 < b.link.reserved) (hs : b.deferred = before ++ d :: after) (hb : ∀ x ∈ before, x.id ≠ id) (hd : d.id = id)
    (contents : List Byte) : b.answer id contents = { b with
      deferred := before ++ after
      link := b.link.placedReserved .rep (replyPayload d.kind .ok id contents) } := by
  have hnone : before.find? (fun x => x.id == id) = none := List.find?_eq_none.2 fun x hx => by simpa using hb x hx
  have hfind : b.deferred.find? (fun x => x.id == id) = some d := by
    rw [hs, List.find?_append, hnone, Option.none_or, List.find?_cons_of_pos (by simpa using hd)]
  have herase : b.deferred.erase d = before ++ after := by
    rw [hs, List.erase_append_right _ fun hmem => hb d hmem hd, List.erase_cons_head]
  rw [b.answer_of_deferred id contents d hfind hres, herase]

/-! ### Pins (R9, R70) -/

theorem State.modCanvas_of_canvas {s : State} {n : Nat} {c : Canvas} (h : s.canvas n = some c) (f : Canvas → Canvas) :
    s.modCanvas n f = s.setCanvas n (f c) := by
  rw [State.modCanvas, h]

theorem Canvas.modPins_of_owner {c : Canvas} {p : Port} (h : c.owner = p) (f : Nat → Nat) :
    c.modPins p f = { c with ownerPins := f c.ownerPins } := if_pos h

theorem Canvas.modPins_of_split {c : Canvas} {p : Port} {before after : List Grant} {g : Grant} (ho : c.owner ≠ p)
    (hs : c.grants = before ++ g :: after) (hg : g.port = p) (h : ∀ x ∈ before ++ after, x.port ≠ p) (f : Nat → Nat) :
    c.modPins p f = { c with grants := before ++ { g with pins := f g.pins } :: after } :=
  (if_neg ho).trans (c.modGrant_of_split p _ before after g hs hg h)

/-- An unpin on a canvas that is not CLOSING lowers the count alone when it takes no last pin of a REVOKING grant (R45). -/
theorem State.unpin_of_not_closing {s : State} {p : Port} {h : Handle} {c d : Canvas}
    (hc : s.canvas (handleSlot h) = some c) (hk : c.phase.isClosing = false) (hd : c.modPins p (· - 1) = d)
    (hg : ∀ g, d.grantTo p = some g → g.revoke = none ∨ 0 < g.pins) :
    s.unpin p h = s.setCanvas (handleSlot h) d := by
  subst hd
  refine s.unpin_of_not_due p h c hc (s.canvas_bounds _ c hc).1 ?_ (Bool.eq_false_iff.2 fun hr => ?_)
  · obtain ⟨_, hphase⟩ := c.modPins_record p (· - 1)
    rw [Canvas.closeDue_eq_none, hphase, hk]
    nofun
  · obtain ⟨g, r, hgrant, hrevoke, hpins⟩ := (Canvas.revokeDue_iff _ p).1 hr
    obtain hnone | hpos := hg g hgrant
    · rw [hrevoke] at hnone
      cases hnone
    · omega

/-! ### Pins dropped in one step (R77) -/

theorem State.settleAll_dropPins_one (s : State) (p : Port) (h : Handle) :
    (s.dropPins p [h]).settleAll p [h] = s.unpin p h := rfl

/-- The end of one canvas does not see the pins of another, so it may wait for them. -/
theorem State.settleAll_dropPins_two (s : State) (p : Port) {h k : Handle} (hne : handleSlot h ≠ handleSlot k) :
    (s.dropPins p [h, k]).settleAll p [h, k] = (s.unpin p h).unpin p k := by
  have hk : h ∉ [k] := fun hmem => hne (congrArg handleSlot (List.mem_singleton.1 hmem))
  rw [State.settleAll, if_neg hk, State.unpin, State.unpin, ← State.settle_modCanvas _ hne]
  rfl

/-- Settles O34: the entry is where the list splits, the pins are those of the owner or of the one grant, and the ends on two
slots do not meet. -/
theorem deferredRepliesAndPins : Obligations.DeferredRepliesAndPins := by
  refine ⟨fun b id contents => ⟨fun h => PortBlock.answer_of_none h contents, ?_⟩, fun s p h c hc => ⟨?_, ?_⟩,
    fun s p h => ⟨s.settleAll_dropPins_one p h, fun k => s.settleAll_dropPins_two p⟩⟩
  · intro before d after hres hs hb hd
    exact PortBlock.answer_of_split hres hs hb hd contents
  · intro ho
    refine ⟨?_, fun hk hnone => ?_⟩
    · rw [State.pin, State.modCanvas_of_canvas hc, Canvas.modPins_of_owner ho]
    · refine State.unpin_of_not_closing hc hk (Canvas.modPins_of_owner ho _) fun g hg => ?_
      obtain ⟨hmem, hport⟩ := Canvas.grantTo_some _ p g hg
      exact absurd hport (hnone g hmem)
  · intro before g after ho hs hg hothers
    refine ⟨?_, fun hk hlast => ?_⟩
    · rw [State.pin, State.modCanvas_of_canvas hc, Canvas.modPins_of_split ho hs hg hothers]
    · refine State.unpin_of_not_closing hc hk (Canvas.modPins_of_split ho hs hg hothers _) fun x hx => ?_
      rw [Canvas.grantTo_of_split _ p before after { g with pins := g.pins - 1 } rfl hg hothers, Option.some.injEq] at hx
      subst hx
      exact hlast.imp_right Nat.sub_pos_of_lt

/-- Settles O1: the step's own case of a waiting command. -/
theorem stepRunsTheFrontCommand : Obligations.StepRunsTheFrontCommand := by
  intro s c rest h
  rw [step, h]

end Sys2Proof.Machine
